-- ==== Sys2Proof/Word.lean ====
section
/-! DEFINITION. The plain data types the whole model shares: bytes, timebase values, and the numbered things of the
installation (00_scope.md section 5). -/

namespace Sys2Proof

/-- A byte on a link or in a commissioning record. -/
abbrev Byte := BitVec 8

/-- A value of the millisecond timebase; sums are modulo 2^32 (R135). -/
abbrev Time := BitVec 32

/-- A hall. The manual numbers halls 1 to 8; hall `n` of the manual is `n - 1` here, and the links carry `n`. -/
abbrev Hall := Fin 8

/-- A cylinder index, 0 to 63 (section 5.2). -/
abbrev CylIdx := Fin 64

/-- A rack number: A is 0, B is 1, C is 2, D is 3 (section 5.2). -/
abbrev Rack := Fin 4

/-- A release channel, 0 to 79 (section 5.2). -/
abbrev ChanIdx := Fin 80

/-- A point of a flooding table, 0 to 15 (section 5.2). -/
abbrev Point := Fin 16

/-- The request payload or reply content of a frame, in the order sent (R192). -/
abbrev Payload := List Byte

/-- A level of a contact input (R143). -/
inductive Level
  | made
  | broken
  deriving DecidableEq, Repr

/-- What a supervised contact loop is measured as, once a millisecond (R160). -/
inductive Measurement
  | made
  | broken
  | loopFault
  deriving DecidableEq, Repr

/-- The filtered loop state of a supervised contact (R160). -/
inductive LoopState
  | normal
  | fault
  deriving DecidableEq, Repr

/-- What a release channel is measured to be (R153). -/
inductive LineState
  | unknown
  | normal
  | opened
  | shorted
  deriving DecidableEq, Repr

/-- A position or a command of a valve: OPEN or CLOSED (R145, R150). -/
inductive Valve
  | closed
  | opened
  deriving DecidableEq, Repr

/-- All halls, in number order. -/
def allHalls : List Hall := [0, 1, 2, 3, 4, 5, 6, 7]

/-- All racks, in letter order. -/
def allRacks : List Rack := [0, 1, 2, 3]

/-- All release channels, in number order. -/
def allChannels : List ChanIdx := List.finRange 80

/-- All cylinder indices, in order. -/
def allCylinders : List CylIdx := List.finRange 64

/-- All points of a flooding table, in order. -/
def allPoints : List Point := List.finRange 16

/-- The vector whose entry at `i` is `f i`, built over lists so that the kernel evaluates it. -/
def tabulate {α : Type} (n : Nat) (f : Fin n → α) : Vector α n :=
  ⟨⟨(List.finRange n).map f⟩, by simp⟩

end Sys2Proof
end

