-- ==== Sys2Proof/Syntax.lean ====
section
/-! DEFINITION. The commands of the part: one constructor of `Instr` for each row of spec/opcode_table.json, with the row's
operands. Each is one event, taken whole (spec/95_what_each_step_holds.md). -/

namespace Sys2Proof

/-- The current of a 4-20 mA loop in its slot, in microamperes (R158; the unit is assumption entry 12). -/
abbrev LoopCurrent := Nat

/-- What a supervision check measures on a channel's line (R153): the resistance seen by the quiescent test current, in per
mille of the end-of-line value; the drive current in mA; and whether the 0.5 A limit holds that current
(the units are assumption entry 13). -/
structure LineMeasurement where
  resistance : Nat
  drive : Nat
  limited : Bool
  deriving DecidableEq, Repr

/-- One measurement of a fire pulse's current, in mA, and whether the 1.5 A limit holds it (R151). -/
structure PulseMeasurement where
  current : Nat
  limited : Bool
  deriving DecidableEq, Repr

/-- A contact input and what it is read as in a millisecond (R143, R160, R161). The key is unsupervised: it has a level
and no loop fault. -/
inductive ContactReading
  | selector (h : Hall) (m : Measurement)
  | manifoldSwitch (m : Measurement)
  | key (l : Level)
  deriving DecidableEq, Repr

/-- One of the nine supervised contacts (R160). -/
inductive SupervisedContact
  | selector (h : Hall)
  | manifoldSwitch
  deriving DecidableEq, Repr

/-- One of the nine link ports (R164, R177). -/
inductive Port
  | hall (h : Hall)
  | site
  deriving DecidableEq, Repr

/-- Why a frame is abandoned or discarded (R164). -/
inductive AbandonCause
  | byteGap
  | framingError
  | badLength
  | badCrc
  | replyKind
  deriving DecidableEq, Repr

/-- The commands: every row of spec/opcode_table.json, in the table's order. -/
inductive Instr
  /-- DEVICE_RESET (R179). -/
  | deviceReset
  /-- INPUT_ESTABLISHMENT (R144). -/
  | inputEstablishment
  /-- PRESSURE_SAMPLE (R3): the loop of cylinder position `k` is read. -/
  | pressureSample (k : CylIdx) (i : LoopCurrent)
  /-- RACK_TEMPERATURE_SAMPLE (R9). -/
  | rackTemperatureSample (r : Rack) (i : LoopCurrent)
  /-- MANIFOLD_PRESSURE_SAMPLE (R106). -/
  | manifoldPressureSample (i : LoopCurrent)
  /-- SUPERVISION_CHECK (R153). -/
  | supervisionCheck (c : ChanIdx) (m : LineMeasurement)
  /-- PULSE_COMPLETION (R118, R151): the pulse of channel `c` ends, with the measurements made through it in order. -/
  | pulseCompletion (c : ChanIdx) (ms : List PulseMeasurement)
  /-- SELECTOR_EDGE (R146). -/
  | selectorEdge (h : Hall)
  /-- MANIFOLD_SWITCH_EDGE (R146). -/
  | manifoldSwitchEdge
  /-- KEY_ON (R181). -/
  | keyOn
  /-- KEY_OFF (R183). -/
  | keyOff
  /-- SELECTOR_CAPTURE (R115). -/
  | selectorCapture (h : Hall)
  /-- MANIFOLD_SWITCH_CAPTURE (R125). -/
  | manifoldSwitchCapture
  /-- COUNTDOWN_EXPIRY (R55). -/
  | countdownExpiry (h : Hall)
  /-- HOLD_LIMIT_EXPIRY (R64). -/
  | holdLimitExpiry (h : Hall)
  /-- SELECTOR_OPEN_TIMEOUT (R102). -/
  | selectorOpenTimeout (h : Hall)
  /-- NEXT_LINE_EXPIRY (R117). -/
  | nextLineExpiry (h : Hall)
  /-- DEFERRAL_EXPIRY (R120). -/
  | deferralExpiry (h : Hall)
  /-- CONFIRM_TIMEOUT (R126). -/
  | confirmTimeout (h : Hall)
  /-- CLOSE_TIMEOUT (R105). -/
  | closeTimeout
  /-- VENT_TIMEOUT (R106). -/
  | ventTimeout
  /-- SUPERVISION_EXPIRY (R170). -/
  | supervisionExpiry (h : Hall)
  /-- TEMPERATURE_EXPIRY (R30). -/
  | temperatureExpiry (h : Hall)
  /-- STARTUP_EXPIRY (R179). -/
  | startupExpiry
  /-- POLL (R168): the arrival of a POLL frame with this payload on hall `h`'s port. -/
  | poll (h : Hall) (payload : Payload)
  /-- RELEASE (R49). -/
  | release (h : Hall) (payload : Payload)
  /-- ABORT (R66). -/
  | abort (h : Hall) (payload : Payload)
  /-- LATCH_CLEAR (R173). -/
  | latchClear (h : Hall) (payload : Payload)
  /-- QUERY (R43). -/
  | query (h : Hall) (payload : Payload)
  /-- HALL_UNKNOWN_KIND (R166): `kind` is no hall kind. -/
  | hallUnknownKind (h : Hall) (kind : BitVec 7) (payload : Payload)
  /-- FRAME_ABANDONED (R164). -/
  | frameAbandoned (p : Port) (cause : AbandonCause)
  /-- REPLY_TRANSMITTED (R165). -/
  | replyTransmitted (p : Port)
  /-- SITE_POLL (R111). -/
  | sitePoll (payload : Payload)
  /-- CYLINDER_QUERY (R26). -/
  | cylinderQuery (payload : Payload)
  /-- CLAIM_QUERY (R47). -/
  | claimQuery (payload : Payload)
  /-- COMMISSION_READ (R187). -/
  | commissionRead (payload : Payload)
  /-- COMMISSION_WRITE (R184). -/
  | commissionWrite (payload : Payload)
  /-- MAINT_ISOLATE (R186). -/
  | maintIsolate (payload : Payload)
  /-- MAINT_RESTORE (R186). -/
  | maintRestore (payload : Payload)
  /-- SITE_UNKNOWN_KIND (R178): `kind` is no site kind. -/
  | siteUnknownKind (kind : BitVec 7) (payload : Payload)
  /-- COMMISSION_WRITE_COMPLETION (R185). -/
  | commissionWriteCompletion
  /-- MAINT_ISOLATE_COMPLETION (R23, R186). -/
  | maintIsolateCompletion
  /-- MAINT_RESTORE_COMPLETION (R23, R186). -/
  | maintRestoreCompletion
  /-- CRC_STORE_COMPLETION (R189). -/
  | crcStoreCompletion
  /-- STARVED_RE_EVALUATION (R86). -/
  | starvedReEvaluation
  /-- BYTE_RECEIVED (R164). -/
  | byteReceived (p : Port) (b : Byte)
  /-- RAW_LEVEL_CHANGE (R143). -/
  | rawLevelChange (reading : ContactReading)
  /-- LOOP_STATE_CHANGE (R160). -/
  | loopStateChange (c : SupervisedContact)
  deriving DecidableEq, Repr

end Sys2Proof
end

