-- ==== Sys2Proof/Decode.lean ====
section
/-! DEFINITION. Commands spelled as words of the opcode table. -/

namespace Sys2Proof

/-- The command that the word `w` of `nbits` bits spells by the bits of spec/opcode_table.json. No row of the table gives
bits ("fields" is empty and there is no "fixed" on each of the 48 rows), so no word spells a command. How a frame's bytes
become a command is `commandOn` in Machine/Raised.lean. -/
def decodeTableWord (_nbits _w : Nat) : Option Instr := none

end Sys2Proof
end

