-- ==== Sys2Proof/Config.lean ====
section
/-! DEFINITION. What the part fixes (constants the manual states and does not commission), and the free values the manual
leaves open. -/

namespace Sys2Proof.Config

/-- The start marker of every frame (R192). -/
def startMarker : Byte := 0xA5

/-- The longest payload of a frame, in bytes (R164). -/
def maxPayload : Nat := 48

/-- The longest gap between two bytes of a frame, in ms (R164). -/
def byteGap : Nat := 5

/-- The filter time of a contact input, in ms (R143). -/
def filterTime : Time := 50

/-- When the inputs are established after a device reset, in ms (R144). -/
def establishAt : Time := 50

/-- The start-up unit's deadline, in ms (R142, R179). -/
def startupDeadline : Time := 1500

/-- How far ahead a temperature report sets its freshness deadline, in ms (R30). -/
def freshnessTime : Time := 120001

/-- The hysteresis band of a cylinder's condition, in per mille (section 1.5). -/
def hysteresis : Nat := 10

/-- The rack temperature used while a rack has no reading, in 0.1 degrees (R9). -/
def defaultRackTemperature : Int := 150

/-- The most cylinders a claim holds and has fired together (R77). -/
def claimLimit : Nat := 32

/-- The most lines a schedule holds (R92). -/
def maxLines : Nat := 255

/-- The most cylinders in a firing line (R88). -/
def lineSize : Nat := 4

/-- The most cylinders of one rack in a firing line (R88). -/
def linePerRack : Nat := 2

/-- FREE VALUE: the implementation's own timing of a reply, an uninterpreted number for each reply formed
(R165 gives only the bounds; assumption entry 8). -/
opaque replyTiming : Nat → Nat

/-- The delay from the forming of the `n`-th reply to the beginning of its transmission: a free value within the
bounds of R165, no sooner than 1 ms and no later than 5 ms. -/
def replyDelay (n : Nat) : Time := BitVec.ofNat 32 (1 + replyTiming n % 5)

end Sys2Proof.Config
end

