-- ==== Sys2Proof/Machine/State.lean ====
section
/-! DEFINITION. The state of the DR864 as plain data: every record, unit, flag and image field the manual names, each in one
home, and the state right after a device reset. -/

namespace Sys2Proof.Machine

/-! ### Timebase (chapter 7) -/

/-- What a deadline is for (R140 to R142). -/
inductive DeadlineKind
  | countdown
  | holdLimit
  | selectorOpen
  | nextLine
  | deferral
  | confirm
  | close
  | vent
  | supervision
  | freshness
  | startup
  deriving DecidableEq, Repr

/-- A compare unit (R138). -/
inductive CompareUnit
  | inhibited
  | watching (deadline : Time) (kind : DeadlineKind)
  | expired (deadline : Time) (kind : DeadlineKind)
  deriving DecidableEq, Repr

/-- A capture unit (R147). -/
inductive CaptureUnit
  | disarmed
  | armed
  | held (edgeTime : Time)
  deriving DecidableEq, Repr

/-- The input filter of one two-valued input: the raw value as last read, the filtered value (absent while NOT
ESTABLISHED), and the time at which the present run of differing readings began (R143, R144). -/
structure InputFilter (α : Type) where
  raw : α
  level : Option α
  run : Option Time
  deriving DecidableEq, Repr

/-- A supervised contact: its measurement, the filter of the level presented, and its loop state's filter (R160). -/
structure Contact where
  measured : Measurement
  level : InputFilter Level
  loop : InputFilter LoopState
  deriving DecidableEq, Repr

/-- The ten contact inputs (R143). -/
structure Inputs where
  selectors : Vector Contact 8
  switch : Contact
  key : InputFilter Level
  deriving DecidableEq, Repr

/-- The nine capture units (R147). -/
structure Captures where
  selectors : Vector CaptureUnit 8
  switch : CaptureUnit
  deriving DecidableEq, Repr

/-! ### Commissioning Store (sections 10.3 and 12.4) -/

/-- A hall's reserve policy (R50). -/
inductive ReservePolicy
  | never
  | onRequest
  | always
  deriving DecidableEq, Repr

/-- The role of a rack (R1). -/
inductive RackRole
  | main
  | reserve
  deriving DecidableEq, Repr

/-- The role of a release channel (R149). -/
inductive Role
  | unused
  | vent
  | selector (h : Hall)
  | cylinder (k : CylIdx)
  deriving DecidableEq, Repr

/-- A HALL record (section 10.3). -/
structure HallRecord where
  commissioned : Bool
  volume : Nat
  margin : Nat
  minFraction : Nat
  reservePolicy : ReservePolicy
  fallback : Int
  autoDelay : Nat
  manualDelay : Nat
  supervisionTimeout : Nat
  openLevel : Level
  deriving DecidableEq, Repr

/-- A CYLINDER record of the image, with its in service field (section 10.3). -/
structure CylinderRecord where
  fitted : Bool
  qNom : Nat
  pNom : Nat
  inService : Bool
  deriving DecidableEq, Repr

/-- The TIMING record (section 10.3). -/
structure Timing where
  resumeMinimum : Nat
  holdLimit : Nat
  selectorOpenTimeout : Nat
  selectorCloseTimeout : Nat
  lineInterval : Nat
  firePulse : Nat
  confirmTimeout : Nat
  ventThreshold : Nat
  ventTimeout : Nat
  deriving DecidableEq, Repr

/-- The THRESHOLDS record: the low threshold L, the empty threshold M, and the switch's FLOW level (section 10.3). -/
structure Thresholds where
  low : Nat
  empty : Nat
  flowLevel : Level
  deriving DecidableEq, Repr

/-- The commissioning image without its stored CRC (R195 lists the records). -/
structure Image where
  halls : Vector HallRecord 8
  racks : Vector RackRole 4
  cylinders : Vector CylinderRecord 64
  designTable : Vector Nat 16
  ceilingTable : Vector Nat 16
  timing : Timing
  thresholds : Thresholds
  roles : Vector Role 80
  deriving DecidableEq, Repr

/-- One record with the values a COMMISSION_WRITE gives it (R184). -/
inductive RecordWrite
  | hall (h : Hall) (r : HallRecord)
  | rack (r : Rack) (role : RackRole)
  | cylinder (k : CylIdx) (fitted : Bool) (qNom pNom : Nat)
  | designPoint (i : Point) (factor : Nat)
  | ceilingPoint (i : Point) (factor : Nat)
  | timing (t : Timing)
  | thresholds (t : Thresholds)
  | channel (c : ChanIdx) (role : Role)
  deriving DecidableEq, Repr

/-- The write in progress (R184, R186). -/
inductive WriteInProgress
  | commission (w : RecordWrite)
  | isolate (k : CylIdx)
  | restore (k : CylIdx)
  deriving DecidableEq, Repr

/-- The Commissioning Store: the image, its stored CRC, the write in progress, and the CRC being programmed (R189). -/
structure Store where
  image : Image
  crc : BitVec 16
  write : Option WriteInProgress
  crcStore : Option (BitVec 16)
  deriving DecidableEq, Repr

/-! ### Mode Control (section 10.2) -/

/-- The device mode (R179). -/
inductive Mode
  | startup
  | normal
  | uncommissioned
  | maintPending
  | maintenance
  deriving DecidableEq, Repr

/-- The key level of Mode Control (section 10.2). -/
inductive KeyLevel
  | notEstablished
  | off
  | on
  deriving DecidableEq, Repr

/-- A member of the set of outstanding first samples (R179). -/
inductive SampleSource
  | cylinder (k : CylIdx)
  | rack (r : Rack)
  deriving DecidableEq, Repr

/-- Mode Control's state, with the start-up compare unit it owns (R142, R179). -/
structure ModeControl where
  mode : Mode
  key : KeyLevel
  imageValid : Bool
  exitPending : Bool
  outstanding : List SampleSource
  startupUnit : CompareUnit
  deriving DecidableEq, Repr

/-! ### Cylinder Table (chapter 1) -/

/-- The condition of a cylinder (section 1.5). -/
inductive Condition
  | full
  | low
  | empty
  | unread
  deriving DecidableEq, Repr

/-- The cause of an actuator fault (R20, R21). -/
inductive FaultCause
  | supervision
  | pulse
  deriving DecidableEq, Repr

/-- The disposition of a cylinder, with the owner present only while ASSIGNED and the cause only while ACTUATOR_FAULT
(R15). -/
inductive Disposition
  | free
  | assigned (owner : Hall)
  | fired
  | isolated
  | actuatorFault (cause : FaultCause)
  deriving DecidableEq, Repr

/-- The four window entries of a cylinder (section 1.1). -/
structure Window where
  w0 : Nat
  w1 : Nat
  w2 : Nat
  w3 : Nat
  deriving DecidableEq, Repr

/-- The fields that a FITTED cylinder record has beside its commissioned ones (section 1.1). -/
structure Cylinder where
  window : Option Window
  pos : Fin 4
  seeded : Bool
  streak : Nat
  pAvg : Nat
  phi : Nat
  e : Nat
  condition : Condition
  disposition : Disposition
  deriving DecidableEq, Repr

/-! ### Claim Table (chapter 3) -/

/-- The basis of a claim (R49). -/
inductive Basis
  | auto
  | manual
  deriving DecidableEq, Repr

/-- The state of a claim (section 3.2). -/
inductive ClaimState
  | countdown
  | hold
  | starved
  | waiting
  | selecting
  | firing
  | confirming
  | discharged
  | aborted
  | failed
  deriving DecidableEq, Repr

/-- What set a claim's countdown (section 3.1). -/
inductive DelaySource
  | autoDelay
  | manualDelay
  | resumeMin
  | remaining
  deriving DecidableEq, Repr

/-- Where the temperature used came from (R31). -/
inductive TempSource
  | reported
  | fallback
  deriving DecidableEq, Repr

/-- How a claim ended (section 3.1). -/
inductive EndReason
  | confirmed
  | unconfirmed
  | abortedByPanel
  | abortedLockout
  | failedSelectorOpen
  | failedSelectorFault
  deriving DecidableEq, Repr

/-- The figures the Quantity Unit computes (R38, R43). -/
structure Figures where
  temperature : Int
  source : TempSource
  clamped : Bool
  fd : Nat
  fc : Nat
  req : Nat
  cap : Nat
  deriving DecidableEq, Repr

/-- An entry of an allocation: a cylinder index with its E (R85). -/
structure Entry where
  cyl : CylIdx
  e : Nat
  deriving DecidableEq, Repr

/-- The six flags of a claim (section 3.1). -/
structure Flags where
  short : Bool
  overCeiling : Bool
  reserveUsed : Bool
  unreadIncluded : Bool
  starved : Bool
  part : Bool
  deriving DecidableEq, Repr

/-- The status of a firing line (section 6.1). -/
inductive LineStatus
  | pending
  | deferred
  | pulsing
  | done
  | abandoned
  deriving DecidableEq, Repr

/-- A firing line with the record of its own firing (section 6.1). -/
structure Line where
  cyls : List CylIdx
  status : LineStatus
  time : Option Time
  pulsed : List CylIdx
  deferredAt : Option Time
  deriving DecidableEq, Repr

/-- A schedule with its line cursor and the pulses outstanding of the line in hand (R114). -/
structure Schedule where
  lines : List Line
  cursor : Nat
  outstanding : Nat
  deriving DecidableEq, Repr

/-- A claim record (section 3.1). Its hall is its place in the Claim Table, and its deadlines stand in its hall's compare
unit (assumption entry 15). -/
structure Claim where
  basis : Basis
  reservePermitted : Bool
  admittedAt : Time
  state : ClaimState
  remaining : Option Nat
  holdStartedAt : Option Time
  delaySource : DelaySource
  readyAt : Option Time
  figures : Figures
  allocation : List Entry
  allocatedSum : Nat
  shortage : Nat
  flags : Flags
  schedule : Option Schedule
  fired : List CylIdx
  selectorOpenAt : Option Time
  dischargeSeenAt : Option Time
  endReason : Option EndReason
  endedAt : Option Time
  deriving DecidableEq, Repr

/-! ### Manifold Arbiter (chapter 5) -/

/-- The state of the manifold (section 5.1). -/
inductive ManifoldState
  | idle
  | opening
  | discharging
  | closing
  | venting
  deriving DecidableEq, Repr

/-- The last vent result (section 5.1). -/
inductive VentResult
  | none
  | ok
  | timeout
  deriving DecidableEq, Repr

/-- The manifold pressure once sampled (R96). -/
inductive ManifoldPressure
  | valid (p : Nat)
  | invalid
  deriving DecidableEq, Repr

/-- An entry of the wait list: a hall with its claim's ready at (R97). -/
structure WaitEntry where
  hall : Hall
  readyAt : Time
  deriving DecidableEq, Repr

/-- The manifold record, with the manifold compare unit that holds its deadline (R96, R141). -/
structure Manifold where
  state : ManifoldState
  holder : Option Hall
  lastHall : Option Hall
  unit : CompareUnit
  lastVent : VentResult
  pressure : Option ManifoldPressure
  waitList : List WaitEntry
  mismatch : Vector Bool 8
  deriving DecidableEq, Repr

/-! ### Release Circuit Bank (chapter 8) -/

/-- The supervision record of a release channel (section 8.1). -/
structure Channel where
  measured : LineState
  goodChecks : Nat
  failedPulse : Bool
  energised : Bool
  pulse : Option Time
  deriving DecidableEq, Repr

/-- The Release Circuit Bank: the channels, the commands of the functions, and the selector-faulted marks (section 8.1). -/
structure Circuits where
  channels : Vector Channel 80
  selectorCmds : Vector Valve 8
  ventCmd : Valve
  faulted : Vector Bool 8
  deriving DecidableEq, Repr

/-! ### Links (chapters 9, 10 and 12) -/

/-- The result carried in a reply (section 12.2). -/
inductive Result
  | accepted
  | lockout
  | notCommissioned
  | selectorFault
  | duplicate
  | noClaim
  | tooLate
  | badField
  | unknownKind
  | notMaintenance
  | badIndex
  deriving DecidableEq, Repr

/-- A frame: its kind and payload (R192). -/
structure Frame where
  kind : Byte
  payload : Payload
  deriving DecidableEq, Repr

/-- The receive state of a port; `off` until start-up completes (R164, R176). -/
inductive RxState
  | off
  | hunting
  | assembling
  deriving DecidableEq, Repr

/-- A port's receiver: its state, the bytes of the frame being assembled after its marker, the time of the last byte of
that frame, from which the byte gap is timed, and a complete frame that awaits taking (section 9.1, R164, section 7.2). -/
structure Receiver where
  state : RxState
  buffer : List Byte
  lastByte : Option Time
  complete : Option Frame
  deriving DecidableEq, Repr

/-- The state of a hall link (section 9.4). -/
inductive LinkState
  | unarmed
  | active
  | lost
  deriving DecidableEq, Repr

/-- A latch: CLEAR, or set and unreported, or set and reported (R171: a clear latch has a clear reported bit). -/
inductive LatchState
  | clear
  | unreported
  | reported
  deriving DecidableEq, Repr

/-- The nine latches of a hall port (section 9.5). -/
structure Latches where
  discharged : LatchState
  unconfirmed : LatchState
  part : LatchState
  short : LatchState
  overCeiling : LatchState
  reserveUsed : LatchState
  selectorFail : LatchState
  aborted : LatchState
  linkLost : LatchState
  deriving DecidableEq, Repr

/-- The name of a latch (section 9.5). -/
inductive Latch
  | discharged
  | unconfirmed
  | part
  | short
  | overCeiling
  | reserveUsed
  | selectorFail
  | aborted
  | linkLost
  deriving DecidableEq, Repr

/-- A reported temperature with its arrival time and clamped flag (R30). -/
structure ReportedTemp where
  temperature : Int
  arrival : Time
  clamped : Bool
  deriving DecidableEq, Repr

/-- The claim view of a hall reply (R47). -/
structure ClaimView where
  state : ClaimState
  basis : Basis
  remaining : Option Nat
  req : Nat
  cap : Nat
  allocatedSum : Nat
  allocationCount : Nat
  firedCount : Nat
  flags : Flags
  endReason : Option EndReason
  deriving DecidableEq, Repr

/-- The inventory summary (R25). -/
structure Inventory where
  mainFull : Nat
  mainLow : Nat
  mainUnread : Nat
  reserveFull : Nat
  reserveLow : Nat
  reserveUnread : Nat
  mainE : Nat
  reserveE : Nat
  deriving DecidableEq, Repr

/-- The live figures of an answered QUERY (R43). -/
structure LiveFigures where
  figures : Figures
  minAcceptable : Nat
  deriving DecidableEq, Repr

/-- A hall reply (R167): its parts as they stood when it was formed. A latch `unreported` in `latches` is carried as NEW. -/
structure HallReply where
  kind : Byte
  result : Result
  mode : Mode
  view : Option ClaimView
  latches : Latches
  inventory : Inventory
  live : Option LiveFigures
  deriving DecidableEq, Repr

/-- A site reply (R177): result, mode and now, and the content bytes from byte 5 when the result is ACCEPTED. -/
structure SiteReply where
  kind : Byte
  result : Result
  mode : Mode
  now : Time
  content : Payload
  deriving DecidableEq, Repr

/-- A hall link port (section 9.1). `reply` is the reply formed and not yet sent, `replyBegins` the time its transmission
begins (R165), and `sent` the bytes of the last reply sent (assumption entry 9). -/
structure HallPort where
  rx : Receiver
  owed : Bool
  reply : Option HallReply
  replyBegins : Option Time
  sent : List Byte
  link : LinkState
  supervision : CompareUnit
  temp : Option ReportedTemp
  freshness : CompareUnit
  holdLevel : Bool
  reArm : Bool
  latches : Latches
  deriving DecidableEq, Repr

/-- The site link port (R177). -/
structure SitePort where
  rx : Receiver
  owed : Bool
  reply : Option SiteReply
  replyBegins : Option Time
  sent : List Byte
  deriving DecidableEq, Repr

/-! ### The whole machine -/

/-- The state of the DR864, with the queue of waiting commands. -/
structure State where
  /-- Commands waiting, first in first out. -/
  pending : List Instr
  /-- The timebase (R135). -/
  now : Time
  /-- The count of free values read (the model's own; assumption entry 8). -/
  choices : Nat
  /-- The Commissioning Store. -/
  store : Store
  /-- Mode Control. -/
  ctl : ModeControl
  /-- The Cylinder Table: a record's fields are present when it is fitted (R1). -/
  cyls : Vector (Option Cylinder) 64
  /-- Rack temperatures; absent while has-reading is no (R9). -/
  rackTemps : Vector (Option Int) 4
  /-- The Claim Table, at most one record per hall (R46). -/
  claims : Vector (Option Claim) 8
  /-- The claim compare units (R140). -/
  units : Vector CompareUnit 8
  /-- The Allocator's admission order (R72). -/
  order : List Hall
  /-- POOL GAINs handed and not yet answered (R24, R86; assumption entry 11). -/
  poolGains : Nat
  /-- The Manifold Arbiter. -/
  manifold : Manifold
  /-- The Release Circuit Bank. -/
  circuits : Circuits
  /-- The contact inputs. -/
  inputs : Inputs
  /-- The capture units. -/
  captures : Captures
  /-- The hall link ports. -/
  ports : Vector HallPort 8
  /-- The site link port. -/
  site : SitePort
  deriving DecidableEq, Repr

/-- Why a step stops with a fault. The part has no fault that stops it: what goes wrong in the field is state (a
disposition, a mark, a flag, a latch) or a refusal carried in a reply. No command raises one, so the type is empty. -/
inductive Fault
  deriving DecidableEq, Repr

/-- Why a step has no meaning. -/
inductive Refusal
  /-- Raised by an arm of `exec` whose command has no meaning yet. Safe: nothing is claimed of it. No arm raises it. -/
  | notModelled (mnemonic : String)
  deriving DecidableEq, Repr

/-! ### After reset -/

/-- The HALL record of the blank factory image (R190). -/
def blankHall : HallRecord :=
  { commissioned := false, volume := 0, margin := 0, minFraction := 0, reservePolicy := .never, fallback := 0,
    autoDelay := 0, manualDelay := 0, supervisionTimeout := 0, openLevel := .made }

/-- The TIMING record of the blank factory image (R190). -/
def blankTiming : Timing :=
  { resumeMinimum := 0, holdLimit := 0, selectorOpenTimeout := 0, selectorCloseTimeout := 0, lineInterval := 0,
    firePulse := 0, confirmTimeout := 0, ventThreshold := 0, ventTimeout := 0 }

/-- The blank factory image (R190). -/
def blankImage : Image :=
  { halls := .replicate 8 blankHall
    racks := .replicate 4 .main
    cylinders := .replicate 64 { fitted := false, qNom := 0, pNom := 0, inService := false }
    designTable := .replicate 16 0
    ceilingTable := .replicate 16 0
    timing := blankTiming
    thresholds := { low := 0, empty := 0, flowLevel := .made }
    roles := .replicate 80 .unused }

/-- A filter after a device reset: NOT ESTABLISHED, no run (R148); the raw value is the pin's. -/
def InputFilter.afterReset {α : Type} (raw : α) : InputFilter α := { raw := raw, level := none, run := none }

/-- A supervised contact after a device reset: its measurement is the pin's (R148, R163). -/
def Contact.afterReset (c : Contact) : Contact :=
  { measured := c.measured, level := .afterReset c.level.raw, loop := .afterReset c.loop.raw }

/-- A receiver after a device reset (R176, R191). -/
def resetReceiver : Receiver := { state := .off, buffer := [], lastByte := none, complete := none }

/-- All nine latches clear (R176). -/
def clearLatches : Latches :=
  { discharged := .clear, unconfirmed := .clear, part := .clear, short := .clear, overCeiling := .clear,
    reserveUsed := .clear, selectorFail := .clear, aborted := .clear, linkLost := .clear }

/-- A hall port after a device reset (R176). -/
def resetPort : HallPort :=
  { rx := resetReceiver, owed := false, reply := none, replyBegins := none, sent := [], link := .unarmed,
    supervision := .inhibited, temp := none, freshness := .inhibited, holdLevel := false, reArm := false,
    latches := clearLatches }

/-- The site port after a device reset (R177, R191). -/
def resetSite : SitePort :=
  { rx := resetReceiver, owed := false, reply := none, replyBegins := none, sent := [] }

/-- The manifold record after a device reset, before its first sample (R96, R112). -/
def resetManifold : Manifold :=
  { state := .idle, holder := none, lastHall := none, unit := .inhibited, lastVent := .none, pressure := none,
    waitList := [], mismatch := .replicate 8 false }

/-- A release channel after a device reset (R163). -/
def resetChannel : Channel :=
  { measured := .unknown, goodChecks := 0, failedPulse := false, energised := false, pulse := none }

/-- The Release Circuit Bank after a device reset (R163). -/
def resetCircuits : Circuits :=
  { channels := .replicate 80 resetChannel, selectorCmds := .replicate 8 .closed, ventCmd := .closed,
    faulted := .replicate 8 false }

/-- The record of a fitted cylinder after a device reset, or when it becomes fitted (R2, R27). -/
def resetCylinder (inService : Bool) : Cylinder :=
  { window := none, pos := 0, seeded := false, streak := 0, pAvg := 0, phi := 0, e := 0, condition := .unread,
    disposition := if inService then .free else .isolated }

/-- A contact whose pin is BROKEN, right after reset (DESIGN CHOICE for the pin, assumption entry 2). -/
def brokenContact : Contact :=
  { measured := .broken, level := .afterReset .broken, loop := .afterReset .normal }

/-- The machine right after a device reset of a part that holds the blank factory image (R190; DESIGN CHOICE, assumption
entry 1) with every contact pin BROKEN (entry 2). The start-up check of the blank image fails (R190). -/
def State.reset : State :=
  { pending := []
    now := 0
    choices := 0
    store := { image := blankImage, crc := 0, write := none, crcStore := none }
    ctl := { mode := .startup, key := .notEstablished, imageValid := false, exitPending := false,
             outstanding := [.rack 0, .rack 1, .rack 2, .rack 3],
             startupUnit := .watching Config.startupDeadline .startup }
    cyls := .replicate 64 none
    rackTemps := .replicate 4 none
    claims := .replicate 8 none
    units := .replicate 8 .inhibited
    order := []
    poolGains := 0
    manifold := resetManifold
    circuits := resetCircuits
    inputs := { selectors := .replicate 8 brokenContact, switch := brokenContact, key := .afterReset .broken }
    captures := { selectors := .replicate 8 .disarmed, switch := .disarmed }
    ports := .replicate 8 resetPort
    site := resetSite }

end Sys2Proof.Machine
end

