-- ==== Sys2Proof/Machine/Timebase.lean ====
section
/-! DEFINITION. The Timebase: the reached-deadline test, remaining times, compare units, capture units and the input
filter (chapter 7). -/

namespace Sys2Proof.Machine

/-- A number of milliseconds as a timebase value. -/
def ms (n : Nat) : Time := BitVec.ofNat 32 n

/-- Deadline `d` has been REACHED at `t` (R136). -/
def reached (d t : Time) : Bool := (t - d).toNat < 2 ^ 31

/-- The REMAINING TIME to deadline `d` at `t`: 0 once it has been reached (R137). -/
def remainingTime (d t : Time) : Nat := if reached d t then 0 else (d - t).toNat

namespace CompareUnit

/-- A WATCHING unit whose deadline is reached at `now` is EXPIRED (R138). -/
def settle (now : Time) : CompareUnit → CompareUnit
  | .watching d k => if reached d now then .expired d k else .watching d k
  | u => u

/-- LOAD or REPLACE: the unit holds deadline `d` of kind `k` from `now` on, EXPIRED at once when `d` is reached already
(R138, R139). -/
def load (now d : Time) (k : DeadlineKind) : CompareUnit := settle now (.watching d k)

/-- The deadline held, if any. -/
def deadline? : CompareUnit → Option Time
  | .inhibited => none
  | .watching d _ => some d
  | .expired d _ => some d

/-- The kind held, if any. -/
def kind? : CompareUnit → Option DeadlineKind
  | .inhibited => none
  | .watching _ k => some k
  | .expired _ k => some k

/-- The unit has raised an expiry of kind `k` that has not been taken, as it stands at `now` (R138). -/
def raised (now : Time) (k : DeadlineKind) (u : CompareUnit) : Bool :=
  match u.settle now with
  | .expired _ k' => k' = k
  | _ => false

/-- The remaining time to the deadline held, 0 when none is held (R137). -/
def remaining (now : Time) (u : CompareUnit) : Nat :=
  match u.deadline? with
  | some d => remainingTime d now
  | none => 0

end CompareUnit

namespace CaptureUnit

/-- An active edge at `edge` is recorded by an ARMED unit and by no other (R147). -/
def record (edge : Time) : CaptureUnit → CaptureUnit
  | .armed => .held edge
  | u => u

/-- The edge time held, if any. -/
def edge? : CaptureUnit → Option Time
  | .held t => some t
  | _ => none

end CaptureUnit

namespace InputFilter

variable {α : Type}

/-- A reading of `raw` at `now`: a reading that differs from the filtered value begins a run when none is in progress, and
one that returns to it ends the run (R143). Before establishment only the raw value is kept (R144). -/
def feed [DecidableEq α] (now : Time) (raw : α) (f : InputFilter α) : InputFilter α :=
  match f.level with
  | none => { f with raw := raw }
  | some l =>
    if raw = l then { f with raw := raw, run := none }
    else match f.run with
      | some _ => { f with raw := raw }
      | none => { f with raw := raw, run := some now }

/-- The edge time of the run in progress, once every reading of 50 ms has differed by `now` (R143). -/
def due (now : Time) (f : InputFilter α) : Option Time :=
  match f.run with
  | some s => if reached (s + Config.filterTime) now then some (s + Config.filterTime) else none
  | none => none

/-- The filtered value takes the raw value: an edge, or the establishment (R143, R144). -/
def take (f : InputFilter α) : InputFilter α := { f with level := some f.raw, run := none }

end InputFilter

end Sys2Proof.Machine
end

