-- ==== Sys2Proof/Machine/Ops.lean ====
section
/-! DEFINITION. The named operations over State that every meaning is written with: reading and writing one record, the
latches, the compare and capture units, the release channels and commands, the readings of the inputs, and eligibility. -/

namespace Sys2Proof.Machine

/-! ### Reading one record -/

/-- The stored image, read at each use (R1). -/
def State.image (s : State) : Image := s.store.image

/-- The HALL record of `h`. -/
def State.hallRec (s : State) (h : Hall) : HallRecord := s.store.image.halls[h]

/-- The TIMING record. -/
def State.timing (s : State) : Timing := s.store.image.timing

/-- The role of channel `c`, read each time the channel is driven, checked or reported (R149). -/
def State.role (s : State) (c : ChanIdx) : Role := s.store.image.roles[c]

/-- The rack of a cylinder index (section 1.1). -/
def rackOf (k : CylIdx) : Rack := ⟨k.val / 16, by omega⟩

/-- The role of the rack of cylinder `k`, read each time it is used (R1). -/
def State.rackRole (s : State) (k : CylIdx) : RackRole := s.store.image.racks[rackOf k]

/-- The device mode. -/
def State.mode (s : State) : Mode := s.ctl.mode

/-- The record of cylinder `k`, present when it is fitted. -/
def State.cyl (s : State) (k : CylIdx) : Option Cylinder := s.cyls[k]

/-- The claim record of hall `h`. -/
def State.claim (s : State) (h : Hall) : Option Claim := s.claims[h]

/-- The claim compare unit of hall `h` (R140). -/
def State.unit (s : State) (h : Hall) : CompareUnit := s.units[h]

/-- The port of hall `h`. -/
def State.port (s : State) (h : Hall) : HallPort := s.ports[h]

/-- The supervision record of channel `c`. -/
def State.channel (s : State) (c : ChanIdx) : Channel := s.circuits.channels[c]

/-- The mismatch flag of hall `h` (R109). -/
def State.mismatch (s : State) (h : Hall) : Bool := s.manifold.mismatch[h]

/-- The selector command of hall `h` (R150). -/
def State.selectorCmd (s : State) (h : Hall) : Valve := s.circuits.selectorCmds[h]

/-- The selector-faulted mark of hall `h` (R155). -/
def State.selectorFaulted (s : State) (h : Hall) : Bool := s.circuits.faulted[h]

/-! ### Writing one record -/

/-- The record of cylinder `k` becomes `c`. -/
def State.setCyl (s : State) (k : CylIdx) (c : Option Cylinder) : State := { s with cyls := s.cyls.set k c }

/-- The claim record of hall `h` becomes `c`. -/
def State.setClaim (s : State) (h : Hall) (c : Option Claim) : State := { s with claims := s.claims.set h c }

/-- The claim compare unit of hall `h` becomes `u`. -/
def State.setUnit (s : State) (h : Hall) (u : CompareUnit) : State := { s with units := s.units.set h u }

/-- The port of hall `h` becomes `p`. -/
def State.setPort (s : State) (h : Hall) (p : HallPort) : State := { s with ports := s.ports.set h p }

/-- The supervision record of channel `c` becomes `ch`. -/
def State.setChannel (s : State) (c : ChanIdx) (ch : Channel) : State :=
  { s with circuits := { s.circuits with channels := s.circuits.channels.set c ch } }

/-- The manifold record becomes `m`. -/
def State.setManifold (s : State) (m : Manifold) : State := { s with manifold := m }

/-- Mode Control's state becomes `c`. -/
def State.setCtl (s : State) (c : ModeControl) : State := { s with ctl := c }

/-- The Commissioning Store becomes `st`. -/
def State.setStore (s : State) (st : Store) : State := { s with store := st }

/-- The stored image becomes `i`. -/
def State.setImage (s : State) (i : Image) : State := { s with store := { s.store with image := i } }

/-- The contact inputs become `i`. -/
def State.setInputs (s : State) (i : Inputs) : State := { s with inputs := i }

/-- The capture unit of hall `h`'s selector becomes `u`. -/
def State.setSelectorCapture (s : State) (h : Hall) (u : CaptureUnit) : State :=
  { s with captures := { s.captures with selectors := s.captures.selectors.set h u } }

/-- The capture unit of the manifold switch becomes `u`. -/
def State.setSwitchCapture (s : State) (u : CaptureUnit) : State :=
  { s with captures := { s.captures with switch := u } }

/-- The site port becomes `p`. -/
def State.setSite (s : State) (p : SitePort) : State := { s with site := p }

/-- The admission order becomes `o` (R72). -/
def State.setOrder (s : State) (o : List Hall) : State := { s with order := o }

/-- The selector-faulted mark of hall `h` becomes `b` (R155). -/
def State.setFaulted (s : State) (h : Hall) (b : Bool) : State :=
  { s with circuits := { s.circuits with faulted := s.circuits.faulted.set h b } }

/-- `f` is applied to the claim record of hall `h`, if there is one. -/
def State.updClaim (s : State) (h : Hall) (f : Claim → Claim) : State := s.setClaim h ((s.claim h).map f)

/-- `f` is applied to the record of cylinder `k`, if it is fitted. -/
def State.updCyl (s : State) (k : CylIdx) (f : Cylinder → Cylinder) : State := s.setCyl k ((s.cyl k).map f)

/-- `f` is applied to the port of hall `h`. -/
def State.updPort (s : State) (h : Hall) (f : HallPort → HallPort) : State := s.setPort h (f (s.port h))

/-! ### Compare units -/

/-- The claim unit of `h` is loaded with deadline `d` of kind `k`, replacing what it holds (R48, R138). -/
def State.loadUnit (s : State) (h : Hall) (d : Time) (k : DeadlineKind) : State :=
  s.setUnit h (.load s.now d k)

/-- The deadline of the claim unit of `h` is removed (R138). -/
def State.removeUnit (s : State) (h : Hall) : State := s.setUnit h .inhibited

/-! ### Latches (R171) -/

/-- The state of latch `l`. -/
def Latches.get (ls : Latches) : Latch → LatchState
  | .discharged => ls.discharged
  | .unconfirmed => ls.unconfirmed
  | .part => ls.part
  | .short => ls.short
  | .overCeiling => ls.overCeiling
  | .reserveUsed => ls.reserveUsed
  | .selectorFail => ls.selectorFail
  | .aborted => ls.aborted
  | .linkLost => ls.linkLost

/-- Latch `l` takes state `x`. -/
def Latches.put (ls : Latches) (l : Latch) (x : LatchState) : Latches :=
  match l with
  | .discharged => { ls with discharged := x }
  | .unconfirmed => { ls with unconfirmed := x }
  | .part => { ls with part := x }
  | .short => { ls with short := x }
  | .overCeiling => { ls with overCeiling := x }
  | .reserveUsed => { ls with reserveUsed := x }
  | .selectorFail => { ls with selectorFail := x }
  | .aborted => { ls with aborted := x }
  | .linkLost => { ls with linkLost := x }

/-- `f` is applied to every latch. -/
def Latches.map (f : LatchState → LatchState) (ls : Latches) : Latches :=
  { discharged := f ls.discharged, unconfirmed := f ls.unconfirmed, part := f ls.part, short := f ls.short,
    overCeiling := f ls.overCeiling, reserveUsed := f ls.reserveUsed, selectorFail := f ls.selectorFail,
    aborted := f ls.aborted, linkLost := f ls.linkLost }

/-- Setting a latch: a clear latch becomes set and unreported, a set one keeps its reported bit (R171). -/
def LatchState.raise : LatchState → LatchState
  | .clear => .unreported
  | x => x

/-- A reply carries the latch: a set latch becomes reported (R172). -/
def LatchState.report : LatchState → LatchState
  | .clear => .clear
  | _ => .reported

/-- LATCH_CLEAR: a latch set and reported is cleared, one set and unreported is left (R173). -/
def LatchState.acknowledge : LatchState → LatchState
  | .reported => .clear
  | x => x

/-- The port of hall `h` is asked to set latch `l` (R171). -/
def State.setLatch (s : State) (h : Hall) (l : Latch) : State :=
  s.updPort h fun p => { p with latches := p.latches.put l (p.latches.get l).raise }

/-! ### Cylinders -/

/-- The disposition of cylinder `k` becomes `d` (R15). -/
def State.setDisposition (s : State) (k : CylIdx) (d : Disposition) : State :=
  s.updCyl k fun c => { c with disposition := d }

/-- A record is ELIGIBLE when it is fitted, FREE, and FULL, LOW or UNREAD (R24). -/
def eligibleRecord : Option Cylinder → Bool
  | some c => c.disposition = .free && c.condition ≠ .empty
  | none => false

/-- Cylinder `k` is ELIGIBLE (R24). -/
def State.eligible (s : State) (k : CylIdx) : Bool := eligibleRecord (s.cyl k)

/-- The record is UNREAD. -/
def unreadRecord : Option Cylinder → Bool
  | some c => c.condition = .unread
  | none => false

/-- Whether a change of one record from `a` to `b` calls for a POOL GAIN: the cylinder becomes eligible, or an eligible
cylinder moves from UNREAD to FULL or LOW (R24; the first bullet is read as in assumption entry 10). -/
def gains (a b : Option Cylinder) : Bool :=
  (!eligibleRecord a && eligibleRecord b) ||
    (eligibleRecord a && eligibleRecord b && unreadRecord a && !unreadRecord b)

/-- A POOL GAIN is handed to the Allocator (R24); STARVED_RE_EVALUATION answers it (R86). -/
def State.poolGain (s : State) : State := { s with poolGains := s.poolGains + 1 }

/-- A POOL GAIN is handed when `b` holds. -/
def State.poolGainIf (s : State) (b : Bool) : State := if b then s.poolGain else s

/-! ### Claims -/

/-- The state of hall `h`'s claim, if it has one. -/
def State.claimState (s : State) (h : Hall) : Option ClaimState := (s.claim h).map (·.state)

/-- DISCHARGED, ABORTED and FAILED are TERMINAL (section 6). -/
def ClaimState.terminal : ClaimState → Bool
  | .discharged | .aborted | .failed => true
  | _ => false

/-- The states short of FIRING: COUNTDOWN, HOLD, STARVED, WAITING, SELECTING (R66, R68). -/
def ClaimState.shortOfFiring : ClaimState → Bool
  | .countdown | .hold | .starved | .waiting | .selecting => true
  | _ => false

/-- The states in which a loss from the allocation is topped up (R82). -/
def ClaimState.toppedUp : ClaimState → Bool
  | .countdown | .hold | .waiting | .selecting => true
  | _ => false

/-- Hall `h` has a claim, and it is non-terminal. -/
def State.nonTerminal (s : State) (h : Hall) : Bool :=
  match s.claim h with
  | some c => !c.state.terminal
  | none => false

/-- No claim is non-terminal. -/
def State.noClaimLeft (s : State) : Bool := allHalls.all fun h => !s.nonTerminal h

/-! ### Readings of the inputs (R145) -/

/-- The reading of hall `h`'s selector input: absent before establishment, OPEN at the commissioned OPEN level. -/
def State.selectorReading (s : State) (h : Hall) : Option Valve :=
  (s.inputs.selectors[h]).level.level.map fun l => if l = (s.hallRec h).openLevel then .opened else .closed

/-- The reading of the manifold pressure switch: absent before establishment, `true` for FLOW. -/
def State.switchReading (s : State) : Option Bool :=
  s.inputs.switch.level.level.map fun l => l = s.image.thresholds.flowLevel

/-- The filtered reading of the key: absent before establishment, `true` for ON (R161). -/
def State.keyReading (s : State) : Option Bool := s.inputs.key.level.map fun l => l = Level.made

/-! ### Release channels and commands (R149, R150) -/

/-- Channel `c` is a level output whose function is commanded OPEN. -/
def State.commanded (s : State) (c : ChanIdx) : Bool :=
  match s.role c with
  | .selector h => s.selectorCmd h = .opened
  | .vent => s.circuits.ventCmd = .opened
  | _ => false

/-- Whether channel `c` is to be energised: no in MAINTENANCE, and otherwise when its function's command is OPEN or its
fire pulse is in progress (R150, R151). -/
def State.driven (s : State) (c : ChanIdx) : Bool :=
  s.mode ≠ .maintenance && (s.commanded c || (s.channel c).pulse.isSome)

/-- Every channel is driven as its command, its pulse and the mode require (R150). -/
def State.redrive (s : State) : State :=
  { s with circuits :=
    { s.circuits with channels := tabulate 80 fun c => { s.channel c with energised := s.driven c } } }

/-- The selector command of hall `h` becomes `v`, applied at once (R150). -/
def State.commandSelector (s : State) (h : Hall) (v : Valve) : State :=
  State.redrive { s with circuits := { s.circuits with selectorCmds := s.circuits.selectorCmds.set h v } }

/-- The vent command becomes `v`, applied at once (R150). -/
def State.commandVent (s : State) (v : Valve) : State :=
  State.redrive { s with circuits := { s.circuits with ventCmd := v } }

/-- The mode becomes `m`, and every channel is driven by it at once (R150). -/
def State.setMode (s : State) (m : Mode) : State := State.redrive (s.setCtl { s.ctl with mode := m })

/-- A fire pulse begins on every channel whose role is CYLINDER(`k`) (R149, R151). -/
def State.firePulse (s : State) (k : CylIdx) : State :=
  let pulsed (c : ChanIdx) : Channel :=
    if s.role c = .cylinder k then { s.channel c with pulse := some s.now } else s.channel c
  State.redrive { s with circuits := { s.circuits with channels := tabulate 80 pulsed } }

/-- The channel of a function for the site station: the lowest-numbered whose role names it (R162). -/
def State.channelOf (s : State) (r : Role) : Option Channel := (allChannels.find? fun c => s.role c = r).map s.channel

/-! ### The end of MAINT_PENDING -/

/-- In MAINT_PENDING, with the manifold IDLE and no claim non-terminal, the mode becomes MAINTENANCE (R182). -/
def State.maintPendingEnd (s : State) : State :=
  if s.mode = .maintPending ∧ s.manifold.state = .idle ∧ s.noClaimLeft then s.setMode .maintenance else s

end Sys2Proof.Machine
end

