-- ==== Sys2Proof/Machine/Flags.lean ====
section
/-! DEFINITION. What follows a claim's allocation: allocated sum, shortage, and the flags OVER_CEILING and SHORT with their
latches (R40, R41, R42, R81). -/

namespace Sys2Proof.Machine

/-- The sum of E over some entries. -/
def sumE (es : List Entry) : Nat := (es.map (·.e)).sum

/-- The allocated sum and the shortage follow the allocation (R40, R41). -/
def Claim.resum (c : Claim) : Claim :=
  { c with allocatedSum := sumE c.allocation, shortage := c.figures.req - sumE c.allocation }

/-- No flag set. -/
def noFlags : Flags :=
  { short := false, overCeiling := false, reserveUsed := false, unreadIncluded := false, starved := false, part := false }

/-- Whether the OVER_CEILING check, made on every change of the allocated sum from `c` to `c'` in a non-terminal state, finds
the new sum above Cap (R42). A fall that leaves the sum above Cap is found too: the flag stands set already, and the latch is
asked for again. The fall of a pulse that reads NORMAL is not among these changes (R122; assumption entry 34). -/
def overCeilingFound (c c' : Claim) : Bool :=
  !c'.state.terminal && c'.allocatedSum ≠ c.allocatedSum && c'.figures.cap < c'.allocatedSum

/-- Whether SHORT is evaluated: the allocated sum has changed, or a list is committed, short of FIRING (R81). -/
def shortEvaluated (commit : Bool) (c c' : Claim) : Bool :=
  c'.state.shortOfFiring && (commit || c'.allocatedSum ≠ c.allocatedSum)

/-- The claim `c'`, whose allocation has just changed from `c`'s, with the flags OVER_CEILING and SHORT as the checks leave
them (R42, R81). -/
def Claim.reflag (commit : Bool) (c c' : Claim) : Claim :=
  { c' with flags :=
    { c'.flags with
      overCeiling := c'.flags.overCeiling || overCeilingFound c c'
      short := if shortEvaluated commit c c' then c'.shortage ≠ 0 else c'.flags.short } }

/-- Hall `h`'s claim takes the allocation `alloc`: its sums and its flags follow, and the port is asked to set the
OVER_CEILING latch when the check finds the changed sum above Cap, and the SHORT latch when SHORT moves from clear to set
(R40 to R42, R81). -/
def State.reallocate (s : State) (h : Hall) (commit : Bool) (alloc : List Entry) : State :=
  match s.claim h with
  | none => s
  | some c =>
    let c' := Claim.resum { c with allocation := alloc }
    let c'' := Claim.reflag commit c c'
    let s1 := s.setClaim h (some c'')
    let s2 := if overCeilingFound c c' then s1.setLatch h .overCeiling else s1
    if c''.flags.short && !c.flags.short then s2.setLatch h .short else s2

end Sys2Proof.Machine
end

