-- ==== Sys2Proof/Machine/Operands.lean ====
section
/-! DEFINITION. What the operands of the commands mean: loop currents, line and pulse measurements, contact readings, and the
numbers in a payload. -/

namespace Sys2Proof.Machine

/-- `x` limited to `lo..hi`. -/
def clampInt (lo hi x : Int) : Int := if x < lo then lo else if hi < x then hi else x

/-- A loop current of 3.6 to 21.0 mA gives a VALID sample (R158). -/
def loopValid (i : LoopCurrent) : Bool := 3600 ≤ i && i ≤ 21000

/-- The pressure of a valid sample of a cylinder or manifold loop, in 0.1 bar, to the nearest unit with halves up and
limited to 0..4000; absent for an INVALID sample (R158). -/
def loopPressure (i : LoopCurrent) : Option Nat :=
  if loopValid i then some (min 4000 (((i - 4000) * 4000 * 2 + 16000) / 32000)) else none

/-- The temperature of a valid sample of a rack loop, in 0.1 degrees, limited to -400..+850; absent for an INVALID sample
(R158). -/
def loopTemperature (i : LoopCurrent) : Option Int :=
  if loopValid i then
    some (clampInt (-400) 850 (-400 + (((i - 4000) * 1250 * 2 + 16000) / 32000 : Nat)))
  else none

/-- A de-energised channel's line, measured with the quiescent test current (R153). -/
def classifyQuiescent (m : LineMeasurement) : LineState :=
  if m.resistance < 250 then .shorted else if 4000 < m.resistance then .opened else .normal

/-- An energised level channel's line, measured with its drive current (R153). -/
def classifyDrive (m : LineMeasurement) : LineState :=
  if m.limited then .shorted else if m.drive < 50 then .opened else .normal

/-- The class of one measurement of a fire pulse (R151). -/
def classifyPulse (m : PulseMeasurement) : LineState :=
  if m.limited then .shorted else if m.current < 800 then .opened else .normal

/-- The PULSE READING: NORMAL when every measurement classified NORMAL, otherwise the class of the first that did not
(R151). -/
def pulseReading : List PulseMeasurement → LineState
  | [] => .normal
  | m :: rest => if classifyPulse m = .normal then pulseReading rest else classifyPulse m

/-- The other level. -/
def Level.flip : Level → Level
  | .made => .broken
  | .broken => .made

/-- The raw level presented to the filter for a measurement: a LOOP FAULT presents the level that is not the input's
active level (R160). -/
def presented (active : Level) : Measurement → Level
  | .made => .made
  | .broken => .broken
  | .loopFault => Level.flip active

/-- Whether a measurement is a LOOP FAULT, for the loop state's filter (R160). -/
def loopRaw : Measurement → LoopState
  | .loopFault => .fault
  | _ => .normal

/-- The unsigned number of some bytes, high byte first (chapter 12). -/
def number (bs : List Byte) : Nat := bs.foldl (fun n b => n * 256 + b.toNat) 0

/-- The signed number of two bytes, two's complement, high byte first (chapter 12). -/
def signed16 (a b : Byte) : Int := (a ++ b : BitVec 16).toInt

/-- A yes/no field: 0 no, 1 yes, anything else out of range (R193). -/
def yesNo (b : Byte) : Option Bool := if b = 0 then some false else if b = 1 then some true else none

/-- A level field: 0 MADE, 1 BROKEN (R193). -/
def levelField (b : Byte) : Option Level := if b = 0 then some .made else if b = 1 then some .broken else none

/-- A hall field of 1 to 8 (section 5.2). -/
def hallField (b : Byte) : Option Hall :=
  if h : 1 ≤ b.toNat ∧ b.toNat ≤ 8 then some ⟨b.toNat - 1, by omega⟩ else none

/-- An index field of 0 to `n - 1`. -/
def indexField (n : Nat) (b : Byte) : Option (Fin n) := if h : b.toNat < n then some ⟨b.toNat, h⟩ else none

/-- A number as `n` bytes, high byte first (chapter 12); bits above them are dropped. -/
def bytesOf : Nat → Nat → List Byte
  | 0, _ => []
  | n + 1, x => bytesOf n (x / 256) ++ [BitVec.ofNat 8 x]

/-- A signed number in `w` bits of two's complement, as a number. -/
def twos (w : Nat) (x : Int) : Nat := (BitVec.ofInt w x).toNat

/-- Fields of given widths packed into one number, the first in the lowest bits; each is cut to its width (chapter 12). -/
def pack : List (Nat × Nat) → Nat
  | [] => 0
  | (w, x) :: rest => x % 2 ^ w + 2 ^ w * pack rest

/-- A Boolean as a bit. -/
def bit (b : Bool) : Nat := if b then 1 else 0

end Sys2Proof.Machine
end

