-- ==== Sys2Proof/Machine/Quantity.lean ====
section
/-! DEFINITION. The Quantity Unit: temperature used, interpolation, requirement, ceiling and minimum acceptable quantity
(chapter 2). All arithmetic is exact in Nat and Int; the widths in which the part forms a product never wrap. -/

namespace Sys2Proof.Machine

/-- `a / b` rounded up. -/
def ceilDiv (a b : Nat) : Nat := (a + b - 1) / b

/-- The temperature used for hall `h` at now, with its source and clamped flag: the reported temperature while its freshness
deadline has not been reached, and the fallback temperature otherwise (R31). -/
def State.temperatureUsed (s : State) (h : Hall) : Int × TempSource × Bool :=
  match (s.port h).temp, (s.port h).freshness.deadline? with
  | some t, some d =>
    if reached d s.now then ((s.hallRec h).fallback, .fallback, false) else (t.temperature, .reported, t.clamped)
  | _, _ => ((s.hallRec h).fallback, .fallback, false)

/-- Tc + 100, where Tc is `t` clamped to -100..+650 (R32). -/
def tableOffset (t : Int) : Nat := (clampInt (-100) 650 t + 100).toNat

/-- The table point i of the TABLE POSITION of `t` (R32). -/
def tableIndex (t : Int) : Nat := min (tableOffset t / 50) 14

/-- The distance r of the TABLE POSITION of `t` above its point (R32). -/
def tableRest (t : Int) : Nat := tableOffset t - 50 * tableIndex t

/-- The weighted sum S of the two table points used at `t` (R33). -/
def weightedSum (table : Vector Nat 16) (t : Int) : Nat :=
  table[tableIndex t]'(by unfold tableIndex; omega) * (50 - tableRest t)
    + table[tableIndex t + 1]'(by unfold tableIndex; omega) * tableRest t

/-- The design factor f_d at `t`, rounded up (R33). -/
def designFactor (table : Vector Nat 16) (t : Int) : Nat := ceilDiv (weightedSum table t) 50

/-- The ceiling factor f_c at `t`, rounded down (R33). -/
def ceilingFactor (table : Vector Nat 16) (t : Int) : Nat := weightedSum table t / 50

/-- The requirement Req of a volume, a design factor and a margin: Mg is V times f_d (R35, R36). -/
def requirement (volume fd margin : Nat) : Nat := ceilDiv (volume * fd * (100 + margin)) 10000

/-- The ceiling Cap of a volume and a ceiling factor (R37). -/
def ceilingMass (volume fc : Nat) : Nat := volume * fc / 100

/-- The minimum acceptable quantity of a requirement and a minimum fraction (R39). -/
def minimumAcceptable (req n : Nat) : Nat := ceilDiv (req * n) 100

/-- The computation for hall `h` at now (R31 to R37). -/
def State.figures (s : State) (h : Hall) : Figures :=
  let (t, source, clamped) := s.temperatureUsed h
  let fd := designFactor s.image.designTable t
  let fc := ceilingFactor s.image.ceilingTable t
  { temperature := t, source := source, clamped := clamped, fd := fd, fc := fc
    req := requirement (s.hallRec h).volume fd (s.hallRec h).margin
    cap := ceilingMass (s.hallRec h).volume fc }

/-- The LIVE FIGURES of a QUERY for hall `h` (R43). -/
def State.liveFigures (s : State) (h : Hall) : LiveFigures :=
  { figures := s.figures h, minAcceptable := minimumAcceptable (s.figures h).req (s.hallRec h).minFraction }

/-- The minimum acceptable quantity of the claim of hall `h` with requirement `req`, from the present n (R39). -/
def State.minAcceptable (s : State) (h : Hall) (req : Nat) : Nat := minimumAcceptable req (s.hallRec h).minFraction

end Sys2Proof.Machine
end

