-- ==== Sys2Proof/Machine/Allocator.lean ====
section
/-! DEFINITION. The Allocator: candidates by class, the order of taking, the three kinds of run, committing a taken list, and
the laying of firing lines (chapter 4). -/

namespace Sys2Proof.Machine

/-! ### Candidates and the order of taking (R74 to R76) -/

/-- The cylinder indices of rack `r` in ascending position order. -/
def rackCylinders (r : Rack) : List CylIdx := (List.finRange 16).map fun i => ⟨16 * r.val + i.val, by omega⟩

/-- The entry of cylinder `k` when it is eligible with condition `cond` (R74). -/
def State.candidate (s : State) (cond : Condition) (k : CylIdx) : Option Entry :=
  match s.cyl k with
  | some c => if s.eligible k ∧ c.condition = cond then some { cyl := k, e := c.e } else none
  | none => none

/-- The candidates of rack `r` with condition `cond`, in ascending position order (R76). -/
def State.rackCandidates (s : State) (cond : Condition) (r : Rack) : List Entry :=
  (rackCylinders r).filterMap (s.candidate cond)

/-- A rack's candidates placed among others by total E, the larger first, an earlier rack before a later of the same
total (R75). -/
def insertByTotal (l : List Entry) : List (List Entry) → List (List Entry)
  | [] => [l]
  | m :: rest => if sumE m ≤ sumE l then l :: m :: rest else m :: insertByTotal l rest

/-- The racks' candidate lists in the order of R75. -/
def orderByTotal (ls : List (List Entry)) : List (List Entry) := ls.foldr insertByTotal []

/-- ROTATION over the racks: the first candidate of each rack in turn, then the second, and so on, a rack that has run out
being passed over (R76). -/
def rotation (ls : List (List Entry)) : List Entry := (List.range 16).flatMap fun j => ls.filterMap fun l => l[j]?

/-- The candidates of one class, in the order in which they are taken: eligible cylinders of condition `cond` in racks of
role `role` (R74 to R76). -/
def State.classOrder (s : State) (role : RackRole) (cond : Condition) : List Entry :=
  rotation (orderByTotal
    (((allRacks.filter fun r => s.image.racks[r] = role).map (s.rackCandidates cond)).filter fun l => !l.isEmpty))

/-- Classes 1 to 4 in order, 3 and 4 only with reserve permitted (R74). -/
def State.creditedOrder (s : State) (reserve : Bool) : List Entry :=
  s.classOrder .main .full ++ s.classOrder .main .low ++
    if reserve then s.classOrder .reserve .full ++ s.classOrder .reserve .low else []

/-- Class 5: UNREAD cylinders, MAIN racks first, then RESERVE racks with reserve permitted (R74, R78). -/
def State.lastResortOrder (s : State) (reserve : Bool) : List Entry :=
  s.classOrder .main .unread ++ if reserve then s.classOrder .reserve .unread else []

/-! ### Firing lines (R88) -/

/-- Cylinder `k` joins the open line: the line holds fewer than 4 cylinders and fewer than 2 of its rack (R88). -/
def joinsLine (line : List CylIdx) (k : CylIdx) : Bool :=
  line.length < Config.lineSize && (line.filter fun j => rackOf j = rackOf k).length < Config.linePerRack

/-- Entries laid into lines in list order, with `line` the line that is open (R88). -/
def layFrom (line : List CylIdx) : List CylIdx → List (List CylIdx)
  | [] => if line.isEmpty then [] else [line]
  | k :: ks =>
    if line.isEmpty then layFrom [k] ks
    else if joinsLine line k then layFrom (line ++ [k]) ks
    else line :: layFrom [k] ks

/-- The firing lines of some cylinders in order (R88). -/
def lay (ks : List CylIdx) : List (List CylIdx) := layFrom [] ks

/-- A line as it is created: PENDING, not fired (R114). -/
def newLine (ks : List CylIdx) : Line := { cyls := ks, status := .pending, time := none, pulsed := [], deferredAt := none }

/-- The schedule built from an allocation, with cursor and pulses outstanding 0 (R88, R114). -/
def buildSchedule (alloc : List Entry) : Schedule :=
  { lines := (lay (alloc.map (·.cyl))).map newLine, cursor := 0, outstanding := 0 }

/-! ### Runs (R73 to R79, R91) -/

/-- The kinds of run (R73); a replacement run carries its debt (R91). -/
inductive RunKind
  | firstAllocation
  | topUp
  | replacement (debt : Nat)
  deriving DecidableEq, Repr

/-- The target of a run for claim `c` is met by the taken list (R73, R91). -/
def targetMet (kind : RunKind) (c : Claim) (taken : List Entry) : Bool :=
  match kind with
  | .replacement debt => !taken.isEmpty && debt ≤ sumE taken
  | _ => c.figures.req ≤ c.allocatedSum + sumE taken

/-- The number of lines of a claim's schedule. -/
def Claim.lineCount (c : Claim) : Nat :=
  match c.schedule with
  | some sc => sc.lines.length
  | none => 0

/-- The run stops before taking `e`: the claim's limit is reached (R77), or for a replacement run the cylinder would open a
line beyond the 255th (R92). -/
def runBlocked (kind : RunKind) (c : Claim) (taken : List Entry) (e : Entry) : Bool :=
  Config.claimLimit ≤ c.allocation.length + c.fired.length + taken.length ||
    match kind with
    | .replacement _ => Config.maxLines < c.lineCount + (lay ((taken ++ [e]).map (·.cyl))).length
    | _ => false

/-- Candidates are taken in order until `met` holds of the taken list or `blocked` stops the run; the Boolean says whether
it was stopped (R76, R77). -/
def takeInOrder (met : List Entry → Bool) (blocked : List Entry → Entry → Bool) (taken : List Entry) :
    List Entry → List Entry × Bool
  | [] => (taken, false)
  | e :: rest =>
    if met taken then (taken, false)
    else if blocked taken e then (taken, true)
    else takeInOrder met blocked (taken ++ [e]) rest

/-- The taken list of classes 1 to 4, and whether the run was stopped there (R74). -/
def State.takeCredited (s : State) (kind : RunKind) (c : Claim) : List Entry × Bool :=
  takeInOrder (targetMet kind c) (runBlocked kind c) [] (s.creditedOrder c.reservePermitted)

/-- In class 5 a first allocation or a top-up takes every candidate (R78), a replacement run until its target is met
(R91). -/
def lastResortMet (kind : RunKind) (c : Claim) (taken : List Entry) : Bool :=
  match kind with
  | .replacement _ => targetMet kind c taken
  | _ => false

/-- The taken list of a whole run, from that of classes 1 to 4: class 5 is entered only when they have not met the target
(R74, R78). -/
def State.takeLastResort (s : State) (kind : RunKind) (c : Claim) (credited : List Entry × Bool) : List Entry :=
  if credited.2 || targetMet kind c credited.1 then credited.1
  else (takeInOrder (lastResortMet kind c) (runBlocked kind c) credited.1 (s.lastResortOrder c.reservePermitted)).1

/-- The taken list of a top-up or replacement run for claim `c` (R73). -/
def State.takenList (s : State) (kind : RunKind) (c : Claim) : List Entry :=
  s.takeLastResort kind c (s.takeCredited kind c)

/-! ### Committing (R73, R80) -/

/-- Every cylinder of a taken list becomes ASSIGNED to hall `h` (R16). -/
def State.assign (s : State) (h : Hall) (taken : List Entry) : State :=
  taken.foldl (fun s e => s.setDisposition e.cyl (.assigned h)) s

/-- COMMIT a taken list for the claim of hall `h`: the cylinders become ASSIGNED, the entries join the tail of the
allocation, and the sums and flags follow, each flag with its latch. An empty list changes nothing (R73, R78, R80). -/
def State.commit (s : State) (h : Hall) (taken : List Entry) : State :=
  match s.claim h with
  | none => s
  | some c =>
    if taken.isEmpty then s
    else
      let reserve := taken.any fun e => s.rackRole e.cyl = .reserve
      let unread := taken.any fun e => unreadRecord (s.cyl e.cyl)
      let s1 := (s.assign h taken).reallocate h true (c.allocation ++ taken)
      let s2 := s1.updClaim h fun c =>
        { c with flags :=
          { c.flags with
            reserveUsed := c.flags.reserveUsed || reserve
            unreadIncluded := c.flags.unreadIncluded || unread } }
      if reserve then s2.setLatch h .reserveUsed else s2

/-- A FIRST ALLOCATION for the claim of hall `h`: the taken list is committed when classes 1 to 4 reach the minimum
acceptable quantity, and discarded otherwise; the STARVED flag is clear exactly when a non-empty list is committed
(R54, R79). -/
def State.firstAllocation (s : State) (h : Hall) : State :=
  match s.claim h with
  | none => s
  | some c =>
    let credited := s.takeCredited .firstAllocation c
    let taken := s.takeLastResort .firstAllocation c credited
    let given := s.minAcceptable h c.figures.req ≤ sumE credited.1 && !taken.isEmpty
    let s1 := if given then s.commit h taken else s
    s1.updClaim h fun c => { c with flags := { c.flags with starved := !given } }

/-- A TOP-UP for the claim of hall `h`, always committed (R83). -/
def State.topUp (s : State) (h : Hall) : State :=
  match s.claim h with
  | none => s
  | some c => s.commit h (s.takenList .topUp c)

/-- A REPLACEMENT run for the claim of hall `h` with the given debt: its cylinders are committed and laid into new lines
after the last line of the schedule (R91, R92). -/
def State.replace (s : State) (h : Hall) (debt : Nat) : State :=
  match s.claim h with
  | none => s
  | some c =>
    let taken := s.takenList (.replacement debt) c
    (s.commit h taken).updClaim h fun c =>
      { c with schedule := c.schedule.map fun sc =>
          { sc with lines := sc.lines ++ (lay (taken.map (·.cyl))).map newLine } }

/-! ### Releasing (R17) -/

/-- Every cylinder of the allocation of hall `h`'s claim goes from ASSIGNED to FREE, and the allocation becomes empty; one
POOL GAIN follows if any of them became eligible (R17, R24). -/
def State.releaseAllocation (s : State) (h : Hall) : State :=
  match s.claim h with
  | none => s
  | some c =>
    let held := c.allocation.filter fun e =>
      match s.cyl e.cyl with
      | some y => y.disposition = .assigned h
      | none => false
    let s1 := held.foldl (fun s e => s.setDisposition e.cyl .free) s
    let s2 := s1.reallocate h false []
    s2.poolGainIf (held.any fun e => s1.eligible e.cyl)

end Sys2Proof.Machine
end

