-- ==== Sys2Proof/Machine/Arbiter.lean ====
section
/-! DEFINITION. The Manifold Arbiter: selector mismatch, venting, closing, withdrawal and end of a grant, the wait list, and
the grant (chapter 5). -/

namespace Sys2Proof.Machine

/-! ### Selector mismatch (R108, R109) -/

/-- Hall `h`'s selector is EXPECTED OPEN (R108). -/
def State.expectedOpen (s : State) (h : Hall) : Bool :=
  s.selectorCmd h = .opened || (s.manifold.state = .closing && s.manifold.lastHall = some h)

/-- The mismatch flag of hall `h` takes the value `b`. -/
def State.putMismatch (s : State) (h : Hall) (b : Bool) : State :=
  s.setManifold { s.manifold with mismatch := s.manifold.mismatch.set h b }

/-- The mismatch flag of hall `h` is set; a move from clear to set asks the port to set SELECTOR_FAIL (R109). -/
def State.setMismatch (s : State) (h : Hall) : State :=
  if s.mismatch h then s else (s.putMismatch h true).setLatch h .selectorFail

/-- The test of R109: a commissioned hall's selector that reads OPEN while it is not expected open sets its flag. -/
def State.testMismatch (s : State) (h : Hall) : State :=
  if (s.hallRec h).commissioned ∧ s.selectorReading h = some .opened ∧ ¬ s.expectedOpen h then s.setMismatch h else s

/-- No mismatch flag is set (R98). -/
def State.noMismatch (s : State) : Bool := allHalls.all fun h => !s.mismatch h

/-! ### Venting and closing (R104 to R106) -/

/-- Entry to VENTING: the vent is commanded open and the vent deadline loaded (R106). -/
def State.enterVenting (s : State) : State :=
  State.commandVent
    (s.setManifold { s.manifold with
      state := .venting, unit := .load s.now (s.now + ms s.timing.ventTimeout) .vent })
    .opened

/-- The Arbiter leaves CLOSING for VENTING: the close deadline is replaced, and the last hall, no longer expected open, is
tested for a mismatch (R105, R109). -/
def State.leaveClosing (s : State) : State :=
  match s.manifold.lastHall with
  | some h => s.enterVenting.testMismatch h
  | none => s.enterVenting

/-- Entry to CLOSING: with the last hall's selector reading OPEN the close deadline is loaded; otherwise the manifold goes
on to VENTING within the same event (R104). -/
def State.enterClosing (s : State) : State :=
  let closing := s.setManifold { s.manifold with state := .closing, unit := .inhibited }
  let reads := match s.manifold.lastHall with
    | some h => s.selectorReading h
    | none => none
  if reads = some .opened then
    closing.setManifold { closing.manifold with
      unit := .load s.now (s.now + ms s.timing.selectorCloseTimeout) .close }
  else closing.leaveClosing

/-- The grant of hall `h` ends: the holder is removed, its selector is commanded closed, and the manifold enters CLOSING
(R103). -/
def State.endGrant (s : State) (h : Hall) : State :=
  State.enterClosing ((s.setManifold { s.manifold with holder := none }).commandSelector h .closed)

/-- The grant of hall `h` is WITHDRAWN: as its end, with the hall's selector capture unit disarmed (R101). -/
def State.withdrawGrant (s : State) (h : Hall) : State := (s.setSelectorCapture h .disarmed).endGrant h

/-! ### The wait list (R58, R97) -/

/-- `x` joins a list at its tail, ahead of the entries at the tail of which `behind` holds (R72, R97). -/
def joinTail {α : Type} (behind : α → Bool) (x : α) (l : List α) : List α :=
  let tail := (l.reverse.takeWhile behind).reverse
  let rest := (l.reverse.dropWhile behind).reverse
  rest ++ x :: tail

/-- Hall `h` with ready at `t` is placed on the wait list: at the tail, ahead of entries at the tail with the same ready at
and a higher hall number (R97). -/
def State.place (s : State) (h : Hall) (t : Time) : State :=
  s.setManifold { s.manifold with
    waitList := joinTail (fun w => w.readyAt = t && h < w.hall) { hall := h, readyAt := t } s.manifold.waitList }

/-- Hall `h` leaves the wait list; the others keep their order (R97). -/
def State.leaveWaitList (s : State) (h : Hall) : State :=
  s.setManifold { s.manifold with waitList := s.manifold.waitList.filter fun w => w.hall ≠ h }

/-! ### The grant (R98, R99) -/

/-- The three conditions of a grant (R98). -/
def State.mayGrant (s : State) : Bool :=
  s.manifold.state = .idle && s.noMismatch && !s.manifold.waitList.isEmpty

/-- The grant of the manifold to hall `h`, in the steps of R99. -/
def State.grant (s : State) (h : Hall) : State :=
  let s1 := (s.leaveWaitList h).updClaim h fun c =>
    { c with state := .selecting, schedule := some (buildSchedule c.allocation), fired := [] }
  let s2 := s1.setManifold { s1.manifold with state := .opening, holder := some h, lastHall := some h }
  let s3 := (s2.commandSelector h .opened).setSelectorCapture h .armed
  s3.loadUnit h (s3.now + ms s3.timing.selectorOpenTimeout) .selectorOpen

/-- A grant is tried: it is made to the head of the wait list when the conditions hold, and nothing changes otherwise
(R98). -/
def State.tryGrant (s : State) : State :=
  if s.mayGrant then
    match s.manifold.waitList with
    | w :: _ => s.grant w.hall
    | [] => s
  else s

/-- The joins of one event are placed, and then one grant is tried (R97). -/
def State.join (s : State) (hs : List Hall) : State :=
  State.tryGrant (hs.foldl (fun s h => s.place h s.now) s)

/-- The mismatch flag of hall `h` is cleared; a move from set to clear is followed by a grant try (R109). -/
def State.clearMismatch (s : State) (h : Hall) : State :=
  if s.mismatch h then (s.putMismatch h false).tryGrant else s

/-- Venting ends with `result`: the vent is commanded closed, the manifold is IDLE, a grant is tried, and Mode Control
tests for the end of MAINT_PENDING (R106, R182). -/
def State.endVenting (s : State) (result : VentResult) : State :=
  let s1 := s.setManifold { s.manifold with state := .idle, unit := .inhibited, lastVent := result }
  ((s1.commandVent .closed).tryGrant).maintPendingEnd

/-! ### A change of a selector's reading, at the Arbiter (R105, R109, R146) -/

/-- An edge of hall `h`'s selector reading to `v`, at the Manifold Arbiter: to OPEN it is tested for a mismatch; to CLOSED it
ends CLOSING when `h` is the last hall, and clears the hall's flag. -/
def State.arbiterEdge (s : State) (h : Hall) (v : Valve) : State :=
  match v with
  | .opened => s.testMismatch h
  | .closed =>
    let s1 := if s.manifold.state = .closing ∧ s.manifold.lastHall = some h then s.leaveClosing else s
    s1.clearMismatch h

end Sys2Proof.Machine
end

