-- ==== Sys2Proof/Machine/Claims.lean ====
section
/-! DEFINITION. Release claims: the end of a claim, starvation, losses from an allocation short of FIRING, admission and
MANUAL upgrade, holds, and the countdown and hold limit expiries (chapter 3, and R82, R83, R86). -/

namespace Sys2Proof.Machine

/-! ### The end of a claim (R65) -/

/-- The end states of R65 with their latch. -/
def endLatch : EndReason → Latch
  | .abortedByPanel | .abortedLockout => .aborted
  | .failedSelectorOpen | .failedSelectorFault => .selectorFail
  | .confirmed | .unconfirmed => .discharged

/-- The claim of hall `h` becomes ABORTED or FAILED, in the steps of R65, and leaves the admission order (R72). -/
def State.endClaim (s : State) (h : Hall) (state : ClaimState) (reason : EndReason) : State :=
  match s.claim h with
  | none => s
  | some c =>
    let s1 := s.updClaim h fun c =>
      { c with state := state, endReason := some reason, endedAt := some s.now, remaining := none
               holdStartedAt := none
               schedule := if c.state = .selecting then none else c.schedule }
    let s2 := s1.removeUnit h
    let s3 := if c.state = .waiting then s2.leaveWaitList h else s2
    let s4 := if c.state = .selecting then s3.withdrawGrant h else s3
    let s5 := s4.releaseAllocation h
    let s6 := s5.setLatch h (endLatch reason)
    s6.setOrder (s6.order.filter fun j => j ≠ h)

/-! ### Losses short of FIRING (R57, R82, R83, R89) -/

/-- The claim of hall `h`, its allocation emptied and not refilled: STARVED is set, and from WAITING or SELECTING the claim
becomes STARVED (R54, R57). -/
def State.starve (s : State) (h : Hall) : State :=
  match s.claim h with
  | none => s
  | some c =>
    let s1 := s.updClaim h fun c => { c with flags := { c.flags with starved := true } }
    match c.state with
    | .waiting =>
      (s1.leaveWaitList h).updClaim h fun c => { c with state := .starved, readyAt := none }
    | .selecting =>
      let s2 := s1.updClaim h fun c => { c with state := .starved, readyAt := none, schedule := none }
      (s2.removeUnit h).withdrawGrant h
    | _ => s1

/-- In SELECTING the schedule is built again when the event has changed the list of cylinders from `before` (R89). -/
def State.rebuild (s : State) (h : Hall) (before : List Entry) : State :=
  s.updClaim h fun c =>
    if c.state = .selecting ∧ c.allocation.map (·.cyl) ≠ before.map (·.cyl) then
      { c with schedule := some (buildSchedule c.allocation) }
    else c

/-- The claim of hall `h` answers a fall of its allocated sum, or a removal, from the allocation `before`: a top-up where
the shortage is non-zero, starvation where nothing is left, and the rebuilding of the schedule in SELECTING
(R82, R83, R57, R89). -/
def State.answerLoss (s : State) (h : Hall) (before : List Entry) : State :=
  match s.claim h with
  | none => s
  | some c =>
    if c.state.toppedUp then
      let s1 := if c.shortage ≠ 0 then s.topUp h else s
      match s1.claim h with
      | none => s1
      | some c1 => if c1.allocation.isEmpty then s1.starve h else s1.rebuild h before
    else s

/-- Cylinder `k` leaves the allocation of hall `h`'s claim, and the sums and flags follow (R40, R41, R81, R85). -/
def State.dropEntry (s : State) (h : Hall) (k : CylIdx) : State :=
  match s.claim h with
  | none => s
  | some c => s.reallocate h false (c.allocation.filter fun e => e.cyl ≠ k)

/-- Cylinder `k` has left the claim of hall `h` short of FIRING (R18, R20, R82). -/
def State.removal (s : State) (h : Hall) (k : CylIdx) : State :=
  match s.claim h with
  | none => s
  | some c => (s.dropEntry h k).answerLoss h c.allocation

/-- The Cylinder Table hands hall `h`'s claim the new E of its cylinder `k`: the entry's E is replaced in place, the sums and
flags follow, and a fall is answered by R82, a rise by no run (R14, R40, R84). -/
def State.handE (s : State) (h : Hall) (k : CylIdx) (old new : Nat) : State :=
  match s.claim h with
  | none => s
  | some c =>
    let s1 := s.reallocate h false (c.allocation.map fun e => if e.cyl = k then { e with e := new } else e)
    if new < old then s1.answerLoss h c.allocation else s1

/-! ### Admission and MANUAL upgrade (R49 to R53) -/

/-- Reserve permitted, resolved from the policy and the request (R50). -/
def reservePermitted : ReservePolicy → Bool → Bool
  | .never, _ => false
  | .always, _ => true
  | .onRequest, asked => asked

/-- The record of a new claim before its first allocation (R50, R38). -/
def newClaim (basis : Basis) (reserve : Bool) (now : Time) (figures : Figures) : Claim :=
  { basis := basis, reservePermitted := reserve, admittedAt := now, state := .countdown, remaining := none
    holdStartedAt := none
    delaySource := match basis with | .auto => .autoDelay | .manual => .manualDelay
    readyAt := none, figures := figures, allocation := [], allocatedSum := 0, shortage := figures.req
    flags := noFlags, schedule := none, fired := [], selectorOpenAt := none, dischargeSeenAt := none
    endReason := none, endedAt := none }

/-- Hall `j`'s claim was admitted at `t`. -/
def State.admittedAt (s : State) (j : Hall) (t : Time) : Bool :=
  match s.claim j with
  | some c => c.admittedAt = t
  | none => false

/-- A RELEASE is admitted as a new claim of hall `h`, in the steps of R50, with its place in the admission order (R72). -/
def State.openClaim (s : State) (h : Hall) (basis : Basis) (asked : Bool) : State :=
  let r := s.hallRec h
  let c := newClaim basis (reservePermitted r.reservePolicy asked) s.now (s.figures h)
  let s1 := (s.setClaim h (some c)).removeUnit h
  let s2 := s1.setOrder (joinTail (fun j => s.admittedAt j s.now && h < j) h s.order)
  let s3 := s2.firstAllocation h
  let delay := match basis with | .auto => r.autoDelay | .manual => r.manualDelay
  s3.loadUnit h (s3.now + ms delay) .countdown

/-- The remaining time of a claim in COUNTDOWN or HOLD (R47, R53). -/
def State.remainingOf (s : State) (h : Hall) (c : Claim) : Option Nat :=
  match c.state with
  | .countdown => some ((s.unit h).remaining s.now)
  | .hold => c.remaining
  | _ => none

/-- Hall `h`'s claim counts down `left` ms from now, its hold fields removed (R53, R63, R64). -/
def State.resume (s : State) (h : Hall) (left : Nat) (source : DelaySource) : State :=
  State.loadUnit
    (s.updClaim h fun c =>
      { c with state := .countdown, remaining := none, holdStartedAt := none, delaySource := source })
    h (s.now + ms left) .countdown

/-- A MANUAL RELEASE upgrades the AUTO claim `c` of hall `h` (R53). -/
def State.upgrade (s : State) (h : Hall) (c : Claim) : State :=
  let r := (s.remainingOf h c).getD 0
  let manual := (s.hallRec h).manualDelay
  let s1 := s.updClaim h fun c => { c with basis := .manual }
  let s2 := if r ≤ manual then s1.resume h r .remaining else s1.resume h manual .manualDelay
  s2.updPort h fun p => { p with reArm := true }

/-- The request is a MANUAL upgrade of claim `c` (R52, R53). -/
def isUpgrade (basis : Basis) (c : Claim) : Bool :=
  basis = .manual && c.basis = .auto && (c.state = .countdown || c.state = .hold)

/-- A RELEASE with the given fields for hall `h`, absent where a field holds a value out of its codes: the checks of R49 in
order, then admission, upgrade, or the refusal. -/
def State.release (s : State) (h : Hall) (fields : Option (Basis × Bool)) : State × Result :=
  match s.mode with
  | .maintPending | .maintenance => (s, .lockout)
  | .uncommissioned | .startup => (s, .notCommissioned)
  | .normal =>
    if !(s.hallRec h).commissioned then (s, .notCommissioned)
    else if s.selectorFaulted h then (s, .selectorFault)
    else match fields with
      | none => (s, .badField)
      | some (basis, asked) =>
        match s.claim h with
        | none => (s.openClaim h basis asked, .accepted)
        | some c =>
          if c.state.terminal then (s.openClaim h basis asked, .accepted)
          else if isUpgrade basis c then (s.upgrade h c, .accepted)
          else (s, .duplicate)

/-- An ABORT for hall `h` (R66). -/
def State.abort (s : State) (h : Hall) : State × Result :=
  match s.claim h with
  | none => (s, .noClaim)
  | some c => if c.state.shortOfFiring then (s.endClaim h .aborted .abortedByPanel, .accepted) else (s, .tooLate)

/-! ### Hold (R59 to R64) -/

/-- Hall `h`'s claim enters HOLD with `left` ms remaining; the hold limit deadline is loaded unless the limit is 0
(R60, R61). -/
def State.enterHold (s : State) (h : Hall) (left : Nat) : State :=
  let s1 := s.updClaim h fun c =>
    { c with state := .hold, remaining := some left, holdStartedAt := some s.now, readyAt := none }
  if s.timing.holdLimit = 0 then s1.removeUnit h else s1.loadUnit h (s.now + ms s.timing.holdLimit) .holdLimit

/-- A HOLD EDGE handed to the Claim Table for hall `h` (R60 to R62). -/
def State.holdEdge (s : State) (h : Hall) : State :=
  match s.claim h with
  | none => s
  | some c =>
    match c.state with
    | .countdown => s.enterHold h ((s.unit h).remaining s.now)
    | .waiting => (s.leaveWaitList h).enterHold h 0
    | .selecting =>
      ((s.updClaim h fun c => { c with schedule := none }).enterHold h 0).withdrawGrant h
    | _ => s

/-- A hold of hall `h`'s claim ends: the larger of the stored remaining and the resume minimum (R63, R64). -/
def State.endHold (s : State) (h : Hall) (c : Claim) : State :=
  let r := c.remaining.getD 0
  let p := s.timing.resumeMinimum
  if p ≤ r then s.resume h r .remaining else s.resume h p .resumeMin

/-- A HOLD FALL: handed to the Claim Table when hall `h`'s claim is in HOLD (R59, R63). -/
def State.holdFall (s : State) (h : Hall) : State :=
  match s.claim h with
  | some c => if c.state = .hold then s.endHold h c else s
  | none => s

/-- The hold level of a POLL on hall `h`'s port, compared with the last observed level and the re-arm flag (R59). -/
def State.observeHold (s : State) (h : Hall) (level : Bool) : State :=
  let p := s.port h
  if level then
    let s1 := if !p.holdLevel && !p.reArm then s.holdEdge h else s
    s1.updPort h fun p => { p with holdLevel := true }
  else
    let s1 := s.updPort h fun p => { p with reArm := false, holdLevel := false }
    s1.holdFall h

/-! ### Expiries and the re-evaluation -/

/-- Hall `h`'s claim becomes WAITING with ready at now; it is still to join the wait list (R55, R56). -/
def State.makeWaiting (s : State) (h : Hall) : State :=
  s.updClaim h fun c => { c with state := .waiting, readyAt := some s.now }

/-- Hall `h`'s claim holds at least one cylinder. -/
def State.holdsCylinders (s : State) (h : Hall) : Bool :=
  match s.claim h with
  | some c => !c.allocation.isEmpty
  | none => false

/-- The countdown of hall `h`'s claim is over: WAITING with an allocation, else a first allocation, then WAITING or STARVED
(R55). -/
def State.countdownOver (s : State) (h : Hall) : State :=
  let s1 := if s.holdsCylinders h then s else s.firstAllocation h
  if s1.holdsCylinders h then (s1.makeWaiting h).join [h]
  else s1.updClaim h fun c => { c with state := .starved }

/-- One try of a starved re-evaluation: a claim with the STARVED flag set has a first allocation tried; one in STARVED that
is given cylinders becomes WAITING and is listed to join (R86). -/
def State.tryStarved (acc : State × List Hall) (h : Hall) : State × List Hall :=
  match acc.1.claim h with
  | none => acc
  | some c =>
    if c.flags.starved && !c.state.terminal then
      let s1 := acc.1.firstAllocation h
      if s1.holdsCylinders h && c.state = .starved then (s1.makeWaiting h, acc.2 ++ [h]) else (s1, acc.2)
    else acc

/-- The STARVED RE-EVALUATION: every claim of the admission order tried in turn, then the joins (R86). -/
def State.reEvaluate (s : State) : State :=
  let r := s.order.foldl State.tryStarved (s, [])
  if r.2.isEmpty then r.1 else r.1.join r.2

/-- LOCKOUT: every claim short of FIRING becomes ABORTED with ABORTED_LOCKOUT (R68). The one event hands at most one POOL
GAIN (R24). -/
def State.lockout (s : State) : State :=
  let s1 := allHalls.foldl
    (fun s h =>
      match s.claim h with
      | some c => if c.state.shortOfFiring then s.endClaim h .aborted .abortedLockout else s
      | none => s) s
  { s1 with poolGains := min s1.poolGains (s.poolGains + 1) }

end Sys2Proof.Machine
end

