-- ==== Sys2Proof/Machine/Sequencer.lean ====
section
/-! DEFINITION. The Discharge Sequencer: firing a line, line completion, confirmation, the end DISCHARGED, deferral and
abandonment, and pulse readback (chapter 6). -/

namespace Sys2Proof.Machine

/-- `f` is applied to the schedule of hall `h`'s claim, if it has one. -/
def State.updSchedule (s : State) (h : Hall) (f : Schedule → Schedule) : State :=
  s.updClaim h fun c => { c with schedule := c.schedule.map f }

/-- `f` is applied to the line at place `i` (from 0). -/
def Schedule.updLine (sc : Schedule) (i : Nat) (f : Line → Line) : Schedule :=
  { sc with lines := sc.lines.modify i f }

/-- The line time of the LINE IN HAND, whose place equals the cursor (R114). -/
def Schedule.lastLineTime (sc : Schedule) : Option Time := (sc.lines[sc.cursor - 1]?).bind (·.time)

/-- Cylinder `k` is ASSIGNED to hall `h`. -/
def State.assignedTo (s : State) (h : Hall) (k : CylIdx) : Bool :=
  match s.cyl k with
  | some c => c.disposition = .assigned h
  | none => false

/-- The claim of hall `h` becomes DISCHARGED, in the steps of R127. -/
def State.discharge (s : State) (h : Hall) (reason : EndReason) : State :=
  let s1 := s.updClaim h fun c => { c with state := .discharged, endReason := some reason, endedAt := some s.now }
  let s2 := (s1.removeUnit h).setSwitchCapture .disarmed
  let s3 := if reason = .unconfirmed then s2.setLatch h .unconfirmed else s2
  let s4 := s3.setLatch h .discharged
  let s5 := s4.setOrder (s4.order.filter fun j => j ≠ h)
  (s5.endGrant h).maintPendingEnd

/-- Entry to CONFIRMING (R124): CONFIRMED at once with the switch capture already taken; otherwise the confirm deadline,
measured from the line time of the last line fired. -/
def State.enterConfirming (s : State) (h : Hall) : State :=
  match s.claim h with
  | none => s
  | some c =>
    let s1 := s.updClaim h fun c => { c with state := .confirming }
    if c.dischargeSeenAt.isSome then s1.discharge h .confirmed
    else
      let last := ((c.schedule.bind (·.lastLineTime)).getD s.now)
      s1.loadUnit h (last + ms s.timing.confirmTimeout) .confirm

/-- LINE COMPLETION (R121): with no line after the cursor the claim enters CONFIRMING, otherwise it stays in FIRING. -/
def State.lineCompletion (s : State) (h : Hall) : State :=
  match (s.claim h).bind (·.schedule) with
  | none => s
  | some sc => if sc.cursor < sc.lines.length then s else s.enterConfirming h

/-- To FIRE the next line of hall `h`'s claim at now, in the steps of R116. -/
def State.fireLine (s : State) (h : Hall) : State :=
  match (s.claim h).bind (·.schedule) with
  | none => s
  | some sc =>
    match sc.lines[sc.cursor]? with
    | none => s
    | some line =>
      let pulsed := line.cyls.filter (s.assignedTo h)
      let fire (l : Line) : Line :=
        { l with time := some s.now, pulsed := pulsed, status := if pulsed.isEmpty then .done else .pulsing }
      let s1 := pulsed.foldl State.firePulse s
      let s2 := s1.updSchedule h fun sc =>
        { (sc.updLine sc.cursor fire) with cursor := sc.cursor + 1, outstanding := pulsed.length }
      let s3 := s2.loadUnit h (s.now + ms s.timing.lineInterval) .nextLine
      if pulsed.isEmpty then s3.lineCompletion h else s3

/-- The selector capture of the grant holder's hall, with edge time `t`, is taken (R100, R115). -/
def State.beginDischarge (s : State) (h : Hall) (t : Time) : State :=
  let s1 := s.updClaim h fun c =>
    { c with selectorOpenAt := some t, state := .firing, dischargeSeenAt := none }
  let s2 := (s1.removeUnit h).setManifold { s1.manifold with state := .discharging }
  (s2.setSwitchCapture .armed).fireLine h

/-- The next line is DEFERRED (R117). -/
def State.deferLine (s : State) (h : Hall) : State :=
  let s1 := s.updSchedule h fun sc =>
    sc.updLine sc.cursor fun l => { l with status := .deferred, deferredAt := some s.now }
  s1.loadUnit h (s.now + ms s.timing.selectorOpenTimeout) .deferral

/-- The next line deadline of hall `h`'s claim is not taken while a pulse of the line in hand is outstanding: every
completion of a line is taken before the next line time (R118; assumption entry 16). -/
def State.pulsesOutstanding (s : State) (h : Hall) : Bool :=
  match (s.claim h).bind (·.schedule) with
  | some sc => sc.outstanding ≠ 0
  | none => false

/-- The next line deadline of hall `h`'s claim expires in FIRING (R117). -/
def State.lineTime (s : State) (h : Hall) : State :=
  if s.selectorReading h = some .opened then s.fireLine h else s.deferLine h

/-- The deferral deadline expires: the unfired lines are ABANDONED, in the steps of R120. -/
def State.abandon (s : State) (h : Hall) : State :=
  let s1 := s.updSchedule h fun sc =>
    { sc with lines := sc.lines.take sc.cursor ++
        (sc.lines.drop sc.cursor).map fun l => { l with status := .abandoned } }
  let s2 := s1.releaseAllocation h
  let s3 := s2.updClaim h fun c => { c with flags := { c.flags with part := true } }
  (s3.setLatch h .part).enterConfirming h

/-- An edge of hall `h`'s selector reading to `v`, at the Sequencer: an edge to OPEN fires the deferred line of the grant
holder in FIRING (R119, R146). -/
def State.sequencerEdge (s : State) (h : Hall) (v : Valve) : State :=
  if v = .opened ∧ s.manifold.holder = some h ∧ s.claimState h = some .firing ∧ (s.unit h).kind? = some .deferral then
    s.fireLine h
  else s

/-- A pulse of the line in hand has completed: pulses outstanding falls by one, and at 0 the line is DONE and its completion
is taken (R121, R122, R123). -/
def State.finishPulse (s : State) (h : Hall) : State :=
  let s1 := s.updSchedule h fun sc => { sc with outstanding := sc.outstanding - 1 }
  match (s1.claim h).bind (·.schedule) with
  | none => s1
  | some sc =>
    if sc.outstanding = 0 then
      (s1.updSchedule h fun sc => sc.updLine (sc.cursor - 1) fun l => { l with status := .done }).lineCompletion h
    else s1

/-- Cylinder `k`'s entry moves from the allocation of hall `h`'s claim to its fired list, and the sums follow. The OVER_CEILING
check on the lowered sum sets nothing, and SHORT is not evaluated in FIRING (R19, R41, R122; assumption entry 34). -/
def State.creditFired (s : State) (h : Hall) (k : CylIdx) : State :=
  s.updClaim h fun c =>
    Claim.resum { c with allocation := c.allocation.filter fun e => e.cyl ≠ k, fired := c.fired ++ [k] }

/-- A pulse of cylinder `k` reads NORMAL: the cylinder is FIRED, and its entry moves to the fired list (R19, R122). -/
def State.pulseNormal (s : State) (h : Hall) (k : CylIdx) : State :=
  ((s.setDisposition k .fired).creditFired h k).finishPulse h

/-- The E that cylinder `k`'s entry carries in hall `h`'s claim (R91). -/
def State.entryE (s : State) (h : Hall) (k : CylIdx) : Nat :=
  match s.claim h with
  | some c => ((c.allocation.find? fun e => e.cyl = k).map (·.e)).getD 0
  | none => 0

/-- A pulse of cylinder `k` reads OPEN or SHORT: ACTUATOR_FAULT with cause PULSE, the entry leaves, and a replacement run is
made for its E (R21, R91, R123). -/
def State.pulseFailed (s : State) (h : Hall) (k : CylIdx) : State :=
  let debt := s.entryE h k
  let s1 := (s.setDisposition k (.actuatorFault .pulse)).dropEntry h k
  (s1.replace h debt).finishPulse h

/-- The claim of hall `h` loses the ASSIGNED cylinder `k` to a supervision fault: short of FIRING it is a removal, in FIRING
it calls for a replacement (R20, R91). -/
def State.lostToFault (s : State) (h : Hall) (k : CylIdx) : State :=
  match s.claim h with
  | none => s
  | some c =>
    if c.state = .firing then (s.dropEntry h k).replace h (s.entryE h k) else s.removal h k

/-- The manifold switch capture, with edge time `t`, is taken for the grant holder `h` (R125). -/
def State.dischargeSeen (s : State) (h : Hall) (t : Time) : State :=
  let seen := s.updClaim h fun c => { c with dischargeSeenAt := some t }
  match s.claimState h with
  | some .firing => seen
  | some .confirming => seen.discharge h .confirmed
  | _ => s

end Sys2Proof.Machine
end

