-- ==== Sys2Proof/Machine/CylinderTable.lean ====
section
/-! DEFINITION. The Cylinder Table: windows, charge fraction, condition, effective content, the hand-over of a sample's
outcome, rack temperatures, and the changes that isolation, restore and commissioning writes make (chapter 1). -/

namespace Sys2Proof.Machine

/-! ### The arithmetic of one record (R4 to R13) -/

/-- A window filled with one pressure (R4). -/
def Window.fill (p : Nat) : Window := { w0 := p, w1 := p, w2 := p, w3 := p }

/-- The entry at `i` is replaced (R5). -/
def Window.put (w : Window) (i : Fin 4) (p : Nat) : Window :=
  match i with
  | 0 => { w with w0 := p }
  | 1 => { w with w1 := p }
  | 2 => { w with w2 := p }
  | 3 => { w with w3 := p }

/-- The averaged pressure: a quarter of the sum of the entries, rounded down (R6). -/
def Window.average (w : Window) : Nat := (w.w0 + w.w1 + w.w2 + w.w3) / 4

/-- The temperature Tr used for rack `r`: 150 while it has no reading (R9). -/
def State.rackTemp (s : State) (r : Rack) : Int := (s.rackTemps[r]).getD Config.defaultRackTemperature

/-- The charge fraction, limited to 1000 (R10). -/
def chargeFraction (pAvg pNom : Nat) (tr : Int) : Nat :=
  min 1000 (pAvg * 2881 * 1000 / (pNom * (2731 + tr).toNat))

/-- Classification without hysteresis (R12). -/
def classify (low empty phi : Nat) : Condition :=
  if phi < empty then .empty else if phi < low then .low else .full

/-- Classification with hysteresis, from the condition held before (R13). An UNREAD record is not classified. -/
def classifyFrom (low empty : Nat) (before : Condition) (phi : Nat) : Condition :=
  match before with
  | .unread => .unread
  | .full => if phi < empty then .empty else if phi < low then .low else .full
  | .low => if phi < empty then .empty else if phi < low + Config.hysteresis then .low else .full
  | .empty =>
    if phi < empty + Config.hysteresis then .empty
    else if phi < low + Config.hysteresis then .low else .full

/-- The effective content of a cylinder in condition `cond` (R11). -/
def effective (qNom phi : Nat) : Condition → Nat
  | .full | .low => qNom * phi / 1000
  | .empty | .unread => 0

/-- The record `c` with phi, condition and E made anew from its averaged pressure, for the image values `q` and the
thresholds (R10 to R13); `seeding` selects the classification without hysteresis. -/
def Cylinder.recompute (c : Cylinder) (q : CylinderRecord) (t : Thresholds) (tr : Int) (seeding : Bool) : Cylinder :=
  let phi := chargeFraction c.pAvg q.pNom tr
  let cond := if seeding then classify t.low t.empty phi else classifyFrom t.low t.empty c.condition phi
  { c with phi := phi, condition := cond, e := effective q.qNom phi cond }

/-- A valid sample SEEDS the window (R4). -/
def Cylinder.seeds (c : Cylinder) : Bool := !c.seeded || c.streak = 3

/-- The window and p_avg after a valid sample of pressure `p` (R4, R5, R6). -/
def Cylinder.takePressure (c : Cylinder) (p : Nat) : Cylinder :=
  let w := if c.seeds then Window.fill p else (c.window.getD (Window.fill p)).put c.pos p
  { c with window := some w, pos := if c.seeds then 0 else c.pos + 1, seeded := true, streak := 0, pAvg := w.average }

/-- A valid sample of pressure `p`, stages 1 to 5 of R14. -/
def Cylinder.validSample (c : Cylinder) (p : Nat) (q : CylinderRecord) (t : Thresholds) (tr : Int) : Cylinder :=
  (c.takePressure p).recompute q t tr c.seeds

/-- An invalid sample: the streak grows to at most 3, and on reaching 3 the record is UNREAD with E 0 (R7, R8). -/
def Cylinder.invalidSample (c : Cylinder) : Cylinder :=
  if c.streak = 2 then { c with streak := 3, condition := .unread, e := 0 }
  else if c.streak < 2 then { c with streak := c.streak + 1 }
  else c

/-! ### A sample at the table (R3, R14, R18, R24) -/

/-- The outcome of a sample that has changed cylinder `k`'s record from `old` to `new` is handed over: to the owner of an
ASSIGNED cylinder, or as a POOL GAIN for a FREE one (R14, R18, R24). -/
def State.handOver (s : State) (k : CylIdx) (valid : Bool) (old new : Cylinder) : State :=
  match new.disposition with
  | .assigned h =>
    match s.claim h with
    | none => s
    | some c =>
      if valid && new.condition = .empty && c.state.toppedUp then (s.setDisposition k .free).removal h k
      else if new.e ≠ old.e then s.handE h k old.e new.e
      else s
  | _ => s.poolGainIf (gains (some old) (some new))

/-- A pressure sample of cylinder `k`, present when VALID, is taken whole (R3, R14). -/
def State.takeSample (s : State) (k : CylIdx) (p : Option Nat) : State :=
  match s.cyl k with
  | none => s
  | some c =>
    let new := match p with
      | some p => c.validSample p s.image.cylinders[k] s.image.thresholds (s.rackTemp (rackOf k))
      | none => c.invalidSample
    (s.setCyl k (some new)).handOver k p.isSome c new

/-- A rack temperature sample of rack `r`, present when VALID (R9). -/
def State.takeRackSample (s : State) (r : Rack) (t : Option Int) : State :=
  match t with
  | some t => { s with rackTemps := s.rackTemps.set r (some (clampInt (-400) 850 t)) }
  | none => s

/-! ### Supervision results at the table (R20, R22, R154) -/

/-- A supervision check of a CYLINDER(`k`) channel reads OPEN or SHORT (R20). -/
def State.actuatorFaulted (s : State) (k : CylIdx) : State :=
  match s.cyl k with
  | none => s
  | some c =>
    match c.disposition with
    | .free => s.setDisposition k (.actuatorFault .supervision)
    | .assigned h => (s.setDisposition k (.actuatorFault .supervision)).lostToFault h k
    | _ => s

/-- A third good check of a CYLINDER(`k`) channel (R22). -/
def State.actuatorGood (s : State) (k : CylIdx) : State :=
  match s.cyl k with
  | none => s
  | some c =>
    if c.disposition = .actuatorFault .supervision then
      let s1 := s.setDisposition k .free
      s1.poolGainIf (s1.eligible k)
    else s

/-! ### Isolation, restore and commissioning (R2, R23) -/

/-- MAINT_ISOLATE acts on cylinder `k` (R23). -/
def State.isolate (s : State) (k : CylIdx) : State := s.setDisposition k .isolated

/-- MAINT_RESTORE acts on cylinder `k`, with a POOL GAIN when it leaves the cylinder eligible (R23, R24). -/
def State.restore (s : State) (k : CylIdx) : State :=
  let s1 := match s.cyl k with
    | some c =>
      match c.disposition with
      | .isolated | .fired | .actuatorFault _ => s.setDisposition k .free
      | _ => s
    | none => s
  s1.poolGainIf (s1.eligible k)

/-- A CYLINDER record's write, already stored in the image, reaches the running record, which was fitted as `old` says
(R2). -/
def State.cylinderWritten (s : State) (k : CylIdx) (old : CylinderRecord) : State :=
  let new := s.image.cylinders[k]
  let record := match s.cyl k with
    | none => if new.fitted then some (resetCylinder true) else none
    | some c =>
      if !new.fitted then none
      else if (new.qNom ≠ old.qNom ∨ new.pNom ≠ old.pNom) ∧ c.seeded ∧ c.condition ≠ .unread then
        some (c.recompute new s.image.thresholds (s.rackTemp (rackOf k)) false)
      else some c
  (s.setCyl k record).poolGainIf (gains (s.cyl k) record)

/-! ### What the outside sees (R25) -/

/-- The eligible records of racks of role `role` with condition `cond`. -/
def State.poolOf (s : State) (role : RackRole) (cond : Condition) : List Entry :=
  (allCylinders.filter fun k => s.rackRole k = role).filterMap (s.candidate cond)

/-- The INVENTORY SUMMARY (R25). -/
def State.inventory (s : State) : Inventory :=
  let eligibleE (role : RackRole) :=
    sumE (s.poolOf role .full) + sumE (s.poolOf role .low) + sumE (s.poolOf role .unread)
  { mainFull := (s.poolOf .main .full).length
    mainLow := (s.poolOf .main .low).length
    mainUnread := (s.poolOf .main .unread).length
    reserveFull := (s.poolOf .reserve .full).length
    reserveLow := (s.poolOf .reserve .low).length
    reserveUnread := (s.poolOf .reserve .unread).length
    mainE := eligibleE .main
    reserveE := eligibleE .reserve }

end Sys2Proof.Machine
end

