-- ==== Sys2Proof/Machine/Circuits.lean ====
section
/-! DEFINITION. The Release Circuit Bank: supervision checks, the selector-faulted marks, and fire pulse completions
(chapter 8). -/

namespace Sys2Proof.Machine

/-! ### Supervision checks (R153 to R156) -/

/-- What a check of channel record `ch` measures on the line: with the drive current when it is energised, with the
quiescent test current otherwise (R153). -/
def checkResult (ch : Channel) (m : LineMeasurement) : LineState :=
  if ch.energised then classifyDrive m else classifyQuiescent m

/-- The channel record after a check with result `r` (R153). -/
def Channel.checked (ch : Channel) (r : LineState) : Channel :=
  { ch with measured := r, goodChecks := if r = .normal then min 3 (ch.goodChecks + 1) else 0 }

/-- The check is a THIRD GOOD CHECK: it brings the good-check count from 2 to 3 (R153). -/
def thirdGoodCheck (ch : Channel) (r : LineState) : Bool := r = .normal && ch.goodChecks = 2

/-- Hall `h` is marked selector-faulted, and the Claim Table told: a claim in COUNTDOWN, HOLD, STARVED or WAITING fails
(R69, R155). -/
def State.markFaulted (s : State) (h : Hall) : State :=
  if s.selectorFaulted h then s
  else
    let s1 := s.setFaulted h true
    match s1.claimState h with
    | some .countdown | some .hold | some .starved | some .waiting => s1.endClaim h .failed .failedSelectorFault
    | _ => s1

/-- The result `r` of a check is handed to the owner of the channel's function (R154 to R156). -/
def State.handCheck (s : State) (role : Role) (r : LineState) (third : Bool) : State :=
  match role with
  | .cylinder k =>
    if r = .opened ∨ r = .shorted then s.actuatorFaulted k else if third then s.actuatorGood k else s
  | .selector h =>
    if r = .opened ∨ r = .shorted then s.markFaulted h else if third then s.setFaulted h false else s
  | .vent | .unused => s

/-- A supervision check of channel `c`: an UNUSED channel is not checked, and a slot that falls in the channel's pulse is
passed over (R149, R152, R153). -/
def State.superviseChannel (s : State) (c : ChanIdx) (m : LineMeasurement) : State :=
  let ch := s.channel c
  if s.role c = .unused ∨ ch.pulse.isSome then s
  else
    let r := checkResult ch m
    (s.setChannel c (ch.checked r)).handCheck (s.role c) r (thirdGoodCheck ch r)

/-! ### Fire pulse completions (R151) -/

/-- The fire pulse of channel `c` has run its length at now (R118, R151). -/
def State.pulseOver (s : State) (c : ChanIdx) : Bool :=
  match (s.channel c).pulse with
  | some start => reached (start + ms s.timing.firePulse) s.now
  | none => false

/-- The channel record after a fire pulse with reading `r`: the pulse is absent, and the good-check count stands (R151). -/
def Channel.pulsed (ch : Channel) (r : LineState) : Channel :=
  { ch with measured := r, failedPulse := ch.failedPulse || r ≠ .normal, pulse := none }

/-- The pulse reading `r` of cylinder `k` is handed to the Cylinder Table and the Sequencer when the cylinder is ASSIGNED to
a claim in FIRING, the one state in which lines are pulsed (R19, R21, R115). -/
def State.handPulse (s : State) (k : CylIdx) (r : LineState) : State :=
  match s.cyl k with
  | none => s
  | some y =>
    match y.disposition with
    | .assigned h =>
      if s.claimState h ≠ some .firing then s else if r = .normal then s.pulseNormal h k else s.pulseFailed h k
    | _ => s

/-- The fire pulse of channel `c` completes with the measurements `msr`: the channel is de-energised, and the reading handed
over (R118, R151). A pulse that is not in progress, or has not run its length, has no completion. -/
def State.completePulse (s : State) (c : ChanIdx) (msr : List PulseMeasurement) : State :=
  if s.pulseOver c then
    let r := pulseReading msr
    let s1 := (s.setChannel c ((s.channel c).pulsed r)).redrive
    match s.role c with
    | .cylinder k => s1.handPulse k r
    | _ => s1
  else s

end Sys2Proof.Machine
end

