-- ==== Sys2Proof/Machine/ImageStore.lean ====
section
/-! DEFINITION. The commissioning image as bytes, its CRC, its validation, and the records of a COMMISSION_WRITE
(sections 10.3, 10.4 and 12.4). -/

namespace Sys2Proof.Machine

/-! ### The CRC (R192) -/

/-- One left shift of the CRC register (R192). -/
def crcShift (r : BitVec 16) : BitVec 16 := if r.msb then (r <<< 1) ^^^ 0x1021 else r <<< 1

/-- One byte into the CRC register (R192). -/
def crcByte (r : BitVec 16) (b : Byte) : BitVec 16 :=
  let x := r ^^^ (b.zeroExtend 16 <<< 8)
  crcShift (crcShift (crcShift (crcShift (crcShift (crcShift (crcShift (crcShift x)))))))

/-- The CRC of some bytes, from 0xFFFF (R192). -/
def crc16 (bs : List Byte) : BitVec 16 := bs.foldl crcByte 0xFFFF

/-! ### Records as bytes (section 12.4) -/

/-- A yes/no field. -/
def boolByte (b : Bool) : Byte := if b then 1 else 0

/-- A level field: 0 MADE, 1 BROKEN (R193). -/
def levelByte : Level → Byte
  | .made => 0
  | .broken => 1

/-- The code of a reserve policy. -/
def policyByte : ReservePolicy → Byte
  | .never => 0
  | .onRequest => 1
  | .always => 2

/-- The code of a rack role. -/
def rackRoleByte : RackRole → Byte
  | .main => 0
  | .reserve => 1

/-- A HALL record (16 bytes). -/
def hallBytes (r : HallRecord) : List Byte :=
  [boolByte r.commissioned] ++ bytesOf 2 r.volume ++ bytesOf 1 r.margin ++ bytesOf 1 r.minFraction ++
    [policyByte r.reservePolicy] ++ bytesOf 2 (twos 16 r.fallback) ++ bytesOf 3 r.autoDelay ++
    bytesOf 2 r.manualDelay ++ bytesOf 2 r.supervisionTimeout ++ [levelByte r.openLevel]

/-- A RACK record (1 byte). -/
def rackBytes (r : RackRole) : List Byte := [rackRoleByte r]

/-- A CYLINDER record in read form (6 bytes). -/
def cylinderBytes (r : CylinderRecord) : List Byte :=
  [boolByte r.fitted] ++ bytesOf 2 r.qNom ++ bytesOf 2 r.pNom ++ [boolByte r.inService]

/-- A table point (2 bytes). -/
def factorBytes (f : Nat) : List Byte := bytesOf 2 f

/-- The TIMING record (19 bytes). -/
def timingBytes (t : Timing) : List Byte :=
  bytesOf 2 t.resumeMinimum ++ bytesOf 3 t.holdLimit ++ bytesOf 2 t.selectorOpenTimeout ++
    bytesOf 2 t.selectorCloseTimeout ++ bytesOf 2 t.lineInterval ++ bytesOf 2 t.firePulse ++
    bytesOf 2 t.confirmTimeout ++ bytesOf 1 t.ventThreshold ++ bytesOf 3 t.ventTimeout

/-- The THRESHOLDS record (5 bytes). -/
def thresholdsBytes (t : Thresholds) : List Byte :=
  bytesOf 2 t.low ++ bytesOf 2 t.empty ++ [levelByte t.flowLevel]

/-- A CHANNEL record (2 bytes). -/
def roleBytes : Role → List Byte
  | .unused => [0, 0]
  | .vent => [1, 0]
  | .selector h => [2, BitVec.ofNat 8 (h.val + 1)]
  | .cylinder k => [3, BitVec.ofNat 8 k.val]

/-- The contents the image CRC covers, in the order of R195. -/
def imageBytes (i : Image) : List Byte :=
  i.halls.toList.flatMap hallBytes ++ i.racks.toList.flatMap rackBytes ++
    i.cylinders.toList.flatMap cylinderBytes ++ i.designTable.toList.flatMap factorBytes ++
    i.ceilingTable.toList.flatMap factorBytes ++ timingBytes i.timing ++ thresholdsBytes i.thresholds ++
    i.roles.toList.flatMap roleBytes

/-- The IMAGE CRC (R189, R195). -/
def imageCrc (i : Image) : BitVec 16 := crc16 (imageBytes i)

/-! ### Ranges (section 10.3) -/

/-- `x` lies in `lo..hi`. -/
def within (lo hi x : Nat) : Bool := lo ≤ x && x ≤ hi

/-- Every field of a HALL record lies in its range. -/
def hallInRange (r : HallRecord) : Bool :=
  within 1 65535 r.volume && within 0 50 r.margin && within 0 100 r.minFraction &&
    (-400 ≤ r.fallback && r.fallback ≤ 850) && within 0 120000 r.autoDelay && within 0 60000 r.manualDelay &&
    within 1000 10000 r.supervisionTimeout

/-- Q_nom and p_nom lie in their ranges. -/
def cylinderInRange (qNom pNom : Nat) : Bool := within 1 65535 qNom && within 1 4000 pNom

/-- A table factor lies in its range. -/
def factorInRange (f : Nat) : Bool := within 1 65535 f

/-- Every field of the TIMING record lies in its range. -/
def timingInRange (t : Timing) : Bool :=
  within 0 60000 t.resumeMinimum && (t.holdLimit = 0 || within 10000 600000 t.holdLimit) &&
    within 2000 30000 t.selectorOpenTimeout && within 2000 30000 t.selectorCloseTimeout &&
    within 200 2000 t.lineInterval && within 50 500 t.firePulse && within 2000 30000 t.confirmTimeout &&
    within 5 100 t.ventThreshold && within 10000 300000 t.ventTimeout

/-- L and M lie in their ranges. -/
def thresholdsInRange (t : Thresholds) : Bool := within 500 999 t.low && within 0 979 t.empty

/-! ### Validation (R188) -/

/-- The checks of validation, in their order (R188). -/
inductive ImageCheck
  | range
  | tableOrder
  | thresholds
  | pulse
  | duplicateRole
  | cylinderChannels
  | selectorChannels
  | ventChannel
  deriving DecidableEq, Repr

/-- How many channels hold a role. -/
def Image.countRole (i : Image) (r : Role) : Nat := (i.roles.toList.filter fun x => x = r).length

/-- Whether an image passes one check (R188). The roles and levels of the image are in range by their type. -/
def Image.passes (i : Image) : ImageCheck → Bool
  | .range =>
    i.halls.toList.all (fun r => !r.commissioned || hallInRange r) &&
      i.cylinders.toList.all (fun r => !r.fitted || cylinderInRange r.qNom r.pNom) &&
      i.designTable.toList.all factorInRange && i.ceilingTable.toList.all factorInRange &&
      timingInRange i.timing && thresholdsInRange i.thresholds
  | .tableOrder => allPoints.all fun p => i.designTable[p] ≤ i.ceilingTable[p]
  | .thresholds => i.thresholds.empty + 20 ≤ i.thresholds.low
  | .pulse => i.timing.firePulse < i.timing.lineInterval
  | .duplicateRole => i.roles.toList.all fun r => r = .unused || i.countRole r = 1
  | .cylinderChannels => allCylinders.all fun k => !i.cylinders[k].fitted || i.countRole (.cylinder k) = 1
  | .selectorChannels => allHalls.all fun h => !i.halls[h].commissioned || i.countRole (.selector h) = 1
  | .ventChannel => i.countRole .vent = 1

/-- The checks in the order of R188. -/
def imageChecks : List ImageCheck :=
  [.range, .tableOrder, .thresholds, .pulse, .duplicateRole, .cylinderChannels, .selectorChannels, .ventChannel]

/-- VALIDATION: absent for VALID, otherwise the first check that fails (R188). -/
def validate (i : Image) : Option ImageCheck := imageChecks.find? fun c => !i.passes c

/-- The code of a validation result: 0 VALID, or 1 to 8 for the check that fails first (section 12.4). -/
def validationCode : Option ImageCheck → Nat
  | none => 0
  | some .range => 1
  | some .tableOrder => 2
  | some .thresholds => 3
  | some .pulse => 4
  | some .duplicateRole => 5
  | some .cylinderChannels => 6
  | some .selectorChannels => 7
  | some .ventChannel => 8

/-- The START-UP IMAGE CHECK: the image validates and the stored CRC is its CRC (R189). -/
def startupCheck (st : Store) : Bool := (validate st.image).isNone && imageCrc st.image = st.crc

/-! ### Records named and written (R178, R184, section 12.4) -/

/-- A record of the image named by kind and index, in its range (section 10.3). -/
inductive RecordName
  | hall (h : Hall)
  | rack (r : Rack)
  | cylinder (k : CylIdx)
  | designPoint (i : Point)
  | ceilingPoint (i : Point)
  | timing
  | thresholds
  | channel (c : ChanIdx)
  | image
  deriving DecidableEq, Repr

/-- The record that a kind of 1 to 9 and an index name, absent when the index is out of its range (section 10.3). -/
def recordName (kind index : Byte) : Option RecordName :=
  match kind.toNat with
  | 1 => (hallField index).map .hall
  | 2 => (indexField 4 index).map .rack
  | 3 => (indexField 64 index).map .cylinder
  | 4 => (indexField 16 index).map .designPoint
  | 5 => (indexField 16 index).map .ceilingPoint
  | 6 => (indexField 1 index).map fun _ => .timing
  | 7 => (indexField 1 index).map fun _ => .thresholds
  | 8 => (indexField 80 index).map .channel
  | 9 => (indexField 1 index).map fun _ => .image
  | _ => none

/-- The length of a record in write form, for a kind of 1 to 8 (section 12.4). -/
def writeLength (kind : Byte) : Option Nat :=
  match kind.toNat with
  | 1 => some 16
  | 2 => some 1
  | 3 => some 5
  | 4 => some 2
  | 5 => some 2
  | 6 => some 19
  | 7 => some 5
  | 8 => some 2
  | _ => none

/-- A HALL record read from its 16 bytes; absent when a coded field is out of its codes or a number out of its range. -/
def parseHall : List Byte → Option HallRecord
  | [a, v1, v0, m, n, p, f1, f0, d2, d1, d0, e1, e0, t1, t0, l] =>
    match yesNo a, levelField l with
    | some commissioned, some level =>
      let policy : Option ReservePolicy :=
        if p = 0 then some .never else if p = 1 then some .onRequest else if p = 2 then some .always else none
      match policy with
      | some policy =>
        let r : HallRecord :=
          { commissioned := commissioned, volume := number [v1, v0], margin := number [m], minFraction := number [n]
            reservePolicy := policy, fallback := signed16 f1 f0, autoDelay := number [d2, d1, d0]
            manualDelay := number [e1, e0], supervisionTimeout := number [t1, t0], openLevel := level }
        if hallInRange r then some r else none
      | none => none
    | _, _ => none
  | _ => none

/-- The TIMING record read from its 19 bytes; absent when a field is out of its range. -/
def parseTiming : List Byte → Option Timing
  | [a1, a0, b2, b1, b0, c1, c0, d1, d0, e1, e0, f1, f0, g1, g0, h, i2, i1, i0] =>
    let t : Timing :=
      { resumeMinimum := number [a1, a0], holdLimit := number [b2, b1, b0], selectorOpenTimeout := number [c1, c0]
        selectorCloseTimeout := number [d1, d0], lineInterval := number [e1, e0], firePulse := number [f1, f0]
        confirmTimeout := number [g1, g0], ventThreshold := number [h], ventTimeout := number [i2, i1, i0] }
    if timingInRange t then some t else none
  | _ => none

/-- A channel role read from its two bytes; the target must be 0 for UNUSED and VENT (section 12.4). -/
def parseRole (role target : Byte) : Option Role :=
  match role.toNat with
  | 0 => if target = 0 then some .unused else none
  | 1 => if target = 0 then some .vent else none
  | 2 => (hallField target).map .selector
  | 3 => (indexField 64 target).map .cylinder
  | _ => none

/-- The record a COMMISSION_WRITE gives the record `name`, from the bytes of its write form; absent when any field is out of
its range (R184, R193). -/
def parseRecord (name : RecordName) (bs : List Byte) : Option RecordWrite :=
  match name, bs with
  | .hall h, bs => (parseHall bs).map (.hall h)
  | .rack r, [b] => if b = 0 then some (.rack r .main) else if b = 1 then some (.rack r .reserve) else none
  | .cylinder k, [f, q1, q0, p1, p0] =>
    match yesNo f with
    | some fitted =>
      if cylinderInRange (number [q1, q0]) (number [p1, p0]) then
        some (.cylinder k fitted (number [q1, q0]) (number [p1, p0]))
      else none
    | none => none
  | .designPoint i, [a, b] => if factorInRange (number [a, b]) then some (.designPoint i (number [a, b])) else none
  | .ceilingPoint i, [a, b] => if factorInRange (number [a, b]) then some (.ceilingPoint i (number [a, b])) else none
  | .timing, bs => (parseTiming bs).map .timing
  | .thresholds, [l1, l0, m1, m0, f] =>
    match levelField f with
    | some flow =>
      let t : Thresholds := { low := number [l1, l0], empty := number [m1, m0], flowLevel := flow }
      if thresholdsInRange t then some (.thresholds t) else none
    | none => none
  | .channel c, [r, t] => (parseRole r t).map (.channel c)
  | _, _ => none

/-- The record that a write names. -/
def RecordWrite.name : RecordWrite → RecordName
  | .hall h _ => .hall h
  | .rack r _ => .rack r
  | .cylinder k _ _ _ => .cylinder k
  | .designPoint i _ => .designPoint i
  | .ceilingPoint i _ => .ceilingPoint i
  | .timing _ => .timing
  | .thresholds _ => .thresholds
  | .channel c _ => .channel c

/-- The image with a write stored. A change of fitted writes in service with it (R2). -/
def Image.write (i : Image) : RecordWrite → Image
  | .hall h r => { i with halls := i.halls.set h r }
  | .rack r role => { i with racks := i.racks.set r role }
  | .cylinder k fitted q p =>
    let old := i.cylinders[k]
    let new : CylinderRecord :=
      { fitted := fitted, qNom := q, pNom := p
        inService := if fitted = old.fitted then old.inService else fitted }
    { i with cylinders := i.cylinders.set k new }
  | .designPoint p f => { i with designTable := i.designTable.set p f }
  | .ceilingPoint p f => { i with ceilingTable := i.ceilingTable.set p f }
  | .timing t => { i with timing := t }
  | .thresholds t => { i with thresholds := t }
  | .channel c r => { i with roles := i.roles.set c r }

/-- The in service field of cylinder `k` stored as `b` (R186). -/
def Image.setInService (i : Image) (k : CylIdx) (b : Bool) : Image :=
  { i with cylinders := i.cylinders.set k { i.cylinders[k] with inService := b } }

/-- The bytes of a record in read form, as it stands in the store (R187, section 12.4). -/
def Store.readRecord (st : Store) : RecordName → List Byte
  | .hall h => hallBytes st.image.halls[h]
  | .rack r => rackBytes st.image.racks[r]
  | .cylinder k => cylinderBytes st.image.cylinders[k]
  | .designPoint i => factorBytes st.image.designTable[i]
  | .ceilingPoint i => factorBytes st.image.ceilingTable[i]
  | .timing => timingBytes st.image.timing
  | .thresholds => thresholdsBytes st.image.thresholds
  | .channel c => roleBytes st.image.roles[c]
  | .image =>
    bytesOf 2 st.crc.toNat ++ bytesOf 2 (imageCrc st.image).toNat ++ bytesOf 1 (validationCode (validate st.image))

end Sys2Proof.Machine
end

