-- ==== Sys2Proof/Machine/Modes.lean ====
section
/-! DEFINITION. Mode Control: start-up and its completion, the maintenance exit, and the key (section 10.2). -/

namespace Sys2Proof.Machine

/-- The receiver begins to receive, in HUNTING (R164, R180). -/
def Receiver.begin (_ : Receiver) : Receiver :=
  { state := .hunting, buffer := [], lastByte := none, complete := none }

/-- Start-up completes: the mode is set from the key level and image valid, the outstanding set and the start-up deadline go,
and the ports begin to receive (R179, R180). -/
def State.completeStartup (s : State) : State :=
  let mode : Mode := if s.ctl.key = .on then .maintenance else if s.ctl.imageValid then .normal else .uncommissioned
  let s1 := s.setCtl { s.ctl with outstanding := [], startupUnit := .inhibited }
  let s2 := s1.setMode mode
  let s3 := { s2 with ports := tabulate 8 fun h => { s2.port h with rx := (s2.port h).rx.begin } }
  s3.setSite { s3.site with rx := s3.site.rx.begin }

/-- A first sample of `src` has arrived: in STARTUP it leaves the outstanding set, and the event that empties the set
completes start-up (R179). -/
def State.firstSample (s : State) (src : SampleSource) : State :=
  if s.mode = .startup ∧ src ∈ s.ctl.outstanding then
    let s1 := s.setCtl { s.ctl with outstanding := s.ctl.outstanding.filter fun x => x ≠ src }
    if s1.ctl.outstanding.isEmpty then s1.completeStartup else s1
  else s

/-- The MAINTENANCE EXIT: the stored image is validated, a valid image's CRC begins to be stored, and the mode is set
(R183, R189). -/
def State.maintenanceExit (s : State) : State :=
  let valid := (validate s.image).isNone
  let s1 := s.setCtl { s.ctl with imageValid := valid, exitPending := false }
  let s2 := if valid then s1.setStore { s1.store with crcStore := some (imageCrc s1.image) } else s1
  s2.setMode (if valid then .normal else .uncommissioned)

/-- The maintenance exit is made when exit pending is yes (R185, R186). -/
def State.exitIfPending (s : State) : State := if s.ctl.exitPending then s.maintenanceExit else s

/-- An edge of the key to ON is taken by the mode (R181, R183). -/
def State.keyTurnedOn (s : State) : State :=
  let s1 := s.setCtl { s.ctl with key := .on }
  match s.mode with
  | .normal =>
    let s2 := s1.lockout
    let busy := s2.manifold.state ≠ .idle ∨
      allHalls.any fun h => s2.claimState h = some .firing || s2.claimState h = some .confirming
    s2.setMode (if busy then .maintPending else .maintenance)
  | .uncommissioned => s1.setMode .maintenance
  | .maintenance => s1.setCtl { s1.ctl with exitPending := false }
  | .startup | .maintPending => s1

/-- An edge of the key to OFF is taken by the mode (R183). -/
def State.keyTurnedOff (s : State) : State :=
  let s1 := s.setCtl { s.ctl with key := .off }
  match s.mode with
  | .maintPending => s1.setMode .normal
  | .maintenance =>
    if s.store.write.isSome then s1.setCtl { s1.ctl with exitPending := true } else s1.maintenanceExit
  | .startup | .normal | .uncommissioned => s1

end Sys2Proof.Machine
end

