-- ==== Sys2Proof/Machine/Contacts.lean ====
section
/-! DEFINITION. The contact inputs: raw readings, establishment, edges and loop states, and the hand-over of a change of reading
to the blocks that watch it (sections 7.3 and 8.6). -/

namespace Sys2Proof.Machine

/-! ### Reading a contact (R143, R160) -/

/-- The contact of hall `h`'s selector input becomes `c`. -/
def State.setSelectorContact (s : State) (h : Hall) (c : Contact) : State :=
  s.setInputs { s.inputs with selectors := s.inputs.selectors.set h c }

/-- The contact of the manifold pressure switch becomes `c`. -/
def State.setSwitchContact (s : State) (c : Contact) : State := s.setInputs { s.inputs with switch := c }

/-- The filter of the key input becomes `f`. -/
def State.setKeyFilter (s : State) (f : InputFilter Level) : State := s.setInputs { s.inputs with key := f }

/-- A supervised contact measured as `m` at `now`: both filters are fed, the level's with the raw level presented for an
input whose active level is `active` (R143, R160). -/
def Contact.measure (c : Contact) (now : Time) (active : Level) (m : Measurement) : Contact :=
  { measured := m, level := c.level.feed now (presented active m), loop := c.loop.feed now (loopRaw m) }

/-- A contact input is read (R143, R160, R161). -/
def State.readContact (s : State) : ContactReading → State
  | .selector h m =>
    s.setSelectorContact h ((s.inputs.selectors[h]).measure s.now (s.hallRec h).openLevel m)
  | .manifoldSwitch m => s.setSwitchContact (s.inputs.switch.measure s.now s.image.thresholds.flowLevel m)
  | .key l => s.setKeyFilter (s.inputs.key.feed s.now l)

/-! ### A change of reading is handed over (R145, R146) -/

/-- A change of hall `h`'s selector reading to `v`, with edge time `t`, is handed to the hall's capture unit, the Manifold
Arbiter and the Discharge Sequencer (R146, R147). -/
def State.handSelector (s : State) (h : Hall) (v : Valve) (t : Time) : State :=
  let s1 := if v = .opened then s.setSelectorCapture h ((s.captures.selectors[h]).record t) else s
  (s1.arbiterEdge h v).sequencerEdge h v

/-- A change of the switch reading to FLOW (`flow`), with edge time `t`, is handed to its capture unit (R146, R147). -/
def State.handSwitch (s : State) (flow : Bool) (t : Time) : State :=
  if flow then s.setSwitchCapture (s.captures.switch.record t) else s

/-! ### Edges and loop states (R143, R146, R160) -/

/-- The edge of hall `h`'s selector input, once its run has lasted the filter time (R143, R146). -/
def State.selectorEdge (s : State) (h : Hall) : State :=
  let c := s.inputs.selectors[h]
  match c.level.due s.now with
  | none => s
  | some t =>
    let s1 := s.setSelectorContact h { c with level := c.level.take }
    match s1.selectorReading h with
    | some v => s1.handSelector h v t
    | none => s1

/-- The edge of the manifold pressure switch (R143, R146). -/
def State.switchEdge (s : State) : State :=
  let c := s.inputs.switch
  match c.level.due s.now with
  | none => s
  | some t =>
    let s1 := s.setSwitchContact { c with level := c.level.take }
    match s1.switchReading with
    | some flow => s1.handSwitch flow t
    | none => s1

/-- An edge of the key to level `l` is complete at now (R143). -/
def State.keyEdgeDue (s : State) (l : Level) : Bool :=
  (s.inputs.key.due s.now).isSome && s.inputs.key.raw = l

/-- The key's filtered level takes its raw level (R143). -/
def State.takeKeyEdge (s : State) : State := s.setKeyFilter s.inputs.key.take

/-- The loop state of a supervised contact changes, once its run has lasted the filter time; no block acts on it (R160). -/
def State.loopChange (s : State) : SupervisedContact → State
  | .selector h =>
    let c := s.inputs.selectors[h]
    if (c.loop.due s.now).isSome then s.setSelectorContact h { c with loop := c.loop.take } else s
  | .manifoldSwitch =>
    let c := s.inputs.switch
    if (c.loop.due s.now).isSome then s.setSwitchContact { c with loop := c.loop.take } else s

/-! ### Establishment (R144, R109, R113, R161) -/

/-- A contact established from its raw level and loop reading (R144, R160). -/
def Contact.establish (c : Contact) : Contact := { c with level := c.level.take, loop := c.loop.take }

/-- The inputs are to be established: 50 ms have passed since the reset, and they are not (R144). -/
def State.establishDue (s : State) : Bool := s.inputs.key.level = none && reached Config.establishAt s.now

/-- Every input is established; the Arbiter tests each hall, and Mode Control reads the key level (R144). -/
def State.establish (s : State) : State :=
  let s1 := s.setInputs
    { selectors := tabulate 8 fun h => (s.inputs.selectors[h]).establish
      switch := s.inputs.switch.establish
      key := s.inputs.key.take }
  let s2 := allHalls.foldl State.testMismatch s1
  s2.setCtl { s2.ctl with key := if s.inputs.key.raw = .made then .on else .off }

/-! ### A commissioned level changes (R145, R160, R185) -/

/-- After a write that may have changed an OPEN level or the FLOW level, each contact in LOOP FAULT presents the raw level that
is now inactive (R160; assumption entry 19). -/
def State.represent (s : State) : State :=
  let again (active : Level) (c : Contact) : Contact :=
    if c.measured = .loopFault then { c with level := c.level.feed s.now (presented active c.measured) } else c
  s.setInputs
    { s.inputs with
      selectors := tabulate 8 fun h => again (s.hallRec h).openLevel (s.inputs.selectors[h])
      switch := again s.image.thresholds.flowLevel s.inputs.switch }

end Sys2Proof.Machine
end

