-- ==== Sys2Proof/Machine/Links.lean ====
section
/-! DEFINITION. Frames and receivers, the hall reply and its bytes, and how a hall request is taken and answered
(chapters 9 and 12). -/

namespace Sys2Proof.Machine

/-! ### Frames and receivers (R164, R192) -/

/-- The bytes of a frame after its start marker and before its CRC (R192). -/
def Frame.body (f : Frame) : List Byte := f.kind :: BitVec.ofNat 8 f.payload.length :: f.payload

/-- A CRC as two bytes, high byte first (R192). -/
def crcBytes (c : BitVec 16) : List Byte := [c.extractLsb' 8 8, c.extractLsb' 0 8]

/-- The bytes of a frame on the wire (R192). -/
def Frame.bytes (f : Frame) : List Byte := Config.startMarker :: (f.body ++ crcBytes (crc16 f.body))

/-- The receiver empty and HUNTING (R164). -/
def Receiver.hunt (r : Receiver) : Receiver := { r with state := .hunting, buffer := [], lastByte := none }

/-- The last CRC byte has been received: `bs` holds kind, length, payload and CRC. A CRC that does not match, or a kind of 128
or more, discards the frame; otherwise it awaits taking (R164). -/
def Receiver.finish (r : Receiver) (bs : List Byte) : Receiver :=
  let body := bs.take (bs.length - 2)
  match body with
  | kind :: _ :: payload =>
    if bs.drop (bs.length - 2) = crcBytes (crc16 body) ∧ kind.toNat < 128 then
      { state := .hunting, buffer := [], lastByte := none, complete := some { kind := kind, payload := payload } }
    else r.hunt
  | _ => r.hunt

/-- A byte received at `now` fills the frame being assembled, whose bytes with it are `bs` (R164). -/
def Receiver.fill (r : Receiver) (now : Time) (bs : List Byte) : Receiver :=
  match bs with
  | _ :: len :: _ =>
    if Config.maxPayload < len.toNat then r.hunt
    else if bs.length = len.toNat + 4 then r.finish bs
    else { r with buffer := bs, lastByte := some now }
  | _ => { r with buffer := bs, lastByte := some now }

/-- A frame being assembled is abandoned: the buffer is emptied and the receiver returns to HUNTING (R164). -/
def Receiver.abandon (r : Receiver) : Receiver := if r.state = .assembling then r.hunt else r

/-- The BYTE GAP has passed at `now`: the frame being assembled had its last byte more than 5 ms of the timebase ago
(R164, section 7.2; assumption entry 14). -/
def Receiver.gapPassed (r : Receiver) (now : Time) : Bool :=
  match r.state, r.lastByte with
  | .assembling, some t => reached (t + ms (Config.byteGap + 1)) now
  | _, _ => false

/-- A byte is taken with no gap before it: compared with the start marker in HUNTING, filling the frame in ASSEMBLING
(R164). -/
def Receiver.take (r : Receiver) (now : Time) (b : Byte) : Receiver :=
  match r.state with
  | .off => r
  | .hunting =>
    if b = Config.startMarker then { state := .assembling, buffer := [], lastByte := some now, complete := none } else r
  | .assembling => r.fill now (r.buffer ++ [b])

/-- A byte is received at `now`: one that comes after the byte gap finds its frame abandoned (R164). -/
def Receiver.byte (r : Receiver) (now : Time) (b : Byte) : Receiver :=
  if r.gapPassed now then r.abandon.take now b else r.take now b

/-- A frame that arrives leaves the buffer, if it stood complete there (R164, R165). -/
def Receiver.release (r : Receiver) (f : Frame) : Receiver :=
  if r.complete = some f then { r with complete := none } else r

/-! ### The hall reply (R47, R167, section 12.2) -/

/-- The CLAIM VIEW of hall `h`'s record, absent for NONE (R47). -/
def State.claimView (s : State) (h : Hall) : Option ClaimView :=
  (s.claim h).map fun c =>
    { state := c.state, basis := c.basis, remaining := s.remainingOf h c, req := c.figures.req, cap := c.figures.cap
      allocatedSum := c.allocatedSum, allocationCount := c.allocation.length, firedCount := c.fired.length
      flags := c.flags, endReason := c.endReason }

/-- The code of a result (section 12.2). -/
def resultCode : Result → Nat
  | .accepted => 0
  | .lockout => 1
  | .notCommissioned => 2
  | .selectorFault => 3
  | .duplicate => 4
  | .noClaim => 5
  | .tooLate => 6
  | .badField => 7
  | .unknownKind => 8
  | .notMaintenance => 9
  | .badIndex => 10

/-- The code of a mode (section 12.2); no reply is formed in STARTUP. -/
def modeCode : Mode → Nat
  | .normal => 0
  | .uncommissioned => 1
  | .maintPending => 2
  | .maintenance => 3
  | .startup => 0

/-- The code of a claim state, 0 for NONE (section 12.2). -/
def claimStateCode : ClaimState → Nat
  | .countdown => 1
  | .hold => 2
  | .starved => 3
  | .waiting => 4
  | .selecting => 5
  | .firing => 6
  | .confirming => 7
  | .discharged => 8
  | .aborted => 9
  | .failed => 10

/-- The code of an end reason, 0 for none (section 12.2). -/
def endReasonCode : Option EndReason → Nat
  | none => 0
  | some .confirmed => 1
  | some .unconfirmed => 2
  | some .abortedByPanel => 3
  | some .abortedLockout => 4
  | some .failedSelectorOpen => 5
  | some .failedSelectorFault => 6

/-- The code of a basis (section 12.2). -/
def basisCode : Basis → Nat
  | .auto => 0
  | .manual => 1

/-- The six flags, SHORT in bit 0 (section 12.2). -/
def flagBits (f : Flags) : Nat :=
  pack [(1, bit f.short), (1, bit f.overCeiling), (1, bit f.reserveUsed), (1, bit f.unreadIncluded),
    (1, bit f.starved), (1, bit f.part)]

/-- The latches for which `p` holds, DISCHARGED in bit 0 (section 12.2). -/
def latchBits (p : LatchState → Bool) (ls : Latches) : Nat :=
  pack [(1, bit (p ls.discharged)), (1, bit (p ls.unconfirmed)), (1, bit (p ls.part)), (1, bit (p ls.short)),
    (1, bit (p ls.overCeiling)), (1, bit (p ls.reserveUsed)), (1, bit (p ls.selectorFail)),
    (1, bit (p ls.aborted)), (1, bit (p ls.linkLost))]

/-- The set bits of the latches. -/
def latchSetBits (ls : Latches) : Nat := latchBits (fun l => l ≠ .clear) ls

/-- The NEW bits of the latches: set and unreported (R167). -/
def latchNewBits (ls : Latches) : Nat := latchBits (fun l => l = .unreported) ls

/-- The word of a temperature used, with source and clamped flag (bytes 30-31 of section 12.2). -/
def temperatureWord (f : Figures) : Nat :=
  pack [(12, twos 12 f.temperature), (1, bit (f.source = .fallback)), (1, bit f.clamped)]

/-- The bytes of the live figures (section 12.2). -/
def liveBytes (l : LiveFigures) : List Byte :=
  bytesOf 2 (temperatureWord l.figures) ++ bytesOf 2 l.figures.fd ++ bytesOf 2 l.figures.fc ++
    bytesOf 4 l.figures.req ++ bytesOf 4 l.figures.cap ++ bytesOf 4 l.minAcceptable

/-- Bytes 0 and 4 to 17 of a hall reply are claim fields, all 0 for a claim view of NONE (R192). -/
def noView : ClaimView :=
  { state := .countdown, basis := .auto, remaining := none, req := 0, cap := 0, allocatedSum := 0, allocationCount := 0
    firedCount := 0, flags := noFlags, endReason := none }

/-- The payload of a hall reply (section 12.2). -/
def HallReply.payload (r : HallReply) : List Byte :=
  let v := r.view.getD noView
  let stateCode := match r.view with | some v => claimStateCode v.state | none => 0
  bytesOf 1 (pack [(4, resultCode r.result), (2, modeCode r.mode), (1, basisCode v.basis)]) ++
    bytesOf 3 (pack [(9, latchSetBits r.latches), (9, latchNewBits r.latches), (6, v.firedCount)]) ++
    bytesOf 3 (pack [(20, v.remaining.getD 0), (4, stateCode)]) ++
    bytesOf 4 (pack [(26, v.req), (6, flagBits v.flags)]) ++
    bytesOf 4 (pack [(26, v.cap), (6, v.allocationCount)]) ++
    bytesOf 3 (pack [(21, v.allocatedSum), (3, endReasonCode v.endReason)]) ++
    bytesOf 1 r.inventory.mainFull ++ bytesOf 1 r.inventory.mainLow ++ bytesOf 1 r.inventory.mainUnread ++
    bytesOf 1 r.inventory.reserveFull ++ bytesOf 1 r.inventory.reserveLow ++ bytesOf 1 r.inventory.reserveUnread ++
    bytesOf 3 r.inventory.mainE ++ bytesOf 3 r.inventory.reserveE ++
    match r.live with
    | some l => liveBytes l
    | none => []

/-- The frame of a hall reply (R192). -/
def HallReply.frame (r : HallReply) : Frame := { kind := r.kind, payload := r.payload }

/-- The reply to hall `h`'s request of kind `kind`, each part read as it stands (R167). -/
def State.hallReply (s : State) (h : Hall) (kind : Byte) (result : Result) (live : Option LiveFigures) : HallReply :=
  { kind := kind + 128, result := result, mode := s.mode, view := s.claimView h, latches := (s.port h).latches
    inventory := s.inventory, live := live }

/-- The reply is formed: it carries the latches, which become reported, and awaits its transmission, which begins after the
free delay of R165 (R166 step 4, R172). -/
def State.answerHall (s : State) (h : Hall) (kind : Byte) (result : Result) (live : Option LiveFigures) : State :=
  let reply := s.hallReply h kind result live
  let s1 := s.updPort h fun p =>
    { p with reply := some reply, replyBegins := some (s.now + Config.replyDelay s.choices)
             latches := p.latches.map LatchState.report }
  { s1 with choices := s1.choices + 1 }

/-! ### Taking a hall request (R165, R166, R169) -/

/-- The supervision timeout of hall `h`'s port, taken into 1 000 to 10 000 ms (R169). -/
def State.supervisionTimeout (s : State) (h : Hall) : Nat :=
  max 1000 (min 10000 (s.hallRec h).supervisionTimeout)

/-- A valid frame on hall `h`'s port: ACTIVE, with the supervision deadline loaded (R169). -/
def State.superviseLink (s : State) (h : Hall) : State :=
  s.updPort h fun p =>
    { p with link := .active
             supervision := .load s.now (s.now + ms (s.supervisionTimeout h)) .supervision }

/-- The frame leaves the buffer of hall `h`'s port, if it stood complete there. -/
def State.releaseFrame (s : State) (h : Hall) (f : Frame) : State :=
  s.updPort h fun p => { p with rx := p.rx.release f }

/-- What the owner of a request answers: the state, the result, and the live figures if any. -/
structure Answer where
  state : State
  result : Result
  live : Option LiveFigures

/-- An ARRIVAL of frame `f` on hall `h`'s port (R165, R166). A port that is not receiving takes nothing; with a reply owed the
frame is discarded; otherwise it becomes the port's request: link supervision is served, the payload length is compared with
`length` (absent when the kind is unknown and has none), the request is handed to its owner, and the reply is formed. -/
def State.hallArrival (s : State) (h : Hall) (f : Frame) (length : Option Nat) (owner : State → Answer) : State :=
  if (s.port h).rx.state = .off then s
  else
    let s1 := s.releaseFrame h f
    if (s1.port h).owed then s1
    else
      let s2 := (s1.updPort h fun p => { p with owed := true }).superviseLink h
      let a : Answer :=
        if length.isSome && length ≠ some f.payload.length then { state := s2, result := .badField, live := none }
        else owner s2
      a.state.answerHall h f.kind a.result a.live

/-! ### The owners of the hall requests -/

/-- The temperature of a POLL is stored at hall `h`'s port, clamped, with its freshness deadline (R30). -/
def State.reportTemperature (s : State) (h : Hall) (t : Int) : State :=
  let c := clampInt (-400) 850 t
  s.updPort h fun p =>
    { p with temp := some { temperature := c, arrival := s.now, clamped := c ≠ t }
             freshness := .load s.now (s.now + Config.freshnessTime) .freshness }

/-- The owner of a POLL of hall `h`: its fields are checked, then the temperature and the hold level are taken (R168). -/
def pollOwner (h : Hall) (payload : Payload) (s : State) : Answer :=
  match payload with
  | [present, t1, t0, hold] =>
    match yesNo present, yesNo hold with
    | some present, some hold =>
      let s1 := if present then s.reportTemperature h (signed16 t1 t0) else s
      { state := s1.observeHold h hold, result := .accepted, live := none }
    | _, _ => { state := s, result := .badField, live := none }
  | _ => { state := s, result := .badField, live := none }

/-- The fields of a RELEASE, absent where one holds a value out of its codes (R49 check 4, section 12.1). -/
def releaseFields : Payload → Option (Basis × Bool)
  | [basis, reserve] =>
    match yesNo basis, yesNo reserve with
    | some b, some r => some (if b then .manual else .auto, r)
    | _, _ => none
  | _ => none

/-- The owner of a RELEASE of hall `h` (R49). -/
def releaseOwner (h : Hall) (payload : Payload) (s : State) : Answer :=
  let r := s.release h (releaseFields payload)
  { state := r.1, result := r.2, live := none }

/-- The owner of an ABORT of hall `h` (R66). -/
def abortOwner (h : Hall) (s : State) : Answer :=
  let r := s.abort h
  { state := r.1, result := r.2, live := none }

/-- The owner of a LATCH_CLEAR of hall `h`: every latch set and reported is cleared (R173). -/
def latchClearOwner (h : Hall) (s : State) : Answer :=
  { state := s.updPort h fun p => { p with latches := p.latches.map LatchState.acknowledge }
    result := .accepted, live := none }

/-- The owner of a QUERY of hall `h`: live figures in NORMAL and MAINT_PENDING for a commissioned hall, refused otherwise
(R43, R44). -/
def queryOwner (h : Hall) (s : State) : Answer :=
  match s.mode with
  | .uncommissioned | .startup => { state := s, result := .notCommissioned, live := none }
  | .maintenance => { state := s, result := .lockout, live := none }
  | .normal | .maintPending =>
    if (s.hallRec h).commissioned then { state := s, result := .accepted, live := some (s.liveFigures h) }
    else { state := s, result := .notCommissioned, live := none }

/-- The owner of a request of an unknown kind (R166, R178). -/
def unknownOwner (s : State) : Answer := { state := s, result := .unknownKind, live := none }

/-! ### Bytes and transmissions at a port -/

/-- The port is transmitting its reply: its receiver is held in HUNTING (R165). -/
def transmitting (owed : Bool) (begins : Option Time) (now : Time) : Bool :=
  match begins with
  | some t => owed && reached t now
  | none => false

/-- A receiver that receives byte `b` at `now`, or is held in HUNTING while its port transmits (R164, R165). -/
def Receiver.hear (r : Receiver) (busy : Bool) (now : Time) (b : Byte) : Receiver :=
  if busy then r.abandon else r.byte now b

/-- A receiver at `now`, at which its port's transmission may begin: from then on it is held in HUNTING (R165). -/
def Receiver.held (r : Receiver) (busy : Bool) : Receiver := if busy then r.abandon else r

/-- A byte arrives on hall `h`'s link (R164). -/
def State.hallByte (s : State) (h : Hall) (b : Byte) : State :=
  s.updPort h fun p => { p with rx := p.rx.hear (transmitting p.owed p.replyBegins s.now) s.now b }

/-- The last stop bit of the reply of hall `h`'s port has been sent: reply owed returns to no. A reply whose
transmission has not begun has no such end (R165). -/
def HallPort.transmitted (now : Time) (p : HallPort) : HallPort :=
  match p.reply with
  | some r =>
    if transmitting p.owed p.replyBegins now then
      { p with owed := false, reply := none, replyBegins := none, sent := r.frame.bytes, rx := p.rx.abandon }
    else p
  | none => p

/-- Hall `h`'s supervision deadline expires: LOST, with the LINK_LOST latch (R170). -/
def State.linkLost (s : State) (h : Hall) : State :=
  (s.updPort h fun p => { p with link := .lost }).setLatch h .linkLost

/-- Hall `h`'s reported temperature is withdrawn (R30). -/
def State.withdrawTemperature (s : State) (h : Hall) : State :=
  s.updPort h fun p => { p with temp := none, freshness := .inhibited }

end Sys2Proof.Machine
end

