-- ==== Sys2Proof/Machine/ExpiryEvents.lean ====
section
/-! DEFINITION. The meanings of the expiries of the compare units, and of the STARVED RE-EVALUATION. An expiry arrives only for
the deadline its unit holds and has reached; taking it leaves the unit INHIBITED unless the owner loads it again (R138). -/

namespace Sys2Proof.Machine

/-! ### Taking an expiry (R138, R48) -/

/-- The expiry of kind `k` of hall `h`'s claim unit is taken: the unit is INHIBITED, and a claim in state `st` is given to its
owner's rule. With no such expiry raised nothing changes. -/
def State.takeClaimExpiry (s : State) (h : Hall) (k : DeadlineKind) (st : ClaimState) (owner : State → State) : State :=
  if (s.unit h).raised s.now k then
    if s.claimState h = some st then owner (s.removeUnit h) else s.removeUnit h
  else s

/-- The expiry of kind `k` of the manifold unit is taken, with the manifold in state `st`. -/
def State.takeManifoldExpiry (s : State) (k : DeadlineKind) (st : ManifoldState) (owner : State → State) : State :=
  if s.manifold.unit.raised s.now k then
    let s1 := s.setManifold { s.manifold with unit := .inhibited }
    if s.manifold.state = st then owner s1 else s1
  else s

/-- The hold limit of hall `h`'s claim expires in HOLD: the claim resumes, and the re-arm flag is set (R64). -/
def State.holdLimitOver (s : State) (h : Hall) : State :=
  (s.holdFall h).updPort h fun p => { p with reArm := true }

/-- The close deadline expires in CLOSING: the last hall's mismatch flag is set, and the manifold vents (R105). -/
def State.closeTimeout (s : State) : State :=
  match s.manifold.lastHall with
  | some h => (s.setMismatch h).leaveClosing
  | none => s.leaveClosing

/-- Hall `h`'s supervision expiry is taken: an ACTIVE link is LOST (R142, R170). -/
def State.takeSupervisionExpiry (s : State) (h : Hall) : State :=
  if (s.port h).supervision.raised s.now .supervision then
    let s1 := s.updPort h fun p => { p with supervision := .inhibited }
    if (s.port h).link = .active then s1.linkLost h else s1
  else s

/-- Hall `h`'s freshness expiry is taken: the reported temperature is withdrawn (R30, R142). -/
def State.takeFreshnessExpiry (s : State) (h : Hall) : State :=
  if (s.port h).freshness.raised s.now .freshness then s.withdrawTemperature h else s

/-- The start-up expiry is taken: start-up completes with members still outstanding (R179). -/
def State.takeStartupExpiry (s : State) : State :=
  if s.ctl.startupUnit.raised s.now .startup then
    let s1 := s.setCtl { s.ctl with startupUnit := .inhibited }
    if s.mode = .startup then s1.completeStartup else s1
  else s

/-- A POOL GAIN is answered: one handed event is taken, and every STARVED-flagged claim tried (R24, R86). -/
def State.answerPoolGain (s : State) : State :=
  if s.poolGains = 0 then s else State.reEvaluate { s with poolGains := s.poolGains - 1 }

/-! ### The meanings -/

/-- COUNTDOWN_EXPIRY (R55). -/
def execCountdownExpiry (h : Hall) (s : State) : Host.Outcome State Fault Refusal :=
  .next (s.takeClaimExpiry h .countdown .countdown fun s => s.countdownOver h)

/-- HOLD_LIMIT_EXPIRY (R64). -/
def execHoldLimitExpiry (h : Hall) (s : State) : Host.Outcome State Fault Refusal :=
  .next (s.takeClaimExpiry h .holdLimit .hold fun s => s.holdLimitOver h)

/-- SELECTOR_OPEN_TIMEOUT (R102). -/
def execSelectorOpenTimeout (h : Hall) (s : State) : Host.Outcome State Fault Refusal :=
  .next (s.takeClaimExpiry h .selectorOpen .selecting fun s => s.endClaim h .failed .failedSelectorOpen)

/-- NEXT_LINE_EXPIRY (R117, R118): it waits for the completions of the line in hand. -/
def execNextLineExpiry (h : Hall) (s : State) : Host.Outcome State Fault Refusal :=
  .next (if s.pulsesOutstanding h then s else s.takeClaimExpiry h .nextLine .firing fun s => s.lineTime h)

/-- DEFERRAL_EXPIRY (R120). -/
def execDeferralExpiry (h : Hall) (s : State) : Host.Outcome State Fault Refusal :=
  .next (s.takeClaimExpiry h .deferral .firing fun s => s.abandon h)

/-- CONFIRM_TIMEOUT (R126). -/
def execConfirmTimeout (h : Hall) (s : State) : Host.Outcome State Fault Refusal :=
  .next (s.takeClaimExpiry h .confirm .confirming fun s => s.discharge h .unconfirmed)

/-- CLOSE_TIMEOUT (R105). -/
def execCloseTimeout (s : State) : Host.Outcome State Fault Refusal :=
  .next (s.takeManifoldExpiry .close .closing State.closeTimeout)

/-- VENT_TIMEOUT (R106). -/
def execVentTimeout (s : State) : Host.Outcome State Fault Refusal :=
  .next (s.takeManifoldExpiry .vent .venting fun s => s.endVenting .timeout)

/-- SUPERVISION_EXPIRY (R170). -/
def execSupervisionExpiry (h : Hall) (s : State) : Host.Outcome State Fault Refusal := .next (s.takeSupervisionExpiry h)

/-- TEMPERATURE_EXPIRY (R30). -/
def execTemperatureExpiry (h : Hall) (s : State) : Host.Outcome State Fault Refusal := .next (s.takeFreshnessExpiry h)

/-- STARTUP_EXPIRY (R179). -/
def execStartupExpiry (s : State) : Host.Outcome State Fault Refusal := .next s.takeStartupExpiry

/-- STARVED_RE_EVALUATION (R86). -/
def execStarvedReEvaluation (s : State) : Host.Outcome State Fault Refusal := .next s.answerPoolGain

end Sys2Proof.Machine
end

