-- ==== Sys2Proof/Machine/Reset.lean ====
section
/-! DEFINITION. The device reset: what it keeps, and what it sets (R27, R45, R71, R95, R112, R134, R148, R163, R176, R179,
R191). -/

namespace Sys2Proof.Machine

/-- The Commissioning Store after a device reset: image and stored CRC are kept, what was being programmed is not taken
further (R191). -/
def Store.afterReset (st : Store) : Store := { image := st.image, crc := st.crc, write := none, crcStore := none }

/-- The set of outstanding first samples: every fitted cylinder of the image, and the four racks (R179). -/
def Image.firstSamples (i : Image) : List SampleSource :=
  ((allCylinders.filter fun k => i.cylinders[k].fitted).map SampleSource.cylinder) ++ allRacks.map SampleSource.rack

/-- Mode Control after a device reset (R179). -/
def Store.resetControl (st : Store) : ModeControl :=
  { mode := .startup, key := .notEstablished, imageValid := startupCheck st, exitPending := false
    outstanding := st.image.firstSamples, startupUnit := .watching Config.startupDeadline .startup }

/-- The running record of a cylinder after a device reset, from its CYLINDER record (R27). -/
def CylinderRecord.running (q : CylinderRecord) : Option Cylinder :=
  if q.fitted then some (resetCylinder q.inService) else none

/-- The contact inputs after a device reset: the pins stand, nothing else is kept (R148, R163). -/
def Inputs.afterReset (i : Inputs) : Inputs :=
  { selectors := tabulate 8 fun h => (i.selectors[h]).afterReset
    switch := i.switch.afterReset
    key := .afterReset i.key.raw }

/-- A device reset of the machine in state `s`: the retained image and its stored CRC, the input pins, the queue of commands
and the count of free values stand; every other field takes its value after reset. -/
def State.afterReset (s : State) : State :=
  { State.reset with
    pending := s.pending
    choices := s.choices
    store := s.store.afterReset
    ctl := s.store.resetControl
    cyls := tabulate 64 fun k => (s.image.cylinders[k]).running
    inputs := s.inputs.afterReset }

end Sys2Proof.Machine
end

