-- ==== Sys2Proof/Machine/FieldEvents.lean ====
section
/-! DEFINITION. The meanings of the commands that come from the field: the device reset, establishment, samples, checks,
pulses, edges, captures, raw levels and loop states. -/

namespace Sys2Proof.Machine

/-! ### Manifold pressure (R96, R106, R112, R158) -/

/-- The manifold pressure field takes a sample, present when VALID (R96). -/
def State.recordPressure (s : State) (p : Option Nat) : State :=
  s.setManifold { s.manifold with
    pressure := some (match p with | some p => .valid p | none => .invalid) }

/-- The sample `p` is valid and above the vent threshold. -/
def State.pressurised (s : State) (p : Option Nat) : Bool :=
  match p with
  | some p => s.timing.ventThreshold < p
  | none => false

/-- The sample `p` is valid, and at or below the vent threshold. -/
def State.letDown (s : State) (p : Option Nat) : Bool :=
  match p with
  | some p => p ≤ s.timing.ventThreshold
  | none => false

/-- A manifold pressure sample, present when VALID: it is recorded; in VENTING one at or below the vent threshold ends the
venting with OK (R106); the first after a device reset starts a venting when it reads above it (R112). -/
def State.takeManifoldSample (s : State) (p : Option Nat) : State :=
  let s1 := s.recordPressure p
  match s.manifold.state with
  | .venting => if s.letDown p then s1.endVenting .ok else s1
  | .idle => if s.manifold.pressure = none ∧ s.pressurised p then s1.enterVenting else s1
  | .opening | .discharging | .closing => s1

/-! ### Captures (R147) -/

/-- The capture of hall `h`'s selector unit is taken: the unit is DISARMED, and in OPENING the grant holder's claim becomes
FIRING (R100, R115). -/
def State.takeSelectorCapture (s : State) (h : Hall) : State :=
  match (s.captures.selectors[h]).edge? with
  | none => s
  | some t =>
    let s1 := s.setSelectorCapture h .disarmed
    if s.manifold.state = .opening ∧ s.manifold.holder = some h ∧ s.claimState h = some .selecting then
      s1.beginDischarge h t
    else s1

/-- The capture of the manifold switch unit is taken: the unit is DISARMED, and the grant holder's claim records it
(R125). -/
def State.takeSwitchCapture (s : State) : State :=
  match s.captures.switch.edge? with
  | none => s
  | some t =>
    let s1 := s.setSwitchCapture .disarmed
    match s.manifold.holder with
    | some h => s1.dischargeSeen h t
    | none => s1

/-! ### The meanings -/

/-- DEVICE_RESET (R179). -/
def execDeviceReset (s : State) : Host.Outcome State Fault Refusal := .next s.afterReset

/-- INPUT_ESTABLISHMENT (R144): at 50 ms, once. -/
def execInputEstablishment (s : State) : Host.Outcome State Fault Refusal :=
  .next (if s.establishDue then s.establish else s)

/-- PRESSURE_SAMPLE (R3, R14, R158, R179). -/
def execPressureSample (k : CylIdx) (i : LoopCurrent) (s : State) : Host.Outcome State Fault Refusal :=
  .next ((s.takeSample k (loopPressure i)).firstSample (.cylinder k))

/-- RACK_TEMPERATURE_SAMPLE (R9, R158, R179). -/
def execRackTemperatureSample (r : Rack) (i : LoopCurrent) (s : State) : Host.Outcome State Fault Refusal :=
  .next ((s.takeRackSample r (loopTemperature i)).firstSample (.rack r))

/-- MANIFOLD_PRESSURE_SAMPLE (R96, R106, R112, R158). -/
def execManifoldPressureSample (i : LoopCurrent) (s : State) : Host.Outcome State Fault Refusal :=
  .next (s.takeManifoldSample (loopPressure i))

/-- SUPERVISION_CHECK (R152 to R156). -/
def execSupervisionCheck (c : ChanIdx) (m : LineMeasurement) (s : State) : Host.Outcome State Fault Refusal :=
  .next (s.superviseChannel c m)

/-- PULSE_COMPLETION (R118, R151). -/
def execPulseCompletion (c : ChanIdx) (ms : List PulseMeasurement) (s : State) : Host.Outcome State Fault Refusal :=
  .next (s.completePulse c ms)

/-- SELECTOR_EDGE (R143, R146). -/
def execSelectorEdge (h : Hall) (s : State) : Host.Outcome State Fault Refusal := .next (s.selectorEdge h)

/-- MANIFOLD_SWITCH_EDGE (R143, R146). -/
def execManifoldSwitchEdge (s : State) : Host.Outcome State Fault Refusal := .next s.switchEdge

/-- KEY_ON (R143, R161, R181): an edge of the key input to MADE. -/
def execKeyOn (s : State) : Host.Outcome State Fault Refusal :=
  .next (if s.keyEdgeDue .made then s.takeKeyEdge.keyTurnedOn else s)

/-- KEY_OFF (R143, R161, R183): an edge of the key input to BROKEN. -/
def execKeyOff (s : State) : Host.Outcome State Fault Refusal :=
  .next (if s.keyEdgeDue .broken then s.takeKeyEdge.keyTurnedOff else s)

/-- SELECTOR_CAPTURE (R100, R115, R147). -/
def execSelectorCapture (h : Hall) (s : State) : Host.Outcome State Fault Refusal := .next (s.takeSelectorCapture h)

/-- MANIFOLD_SWITCH_CAPTURE (R125, R147). -/
def execManifoldSwitchCapture (s : State) : Host.Outcome State Fault Refusal := .next s.takeSwitchCapture

/-- RAW_LEVEL_CHANGE (R143, R160, R161). -/
def execRawLevelChange (reading : ContactReading) (s : State) : Host.Outcome State Fault Refusal :=
  .next (s.readContact reading)

/-- LOOP_STATE_CHANGE (R160). -/
def execLoopStateChange (c : SupervisedContact) (s : State) : Host.Outcome State Fault Refusal :=
  .next (s.loopChange c)

end Sys2Proof.Machine
end

