-- ==== Sys2Proof/Machine/HallEvents.lean ====
section
/-! DEFINITION. The meanings of the hall requests: each is the arrival of a frame of its kind on a hall's port
(R165, R166). -/

namespace Sys2Proof.Machine

/-- POLL, kind 1, 4 bytes (R168). -/
def execPoll (h : Hall) (payload : Payload) (s : State) : Host.Outcome State Fault Refusal :=
  .next (s.hallArrival h { kind := 1, payload := payload } (some 4) (pollOwner h payload))

/-- RELEASE, kind 2, 2 bytes (R49). -/
def execRelease (h : Hall) (payload : Payload) (s : State) : Host.Outcome State Fault Refusal :=
  .next (s.hallArrival h { kind := 2, payload := payload } (some 2) (releaseOwner h payload))

/-- ABORT, kind 3, no payload (R66). -/
def execAbort (h : Hall) (payload : Payload) (s : State) : Host.Outcome State Fault Refusal :=
  .next (s.hallArrival h { kind := 3, payload := payload } (some 0) (abortOwner h))

/-- LATCH_CLEAR, kind 4, no payload (R173). -/
def execLatchClear (h : Hall) (payload : Payload) (s : State) : Host.Outcome State Fault Refusal :=
  .next (s.hallArrival h { kind := 4, payload := payload } (some 0) (latchClearOwner h))

/-- QUERY, kind 5, no payload (R43, R44). -/
def execQuery (h : Hall) (payload : Payload) (s : State) : Host.Outcome State Fault Refusal :=
  .next (s.hallArrival h { kind := 5, payload := payload } (some 0) (queryOwner h))

/-- HALL_UNKNOWN_KIND: a request kind that is no hall kind (R166, R193). -/
def execHallUnknownKind (h : Hall) (kind : BitVec 7) (payload : Payload) (s : State) :
    Host.Outcome State Fault Refusal :=
  .next (s.hallArrival h { kind := kind.zeroExtend 8, payload := payload } none unknownOwner)

end Sys2Proof.Machine
end

