-- ==== Sys2Proof/Machine/SitePages.lean ====
section
/-! DEFINITION. The contents of the site replies, from byte 5 on: SITE_POLL, CYLINDER_QUERY, CLAIM_QUERY and the commissioning
records (section 12.3). -/

namespace Sys2Proof.Machine

/-! ### Codes (section 12.3) -/

/-- A measured state. -/
def lineStateCode : LineState → Nat
  | .unknown => 0
  | .normal => 1
  | .opened => 2
  | .shorted => 3

/-- A selector reading. -/
def selectorReadingCode : Option Valve → Nat
  | none => 0
  | some .closed => 1
  | some .opened => 2

/-- A switch or key reading: 0 not established, 1 NO FLOW or OFF, 2 FLOW or ON. -/
def readingCode : Option Bool → Nat
  | none => 0
  | some false => 1
  | some true => 2

/-- A loop state. -/
def loopStateCode : Option LoopState → Nat
  | none => 0
  | some .normal => 1
  | some .fault => 2

/-- A hall, 0 for none. -/
def hallCode : Option Hall → Nat
  | none => 0
  | some h => h.val + 1

/-- A manifold state. -/
def manifoldStateCode : ManifoldState → Nat
  | .idle => 0
  | .opening => 1
  | .discharging => 2
  | .closing => 3
  | .venting => 4

/-- A vent result. -/
def ventResultCode : VentResult → Nat
  | .none => 0
  | .ok => 1
  | .timeout => 2

/-- The manifold pressure: 65534 none, 65535 INVALID. -/
def pressureCode : Option ManifoldPressure → Nat
  | none => 65534
  | some .invalid => 65535
  | some (.valid p) => p

/-- A link state. -/
def linkStateCode : LinkState → Nat
  | .unarmed => 0
  | .active => 1
  | .lost => 2

/-- A condition. -/
def conditionCode : Condition → Nat
  | .full => 0
  | .low => 1
  | .empty => 2
  | .unread => 3

/-- A disposition. -/
def dispositionCode : Disposition → Nat
  | .free => 0
  | .assigned _ => 1
  | .fired => 2
  | .isolated => 3
  | .actuatorFault _ => 4

/-- The owner of a disposition, 0 for none. -/
def ownerCode : Disposition → Nat
  | .assigned h => h.val + 1
  | _ => 0

/-- The fault cause of a disposition, 0 for none. -/
def causeCode : Disposition → Nat
  | .actuatorFault .supervision => 1
  | .actuatorFault .pulse => 2
  | _ => 0

/-- A delay source. -/
def delaySourceCode : DelaySource → Nat
  | .autoDelay => 0
  | .manualDelay => 1
  | .resumeMin => 2
  | .remaining => 3

/-- The kind a claim's compare unit holds, 0 for none. -/
def unitKindCode : Option DeadlineKind → Nat
  | some .countdown => 1
  | some .holdLimit => 2
  | some .selectorOpen => 3
  | some .nextLine => 4
  | some .deferral => 5
  | some .confirm => 6
  | _ => 0

/-- A line status. -/
def lineStatusCode : LineStatus → Nat
  | .pending => 0
  | .deferred => 1
  | .pulsing => 2
  | .done => 3
  | .abandoned => 4

/-- The reported bits of the latches. -/
def latchReportedBits (ls : Latches) : Nat := latchBits (fun l => l = .reported) ls

/-- A time field, 0 where absent. -/
def timeBytes (t : Option Time) : List Byte := bytesOf 4 ((t.getD 0).toNat)

/-- Some bytes padded with zeros to a length. -/
def padTo (n : Nat) (bs : List Byte) : List Byte := bs ++ List.replicate (n - bs.length) 0

/-! ### SITE_POLL (R111, R162, R175) -/

/-- The measured state of the channel of a function, UNKNOWN where no channel names it (R162). -/
def State.functionState (s : State) (r : Role) : LineState :=
  match s.channelOf r with
  | some ch => ch.measured
  | none => .unknown

/-- The byte of one hall in SITE_POLL page 0. -/
def State.pollHallByte (s : State) (h : Hall) : List Byte :=
  bytesOf 1 (pack [(2, lineStateCode (s.functionState (.selector h))), (1, bit (s.selectorFaulted h)),
    (2, selectorReadingCode (s.selectorReading h)), (2, loopStateCode (s.inputs.selectors[h]).loop.level)])

/-- SITE_POLL page 0. -/
def State.pollPage0 (s : State) : List Byte :=
  bytesOf 1 (manifoldStateCode s.manifold.state) ++ bytesOf 1 (hallCode s.manifold.holder) ++
    bytesOf 1 (hallCode s.manifold.lastHall) ++ bytesOf 3 (s.manifold.unit.remaining s.now) ++
    bytesOf 1 (ventResultCode s.manifold.lastVent) ++ bytesOf 2 (pressureCode s.manifold.pressure) ++
    bytesOf 1 (pack (allHalls.map fun h => (1, bit (s.mismatch h)))) ++
    bytesOf 1 (pack [(2, readingCode s.keyReading), (1, bit s.ctl.exitPending),
      (2, lineStateCode (s.functionState .vent))]) ++
    bytesOf 1 (pack [(2, readingCode s.switchReading), (2, loopStateCode s.inputs.switch.loop.level)]) ++
    allHalls.flatMap s.pollHallByte

/-- SITE_POLL page 1: the wait list. -/
def State.pollPage1 (s : State) : List Byte :=
  padTo 41 (bytesOf 1 s.manifold.waitList.length ++
    (s.manifold.waitList.take 8).flatMap fun w => bytesOf 1 (w.hall.val + 1) ++ bytesOf 4 w.readyAt.toNat)

/-- SITE_POLL page 2: the ports' latches and link states. -/
def State.pollPage2 (s : State) : List Byte :=
  allHalls.flatMap fun h =>
    bytesOf 3 (pack [(9, latchSetBits (s.port h).latches), (9, latchReportedBits (s.port h).latches),
      (2, linkStateCode (s.port h).link)])

/-- A page of SITE_POLL, absent for a page above 2. -/
def State.pollPage (s : State) (page : Nat) : Option (List Byte) :=
  match page with
  | 0 => some s.pollPage0
  | 1 => some s.pollPage1
  | 2 => some s.pollPage2
  | _ => none

/-! ### CYLINDER_QUERY (R26, R162) -/

/-- One cylinder record (14 bytes); the fields after p_nom are 0 for an unfitted record. -/
def State.cylinderRecord (s : State) (k : CylIdx) : List Byte :=
  let q := s.image.cylinders[k]
  let role := bit (s.rackRole k = .reserve)
  let ch := s.channelOf (.cylinder k)
  let failed := match ch with | some ch => ch.failedPulse | none => false
  match s.cyl k with
  | some c =>
    bytesOf 1 (pack [(1, 1), (1, role), (1, bit q.inService), (2, c.streak), (1, bit failed)]) ++
      bytesOf 1 (pack [(2, conditionCode c.condition), (3, dispositionCode c.disposition),
        (2, causeCode c.disposition)]) ++
      bytesOf 1 (ownerCode c.disposition) ++ bytesOf 1 (lineStateCode (s.functionState (.cylinder k))) ++
      bytesOf 2 q.qNom ++ bytesOf 2 q.pNom ++ bytesOf 2 c.pAvg ++ bytesOf 2 c.phi ++ bytesOf 2 c.e
  | none =>
    bytesOf 1 (pack [(1, 0), (1, role)]) ++ bytesOf 3 0 ++ bytesOf 2 q.qNom ++ bytesOf 2 q.pNom ++ bytesOf 6 0

/-- The records from index `first` on, as many as the smaller of `count` and 3 (R26, R194). -/
def State.cylinderRecords (s : State) (first count : Nat) : List Byte :=
  bytesOf 1 (min count 3) ++
    ((allCylinders.drop first).take (min count 3)).flatMap s.cylinderRecord

/-! ### CLAIM_QUERY (R47, R132, R140, R194) -/

/-- The content length of a CLAIM_QUERY page. -/
def claimPageLength (page : Nat) : Nat :=
  if page = 0 then 36 else if page ≤ 6 then 33 else 40

/-- CLAIM_QUERY page 0. The remaining is the record's field, present in HOLD (assumption entry 17). -/
def State.claimPage0 (s : State) (h : Hall) (c : Claim) : List Byte :=
  let u := (s.unit h).settle s.now
  let expired := match u with | .expired _ _ => true | _ => false
  bytesOf 1 (pack [(4, claimStateCode c.state), (1, basisCode c.basis), (1, bit c.reservePermitted)]) ++
    bytesOf 1 (pack [(2, delaySourceCode c.delaySource), (3, endReasonCode c.endReason)]) ++
    bytesOf 1 (flagBits c.flags) ++
    bytesOf 1 (pack [(1, bit c.readyAt.isSome), (1, bit c.holdStartedAt.isSome), (1, bit c.selectorOpenAt.isSome),
      (1, bit c.dischargeSeenAt.isSome), (1, bit c.endedAt.isSome)]) ++
    timeBytes (some c.admittedAt) ++ timeBytes c.readyAt ++ timeBytes c.holdStartedAt ++
    timeBytes c.selectorOpenAt ++ timeBytes c.dischargeSeenAt ++ timeBytes c.endedAt ++
    bytesOf 1 (pack [(7, unitKindCode u.kind?), (1, bit expired)]) ++ timeBytes u.deadline? ++
    bytesOf 3 (c.remaining.getD 0)

/-- The word of a port's reported temperature, every bit 0 when none is held (section 12.3). -/
def portTemperatureWord : Option ReportedTemp → Nat
  | some t => pack [(12, twos 12 t.temperature), (1, 0), (1, bit t.clamped), (1, 1)]
  | none => 0

/-- CLAIM_QUERY page 1. -/
def State.claimPage1 (s : State) (h : Hall) (c : Claim) : List Byte :=
  let p := s.port h
  let cursor := match c.schedule with | some sc => sc.cursor | none => 0
  let outstanding := match c.schedule with | some sc => sc.outstanding | none => 0
  bytesOf 2 (temperatureWord c.figures) ++ bytesOf 2 c.figures.fd ++ bytesOf 2 c.figures.fc ++
    bytesOf 4 c.figures.req ++ bytesOf 4 c.figures.cap ++ bytesOf 3 c.allocatedSum ++ bytesOf 4 c.shortage ++
    bytesOf 1 c.allocation.length ++ bytesOf 1 c.fired.length ++ bytesOf 1 c.lineCount ++ bytesOf 1 cursor ++
    bytesOf 1 outstanding ++ bytesOf 2 (portTemperatureWord p.temp) ++ timeBytes (p.temp.map (·.arrival)) ++
    bytesOf 1 (pack [(1, bit p.holdLevel), (1, bit p.reArm)])

/-- CLAIM_QUERY pages 2 to 5: allocation entries. -/
def Claim.allocationPage (c : Claim) (page : Nat) : List Byte :=
  let es := (c.allocation.drop (8 * (page - 2))).take 8
  bytesOf 1 es.length ++ es.flatMap fun e => bytesOf 1 e.cyl.val ++ bytesOf 3 e.e

/-- CLAIM_QUERY page 6: the fired list. -/
def Claim.firedPage (c : Claim) : List Byte :=
  bytesOf 1 c.fired.length ++ (c.fired.take 32).flatMap fun k => bytesOf 1 k.val

/-- One line of a CLAIM_QUERY page (13 bytes): cylinders with 255 for none, status, line pulsed by place, deferred at
present, line time, deferred at. -/
def lineBytes (l : Line) : List Byte :=
  let cyls : List Byte := (l.cyls.take 4).map fun k => BitVec.ofNat 8 k.val
  cyls ++ List.replicate (4 - cyls.length) (255 : Byte) ++
    bytesOf 1 (pack ([(3, lineStatusCode l.status)] ++
      (List.range 4).map (fun j => (1, bit (match l.cyls[j]? with | some k => k ∈ l.pulsed | none => false))) ++
      [(1, bit l.deferredAt.isSome)])) ++
    timeBytes l.time ++ timeBytes l.deferredAt

/-- CLAIM_QUERY pages 7 to 255: lines of the schedule. -/
def Claim.linePage (c : Claim) (page : Nat) : List Byte :=
  let lines := match c.schedule with | some sc => sc.lines | none => []
  let ls := (lines.drop (3 * (page - 7))).take 3
  bytesOf 1 ls.length ++ ls.flatMap lineBytes

/-- A page of CLAIM_QUERY for hall `h`; for a hall with no record every content byte is 0 (section 12.3). -/
def State.claimPage (s : State) (h : Hall) (page : Nat) : List Byte :=
  padTo (claimPageLength page) <|
    match s.claim h with
    | none => []
    | some c =>
      if page = 0 then s.claimPage0 h c
      else if page = 1 then s.claimPage1 h c
      else if page ≤ 5 then c.allocationPage page
      else if page = 6 then c.firedPage
      else c.linePage page

/-! ### Commissioning records (R185, R187) -/

/-- The content of a COMMISSION_READ or COMMISSION_WRITE reply: the kind, the index and the record in read form. -/
def State.recordContent (s : State) (kind index : Byte) (name : RecordName) : List Byte :=
  [kind, index] ++ s.store.readRecord name

/-- The kind of a record. -/
def RecordName.kindByte : RecordName → Byte
  | .hall _ => 1
  | .rack _ => 2
  | .cylinder _ => 3
  | .designPoint _ => 4
  | .ceilingPoint _ => 5
  | .timing => 6
  | .thresholds => 7
  | .channel _ => 8
  | .image => 9

/-- The index of a record on the link. -/
def RecordName.indexByte : RecordName → Byte
  | .hall h => BitVec.ofNat 8 (h.val + 1)
  | .rack r => BitVec.ofNat 8 r.val
  | .cylinder k => BitVec.ofNat 8 k.val
  | .designPoint i => BitVec.ofNat 8 i.val
  | .ceilingPoint i => BitVec.ofNat 8 i.val
  | .channel c => BitVec.ofNat 8 c.val
  | .timing | .thresholds | .image => 0

end Sys2Proof.Machine
end

