-- ==== Sys2Proof/Machine/SiteLink.lean ====
section
/-! DEFINITION. The site port: how a site request is taken, checked and answered, and the completions of the writes
(R177, R178, R184 to R187). -/

namespace Sys2Proof.Machine

/-! ### Replies (R177) -/

/-- The bytes of a site reply after the frame header: the reply header, and the content of an accepted reply
(section 12.3). -/
def SiteReply.payload (r : SiteReply) : List Byte :=
  bytesOf 1 (pack [(4, resultCode r.result), (2, modeCode r.mode)]) ++ bytesOf 4 r.now.toNat ++ r.content

/-- The frame of a site reply (R192). -/
def SiteReply.frame (r : SiteReply) : Frame := { kind := r.kind, payload := r.payload }

/-- A site reply to a request of kind `kind` is formed: its content is carried when it is accepted, and its transmission
begins after the free delay of R165 (R177). -/
def State.answerSite (s : State) (kind : Byte) (result : Result) (content : List Byte) : State :=
  let reply : SiteReply :=
    { kind := kind + 128, result := result, mode := s.mode, now := s.now
      content := if result = .accepted then content else [] }
  let s1 := s.setSite
    { s.site with reply := some reply, replyBegins := some (s.now + Config.replyDelay s.choices) }
  { s1 with choices := s1.choices + 1 }

/-- What a site request leads to: a refusal, an accepted content, or a write that begins and is answered at its completion. -/
inductive SiteOutcome
  | refuse (r : Result)
  | accept (content : List Byte)
  | begins (w : WriteInProgress)

/-- An ARRIVAL of frame `f` on the site port (R177): as on a hall port, without link supervision. The request is checked and
answered within its event, but for a write that begins. -/
def State.siteArrival (s : State) (f : Frame) (owner : State → SiteOutcome) : State :=
  if s.site.rx.state = .off then s
  else
    let s1 := s.setSite { s.site with rx := s.site.rx.release f }
    if s1.site.owed then s1
    else
      let s2 := s1.setSite { s1.site with owed := true }
      match owner s2 with
      | .refuse r => s2.answerSite f.kind r []
      | .accept content => s2.answerSite f.kind .accepted content
      | .begins w => s2.setStore { s2.store with write := some w }

/-! ### The owners of the site requests: the checks of R178 in order -/

/-- SITE_POLL (R111, R162, R175). -/
def sitePollOwner (payload : Payload) (s : State) : SiteOutcome :=
  match payload with
  | [page] =>
    match s.pollPage page.toNat with
    | some content => .accept content
    | none => .refuse .badField
  | _ => .refuse .badField

/-- CYLINDER_QUERY (R26, R178, R194). -/
def cylinderQueryOwner (payload : Payload) (s : State) : SiteOutcome :=
  match payload with
  | [first, count] =>
    if 63 < first.toNat ∨ 64 < first.toNat + count.toNat then .refuse .badIndex
    else if count.toNat < 1 ∨ 8 < count.toNat then .refuse .badField
    else .accept (s.cylinderRecords first.toNat count.toNat)
  | _ => .refuse .badField

/-- CLAIM_QUERY (R47). -/
def claimQueryOwner (payload : Payload) (s : State) : SiteOutcome :=
  match payload with
  | [hall, page] =>
    match hallField hall with
    | some h => .accept (s.claimPage h page.toNat)
    | none => .refuse .badIndex
  | _ => .refuse .badField

/-- COMMISSION_READ (R178, R187). -/
def commissionReadOwner (payload : Payload) (s : State) : SiteOutcome :=
  match payload with
  | [kind, index] =>
    if kind.toNat < 1 ∨ 9 < kind.toNat then .refuse .badField
    else match recordName kind index with
      | some name => .accept (s.recordContent kind index name)
      | none => .refuse .badIndex
  | _ => .refuse .badField

/-- COMMISSION_WRITE (R178, R184, R193): the length by the record kind, the mode, the index, the fields. -/
def commissionWriteOwner (payload : Payload) (s : State) : SiteOutcome :=
  match payload with
  | kind :: index :: record =>
    if writeLength kind ≠ some record.length then .refuse .badField
    else if s.mode ≠ .maintenance then .refuse .notMaintenance
    else match recordName kind index with
      | none => .refuse .badIndex
      | some name =>
        match parseRecord name record with
        | some w => .begins (.commission w)
        | none => .refuse .badField
  | _ => .refuse .badField

/-- The cylinder that a MAINT_ISOLATE or MAINT_RESTORE names: an index of 0 to 63 whose cylinder is fitted in the stored
image (R178, R186). -/
def State.fittedIndex (s : State) (index : Byte) : Option CylIdx :=
  (indexField 64 index).bind fun k => if s.image.cylinders[k].fitted then some k else none

/-- MAINT_ISOLATE and MAINT_RESTORE: the write that begins is `w` of the cylinder named (R178, R186). -/
def maintOwner (w : CylIdx → WriteInProgress) (payload : Payload) (s : State) : SiteOutcome :=
  match payload with
  | [index] =>
    if s.mode ≠ .maintenance then .refuse .notMaintenance
    else match s.fittedIndex index with
      | some k => .begins (w k)
      | none => .refuse .badIndex
  | _ => .refuse .badField

/-- A request of an unknown kind (R178). -/
def siteUnknownOwner (_ : State) : SiteOutcome := .refuse .unknownKind

/-! ### Completions (R185, R186, R189) -/

/-- A change of hall `h`'s selector reading made by the write of its OPEN level is handed over as an edge of the reading at
now (R145, R185). -/
def State.openLevelWritten (s : State) (h : Hall) (before : Option Valve) : State :=
  match s.selectorReading h with
  | some v => if before = some v then s else s.handSelector h v s.now
  | none => s

/-- A change of hall `h`'s commissioned field is handed to the Manifold Arbiter (R109, R185). -/
def State.commissionedWritten (s : State) (h : Hall) (before : Bool) : State :=
  if before && !(s.hallRec h).commissioned then s.clearMismatch h
  else if !before && (s.hallRec h).commissioned then s.testMismatch h
  else s

/-- A change of the switch's reading made by the write of its FLOW level is handed over (R145, R185). -/
def State.flowLevelWritten (s : State) (before : Option Bool) : State :=
  match s.switchReading with
  | some flow => if before = some flow then s else s.handSwitch flow s.now
  | none => s

/-- The supervision record of channel `c`, whose role was `before`, is restarted when the write has changed it; the
channel is driven by its role as it now reads (R149, R157). -/
def State.roleWritten (s : State) (c : ChanIdx) (before : Role) : State :=
  if s.role c = before then s
  else (s.setChannel c { s.channel c with measured := .unknown, goodChecks := 0, failedPulse := false }).redrive

/-- The written record is stored, and the change handed to the blocks that hold state derived from it (R185, steps 1
and 2). -/
def State.applyWrite (s : State) (w : RecordWrite) : State :=
  let s1 := (s.setImage (s.image.write w)).represent
  match w with
  | .hall h _ =>
    (s1.openLevelWritten h (s.selectorReading h)).commissionedWritten h (s.hallRec h).commissioned
  | .cylinder k _ _ _ => s1.cylinderWritten k s.image.cylinders[k]
  | .thresholds _ => s1.flowLevelWritten s.switchReading
  | .channel c _ => s1.roleWritten c (s.role c)
  | .rack _ _ | .designPoint _ _ | .ceilingPoint _ _ | .timing _ => s1

/-- No write is in progress. -/
def State.writeEnded (s : State) : State := s.setStore { s.store with write := none }

/-- A COMMISSION_WRITE completes (R185). -/
def State.completeWrite (s : State) (w : RecordWrite) : State :=
  let s1 := (s.writeEnded.applyWrite w).exitIfPending
  s1.answerSite 22 .accepted (s1.recordContent w.name.kindByte w.name.indexByte w.name)

/-- The reply of a MAINT_ISOLATE or MAINT_RESTORE: one cylinder record (section 12.3). -/
def State.answerMaint (s : State) (kind : Byte) (k : CylIdx) : State :=
  s.answerSite kind .accepted (s.cylinderRecords k.val 1)

/-- A MAINT_ISOLATE completes (R23, R186). -/
def State.completeIsolate (s : State) (k : CylIdx) : State :=
  let s1 := s.writeEnded
  let s2 := (s1.setImage (s1.image.setInService k false)).isolate k
  s2.exitIfPending.answerMaint 20 k

/-- The failed-pulse flag of every channel whose role is CYLINDER(`k`) is cleared (R157). -/
def State.clearFailedPulse (s : State) (k : CylIdx) : State :=
  let cleared (c : ChanIdx) : Channel :=
    if s.role c = .cylinder k then { s.channel c with failedPulse := false } else s.channel c
  { s with circuits := { s.circuits with channels := tabulate 80 cleared } }

/-- A MAINT_RESTORE completes (R23, R157, R186). -/
def State.completeRestore (s : State) (k : CylIdx) : State :=
  let s1 := s.writeEnded
  let s2 := ((s1.setImage (s1.image.setInService k true)).clearFailedPulse k).restore k
  s2.exitIfPending.answerMaint 21 k

/-- The programming of the image CRC ends (R189). -/
def State.crcStored (s : State) : State :=
  match s.store.crcStore with
  | some crc => s.setStore { s.store with crc := crc, crcStore := none }
  | none => s

/-! ### Bytes and transmissions -/

/-- A byte arrives on the site link (R164, R177). -/
def State.siteByte (s : State) (b : Byte) : State :=
  s.setSite { s.site with rx := s.site.rx.hear (transmitting s.site.owed s.site.replyBegins s.now) s.now b }

/-- The last stop bit of the site reply has been sent: as on a hall port (R165, R177). -/
def SitePort.transmitted (now : Time) (p : SitePort) : SitePort :=
  match p.reply with
  | some r =>
    if transmitting p.owed p.replyBegins now then
      { p with owed := false, reply := none, replyBegins := none, sent := r.frame.bytes, rx := p.rx.abandon }
    else p
  | none => p

end Sys2Proof.Machine
end

