-- ==== Sys2Proof/Machine/LinkEvents.lean ====
section
/-! DEFINITION. The meanings of the commands of the links' own: a byte received, a frame abandoned, a reply transmitted
(R164, R165, R177). -/

namespace Sys2Proof.Machine

/-- The receiver of a port abandons the frame it assembles (R164). -/
def State.abandonFrame (s : State) : Port → State
  | .hall h => s.updPort h fun p => { p with rx := p.rx.abandon }
  | .site => s.setSite { s.site with rx := s.site.rx.abandon }

/-- The last stop bit of a port's reply has been sent (R165). -/
def State.replySent (s : State) : Port → State
  | .hall h => s.updPort h (HallPort.transmitted s.now)
  | .site => s.setSite (s.site.transmitted s.now)

/-- A byte arrives on a port's link (R164). -/
def State.receiveByte (s : State) (b : Byte) : Port → State
  | .hall h => s.hallByte h b
  | .site => s.siteByte b

/-- FRAME_ABANDONED (R164): whatever the cause, the frame gets no reply and reaches no other field. -/
def execFrameAbandoned (p : Port) (_cause : AbandonCause) (s : State) : Host.Outcome State Fault Refusal :=
  .next (s.abandonFrame p)

/-- REPLY_TRANSMITTED (R165). -/
def execReplyTransmitted (p : Port) (s : State) : Host.Outcome State Fault Refusal := .next (s.replySent p)

/-- BYTE_RECEIVED (R164). -/
def execByteReceived (p : Port) (b : Byte) (s : State) : Host.Outcome State Fault Refusal := .next (s.receiveByte b p)

end Sys2Proof.Machine
end

