-- ==== Sys2Proof/Machine/SiteEvents.lean ====
section
/-! DEFINITION. The meanings of the site requests, each the arrival of a frame of its kind on the site port (R177, R178), and
of the completions of what they program (R185, R186, R189). -/

namespace Sys2Proof.Machine

/-! ### Requests -/

/-- SITE_POLL, kind 16 (R111, R162, R175). -/
def execSitePoll (payload : Payload) (s : State) : Host.Outcome State Fault Refusal :=
  .next (s.siteArrival { kind := 16, payload := payload } (sitePollOwner payload))

/-- CYLINDER_QUERY, kind 17 (R26). -/
def execCylinderQuery (payload : Payload) (s : State) : Host.Outcome State Fault Refusal :=
  .next (s.siteArrival { kind := 17, payload := payload } (cylinderQueryOwner payload))

/-- CLAIM_QUERY, kind 18 (R47). -/
def execClaimQuery (payload : Payload) (s : State) : Host.Outcome State Fault Refusal :=
  .next (s.siteArrival { kind := 18, payload := payload } (claimQueryOwner payload))

/-- COMMISSION_READ, kind 19 (R187). -/
def execCommissionRead (payload : Payload) (s : State) : Host.Outcome State Fault Refusal :=
  .next (s.siteArrival { kind := 19, payload := payload } (commissionReadOwner payload))

/-- COMMISSION_WRITE, kind 22 (R184). -/
def execCommissionWrite (payload : Payload) (s : State) : Host.Outcome State Fault Refusal :=
  .next (s.siteArrival { kind := 22, payload := payload } (commissionWriteOwner payload))

/-- MAINT_ISOLATE, kind 20 (R186). -/
def execMaintIsolate (payload : Payload) (s : State) : Host.Outcome State Fault Refusal :=
  .next (s.siteArrival { kind := 20, payload := payload } (maintOwner .isolate payload))

/-- MAINT_RESTORE, kind 21 (R186). -/
def execMaintRestore (payload : Payload) (s : State) : Host.Outcome State Fault Refusal :=
  .next (s.siteArrival { kind := 21, payload := payload } (maintOwner .restore payload))

/-- SITE_UNKNOWN_KIND: a request kind that is no site kind (R178, R193). -/
def execSiteUnknownKind (kind : BitVec 7) (payload : Payload) (s : State) : Host.Outcome State Fault Refusal :=
  .next (s.siteArrival { kind := kind.zeroExtend 8, payload := payload } siteUnknownOwner)

/-! ### Completions -/

/-- COMMISSION_WRITE_COMPLETION (R185). -/
def execCommissionWriteCompletion (s : State) : Host.Outcome State Fault Refusal :=
  .next (match s.store.write with | some (.commission w) => s.completeWrite w | _ => s)

/-- MAINT_ISOLATE_COMPLETION (R23, R186). -/
def execMaintIsolateCompletion (s : State) : Host.Outcome State Fault Refusal :=
  .next (match s.store.write with | some (.isolate k) => s.completeIsolate k | _ => s)

/-- MAINT_RESTORE_COMPLETION (R23, R157, R186). -/
def execMaintRestoreCompletion (s : State) : Host.Outcome State Fault Refusal :=
  .next (match s.store.write with | some (.restore k) => s.completeRestore k | _ => s)

/-- CRC_STORE_COMPLETION (R189). -/
def execCrcStoreCompletion (s : State) : Host.Outcome State Fault Refusal := .next s.crcStored

end Sys2Proof.Machine
end

