-- ==== Sys2Proof/Machine/Dispatch.lean ====
section
/-! DEFINITION. The meaning of each command, one arm per constructor of `Instr`. -/

namespace Sys2Proof.Machine

/-- The effect of a command on everything but the queue. -/
def exec (i : Instr) (s : State) : Host.Outcome State Fault Refusal :=
  match i with
  | .deviceReset => Sys2Proof.Machine.execDeviceReset s
  | .inputEstablishment => Sys2Proof.Machine.execInputEstablishment s
  | .pressureSample k current => Sys2Proof.Machine.execPressureSample k current s
  | .rackTemperatureSample r current => Sys2Proof.Machine.execRackTemperatureSample r current s
  | .manifoldPressureSample current => Sys2Proof.Machine.execManifoldPressureSample current s
  | .supervisionCheck c m => Sys2Proof.Machine.execSupervisionCheck c m s
  | .pulseCompletion c ms => Sys2Proof.Machine.execPulseCompletion c ms s
  | .selectorEdge h => Sys2Proof.Machine.execSelectorEdge h s
  | .manifoldSwitchEdge => Sys2Proof.Machine.execManifoldSwitchEdge s
  | .keyOn => Sys2Proof.Machine.execKeyOn s
  | .keyOff => Sys2Proof.Machine.execKeyOff s
  | .selectorCapture h => Sys2Proof.Machine.execSelectorCapture h s
  | .manifoldSwitchCapture => Sys2Proof.Machine.execManifoldSwitchCapture s
  | .countdownExpiry h => Sys2Proof.Machine.execCountdownExpiry h s
  | .holdLimitExpiry h => Sys2Proof.Machine.execHoldLimitExpiry h s
  | .selectorOpenTimeout h => Sys2Proof.Machine.execSelectorOpenTimeout h s
  | .nextLineExpiry h => Sys2Proof.Machine.execNextLineExpiry h s
  | .deferralExpiry h => Sys2Proof.Machine.execDeferralExpiry h s
  | .confirmTimeout h => Sys2Proof.Machine.execConfirmTimeout h s
  | .closeTimeout => Sys2Proof.Machine.execCloseTimeout s
  | .ventTimeout => Sys2Proof.Machine.execVentTimeout s
  | .supervisionExpiry h => Sys2Proof.Machine.execSupervisionExpiry h s
  | .temperatureExpiry h => Sys2Proof.Machine.execTemperatureExpiry h s
  | .startupExpiry => Sys2Proof.Machine.execStartupExpiry s
  | .poll h payload => Sys2Proof.Machine.execPoll h payload s
  | .release h payload => Sys2Proof.Machine.execRelease h payload s
  | .abort h payload => Sys2Proof.Machine.execAbort h payload s
  | .latchClear h payload => Sys2Proof.Machine.execLatchClear h payload s
  | .query h payload => Sys2Proof.Machine.execQuery h payload s
  | .hallUnknownKind h kind payload => Sys2Proof.Machine.execHallUnknownKind h kind payload s
  | .frameAbandoned p cause => Sys2Proof.Machine.execFrameAbandoned p cause s
  | .replyTransmitted p => Sys2Proof.Machine.execReplyTransmitted p s
  | .sitePoll payload => Sys2Proof.Machine.execSitePoll payload s
  | .cylinderQuery payload => Sys2Proof.Machine.execCylinderQuery payload s
  | .claimQuery payload => Sys2Proof.Machine.execClaimQuery payload s
  | .commissionRead payload => Sys2Proof.Machine.execCommissionRead payload s
  | .commissionWrite payload => Sys2Proof.Machine.execCommissionWrite payload s
  | .maintIsolate payload => Sys2Proof.Machine.execMaintIsolate payload s
  | .maintRestore payload => Sys2Proof.Machine.execMaintRestore payload s
  | .siteUnknownKind kind payload => Sys2Proof.Machine.execSiteUnknownKind kind payload s
  | .commissionWriteCompletion => Sys2Proof.Machine.execCommissionWriteCompletion s
  | .maintIsolateCompletion => Sys2Proof.Machine.execMaintIsolateCompletion s
  | .maintRestoreCompletion => Sys2Proof.Machine.execMaintRestoreCompletion s
  | .crcStoreCompletion => Sys2Proof.Machine.execCrcStoreCompletion s
  | .starvedReEvaluation => Sys2Proof.Machine.execStarvedReEvaluation s
  | .byteReceived p b => Sys2Proof.Machine.execByteReceived p b s
  | .rawLevelChange reading => Sys2Proof.Machine.execRawLevelChange reading s
  | .loopStateChange c => Sys2Proof.Machine.execLoopStateChange c s

end Sys2Proof.Machine
end

