-- ==== Sys2Proof/Machine/Raised.lean ====
section
/-! DEFINITION. The events the part raises by itself as its state stands, and the millisecond tick: what a step does when no
command waits (R135, R138, R143, R144, R147, R164, R24; assumption entries 3 and 4). -/

namespace Sys2Proof.Machine

/-! ### Arrivals (R164, R193) -/

/-- The command that a complete frame on hall `h`'s port is. -/
def Frame.hallCommand (f : Frame) (h : Hall) : Instr :=
  match f.kind.toNat with
  | 1 => .poll h f.payload
  | 2 => .release h f.payload
  | 3 => .abort h f.payload
  | 4 => .latchClear h f.payload
  | 5 => .query h f.payload
  | _ => .hallUnknownKind h (f.kind.truncate 7) f.payload

/-- The command that a complete frame on the site port is. -/
def Frame.siteCommand (f : Frame) : Instr :=
  match f.kind.toNat with
  | 16 => .sitePoll f.payload
  | 17 => .cylinderQuery f.payload
  | 18 => .claimQuery f.payload
  | 19 => .commissionRead f.payload
  | 20 => .maintIsolate f.payload
  | 21 => .maintRestore f.payload
  | 22 => .commissionWrite f.payload
  | _ => .siteUnknownKind (f.kind.truncate 7) f.payload

/-- The command that a complete frame on port `p` is. -/
def commandOn (p : Port) (f : Frame) : Instr :=
  match p with
  | .hall h => f.hallCommand h
  | .site => f.siteCommand

/-- The port and the frame of a command that is the arrival of a request; absent for every other command. -/
def requestOf : Instr → Option (Port × Frame)
  | .poll h p => some (.hall h, { kind := 1, payload := p })
  | .release h p => some (.hall h, { kind := 2, payload := p })
  | .abort h p => some (.hall h, { kind := 3, payload := p })
  | .latchClear h p => some (.hall h, { kind := 4, payload := p })
  | .query h p => some (.hall h, { kind := 5, payload := p })
  | .hallUnknownKind h k p => some (.hall h, { kind := k.zeroExtend 8, payload := p })
  | .sitePoll p => some (.site, { kind := 16, payload := p })
  | .cylinderQuery p => some (.site, { kind := 17, payload := p })
  | .claimQuery p => some (.site, { kind := 18, payload := p })
  | .commissionRead p => some (.site, { kind := 19, payload := p })
  | .maintIsolate p => some (.site, { kind := 20, payload := p })
  | .maintRestore p => some (.site, { kind := 21, payload := p })
  | .commissionWrite p => some (.site, { kind := 22, payload := p })
  | .siteUnknownKind k p => some (.site, { kind := k.zeroExtend 8, payload := p })
  | .deviceReset | .inputEstablishment | .pressureSample _ _ | .rackTemperatureSample _ _
  | .manifoldPressureSample _ | .supervisionCheck _ _ | .pulseCompletion _ _ | .selectorEdge _
  | .manifoldSwitchEdge | .keyOn | .keyOff | .selectorCapture _ | .manifoldSwitchCapture
  | .countdownExpiry _ | .holdLimitExpiry _ | .selectorOpenTimeout _ | .nextLineExpiry _
  | .deferralExpiry _ | .confirmTimeout _ | .closeTimeout | .ventTimeout | .supervisionExpiry _
  | .temperatureExpiry _ | .startupExpiry | .frameAbandoned _ _ | .replyTransmitted _
  | .commissionWriteCompletion | .maintIsolateCompletion | .maintRestoreCompletion
  | .crcStoreCompletion | .starvedReEvaluation | .byteReceived _ _ | .rawLevelChange _
  | .loopStateChange _ => none

/-- The command that a frame complete in some port's receiver is, when there is one: receiving, its arrival is an event. -/
def Receiver.arrival (r : Receiver) (command : Frame → Instr) : List Instr :=
  if r.state = .off then [] else (r.complete.map command).toList

/-! ### Events raised -/

/-- `c` when `b` holds. -/
def whenRaised (b : Bool) (c : Instr) : List Instr := if b then [c] else []

/-- Establishment, then the edges and loop changes whose runs have lasted the filter time (R143, R144, R160). -/
def State.raisedInputs (s : State) : List Instr :=
  whenRaised s.establishDue .inputEstablishment ++
    (allHalls.flatMap fun h => whenRaised ((s.inputs.selectors[h]).level.due s.now).isSome (.selectorEdge h)) ++
    whenRaised (s.inputs.switch.level.due s.now).isSome .manifoldSwitchEdge ++
    whenRaised (s.keyEdgeDue .made) .keyOn ++ whenRaised (s.keyEdgeDue .broken) .keyOff ++
    (allHalls.flatMap fun h =>
      whenRaised ((s.inputs.selectors[h]).loop.due s.now).isSome (.loopStateChange (.selector h))) ++
    whenRaised (s.inputs.switch.loop.due s.now).isSome (.loopStateChange .manifoldSwitch)

/-- The captures held (R147). -/
def State.raisedCaptures (s : State) : List Instr :=
  (allHalls.flatMap fun h => whenRaised (s.captures.selectors[h]).edge?.isSome (.selectorCapture h)) ++
    whenRaised s.captures.switch.edge?.isSome .manifoldSwitchCapture

/-- The expiry raised by hall `h`'s claim unit (R140); a next line expiry waits for the pulses outstanding (R118). -/
def State.raisedClaim (s : State) (h : Hall) : List Instr :=
  let up (k : DeadlineKind) : Bool := (s.unit h).raised s.now k
  whenRaised (up .countdown) (.countdownExpiry h) ++ whenRaised (up .holdLimit) (.holdLimitExpiry h) ++
    whenRaised (up .selectorOpen) (.selectorOpenTimeout h) ++
    whenRaised (up .nextLine && !s.pulsesOutstanding h) (.nextLineExpiry h) ++
    whenRaised (up .deferral) (.deferralExpiry h) ++ whenRaised (up .confirm) (.confirmTimeout h)

/-- The expiries raised by hall `h`'s port units (R142). -/
def State.raisedPort (s : State) (h : Hall) : List Instr :=
  whenRaised ((s.port h).supervision.raised s.now .supervision) (.supervisionExpiry h) ++
    whenRaised ((s.port h).freshness.raised s.now .freshness) (.temperatureExpiry h)

/-- The expiries raised (R138). -/
def State.raisedExpiries (s : State) : List Instr :=
  allHalls.flatMap s.raisedClaim ++
    whenRaised (s.manifold.unit.raised s.now .close) .closeTimeout ++
    whenRaised (s.manifold.unit.raised s.now .vent) .ventTimeout ++
    allHalls.flatMap s.raisedPort ++
    whenRaised (s.ctl.startupUnit.raised s.now .startup) .startupExpiry

/-- The frames whose byte gap has passed (R164, section 7.2). -/
def State.raisedGaps (s : State) : List Instr :=
  (allHalls.flatMap fun h => whenRaised ((s.port h).rx.gapPassed s.now) (.frameAbandoned (.hall h) .byteGap)) ++
    whenRaised (s.site.rx.gapPassed s.now) (.frameAbandoned .site .byteGap)

/-- The frames that have arrived and await taking (R164). -/
def State.raisedArrivals (s : State) : List Instr :=
  (allHalls.flatMap fun h => (s.port h).rx.arrival fun f => f.hallCommand h) ++
    s.site.rx.arrival Frame.siteCommand

/-- Every event raised as the state stands: the POOL GAIN handed, inputs, captures, expiries, gaps, arrivals, in this fixed order
(the order of the events of one millisecond is open, section 5.4; assumption entry 4). -/
def State.raised (s : State) : List Instr :=
  whenRaised (s.poolGains ≠ 0) .starvedReEvaluation ++ s.raisedInputs ++ s.raisedCaptures ++ s.raisedExpiries ++
    s.raisedGaps ++ s.raisedArrivals

/-! ### The millisecond tick (R135, R138) -/

/-- Hall `h`'s port as it stands at `now`: its units, and its receiver held in HUNTING once its transmission has begun
(R138, R165). -/
def HallPort.settle (p : HallPort) (now : Time) : HallPort :=
  { p with
    rx := p.rx.held (transmitting p.owed p.replyBegins now)
    supervision := p.supervision.settle now
    freshness := p.freshness.settle now }

/-- The site port as it stands at `now` (R165, R177). -/
def SitePort.settle (p : SitePort) (now : Time) : SitePort :=
  { p with rx := p.rx.held (transmitting p.owed p.replyBegins now) }

/-- The timebase advances by one, every WATCHING unit whose deadline is then reached becomes EXPIRED, and a port whose
transmission then begins holds its receiver in HUNTING. -/
def State.tick (s : State) : State :=
  let now := s.now + 1
  { s with
    now := now
    units := tabulate 8 fun h => (s.unit h).settle now
    manifold := { s.manifold with unit := s.manifold.unit.settle now }
    ports := tabulate 8 fun h => (s.port h).settle now
    ctl := { s.ctl with startupUnit := s.ctl.startupUnit.settle now }
    site := s.site.settle now }

/-- What the part does when no command waits: its raised events take their places in the queue, and with none raised a
millisecond passes. -/
def State.idle (s : State) : State := if s.raised.isEmpty then s.tick else { s with pending := s.raised }

end Sys2Proof.Machine
end

