-- ==== Sys2Proof/Safety.lean ====
section
/-! DEFINITION. What claims are stated in: the slots of the scans, and the laws of the state that every step keeps. -/

namespace Sys2Proof

/-! ### Slots (R153, R159) -/

/-- `now` is `offset` ms past a whole number of periods, and no earlier than `offset`. -/
def onSlot (offset period : Nat) (now : Time) : Bool :=
  offset ≤ now.toNat && (now.toNat - offset) % period = 0

/-- A command of a fixed scan falls in its slot: cylinder loops, rack loops and the manifold loop (R159), and supervision
checks (R153). Every other command has no slot. The commands' meanings do not test this (assumption entry 6). -/
def inSlot (now : Time) : Instr → Bool
  | .pressureSample k _ => onSlot (50 + 15 * k.val) 1000 now
  | .rackTemperatureSample r _ => onSlot (50 + 250 * r.val) 1000 now
  | .manifoldPressureSample _ => onSlot 50 100 now
  | .supervisionCheck c _ => onSlot (50 + 12 * c.val) 1000 now
  | _ => true

namespace Machine

/-! ### Laws -/

/-- A claim in SELECTING, FIRING or CONFIRMING holds the grant (section 3.2). -/
def ClaimState.granted : ClaimState → Bool
  | .selecting | .firing | .confirming => true
  | _ => false

/-- Hall `h`'s claim is in a state that holds the grant. -/
def State.granted (s : State) (h : Hall) : Bool :=
  match s.claim h with
  | some c => c.state.granted
  | none => false

/-- The kind of deadline the manifold unit holds in a manifold state (R96, R141). -/
def ManifoldState.deadlineKind : ManifoldState → Option DeadlineKind
  | .closing => some .close
  | .venting => some .vent
  | .idle | .opening | .discharging => none

/-- THE GRANT LAW (R58, R96, R97, R99, R150): one hall at most holds the manifold, and the manifold's state, the claims'
states, the wait list and the commands of the valves agree on it. -/
structure GrantLaw (s : State) : Prop where
  /-- The claim in SELECTING, FIRING or CONFIRMING is the holder's. -/
  holder : ∀ h, s.granted h = true ↔ s.manifold.holder = some h
  /-- A holder stands exactly in OPENING and DISCHARGING. -/
  busy : s.manifold.holder.isSome = true ↔ s.manifold.state = .opening ∨ s.manifold.state = .discharging
  /-- In OPENING the holder's claim is in SELECTING. -/
  selecting : ∀ h, s.claimState h = some .selecting ↔ s.manifold.holder = some h ∧ s.manifold.state = .opening
  /-- A hall's selector is commanded open only while it holds the grant. -/
  selectors : ∀ h, s.selectorCmd h = .opened ↔ s.manifold.holder = some h
  /-- The vent is commanded open exactly in VENTING. -/
  vent : s.circuits.ventCmd = .opened ↔ s.manifold.state = .venting
  /-- The wait list holds each hall at most once. -/
  distinct : (s.manifold.waitList.map (·.hall)).Nodup
  /-- A claim is on the wait list while its state is WAITING. -/
  waiting : ∀ h, (∃ w ∈ s.manifold.waitList, w.hall = h) ↔ s.claimState h = some .waiting
  /-- The manifold unit holds the close deadline in CLOSING, the vent deadline in VENTING, and nothing else. -/
  deadline : s.manifold.unit.kind? = s.manifold.state.deadlineKind

/-- The law of one cylinder's record, from its CYLINDER record (R1, R7, R8, R10, R11). -/
structure CylinderLaw (q : CylinderRecord) (c : Cylinder) : Prop where
  /-- A record that is not SEEDED is UNREAD. -/
  unseeded : c.seeded = false → c.condition = .unread
  /-- The invalid streak saturates at 3. -/
  streak : c.streak ≤ 3
  /-- The averaged pressure lies within the transducer's range. -/
  average : c.pAvg ≤ 4000
  /-- The charge fraction is limited to 1000. -/
  fraction : c.phi ≤ 1000
  /-- E is computed from Q_nom and the charge fraction in FULL and LOW, and is 0 in EMPTY and UNREAD. -/
  content : c.e = effective q.qNom c.phi c.condition

/-- THE BANK LAW (R1, R11): a running record stands exactly for each fitted cylinder, and every record keeps its law. -/
structure BankLaw (s : State) : Prop where
  /-- The records are those of the fitted cylinders. -/
  fitted : ∀ k, (s.cyl k).isSome = (s.image.cylinders[k]).fitted
  /-- Each record keeps the law of a cylinder. -/
  records : ∀ k c, s.cyl k = some c → CylinderLaw s.image.cylinders[k] c
  /-- No window entry exceeds the transducer's range. -/
  windows : ∀ k c w, s.cyl k = some c → c.window = some w → w.w0 ≤ 4000 ∧ w.w1 ≤ 4000 ∧ w.w2 ≤ 4000 ∧ w.w3 ≤ 4000

/-- THE CLAIM LAW (R15, R40, R41, R77): sums, the limit of 32 allocated and fired, and the states that hold cylinders. -/
structure ClaimLaw (c : Claim) : Prop where
  /-- The allocated sum is the sum of E over the allocation. -/
  allocated : c.allocatedSum = sumE c.allocation
  /-- The shortage is what the requirement lacks. -/
  short : c.shortage = c.figures.req - c.allocatedSum
  /-- Allocated and fired cylinders are at most 32 together. -/
  limit : c.allocation.length + c.fired.length ≤ Config.claimLimit
  /-- A claim holds cylinders only in these states; on entry to CONFIRMING the allocation is empty already (R121). -/
  holding : c.allocation ≠ [] → c.state = .countdown ∨ c.state = .hold ∨ c.state = .waiting ∨ c.state = .selecting ∨
    c.state = .firing
  /-- A STARVED-flagged claim holds nothing, and neither waits for the manifold nor has it (R54, R57). -/
  starved : c.flags.starved = true → c.allocation = [] ∧ c.state ≠ .waiting ∧ c.state.granted = false
  /-- In COUNTDOWN, HOLD and STARVED the flag is set exactly when the allocation is empty (R54). -/
  flagged : c.state = .countdown ∨ c.state = .hold ∨ c.state = .starved →
    (c.flags.starved = true ↔ c.allocation = [])
  /-- A claim that waits for the manifold, or has it and is yet to fire, holds cylinders (R56, R57). -/
  supplied : c.state = .waiting ∨ c.state = .selecting → c.allocation ≠ []

/-- THE ALLOCATION LAW (R15, R85): a cylinder is ASSIGNED to a hall exactly when it stands in the allocation of that hall's
claim; being ASSIGNED to one hall, it stands in no other claim's. -/
structure AllocationLaw (s : State) : Prop where
  /-- ASSIGNED to `h` is allocated to `h`'s claim. -/
  owner : ∀ h k, s.assignedTo h k = true ↔ ∃ c, s.claim h = some c ∧ ∃ e ∈ c.allocation, e.cyl = k
  /-- No cylinder stands twice in an allocation. -/
  once : ∀ h c, s.claim h = some c → (c.allocation.map (·.cyl)).Nodup
  /-- An entry carries the present E of its cylinder. -/
  content : ∀ h c e, s.claim h = some c → e ∈ c.allocation → ∃ y, s.cyl e.cyl = some y ∧ y.e = e.e

/-- A fire pulse of cylinder `k` is in progress on one of its channels. -/
def State.pulsing (s : State) (k : CylIdx) : Bool :=
  allChannels.any fun c => s.role c = .cylinder k && (s.channel c).pulse.isSome

/-- A schedule `sc` of hall `h`'s claim `c` in SELECTING or FIRING (R88, R114, R121, R122): what is allocated is still to
be fired, in a line after the cursor, or being pulsed, and the pulses outstanding are those of the allocation. -/
structure ScheduleLaw (s : State) (c : Claim) (sc : Schedule) : Prop where
  /-- The cursor counts lines of the schedule. -/
  cursor : sc.cursor ≤ sc.lines.length
  /-- A line names a cylinder once. -/
  lines : ∀ l ∈ sc.lines, l.cyls.Nodup
  /-- Every allocated cylinder is in a line after the cursor, or its pulse is in progress. -/
  ahead : ∀ e ∈ c.allocation, (∃ l ∈ sc.lines.drop sc.cursor, e.cyl ∈ l.cyls) ∨ s.pulsing e.cyl = true
  /-- The pulses outstanding. -/
  outstanding : sc.outstanding = (c.allocation.filter fun e => s.pulsing e.cyl).length

/-- THE CLAIMS LAW: the sums, limit and states of every claim; that allocations and the ASSIGNED dispositions are one and
the same; and, so that a claim comes to its end with an empty allocation, what its schedule, the pulses in progress and the
image in use hold (R15, R40, R41, R77, R85, R118, R121). -/
structure ClaimsLaw (s : State) : Prop where
  /-- Every claim keeps the claim law. -/
  each : ∀ h c, s.claim h = some c → ClaimLaw c
  /-- The promise of R15 and R85. -/
  allocation : AllocationLaw s
  /-- A claim in SELECTING or FIRING has a schedule, which keeps its law. -/
  schedule : ∀ h c, s.claim h = some c → c.state = .selecting ∨ c.state = .firing →
    ∃ sc, c.schedule = some sc ∧ ScheduleLaw s c sc
  /-- A line is deferred only with no pulse outstanding (R117, R118). -/
  deferral : ∀ h c sc, s.claim h = some c → c.state = .firing → c.schedule = some sc →
    (s.unit h).kind? = some .deferral → sc.outstanding = 0
  /-- A pulse is of a cylinder ASSIGNED to a claim in FIRING (R116, R151). -/
  pulses : ∀ ch, (s.channel ch).pulse.isSome = true →
    ∃ h k, s.role ch = .cylinder k ∧ s.assignedTo h k = true ∧ s.claimState h = some .firing
  /-- The image in use in NORMAL and MAINT_PENDING, or found valid in STARTUP, passes validation (R179, R183). -/
  image : s.mode = .normal ∨ s.mode = .maintPending ∨ (s.mode = .startup ∧ s.ctl.imageValid = true) →
    validate s.image = none

/-- THE DRIVE LAW (R150, R151): a channel is energised exactly when its function's command, or its fire pulse, and the mode
require it. -/
def DriveLaw (s : State) : Prop := ∀ c, (s.channel c).energised = s.driven c

/-- THE PROGRAMMING LAW (R177, R183, R184, R186): a write stands only in MAINTENANCE with the site port's reply owed and
not yet formed, and an exit is pending only while a write stands. -/
structure ProgrammingLaw (s : State) : Prop where
  /-- A write in progress. -/
  write : s.store.write.isSome = true → s.mode = .maintenance ∧ s.site.owed = true ∧ s.site.reply = none
  /-- An exit pending. -/
  pending : s.ctl.exitPending = true → s.store.write.isSome = true
  /-- A site reply formed and not yet sent is owed. -/
  reply : s.site.reply.isSome = true → s.site.owed = true

/-- THE RECEIVER LAW (R164, R165): a receiver has a last byte exactly while it assembles a frame, an empty buffer
otherwise, and assembles none while its port transmits (`busy`). -/
structure ReceiverLaw (r : Receiver) (busy : Bool) : Prop where
  /-- The byte gap is timed exactly while ASSEMBLING. -/
  gap : r.lastByte.isSome = true ↔ r.state = .assembling
  /-- The buffer holds bytes only while ASSEMBLING. -/
  empty : r.state ≠ .assembling → r.buffer = []
  /-- Held in HUNTING. -/
  held : busy = true → r.state ≠ .assembling

/-- THE PORT LAW (R165, R169): on each hall port a reply is owed exactly while one is formed and not yet sent, its
transmission has a beginning exactly then, and a supervision deadline stands only on an ACTIVE link. -/
structure PortLaw (p : HallPort) : Prop where
  /-- A reply owed is a reply formed. -/
  owed : p.owed = p.reply.isSome
  /-- A reply formed has its beginning. -/
  begins : p.replyBegins.isSome = p.reply.isSome
  /-- Supervision stands only while ACTIVE. -/
  supervision : p.supervision.deadline?.isSome = true ↔ p.link = .active
  /-- A temperature is held exactly while its freshness deadline is. -/
  temperature : p.temp.isSome = p.freshness.deadline?.isSome

/-- Every hall port keeps the port law, the site port owes every reply it has formed, and every receiver keeps the receiver
law. -/
structure PortsLaw (s : State) : Prop where
  /-- The hall ports. -/
  halls : ∀ h, PortLaw (s.port h)
  /-- A site reply formed is owed. -/
  siteOwed : s.site.reply.isSome = true → s.site.owed = true
  /-- A site reply formed has its beginning. -/
  siteBegins : s.site.replyBegins.isSome = s.site.reply.isSome
  /-- The receivers of the hall ports. -/
  receivers : ∀ h, ReceiverLaw (s.port h).rx (transmitting (s.port h).owed (s.port h).replyBegins s.now)
  /-- The receiver of the site port. -/
  siteReceiver : ReceiverLaw s.site.rx (transmitting s.site.owed s.site.replyBegins s.now)

/-! ### Requests and replies -/

/-- Hall `h`'s port receives, and an arrival becomes its request (R164, R165). -/
def State.takesRequest (s : State) (h : Hall) : Prop := (s.port h).rx.state ≠ .off ∧ (s.port h).owed = false

/-- The site port receives, and an arrival becomes its request (R165, R177). -/
def State.takesSiteRequest (s : State) : Prop := s.site.rx.state ≠ .off ∧ s.site.owed = false

/-- `t` begins a transmission 1 to 5 ms after `now` (R165). -/
def beginsWithin (now : Time) (t : Option Time) : Prop := ∃ d : Nat, 1 ≤ d ∧ d ≤ 5 ∧ t = some (now + ms d)

/-- Hall `h`'s request of kind `kind`, taken in state `s`, has left state `t` with the reply formed: its result, and every
other part as it stands in `t`; the link ACTIVE and supervised from now; every latch that is set reported
(R165 to R167, R169, R172). -/
structure HallAnswered (s t : State) (h : Hall) (kind : Byte) (result : Result) : Prop where
  /-- A reply is owed. -/
  owed : (t.port h).owed = true
  /-- The link is ACTIVE. -/
  active : (t.port h).link = .active
  /-- The supervision deadline, with the timeout taken into 1 000 to 10 000 ms. -/
  supervised : (t.port h).supervision =
    .load s.now (s.now + ms (max 1000 (min 10000 (s.hallRec h).supervisionTimeout))) .supervision
  /-- The transmission begins 1 to 5 ms from now. -/
  begins : beginsWithin s.now (t.port h).replyBegins
  /-- The reply. -/
  reply : ∃ r, (t.port h).reply = some r ∧ r.kind = kind + 128 ∧ r.result = result ∧ r.mode = t.mode ∧
    r.view = t.claimView h ∧ r.inventory = t.inventory ∧ (t.port h).latches = r.latches.map LatchState.report

/-- A site request of kind `kind`, taken in state `s`, has left state `t` with its reply formed: result, mode and now, and the
content carried only when it is accepted (R165, R177). -/
structure SiteAnswered (s t : State) (kind : Byte) (result : Result) (content : List Byte) : Prop where
  /-- A reply is owed. -/
  owed : t.site.owed = true
  /-- The transmission begins 1 to 5 ms from now. -/
  begins : beginsWithin s.now t.site.replyBegins
  /-- The reply. -/
  reply : t.site.reply = some
    { kind := kind + 128, result := result, mode := t.mode, now := s.now, content := content }

/-- The refusal of a RELEASE for hall `h` by the first check of R49 that fails; absent when all pass. -/
def State.releaseRefusal (s : State) (h : Hall) (basis reserve : Byte) : Option Result :=
  if s.mode = .maintPending ∨ s.mode = .maintenance then some .lockout
  else if s.mode ≠ .normal then some .notCommissioned
  else if (s.hallRec h).commissioned = false then some .notCommissioned
  else if s.selectorFaulted h = true then some .selectorFault
  else if 1 < basis.toNat ∨ 1 < reserve.toNat then some .badField
  else match s.claim h with
    | none => none
    | some c =>
      if c.state.terminal then none
      else if basis = 1 ∧ c.basis = .auto ∧ (c.state = .countdown ∨ c.state = .hold) then none
      else some .duplicate

/-! ### The order and the stop of a run (R74 to R78, R91) -/

/-- The class of cylinder `k` as a candidate of a run, with reserve permitted or not: 1 to 4 for a FULL or LOW cylinder, 5 for an
UNREAD one of a MAIN rack, and 6 for an UNREAD one of a RESERVE rack, the part of class 5 that is taken last. Absent for a
cylinder that is no candidate: not fitted, not FREE, EMPTY, or of a RESERVE rack that is not permitted (R74, R78). -/
def State.classOf (s : State) (reserve : Bool) (k : CylIdx) : Option Nat :=
  match s.cyl k with
  | none => none
  | some y =>
    if y.disposition ≠ .free then none
    else match s.rackRole k, y.condition with
      | .main, .full => some 1
      | .main, .low => some 2
      | .main, .unread => some 5
      | .reserve, .full => if reserve then some 3 else none
      | .reserve, .low => if reserve then some 4 else none
      | .reserve, .unread => if reserve then some 6 else none
      | _, .empty => none

/-- The TOTAL E of rack `r`'s candidates of class `n` (R75). -/
def State.rackTotal (s : State) (reserve : Bool) (n : Nat) (r : Rack) : Nat :=
  ((allCylinders.filter fun k => rackOf k = r ∧ s.classOf reserve k = some n).map fun k =>
    ((s.cyl k).map (·.e)).getD 0).sum

/-- The turn of the ROTATION in which cylinder `k` is reached: the number of its rack's candidates of its class in lower
positions (R76). -/
def State.turnOf (s : State) (reserve : Bool) (k : CylIdx) : Nat :=
  (allCylinders.filter fun j =>
    rackOf j = rackOf k ∧ s.classOf reserve j = s.classOf reserve k ∧ j < k).length

/-- A run reaches candidate `j` before candidate `k`: in an earlier class (R74); in the same class, in an earlier turn of the
rotation (R76); and in the same turn, from a rack of a larger total, or of the same total and a lower letter (R75). -/
def State.drawnBefore (s : State) (reserve : Bool) (j k : CylIdx) : Prop :=
  ∃ m n, s.classOf reserve j = some m ∧ s.classOf reserve k = some n ∧
    (m < n ∨ m = n ∧
      (s.turnOf reserve j < s.turnOf reserve k ∨ s.turnOf reserve j = s.turnOf reserve k ∧
        (s.rackTotal reserve n (rackOf k) < s.rackTotal reserve n (rackOf j) ∨
          s.rackTotal reserve n (rackOf k) = s.rackTotal reserve n (rackOf j) ∧ rackOf j < rackOf k)))

/-- The target of a run is met by some taken entries: with them the allocated sum reaches the requirement; for a replacement
there is one at least, and their E reaches the debt (R73, R91). -/
def RunKind.reached (kind : RunKind) (c : Claim) (taken : List Entry) : Prop :=
  match kind with
  | .replacement debt => taken ≠ [] ∧ debt ≤ sumE taken
  | .firstAllocation | .topUp => c.figures.req ≤ c.allocatedSum + sumE taken

/-- The taken entries of classes 1 to 4. -/
def State.credited (s : State) (reserve : Bool) (taken : List Entry) : List Entry :=
  taken.filter fun e => (s.classOf reserve e.cyl).any fun n => n ≤ 4

/-- The entries whose sum decides whether a run goes on: all that is taken, for a replacement; for a first allocation or a
top-up those of classes 1 to 4, class 5 being no credit (R78, R91). -/
def State.counted (s : State) (kind : RunKind) (reserve : Bool) (taken : List Entry) : List Entry :=
  match kind with
  | .replacement _ => taken
  | .firstAllocation | .topUp => s.credited reserve taken

/-- `taken` is the list that a run of kind `kind` takes for claim `c` in state `s`: what it may hold, the order in which it is
drawn, and where the run stops (R73 to R78, R91, R92). -/
structure RunTakes (s : State) (kind : RunKind) (c : Claim) (taken : List Entry) : Prop where
  /-- Allocated, fired and taken cylinders are at most 32. -/
  limit : c.allocation.length + c.fired.length + taken.length ≤ 32
  /-- Each cylinder is taken once. -/
  once : (taken.map (·.cyl)).Nodup
  /-- Each is a candidate, with its present E. -/
  entries : ∀ e ∈ taken, s.classOf c.reservePermitted e.cyl ≠ none ∧ ∃ y, s.cyl e.cyl = some y ∧ y.e = e.e
  /-- They are taken in order: by class, by rotation over the racks, and by total and letter of the rack. -/
  ordered : (taken.map (·.cyl)).Pairwise (s.drawnBefore c.reservePermitted)
  /-- No candidate is passed over: every one that the run reaches before a taken one is taken. -/
  complete : ∀ e ∈ taken, ∀ j, s.drawnBefore c.reservePermitted j e.cyl → ∃ x ∈ taken, x.cyl = j
  /-- A cylinder is taken only while the target is not met by what counts of the entries before it. -/
  wanted : ∀ before e after, taken = before ++ e :: after →
    ¬ kind.reached c (s.counted kind c.reservePermitted before)
  /-- The first candidate left is left for a reason: the target is met, 32 are reached, or, of a replacement, it would open
  line 256. -/
  stopped : ∀ k n, s.classOf c.reservePermitted k = some n → (∀ e ∈ taken, e.cyl ≠ k) →
    (∀ j, s.drawnBefore c.reservePermitted j k → ∃ x ∈ taken, x.cyl = j) →
    kind.reached c (s.counted kind c.reservePermitted taken) ∨
      c.allocation.length + c.fired.length + taken.length = 32 ∨
      ∃ debt, kind = .replacement debt ∧ 255 < c.lineCount + (lay (taken.map (·.cyl) ++ [k])).length
  /-- What a replacement takes is laid within 255 lines. -/
  lines : ∀ debt, kind = .replacement debt → taken ≠ [] → c.lineCount + (lay (taken.map (·.cyl))).length ≤ 255

/-! ### The flags of a changed allocation, with their latches (R42, R78, R80, R81) -/

/-- The claim `cl` once its allocation has become `alloc`: the sums follow; OVER_CEILING is set when the sum has changed and
exceeds Cap; and SHORT, short of FIRING, says whether the sum falls short of the requirement, where the sum has changed or a
list is committed (R40 to R42, R81). -/
def Claim.changedTo (cl : Claim) (commit : Bool) (alloc : List Entry) : Claim :=
  { cl with
    allocation := alloc, allocatedSum := sumE alloc, shortage := cl.figures.req - sumE alloc
    flags := { cl.flags with
      overCeiling := cl.flags.overCeiling || decide (sumE alloc ≠ cl.allocatedSum ∧ cl.figures.cap < sumE alloc)
      short :=
        if cl.state.shortOfFiring = true ∧ (commit = true ∨ sumE alloc ≠ cl.allocatedSum) then
          decide (sumE alloc < cl.figures.req)
        else cl.flags.short } }

/-- The latches that such a change asks for: OVER_CEILING whenever the changed sum exceeds Cap, the flag set already or not,
and SHORT when its flag moves from clear to set (R42, R81). -/
def Claim.changeAsks (cl : Claim) (commit : Bool) (alloc : List Entry) : Latch → Bool
  | .overCeiling => decide (sumE alloc ≠ cl.allocatedSum ∧ cl.figures.cap < sumE alloc)
  | .short => (cl.changedTo commit alloc).flags.short && !cl.flags.short
  | _ => false

/-- Some cylinder of the list `taken` stands in a RESERVE rack (R80). -/
def State.drawsReserve (s : State) (taken : List Entry) : Bool := taken.any fun e => s.rackRole e.cyl = .reserve

/-- Some cylinder of the list `taken` is UNREAD: one of class 5 (R78). -/
def State.drawsUnread (s : State) (taken : List Entry) : Bool :=
  taken.any fun e => (s.cyl e.cyl).map (·.condition) = some .unread

/-- The claim `cl` once the list `taken` has been committed for it: the entries at the tail of its allocation, the sums and
flags as of that change, RESERVE_USED set by a cylinder of a RESERVE rack, and UNREAD_INCLUDED by an UNREAD one. An empty list
changes nothing (R73, R78, R80). -/
def State.committed (s : State) (cl : Claim) (taken : List Entry) : Claim :=
  if taken = [] then cl
  else
    let cl' := cl.changedTo true (cl.allocation ++ taken)
    { cl' with flags := { cl'.flags with
      reserveUsed := cl.flags.reserveUsed || s.drawsReserve taken
      unreadIncluded := cl.flags.unreadIncluded || s.drawsUnread taken } }

/-- The latches that the commit asks for: those of the change, and RESERVE_USED; none records UNREAD_INCLUDED (R78, R80). -/
def State.commitAsks (s : State) (cl : Claim) (taken : List Entry) (l : Latch) : Bool :=
  !taken.isEmpty &&
    match l with
    | .reserveUsed => s.drawsReserve taken
    | l => cl.changeAsks true (cl.allocation ++ taken) l

/-- Between `s` and `t` hall `h`'s port has been asked to set latch `l`, or not, as `asked` says: a clear latch asked for is
set and unreported, a set one keeps its reported bit, and one not asked for stands (R171). -/
def LatchAsked (s t : State) (h : Hall) (l : Latch) (asked : Bool) : Prop :=
  (t.port h).latches.get l = if asked then ((s.port h).latches.get l).raise else (s.port h).latches.get l

/-! ### Allocation, grant and discharge -/

/-- A first allocation for hall `h`'s claim `c` is committed and not empty: classes 1 to 4 reach the minimum acceptable
quantity, and something is taken (R79). -/
def State.servable (s : State) (h : Hall) (c : Claim) : Bool :=
  s.minAcceptable h c.figures.req ≤ sumE (s.takeCredited .firstAllocation c).1 &&
    s.takenList .firstAllocation c ≠ []

/-- The claim `cl` with the allocation `alloc`, and the sums that follow it (R40, R41). -/
def Claim.holding (cl : Claim) (alloc : List Entry) : Claim :=
  { cl with allocation := alloc, allocatedSum := sumE alloc, shortage := cl.figures.req - sumE alloc }

/-- What a top-up takes for the claim `cl` (R82, R83): a run where a shortage stands, nothing otherwise. -/
def State.toppedUpWith (s : State) (cl : Claim) : List Entry :=
  if cl.shortage = 0 then [] else s.takenList .topUp cl

/-- Between `s` and `t` hall `h`'s claim `cl` has been given the first allocation `s` has for it: the entries, their sums,
STARVED clear, the other flags as the commit leaves them, each with its latch, and every cylinder taken ASSIGNED (R42, R54,
R73, R78 to R81). -/
structure Served (s t : State) (h : Hall) (cl cl' : Claim) : Prop where
  /-- The allocation. -/
  allocation : cl'.allocation = cl.allocation ++ s.takenList .firstAllocation cl
  /-- The allocated sum. -/
  sum : cl'.allocatedSum = sumE cl'.allocation
  /-- The shortage. -/
  shortage : cl'.shortage = cl.figures.req - cl'.allocatedSum
  /-- STARVED. -/
  starved : cl'.flags.starved = false
  /-- SHORT. -/
  short : cl'.flags.short = decide (cl'.shortage ≠ 0)
  /-- Every flag: OVER_CEILING, SHORT, RESERVE_USED and UNREAD_INCLUDED. -/
  flags : cl'.flags = { (s.committed cl (s.takenList .firstAllocation cl)).flags with starved := false }
  /-- Their latches, and no other. -/
  latches : ∀ l, LatchAsked s t h l (s.commitAsks cl (s.takenList .firstAllocation cl) l)
  /-- The dispositions. -/
  assigned : ∀ e ∈ s.takenList .firstAllocation cl, t.assignedTo h e.cyl = true
  /-- What a first allocation leaves. -/
  kept : cl'.basis = cl.basis ∧ cl'.figures = cl.figures ∧ cl'.fired = cl.fired ∧ cl'.schedule = cl.schedule ∧
    cl'.remaining = cl.remaining ∧ cl'.admittedAt = cl.admittedAt ∧ cl'.delaySource = cl.delaySource

/-- Between `s` and `t` the manifold has been granted to hall `h`, whose claim was `cl`: SELECTING with its schedule built, the
manifold OPENING, the hall off the wait list, its selector alone newly commanded open, its capture armed and its selector
open deadline loaded (R88, R99). -/
structure GrantedTo (s t : State) (h : Hall) (cl : Claim) : Prop where
  /-- The claim. -/
  claim : t.claim h = some { cl with
    state := .selecting, fired := []
    schedule := some { lines := (lay (cl.allocation.map (·.cyl))).map newLine, cursor := 0, outstanding := 0 } }
  /-- The manifold. -/
  manifold : t.manifold.state = .opening ∧ t.manifold.holder = some h ∧ t.manifold.lastHall = some h
  /-- The wait list. -/
  waiting : t.manifold.waitList = s.manifold.waitList.filter fun w => w.hall ≠ h
  /-- The deadline. -/
  deadline : t.unit h = .load s.now (s.now + ms s.timing.selectorOpenTimeout) .selectorOpen
  /-- The capture units. -/
  capture : t.captures.selectors[h] = .armed ∧ t.captures.switch = s.captures.switch ∧
    ∀ j : Hall, j ≠ h → t.captures.selectors[j] = s.captures.selectors[j]
  /-- The selectors. -/
  selector : t.selectorCmd h = .opened ∧ ∀ j, j ≠ h → t.selectorCmd j = s.selectorCmd j
  /-- The other halls. -/
  others : ∀ j, j ≠ h → t.claim j = s.claim j ∧ t.unit j = s.unit j

/-- Between `s` and `t` the grant of hall `h` has been withdrawn: no holder, the selector commanded closed, the capture
disarmed, and the manifold CLOSING or VENTING as the selector reads (R101, R104). -/
structure GrantWithdrawn (s t : State) (h : Hall) : Prop where
  /-- The manifold. -/
  manifold : t.manifold.holder = none ∧
    t.manifold.state = (if s.selectorReading h = some .opened then .closing else .venting)
  /-- The selector. -/
  selector : t.selectorCmd h = .closed
  /-- The capture unit. -/
  capture : t.captures.selectors[h] = .disarmed

/-- Between `s` and `t` hall `h`'s claim `cl`, short of FIRING, has been handed a change of cylinder `k`'s E from `old` to
`new`, and `cl'` is the claim in `t`: the entry takes the new E, the sums follow, a fall that leaves a shortage is topped up at
the tail and a rise calls for no run, the flags follow each of the two changes, with their latches, and SELECTING has its
schedule rebuilt when cylinders are taken (R14, R42, R78, R80 to R84, R89). -/
structure Handed (s t : State) (h : Hall) (k : CylIdx) (old new : Nat) (cl cl' : Claim) : Prop where
  /-- The allocation and its sums, and what the top-up takes. -/
  allocation :
    let handed := cl.holding (cl.allocation.map fun e => if e.cyl = k then { e with e := new } else e)
    let taken := if new < old then s.toppedUpWith handed else []
    cl'.allocation = handed.allocation ++ taken ∧ cl'.allocatedSum = sumE cl'.allocation ∧
      cl'.shortage = cl.figures.req - cl'.allocatedSum ∧ (∀ e ∈ taken, t.assignedTo h e.cyl = true) ∧
      cl'.schedule = (if cl.state = .selecting ∧ taken ≠ [] then some
        { lines := (lay (cl'.allocation.map (·.cyl))).map newLine, cursor := 0, outstanding := 0 }
        else cl.schedule) ∧
      ∀ j, j ≠ k → (∀ e ∈ taken, e.cyl ≠ j) → t.cyl j = s.cyl j
  /-- The flags and the latches, of the change of E and of the commit. -/
  flags :
    let alloc := cl.allocation.map fun e => if e.cyl = k then { e with e := new } else e
    let taken := if new < old then s.toppedUpWith (cl.holding alloc) else []
    let changed := cl.changedTo false alloc
    cl'.flags = (s.committed changed taken).flags ∧
      ∀ l, LatchAsked s t h l (cl.changeAsks false alloc l || s.commitAsks changed taken l)
  /-- The state and the deadline. -/
  state : cl'.state = cl.state ∧ t.unit h = s.unit h
  /-- Every other record. -/
  others : (∀ j, j ≠ h → t.claim j = s.claim j ∧ t.port j = s.port j) ∧
    t.port h = { s.port h with latches := (t.port h).latches } ∧
    t = { s with cyls := t.cyls, claims := t.claims, ports := t.ports }

/-- Between `s` and `t` hall `h`'s claim `cl` in FIRING has been handed a change of cylinder `k`'s E from `old` to `new`, and
`cl'` is the claim in `t`: the entry takes the new E, the sums follow, OVER_CEILING is checked, no run is made and SHORT is not
evaluated; with the E as it was nothing of the claim changes (R14, R40 to R42, R130). -/
structure HandedFiring (s t : State) (h : Hall) (k : CylIdx) (old new : Nat) (cl cl' : Claim) : Prop where
  /-- What stands. -/
  kept : cl'.state = .firing ∧ cl'.schedule = cl.schedule ∧ cl'.flags.short = cl.flags.short ∧
    cl'.allocation.map (·.cyl) = cl.allocation.map (·.cyl)
  /-- The entry. -/
  entry : new ≠ old → ∀ e ∈ cl'.allocation, e.cyl = k → e.e = new
  /-- The claim and the latches. -/
  changed : new ≠ old →
    let alloc := cl.allocation.map fun e => if e.cyl = k then { e with e := new } else e
    cl' = cl.changedTo false alloc ∧ ∀ l, LatchAsked s t h l (cl.changeAsks false alloc l)
  /-- An E that stands. -/
  unchanged : new = old → cl' = cl ∧ t.ports = s.ports
  /-- Every other record. -/
  others : (∀ j, j ≠ k → t.cyl j = s.cyl j) ∧ (∀ j, j ≠ h → t.claim j = s.claim j ∧ t.port j = s.port j) ∧
    t.port h = { s.port h with latches := (t.port h).latches } ∧
    t = { s with cyls := t.cyls, claims := t.claims, ports := t.ports }

/-- Between `s` and `t` hall `h`'s claim `cl`, short of FIRING, has lost cylinder `k`, and `cl'` is the claim in `t`: the entry
leaves, a shortage that is left is topped up at the tail, and the flags follow the two changes, with their latches. With an
allocation left the claim goes on, SELECTING with its schedule rebuilt; with none it is STARVED-flagged, and from WAITING or
SELECTING becomes STARVED, off the wait list or its grant withdrawn (R42, R54, R57, R78, R80 to R83, R85, R89, R101). -/
structure Removed (s t : State) (h : Hall) (k : CylIdx) (cl cl' : Claim) : Prop where
  /-- The claim and its latches. -/
  claim :
    let left := cl.allocation.filter fun e => e.cyl ≠ k
    let taken := s.toppedUpWith (cl.holding left)
    let changed := cl.changedTo false left
    let after := s.committed changed taken
    let flagged := { after.flags with starved := true }
    (∀ l, LatchAsked s t h l (cl.changeAsks false left l || s.commitAsks changed taken l)) ∧
      (∀ e ∈ taken, t.assignedTo h e.cyl = true) ∧ (∀ j, j ≠ k → (∀ e ∈ taken, e.cyl ≠ j) → t.cyl j = s.cyl j) ∧
      (left ++ taken ≠ [] → t.unit h = s.unit h ∧ t.manifold = s.manifold ∧
        cl' = { after with
          schedule := if cl.state = .selecting ∧ (left ++ taken).map (·.cyl) ≠ cl.allocation.map (·.cyl)
            then some { lines := (lay ((left ++ taken).map (·.cyl))).map newLine, cursor := 0, outstanding := 0 }
            else cl.schedule }) ∧
      (left ++ taken = [] →
        (cl.state = .countdown ∨ cl.state = .hold →
          cl' = { after with flags := flagged } ∧ t.unit h = s.unit h ∧ t.manifold = s.manifold) ∧
        (cl.state = .waiting →
          cl' = { after with flags := flagged, state := .starved, readyAt := none } ∧ t.unit h = s.unit h ∧
            t.manifold = { s.manifold with waitList := s.manifold.waitList.filter fun w => w.hall ≠ h }) ∧
        (cl.state = .selecting → s.manifold.lastHall = some h →
          cl' = { after with flags := flagged, state := .starved, readyAt := none, schedule := none } ∧
            t.unit h = .inhibited ∧ GrantWithdrawn s t h))
  /-- Every other record. -/
  others : (∀ j, j ≠ h → t.claim j = s.claim j ∧ t.port j = s.port j ∧ t.unit j = s.unit j) ∧
    t.port h = { s.port h with latches := (t.port h).latches } ∧
    t = { s with cyls := t.cyls, claims := t.claims, units := t.units, ports := t.ports, manifold := t.manifold
                 captures := t.captures, circuits := t.circuits }

/-- Between `s` and `t` hall `h`'s claim `cl` in FIRING has lost cylinder `k` before its line time, and `cl'` is the claim in
`t`: the entry leaves, and the replacement run for the E it carried is committed, its cylinders laid into new lines at the end
of the schedule, the flags and latches following the two changes; the deadline and the manifold stand (R20, R42, R80, R90 to
R92). -/
structure Replaced (s t : State) (h : Hall) (k : CylIdx) (cl cl' : Claim) : Prop where
  /-- The claim and its latches. -/
  claim :
    let left := cl.allocation.filter fun e => e.cyl ≠ k
    let taken := s.takenList (.replacement (s.entryE h k)) { cl with allocation := left }
    let changed := cl.changedTo false left
    cl' = { s.committed changed taken with
      schedule := cl.schedule.map fun sc => { sc with lines := sc.lines ++ (lay (taken.map (·.cyl))).map newLine } } ∧
      (∀ l, LatchAsked s t h l (cl.changeAsks false left l || s.commitAsks changed taken l)) ∧
      (∀ e ∈ taken, t.assignedTo h e.cyl = true) ∧ ∀ j, j ≠ k → (∀ e ∈ taken, e.cyl ≠ j) → t.cyl j = s.cyl j
  /-- Every other record. -/
  others : (∀ j, j ≠ h → t.claim j = s.claim j ∧ t.port j = s.port j) ∧
    t.port h = { s.port h with latches := (t.port h).latches } ∧
    t = { s with cyls := t.cyls, claims := t.claims, ports := t.ports, circuits := t.circuits }

/-- Between `s` and `t` hall `h`'s claim `cl`, short of FIRING, has been ABORTED by its panel, in the steps of R65: the record
and its flags, the deadline, the wait list or the grant, the release of every cylinder it held with one POOL GAIN where one
became eligible, and the admission order (R17, R24, R65, R66, R72, R101, R104). -/
structure AbortedByPanel (s t : State) (h : Hall) (cl : Claim) : Prop where
  /-- The record. -/
  claim : t.claim h = some { cl with
    state := .aborted, endReason := some .abortedByPanel, endedAt := some s.now, remaining := none
    holdStartedAt := none, allocation := [], allocatedSum := 0, shortage := cl.figures.req
    schedule := if cl.state = .selecting then none else cl.schedule }
  /-- The deadline and the admission order. -/
  deadline : t.unit h = .inhibited ∧ t.order = s.order.filter fun j => j ≠ h
  /-- The cylinders. -/
  released : ∀ k y, s.cyl k = some y → t.cyl k = some (if (∃ e ∈ cl.allocation, e.cyl = k) ∧ y.disposition = .assigned h
    then { y with disposition := .free } else y)
  /-- The POOL GAIN. -/
  gain : t.poolGains = s.poolGains + if ∃ e ∈ cl.allocation, ∃ y, s.cyl e.cyl = some y ∧
    y.disposition = .assigned h ∧ y.condition ≠ .empty then 1 else 0
  /-- From COUNTDOWN, HOLD and STARVED, the manifold stands. -/
  stands : cl.state = .countdown ∨ cl.state = .hold ∨ cl.state = .starved →
    t.manifold = s.manifold ∧ t.circuits = s.circuits ∧ t.captures = s.captures
  /-- From WAITING, the hall leaves the wait list. -/
  unlisted : cl.state = .waiting →
    t.manifold = { s.manifold with waitList := s.manifold.waitList.filter fun w => w.hall ≠ h } ∧
      t.circuits = s.circuits ∧ t.captures = s.captures
  /-- From SELECTING, the grant is withdrawn. -/
  withdrawn : cl.state = .selecting → s.manifold.lastHall = some h →
    GrantWithdrawn s t h ∧ t.manifold.waitList = s.manifold.waitList ∧ ∀ j, j ≠ h → t.selectorCmd j = s.selectorCmd j

/-- Between `s` and `t` the maintenance exit has been made on the image of `t`: it is validated, a valid one gives NORMAL and its
CRC to be stored, any other UNCOMMISSIONED with the stored CRC left, exit pending is no, and every channel is re-driven (R150,
R183, R189). -/
structure ExitMade (s t : State) : Prop where
  /-- Mode Control. -/
  ctl : t.ctl = { s.ctl with
    mode := if validate t.image = none then .normal else .uncommissioned
    imageValid := decide (validate t.image = none), exitPending := false }
  /-- The CRC. -/
  crc : t.store.crc = s.store.crc ∧
    t.store.crcStore = if validate t.image = none then some (imageCrc t.image) else s.store.crcStore
  /-- The drives. -/
  drives : ∀ c, (t.channel c).energised = t.driven c

/-- Between `s` and `t` hall `h`'s claim, of schedule `sc`, has become DISCHARGED with CONFIRMED, in the steps of R127: `cl'`
is the claim it leaves. -/
structure Confirmed (s t : State) (h : Hall) (cl' : Claim) : Prop where
  /-- The claim. -/
  claim : cl'.state = .discharged ∧ cl'.endReason = some .confirmed ∧ cl'.endedAt = some s.now
  /-- The deadline and the capture. -/
  deadline : t.unit h = .inhibited ∧ t.captures.switch = .disarmed
  /-- The latch. -/
  latch : (t.port h).latches.discharged ≠ .clear
  /-- The admission order. -/
  order : t.order = s.order.filter fun j => j ≠ h
  /-- The end of the grant. -/
  grant : t.manifold.holder = none ∧ t.selectorCmd h = .closed ∧
    (t.manifold.state = .closing ∨ t.manifold.state = .venting)

/-- Between `s` and `t` one pulse of the line in hand of hall `h`'s claim `cl` has completed, its schedule having been `sc`
and `appended` the lines its replacement laid; `cl'` is the claim in `t`. Pulses outstanding falls by one. At 0 the line is
DONE and its completion taken: with a line after the cursor the claim stays in FIRING, its deadline standing; with none it is
CONFIRMING, timed from the line's own time, or DISCHARGED at once when discharge seen at is present (R121 to R124). -/
structure PulseTaken (s t : State) (h : Hall) (cl cl' : Claim) (sc : Schedule) (appended : List Line) : Prop where
  /-- More pulses are outstanding. -/
  more : 1 < sc.outstanding →
    cl'.schedule = some { sc with lines := sc.lines ++ appended, outstanding := sc.outstanding - 1 } ∧
      cl'.state = .firing ∧ t.unit h = s.unit h ∧ t.manifold = s.manifold
  /-- It was the last: the line in hand is DONE. -/
  done : sc.outstanding ≤ 1 →
    cl'.schedule = some { sc with
      lines := (sc.lines ++ appended).modify (sc.cursor - 1) fun l => { l with status := .done }, outstanding := 0 }
  /-- A line after the cursor remains. -/
  stays : sc.outstanding ≤ 1 → sc.cursor < sc.lines.length + appended.length →
    cl'.state = .firing ∧ t.unit h = s.unit h ∧ t.manifold = s.manifold
  /-- None remains, and no discharge has been seen. -/
  confirming : sc.outstanding ≤ 1 → sc.lines.length + appended.length ≤ sc.cursor → cl.dischargeSeenAt = none →
    ∀ line t0, sc.lines[sc.cursor - 1]? = some line → line.time = some t0 →
      cl'.state = .confirming ∧ t.unit h = .load s.now (t0 + ms s.timing.confirmTimeout) .confirm ∧
        t.manifold = s.manifold
  /-- None remains, and the discharge has been seen. -/
  confirmed : sc.outstanding ≤ 1 → sc.lines.length + appended.length ≤ sc.cursor → cl.dischargeSeenAt ≠ none →
    Confirmed s t h cl'

/-- The schedule `sc` after its next line, none of whose cylinders is still ASSIGNED, has been fired at `now`: the line has its
line time and is DONE at once (R116). -/
def Schedule.firedEmpty (sc : Schedule) (now : Time) : Schedule :=
  { lines := sc.lines.modify sc.cursor fun l => { l with status := .done, time := some now, pulsed := [] }
    cursor := sc.cursor + 1, outstanding := 0 }

/-- Between `s` and `t` the next line of hall `h`'s claim `cl`, of schedule `sc`, has been fired as an empty line: it is DONE,
no pulse begins, and its line completion is taken at once. With a line after it the claim stays in its state under the next
line deadline; with none it is CONFIRMING, timed from now, or DISCHARGED at once when discharge seen at is present (R116,
R121, R124). -/
structure EmptyLineFired (s t : State) (h : Hall) (cl : Claim) (sc : Schedule) : Prop where
  /-- A line after the cursor remains. -/
  stays : sc.cursor + 1 < sc.lines.length → t.claim h = some { cl with schedule := some (sc.firedEmpty s.now) } ∧
    t.unit h = .load s.now (s.now + ms s.timing.lineInterval) .nextLine
  /-- None remains, and no discharge has been seen. -/
  confirming : sc.lines.length ≤ sc.cursor + 1 → cl.dischargeSeenAt = none →
    t.claim h = some { cl with state := .confirming, schedule := some (sc.firedEmpty s.now) } ∧
      t.unit h = .load s.now (s.now + ms s.timing.confirmTimeout) .confirm
  /-- None remains, and the discharge has been seen. -/
  confirmed : sc.lines.length ≤ sc.cursor + 1 → cl.dischargeSeenAt ≠ none →
    ∃ cl', t.claim h = some cl' ∧ cl'.schedule = some (sc.firedEmpty s.now) ∧ cl'.fired = cl.fired ∧
      Confirmed s t h cl'
  /-- No pulse begins. -/
  unpulsed : ∀ c, (t.channel c).pulse = (s.channel c).pulse
  /-- The other halls. -/
  others : ∀ j, j ≠ h → t.claim j = s.claim j ∧ t.unit j = s.unit j

/-! ### What the pages of the site replies carry (section 12.3) -/

/-- The number in `n` bytes of `bs` from byte `i` on, high byte first (chapter 12). -/
def wordAt (bs : List Byte) (i n : Nat) : Nat := number ((bs.drop i).take n)

/-- The field of `w` bits of a number from bit `lo` on (chapter 12). -/
def fieldOf (x lo w : Nat) : Nat := x / 2 ^ lo % 2 ^ w

/-- The measured state of a function's channel, coded: that of the lowest-numbered channel whose role names it, UNKNOWN where
none does (R162). -/
def State.shows (s : State) (r : Role) (code : Nat) : Prop :=
  ((∀ c, s.role c ≠ r) → code = 0) ∧
    ∀ c, s.role c = r → (∀ d, s.role d = r → c ≤ d) →
      [LineState.unknown, .normal, .opened, .shorted][code]? = some (s.channel c).measured

/-- SITE_POLL page 0 (R111, R162). A code is the place of its value in the list of its codes. -/
structure PollPage0 (s : State) (bs : List Byte) : Prop where
  /-- Its length. -/
  length : bs.length = 20
  /-- Manifold state. -/
  state : [ManifoldState.idle, .opening, .discharging, .closing, .venting][wordAt bs 0 1]? = some s.manifold.state
  /-- Grant holder, 0 for none. -/
  holder : wordAt bs 1 1 = (s.manifold.holder.map (·.val + 1)).getD 0
  /-- Last hall, 0 for none. -/
  lastHall : wordAt bs 2 1 = (s.manifold.lastHall.map (·.val + 1)).getD 0
  /-- Remaining time to the close or vent deadline. -/
  remaining : wordAt bs 3 3 = s.manifold.unit.remaining s.now % 2 ^ 24
  /-- Last vent result. -/
  lastVent : [VentResult.none, .ok, .timeout][wordAt bs 6 1]? = some s.manifold.lastVent
  /-- Manifold pressure. -/
  pressure : wordAt bs 7 2 = match s.manifold.pressure with
    | none => 65534
    | some .invalid => 65535
    | some (.valid p) => p % 2 ^ 16
  /-- Mismatch flags. -/
  mismatch : ∀ h : Hall, fieldOf (wordAt bs 9 1) h.val 1 = (s.mismatch h).toNat
  /-- The general byte. -/
  general : [none, some false, some true][fieldOf (wordAt bs 10 1) 0 2]? = some s.keyReading ∧
    fieldOf (wordAt bs 10 1) 2 1 = s.ctl.exitPending.toNat ∧ s.shows .vent (fieldOf (wordAt bs 10 1) 3 2)
  /-- The switch byte. -/
  switch : [none, some false, some true][fieldOf (wordAt bs 11 1) 0 2]? = some s.switchReading ∧
    [none, some LoopState.normal, some .fault][fieldOf (wordAt bs 11 1) 2 2]? = some s.inputs.switch.loop.level
  /-- The byte of each hall. -/
  halls : ∀ h : Hall,
    let x := wordAt bs (12 + h.val) 1
    s.shows (.selector h) (fieldOf x 0 2) ∧ fieldOf x 2 1 = (s.selectorFaulted h).toNat ∧
      [none, some Valve.closed, some .opened][fieldOf x 3 2]? = some (s.selectorReading h) ∧
      [none, some LoopState.normal, some .fault][fieldOf x 5 2]? = some (s.inputs.selectors[h]).loop.level

/-- SITE_POLL page 1: the wait list in order, unused entries 0 (R111). -/
structure PollPage1 (s : State) (bs : List Byte) : Prop where
  /-- Its length. -/
  length : bs.length = 41
  /-- The count. -/
  count : wordAt bs 0 1 = s.manifold.waitList.length % 2 ^ 8
  /-- The entries. -/
  entries : ∀ i, i < 8 →
    wordAt bs (1 + 5 * i) 1 = (s.manifold.waitList[i]?.map (·.hall.val + 1)).getD 0 ∧
      wordAt bs (2 + 5 * i) 4 = (s.manifold.waitList[i]?.map (·.readyAt.toNat)).getD 0

/-- The latches in the order of their bits (section 12.2). -/
def latchOrder : List Latch :=
  [.discharged, .unconfirmed, .part, .short, .overCeiling, .reserveUsed, .selectorFail, .aborted, .linkLost]

/-- SITE_POLL page 2: each port's latches and link state (R175). -/
structure PollPage2 (s : State) (bs : List Byte) : Prop where
  /-- Its length. -/
  length : bs.length = 24
  /-- The set and reported bits. -/
  latches : ∀ (h : Hall) (i : Nat) (l : Latch), latchOrder[i]? = some l →
    fieldOf (wordAt bs (3 * h.val) 3) i 1 = (decide ((s.port h).latches.get l ≠ .clear)).toNat ∧
      fieldOf (wordAt bs (3 * h.val) 3) (9 + i) 1 = (decide ((s.port h).latches.get l = .reported)).toNat
  /-- The link states. -/
  links : ∀ h : Hall,
    [LinkState.unarmed, .active, .lost][fieldOf (wordAt bs (3 * h.val) 3) 18 2]? = some (s.port h).link

/-- The record of cylinder `k` in a CYLINDER_QUERY (R26, R162): the commissioned fields, and, of a fitted one, its running
fields; the fields after p_nom are 0 for one that is not fitted. -/
structure CylinderShown (s : State) (k : CylIdx) (bs : List Byte) : Prop where
  /-- Its length. -/
  length : bs.length = 14
  /-- Fitted. -/
  fitted : fieldOf (wordAt bs 0 1) 0 1 = (s.cyl k).isSome.toNat
  /-- Rack role, Q_nom and p_nom. -/
  commissioned : fieldOf (wordAt bs 0 1) 1 1 = (decide (s.rackRole k = .reserve)).toNat ∧
    wordAt bs 4 2 = (s.image.cylinders[k]).qNom % 2 ^ 16 ∧ wordAt bs 6 2 = (s.image.cylinders[k]).pNom % 2 ^ 16
  /-- Not fitted. -/
  unfitted : s.cyl k = none → wordAt bs 8 6 = 0
  /-- In service, the invalid streak, the condition and the numbers. -/
  reading : ∀ c, s.cyl k = some c →
    fieldOf (wordAt bs 0 1) 2 1 = (s.image.cylinders[k]).inService.toNat ∧
      fieldOf (wordAt bs 0 1) 3 2 = c.streak % 4 ∧
      [Condition.full, .low, .empty, .unread][fieldOf (wordAt bs 1 1) 0 2]? = some c.condition ∧
      wordAt bs 8 2 = c.pAvg % 2 ^ 16 ∧ wordAt bs 10 2 = c.phi % 2 ^ 16 ∧ wordAt bs 12 2 = c.e % 2 ^ 16
  /-- Disposition, owner and fault cause. -/
  disposition : ∀ c, s.cyl k = some c →
    let cause := fieldOf (wordAt bs 1 1) 5 2
    let owner := wordAt bs 2 1
    fieldOf (wordAt bs 1 1) 2 3 = (match c.disposition with
      | .free => 0
      | .assigned _ => 1
      | .fired => 2
      | .isolated => 3
      | .actuatorFault _ => 4) ∧
      (∀ h, c.disposition = .assigned h → owner = h.val + 1) ∧
      ((∀ h, c.disposition ≠ .assigned h) → owner = 0) ∧
      (c.disposition = .actuatorFault .supervision → cause = 1) ∧
      (c.disposition = .actuatorFault .pulse → cause = 2) ∧
      ((∀ x, c.disposition ≠ .actuatorFault x) → cause = 0)
  /-- The state and the failed-pulse flag of its channel. -/
  channel : (s.cyl k).isSome = true → s.shows (.cylinder k) (wordAt bs 3 1) ∧
    ∀ c, s.role c = .cylinder k → (∀ d, s.role d = .cylinder k → c ≤ d) →
      fieldOf (wordAt bs 0 1) 5 1 = (s.channel c).failedPulse.toNat

/-- CLAIM_QUERY page 0 of hall `h`'s claim `c` (R47, R132, R140). The remaining is the record's own field (assumption
entry 17). -/
structure ClaimPage0 (s : State) (h : Hall) (c : Claim) (bs : List Byte) : Prop where
  /-- Its length. -/
  length : bs.length = 36
  /-- The claim state, 0 being NONE. -/
  state : [none, some ClaimState.countdown, some .hold, some .starved, some .waiting, some .selecting, some .firing,
    some .confirming, some .discharged, some .aborted, some .failed][fieldOf (wordAt bs 0 1) 0 4]? = some (some c.state)
  /-- Basis and reserve permitted. -/
  basis : [Basis.auto, .manual][fieldOf (wordAt bs 0 1) 4 1]? = some c.basis ∧
    fieldOf (wordAt bs 0 1) 5 1 = c.reservePermitted.toNat
  /-- Delay source and end reason. -/
  reasons : [DelaySource.autoDelay, .manualDelay, .resumeMin, .remaining][fieldOf (wordAt bs 1 1) 0 2]? =
      some c.delaySource ∧
    [none, some EndReason.confirmed, some .unconfirmed, some .abortedByPanel, some .abortedLockout,
      some .failedSelectorOpen, some .failedSelectorFault][fieldOf (wordAt bs 1 1) 2 3]? = some c.endReason
  /-- The flags. -/
  flags : ∀ i b, [c.flags.short, c.flags.overCeiling, c.flags.reserveUsed, c.flags.unreadIncluded, c.flags.starved,
    c.flags.part][i]? = some b → fieldOf (wordAt bs 2 1) i 1 = b.toNat
  /-- Admitted at. -/
  admitted : wordAt bs 4 4 = c.admittedAt.toNat
  /-- The five times, each with its presence bit. -/
  times : ∀ i t, [c.readyAt, c.holdStartedAt, c.selectorOpenAt, c.dischargeSeenAt, c.endedAt][i]? = some t →
    fieldOf (wordAt bs 3 1) i 1 = t.isSome.toNat ∧ wordAt bs (8 + 4 * i) 4 = (t.map (·.toNat)).getD 0
  /-- The compare unit. -/
  unit : (∀ i, [none, some DeadlineKind.countdown, some .holdLimit, some .selectorOpen, some .nextLine, some .deferral,
      some .confirm][i]? = some (s.unit h).kind? → fieldOf (wordAt bs 28 1) 0 7 = i) ∧
    fieldOf (wordAt bs 28 1) 7 1 = (match (s.unit h).settle s.now with | .expired _ _ => 1 | _ => 0) ∧
    wordAt bs 29 4 = ((s.unit h).deadline?.map (·.toNat)).getD 0
  /-- The remaining. -/
  remaining : wordAt bs 33 3 = c.remaining.getD 0 % 2 ^ 24

/-- CLAIM_QUERY page 1 of hall `h`'s claim `c`: its figures and counts, and the port's fields (R47, R132, R175). -/
structure ClaimPage1 (s : State) (h : Hall) (c : Claim) (bs : List Byte) : Prop where
  /-- Its length. -/
  length : bs.length = 33
  /-- The temperature used, signed in 12 bits, its source and its clamped flag. -/
  temperature : fieldOf (wordAt bs 0 2) 0 12 = (c.figures.temperature % 2 ^ 12).toNat ∧
    fieldOf (wordAt bs 0 2) 12 1 = (decide (c.figures.source = .fallback)).toNat ∧
    fieldOf (wordAt bs 0 2) 13 1 = c.figures.clamped.toNat
  /-- The figures. -/
  figures : wordAt bs 2 2 = c.figures.fd % 2 ^ 16 ∧ wordAt bs 4 2 = c.figures.fc % 2 ^ 16 ∧
    wordAt bs 6 4 = c.figures.req % 2 ^ 32 ∧ wordAt bs 10 4 = c.figures.cap % 2 ^ 32 ∧
    wordAt bs 14 3 = c.allocatedSum % 2 ^ 24 ∧ wordAt bs 17 4 = c.shortage % 2 ^ 32
  /-- The counts. -/
  counts : wordAt bs 21 1 = c.allocation.length % 2 ^ 8 ∧ wordAt bs 22 1 = c.fired.length % 2 ^ 8 ∧
    wordAt bs 23 1 = (c.schedule.map (·.lines.length % 2 ^ 8)).getD 0 ∧
    wordAt bs 24 1 = (c.schedule.map (·.cursor % 2 ^ 8)).getD 0 ∧
    wordAt bs 25 1 = (c.schedule.map (·.outstanding % 2 ^ 8)).getD 0
  /-- The reported temperature, where one is held. -/
  reported : ∀ r, (s.port h).temp = some r →
    fieldOf (wordAt bs 26 2) 0 12 = (r.temperature % 2 ^ 12).toNat ∧ fieldOf (wordAt bs 26 2) 12 1 = 0 ∧
      fieldOf (wordAt bs 26 2) 13 1 = r.clamped.toNat ∧ fieldOf (wordAt bs 26 2) 14 2 = 1 ∧
      wordAt bs 28 4 = r.arrival.toNat
  /-- None held. -/
  unreported : (s.port h).temp = none → wordAt bs 26 2 = 0 ∧ wordAt bs 28 4 = 0
  /-- The hold level and the re-arm flag. -/
  hold : fieldOf (wordAt bs 32 1) 0 1 = (s.port h).holdLevel.toNat ∧ fieldOf (wordAt bs 32 1) 1 1 = (s.port h).reArm.toNat

/-- CLAIM_QUERY pages 2 to 5: the allocation, eight entries a page (R132). -/
structure ClaimAllocationPage (c : Claim) (page : Nat) (bs : List Byte) : Prop where
  /-- Its length. -/
  length : bs.length = 33
  /-- The count. -/
  count : wordAt bs 0 1 = min 8 (c.allocation.length - 8 * (page - 2))
  /-- The entries. -/
  entries : ∀ i, i < 8 →
    wordAt bs (1 + 4 * i) 1 = (c.allocation[8 * (page - 2) + i]?.map (·.cyl.val)).getD 0 ∧
      wordAt bs (2 + 4 * i) 3 = (c.allocation[8 * (page - 2) + i]?.map (·.e % 2 ^ 24)).getD 0

/-- CLAIM_QUERY page 6: the fired list, in firing order (R132). -/
structure ClaimFiredPage (c : Claim) (bs : List Byte) : Prop where
  /-- Its length. -/
  length : bs.length = 33
  /-- The count. -/
  count : wordAt bs 0 1 = c.fired.length % 2 ^ 8
  /-- The list. -/
  fired : ∀ i, i < 32 → wordAt bs (1 + i) 1 = (c.fired[i]?.map (·.val)).getD 0

/-- CLAIM_QUERY pages 7 to 255: the lines of the schedule, three a page (R132). -/
structure ClaimLinesPage (c : Claim) (page : Nat) (bs : List Byte) : Prop where
  /-- Its length. -/
  length : bs.length = 40
  /-- The count. -/
  count : wordAt bs 0 1 = min 3 (c.lineCount - 3 * (page - 7))
  /-- A line with its cylinders, its status and its times. -/
  lines : ∀ i sc l, i < 3 → c.schedule = some sc → sc.lines[3 * (page - 7) + i]? = some l →
    let x := wordAt bs (1 + 13 * i + 4) 1
    (∀ j, j < 4 → wordAt bs (1 + 13 * i + j) 1 = (l.cyls[j]?.map (·.val)).getD 255 ∧
      fieldOf x (3 + j) 1 = (decide (∃ k ∈ l.cyls[j]?, k ∈ l.pulsed)).toNat) ∧
      [LineStatus.pending, .deferred, .pulsing, .done, .abandoned][fieldOf x 0 3]? = some l.status ∧
      fieldOf x 7 1 = l.deferredAt.isSome.toNat ∧
      wordAt bs (1 + 13 * i + 5) 4 = (l.time.map (·.toNat)).getD 0 ∧
      wordAt bs (1 + 13 * i + 9) 4 = (l.deferredAt.map (·.toNat)).getD 0

/-- A page of CLAIM_QUERY for hall `h`'s claim `c` (R194). -/
def ClaimShown (s : State) (h : Hall) (c : Claim) (page : Nat) (bs : List Byte) : Prop :=
  if page = 0 then ClaimPage0 s h c bs
  else if page = 1 then ClaimPage1 s h c bs
  else if page ≤ 5 then ClaimAllocationPage c page bs
  else if page = 6 then ClaimFiredPage c bs
  else ClaimLinesPage c page bs

/-- THE MODE LAW (R68, R179, R182): outside NORMAL and MAINT_PENDING no claim is non-terminal, and in MAINT_PENDING none is
short of FIRING. -/
structure ModeLaw (s : State) : Prop where
  /-- Claims stand only in NORMAL and MAINT_PENDING. -/
  quiet : ∀ h, s.nonTerminal h = true → s.mode = .normal ∨ s.mode = .maintPending
  /-- In MAINT_PENDING the claims left are firing or confirming. -/
  locked : ∀ h st, s.claimState h = some st → st.shortOfFiring = true → s.mode = .normal

end Machine

end Sys2Proof
end

