-- ==== Sys2Proof/WellFormed.lean ====
section
/-! DEFINITION. Which command terms spell an event of the part: the checks that the types of `Instr` do not make. -/

namespace Sys2Proof

/-- A frame carries at most 48 bytes of payload (R164). -/
def payloadWf (p : Payload) : Bool := p.length ≤ Config.maxPayload

/-- Kinds 1 to 5 are hall kinds (R193). -/
def hallKind (k : BitVec 7) : Bool := 1 ≤ k.toNat && k.toNat ≤ 5

/-- Kinds 16 to 22 are site kinds (R193). -/
def siteKind (k : BitVec 7) : Bool := 16 ≤ k.toNat && k.toNat ≤ 22

/-- A command term is well formed when its payload fits a frame and, for an unknown kind, the kind is no kind of the
receiving port (R164, R193). Every other term is well formed by its type. -/
def Instr.wf : Instr → Bool
  | .poll _ p => payloadWf p
  | .release _ p => payloadWf p
  | .abort _ p => payloadWf p
  | .latchClear _ p => payloadWf p
  | .query _ p => payloadWf p
  | .hallUnknownKind _ k p => payloadWf p && !hallKind k
  | .sitePoll p => payloadWf p
  | .cylinderQuery p => payloadWf p
  | .claimQuery p => payloadWf p
  | .commissionRead p => payloadWf p
  | .commissionWrite p => payloadWf p
  | .maintIsolate p => payloadWf p
  | .maintRestore p => payloadWf p
  | .siteUnknownKind k p => payloadWf p && !siteKind k
  | .deviceReset | .inputEstablishment | .pressureSample _ _ | .rackTemperatureSample _ _
  | .manifoldPressureSample _ | .supervisionCheck _ _ | .pulseCompletion _ _ | .selectorEdge _
  | .manifoldSwitchEdge | .keyOn | .keyOff | .selectorCapture _ | .manifoldSwitchCapture
  | .countdownExpiry _ | .holdLimitExpiry _ | .selectorOpenTimeout _ | .nextLineExpiry _
  | .deferralExpiry _ | .confirmTimeout _ | .closeTimeout | .ventTimeout | .supervisionExpiry _
  | .temperatureExpiry _ | .startupExpiry | .frameAbandoned _ _ | .replyTransmitted _
  | .commissionWriteCompletion | .maintIsolateCompletion | .maintRestoreCompletion
  | .crcStoreCompletion | .starvedReEvaluation | .byteReceived _ _ | .rawLevelChange _
  | .loopStateChange _ => true

end Sys2Proof
end

