-- ==== Sys2Proof/Certificates/Slice0/Obligations.lean ====
section
/-! DEFINITION. The statements for the provers: what the rules of spec/ say the part does. Every free value stands in a
statement as any value within its bounds. -/

open Sys2Proof Sys2Proof.Machine

/-! ### Steps -/

/-- The step takes the command at the front of the queue: it is the command's effect on the state with the rest of the queue
(the queue is the model's own: assumption entries 3 and 4). -/
def Obligations.StepTakesFront : Prop :=
  ∀ (s : State) (c : Instr) (rest : List Instr), s.pending = c :: rest →
    step s = exec c { s with pending := rest }

/-- On an empty queue the events the part has raised are queued; with none raised the timebase advances by one, every unit
whose deadline is then reached becomes EXPIRED, a port that is then transmitting its reply abandons the frame it assembles,
its receiver held in HUNTING (R165), and nothing else changes. That a millisecond passes in this step is the
model's choice (assumption entry 3). -/
def Obligations.IdleStep : Prop :=
  ∀ s : State, s.pending = [] →
    (s.raised ≠ [] → step s = .next { s with pending := s.raised }) ∧
    (s.raised = [] → ∃ t, step s = .next t ∧ t.now = s.now + 1 ∧
      (∀ h, t.unit h = (s.unit h).settle (s.now + 1)) ∧
      t.manifold = { s.manifold with unit := s.manifold.unit.settle (s.now + 1) } ∧
      (∀ h, t.port h = { s.port h with
        rx := if (s.port h).rx.state = .assembling ∧
            transmitting (s.port h).owed (s.port h).replyBegins (s.now + 1) = true
          then { (s.port h).rx with state := .hunting, buffer := [], lastByte := none } else (s.port h).rx
        supervision := (s.port h).supervision.settle (s.now + 1)
        freshness := (s.port h).freshness.settle (s.now + 1) }) ∧
      t.ctl = { s.ctl with startupUnit := s.ctl.startupUnit.settle (s.now + 1) } ∧
      t.site = { s.site with
        rx := if s.site.rx.state = .assembling ∧ transmitting s.site.owed s.site.replyBegins (s.now + 1) = true
          then { s.site.rx with state := .hunting, buffer := [], lastByte := none } else s.site.rx } ∧
      t = { s with now := t.now, units := t.units, manifold := t.manifold, ports := t.ports, ctl := t.ctl
                   site := t.site })

/-! ### Device reset -/

/-- DEVICE_RESET: the retained image and stored CRC stand, and everything else of the part is as the rules say after it: the
Timebase and the inputs (R148), the outputs (R163), the ports (R176), Mode Control and the store (R179, R191), the Cylinder
Table (R27), the claims and the admission order (R71, R95), and the manifold record (R112). -/
def Obligations.DeviceResetState : Prop :=
  ∀ s : State, ∃ t, exec .deviceReset s = .next t ∧
    (t.now = 0 ∧ (∀ h, t.unit h = .inhibited) ∧ t.manifold.unit = .inhibited ∧
      t.ctl.startupUnit = .watching 1500 .startup ∧
      (∀ h : Hall, t.captures.selectors[h] = .disarmed) ∧ t.captures.switch = .disarmed ∧
      (∀ h : Hall, (t.inputs.selectors[h]).level.level = none ∧ (t.inputs.selectors[h]).level.run = none ∧
        (t.inputs.selectors[h]).loop.level = none) ∧
      t.inputs.switch.level.level = none ∧ t.inputs.switch.level.run = none ∧ t.inputs.switch.loop.level = none ∧
      t.inputs.key.level = none ∧ t.inputs.key.run = none) ∧
    ((∀ c, t.channel c =
        { measured := .unknown, goodChecks := 0, failedPulse := false, energised := false, pulse := none }) ∧
      (∀ h, t.selectorCmd h = .closed) ∧ t.circuits.ventCmd = .closed ∧ (∀ h, t.selectorFaulted h = false)) ∧
    (∀ h, (t.port h).rx.state = .off ∧ (t.port h).rx.buffer = [] ∧ (t.port h).rx.lastByte = none ∧
      (t.port h).rx.complete = none ∧
      (t.port h).owed = false ∧ (t.port h).reply = none ∧ (t.port h).link = .unarmed ∧
      (t.port h).supervision = .inhibited ∧ (t.port h).freshness = .inhibited ∧ (t.port h).temp = none ∧
      (t.port h).holdLevel = false ∧ (t.port h).reArm = false ∧
      ∀ l, (t.port h).latches.get l = .clear) ∧
    (t.image = s.image ∧ t.store.crc = s.store.crc ∧ t.store.write = none ∧ t.store.crcStore = none ∧
      t.mode = .startup ∧ t.ctl.key = .notEstablished ∧ t.ctl.exitPending = false ∧
      t.ctl.imageValid = ((validate s.image).isNone && imageCrc s.image = s.store.crc) ∧
      (∀ k, SampleSource.cylinder k ∈ t.ctl.outstanding ↔ (s.image.cylinders[k]).fitted = true) ∧
      (∀ r, SampleSource.rack r ∈ t.ctl.outstanding) ∧
      t.site.rx.state = .off ∧ t.site.owed = false ∧ t.site.reply = none) ∧
    (∀ k, t.cyl k = if (s.image.cylinders[k]).fitted then
      some { window := none, pos := 0, seeded := false, streak := 0, pAvg := 0, phi := 0, e := 0, condition := .unread
             disposition := if (s.image.cylinders[k]).inService then .free else .isolated }
      else none) ∧
    (∀ r : Rack, t.rackTemps[r] = none ∧ t.rackTemp r = 150) ∧
    (∀ h, t.claim h = none) ∧ t.order = [] ∧
    t.manifold.state = .idle ∧ t.manifold.holder = none ∧ t.manifold.lastHall = none ∧
    t.manifold.lastVent = .none ∧ t.manifold.pressure = none ∧ t.manifold.waitList = [] ∧ ∀ h, t.mismatch h = false

/-- The laws of Safety.lean hold at the reset state. -/
def Obligations.LawsAtReset : Prop :=
  GrantLaw State.reset ∧ BankLaw State.reset ∧ ClaimsLaw State.reset ∧ DriveLaw State.reset ∧
    ProgrammingLaw State.reset ∧ PortsLaw State.reset ∧ ModeLaw State.reset

/-! ### Laws that every step keeps -/

/-- Every step keeps the grant law: one hall at most holds the manifold, and the manifold's state, its deadline, the claims'
states, the wait list, the selector commands and the vent command agree on it (R58, R96, R97, R99, R141, R150). -/
def Obligations.GrantLawKept : Prop :=
  ∀ s t : State, GrantLaw s → step s = .next t → GrantLaw t

/-- Every step keeps the bank law: the charge fraction is limited to 1000, E is computed from Q_nom and the charge fraction in
FULL and LOW and is 0 in EMPTY and UNREAD, and running records stand for the fitted cylinders alone (R1, R11). -/
def Obligations.BankLawKept : Prop :=
  ∀ s t : State, BankLaw s → step s = .next t → BankLaw t

/-- Every step keeps the claims law, from a state that keeps the grant, bank, programming and mode laws too: a cylinder is
ASSIGNED to a hall exactly when it stands in the allocation of that hall's claim, once, with its present E, and so in no
other claim's (R15, R85); allocated and fired cylinders are at most 32 together (R77); the allocated sum and the shortage
follow the allocation (R40, R41); a claim that is STARVED, CONFIRMING or terminal holds nothing; in COUNTDOWN, HOLD and STARVED
the STARVED flag is set exactly when nothing is held, and WAITING and SELECTING hold something (R54); and the schedule and the
pulses outstanding account for every cylinder held in SELECTING and FIRING (R118, R121). -/
def Obligations.ClaimsLawKept : Prop :=
  ∀ s t : State, GrantLaw s → BankLaw s → ProgrammingLaw s → ModeLaw s → ClaimsLaw s → step s = .next t → ClaimsLaw t

/-- Every step keeps the drive law: a channel is energised exactly when its function's command or its fire pulse requires it,
and in MAINTENANCE none is (R150, R151). -/
def Obligations.DriveLawKept : Prop :=
  ∀ s t : State, DriveLaw s → step s = .next t →
    DriveLaw t ∧ (t.mode = .maintenance → ∀ c, (t.channel c).energised = false)

/-- Every step keeps the programming law: a write stands only in MAINTENANCE with its reply still owed, and an exit is pending
only while a write stands (R177, R183, R184, R186). -/
def Obligations.ProgrammingLawKept : Prop :=
  ∀ s t : State, ProgrammingLaw s → step s = .next t → ProgrammingLaw t

/-- Every step keeps the port law: a hall port owes a reply exactly while one is formed and not sent, supervision stands
exactly while the link is ACTIVE, and a temperature exactly while its freshness deadline is held; on every port, the site
port too, the byte gap is timed exactly while a frame is assembled, and none is assembled while the port transmits
(R30, R164, R165, R169). The state keeps the programming law too, so that a write's completion answers a reply that is owed
(R177, R184). -/
def Obligations.PortsLawKept : Prop :=
  ∀ s t : State, ProgrammingLaw s → PortsLaw s → step s = .next t → PortsLaw t

/-- Every step keeps the mode law, from a state that keeps the grant and programming laws too: claims stand only in NORMAL and
MAINT_PENDING, and those short of FIRING only in NORMAL (R68, R181, R182). -/
def Obligations.ModeLawKept : Prop :=
  ∀ s t : State, GrantLaw s → ProgrammingLaw s → ModeLaw s → step s = .next t → ModeLaw t

/-! ### Encodings -/

/-- Receiving, byte by byte, the frame of a well-formed request, each byte no more than 5 ms after the one before, leaves the
receiver HUNTING with that frame complete, and the command of that frame on that port is the request (R164, R192, R193). -/
def Obligations.FrameRoundTrip : Prop :=
  ∀ (i : Instr) (p : Port) (f : Frame) (r : Receiver) (times : List Time), i.wf = true → requestOf i = some (p, f) →
    r.state = .hunting → times.length = f.bytes.length →
    (∀ n t u, times[n]? = some t → times[n + 1]? = some u → ∃ d : Nat, d ≤ 5 ∧ u = t + ms d) →
    f.bytes.length = f.payload.length + 5 ∧ f.bytes.length ≤ 53 ∧
    (f.bytes.zip times).foldl (fun r x => r.byte x.2 x.1) r =
      { state := .hunting, buffer := [], lastByte := none, complete := some f } ∧
    commandOn p f = i

/-- A record that a COMMISSION_WRITE may carry reads back, once stored, as the bytes written; a CYLINDER record reads back with
its in service byte after them, 1 or 0 as the image written says (R184, R187, section 12.4). -/
def Obligations.RecordRoundTrip : Prop :=
  ∀ (st : Store) (kind index : Byte) (name : RecordName) (bytes : List Byte) (w : RecordWrite),
    recordName kind index = some name → parseRecord name bytes = some w →
    writeLength kind = some bytes.length ∧
    ∃ tail, Store.readRecord { st with image := st.image.write w } name = bytes ++ tail ∧
      (kind ≠ 3 → tail = []) ∧ (kind = 3 → tail.length = 1 ∧ ∃ k, name = .cylinder k ∧
        tail = [if ((st.image.write w).cylinders[k]).inService = true then 1 else 0])

/-! ### Samples -/

/-- PRESSURE_SAMPLE of a fitted cylinder at a loop current of 3.6 to 21.0 mA: the pressure read, the window, p_avg, phi, the
condition without hysteresis on seeding and with it otherwise, and E (R4 to R6, R10 to R13, R158). That the current comes in
whole microamperes is the model's (assumption entry 12). -/
def Obligations.ValidPressureSample : Prop :=
  ∀ (k : CylIdx) (i : LoopCurrent) (s : State) (c : Cylinder), s.cyl k = some c → 3600 ≤ i → i ≤ 21000 →
    ∃ t c' w, exec (.pressureSample k i) s = .next t ∧ t.cyl k = some c' ∧
      let p := min 4000 ((i - 4000 + 2) / 4)
      let q := s.image.cylinders[k]
      let low := s.image.thresholds.low
      let empty := s.image.thresholds.empty
      let seeds := c.seeded = false ∨ c.streak = 3
      c'.window = some w ∧
      (seeds → w = { w0 := p, w1 := p, w2 := p, w3 := p } ∧ c'.pos = 0) ∧
      (¬ seeds → ∀ v, c.window = some v → w = Window.put v c.pos p ∧ c'.pos.val = (c.pos.val + 1) % 4) ∧
      c'.seeded = true ∧ c'.streak = 0 ∧ c'.pAvg = (w.w0 + w.w1 + w.w2 + w.w3) / 4 ∧
      c'.phi = min 1000 (c'.pAvg * 2881 * 1000 / (q.pNom * (2731 + s.rackTemp (rackOf k)).toNat)) ∧
      (seeds ∨ c.condition = .full →
        c'.condition = if c'.phi < empty then .empty else if c'.phi < low then .low else .full) ∧
      (¬ seeds → c.condition = .low →
        c'.condition = if c'.phi < empty then .empty else if c'.phi < low + 10 then .low else .full) ∧
      (¬ seeds → c.condition = .empty →
        c'.condition = if c'.phi < empty + 10 then .empty else if c'.phi < low + 10 then .low else .full) ∧
      c'.e = (if c'.condition = .full ∨ c'.condition = .low then q.qNom * c'.phi / 1000 else 0)

/-- PRESSURE_SAMPLE at a loop current outside 3.6 to 21.0 mA: the streak grows to at most 3, and on reaching 3 the cylinder is
UNREAD with E 0; nothing else of the reading changes, and the disposition stands (R7, R8). The fall of E to 0 is handed to the
owner of an ASSIGNED cylinder: in COUNTDOWN, HOLD, WAITING and SELECTING its entry carries 0, the sums follow, the shortage
is topped up, and the flags follow with their latches; in FIRING its entry carries 0, OVER_CEILING is checked, and no run is
made. A sample that does not bring the streak to 3 is handed to nobody (R8, R14, R42, R78, R80 to R83, R89, R130). A sample of an unfitted position is discarded (R3). -/
def Obligations.InvalidPressureSample : Prop :=
  ∀ (k : CylIdx) (i : LoopCurrent) (s : State),
    (∀ c, s.cyl k = some c → c.streak ≤ 3 → i < 3600 ∨ 21000 < i →
      ∃ t c', exec (.pressureSample k i) s = .next t ∧ t.cyl k = some c' ∧
        c'.window = c.window ∧ c'.pos = c.pos ∧ c'.seeded = c.seeded ∧ c'.pAvg = c.pAvg ∧ c'.phi = c.phi ∧
        c'.streak = min 3 (c.streak + 1) ∧
        (c.streak = 2 → c'.condition = .unread ∧ c'.e = 0) ∧
        (c.streak ≠ 2 → c'.condition = c.condition ∧ c'.e = c.e) ∧ c'.disposition = c.disposition ∧
        (s.mode ≠ .startup →
          (∀ j, j ≠ k → c.streak ≠ 2 ∨ (∀ h, c.disposition ≠ .assigned h) → t.cyl j = s.cyl j) ∧
          (c.streak ≠ 2 → t = { s with cyls := t.cyls }) ∧
          ((∀ h, c.disposition ≠ .assigned h) →
            t = { s with cyls := t.cyls, poolGains := t.poolGains } ∧
              (c.condition ≠ .empty → t.poolGains = s.poolGains)) ∧
          (∀ h cl, c.streak = 2 → c.disposition = .assigned h → s.claim h = some cl → cl.allocation ≠ [] →
            (cl.state = .countdown ∨ cl.state = .hold ∨ cl.state = .waiting ∨ cl.state = .selecting) →
            (c.e = 0 → t.claims = s.claims) ∧
            (c.e ≠ 0 → ∃ cl', t.claim h = some cl' ∧ Handed s t h k c.e 0 cl cl')) ∧
          (∀ h cl, c.streak = 2 → c.disposition = .assigned h → s.claim h = some cl → cl.state = .firing →
            ∃ cl', t.claim h = some cl' ∧ HandedFiring s t h k c.e 0 cl cl'))) ∧
    (s.cyl k = none → s.mode ≠ .startup → exec (.pressureSample k i) s = .next s)

/-- What a valid sample hands over. Of a FREE cylinder: one POOL GAIN exactly when its condition moves from EMPTY or UNREAD to
LOW or FULL, and no other record changes. Of a cylinder ASSIGNED to a claim in COUNTDOWN, HOLD, WAITING or SELECTING that
becomes EMPTY: it is FREE, and its entry leaves the claim; of one that does not, a changed E is put in its entry. Either way
the sums follow, a fall that leaves a shortage is topped up at the tail, a rise calls for no run, the flags follow each change
with their latches, SELECTING has its schedule rebuilt when the list of cylinders changes, and an allocation left empty makes
WAITING and SELECTING STARVED. Of one ASSIGNED to a claim in FIRING: it stays ASSIGNED, its entry takes the new E,
OVER_CEILING is checked, and no run is made (R14, R18, R24, R42, R57, R78, R80 to R84, R89, R130). -/
def Obligations.SampleHandedOver : Prop :=
  ∀ (k : CylIdx) (i : LoopCurrent) (s : State) (c : Cylinder), s.cyl k = some c → 3600 ≤ i → i ≤ 21000 →
    s.mode ≠ .startup →
    ∃ t c', exec (.pressureSample k i) s = .next t ∧ t.cyl k = some c' ∧
      (c.disposition = .free → c'.disposition = .free ∧
        t.poolGains = s.poolGains +
          (if (c.condition = .empty ∨ c.condition = .unread) ∧ (c'.condition = .low ∨ c'.condition = .full)
            then 1 else 0) ∧
        (∀ j, j ≠ k → t.cyl j = s.cyl j) ∧
        t = { s with cyls := t.cyls, poolGains := t.poolGains }) ∧
      (∀ h cl, c.disposition = .assigned h → s.claim h = some cl →
        (cl.state = .countdown ∨ cl.state = .hold ∨ cl.state = .waiting ∨ cl.state = .selecting) →
        c'.condition = .empty →
        c'.disposition = .free ∧ ∃ cl', t.claim h = some cl' ∧ (∀ e ∈ cl'.allocation, e.cyl ≠ k) ∧
          let left := cl.holding (cl.allocation.filter fun e => e.cyl ≠ k)
          let taken := s.toppedUpWith left
          cl'.allocation = left.allocation ++ taken ∧ cl'.allocatedSum = sumE cl'.allocation ∧
          cl'.shortage = cl.figures.req - cl'.allocatedSum ∧
          (∀ e ∈ taken, t.assignedTo h e.cyl = true) ∧
          (let changed := cl.changedTo false left.allocation
           let flags := (s.committed changed taken).flags
           cl'.flags = (if cl'.allocation = [] then { flags with starved := true } else flags) ∧
            ∀ l, LatchAsked s t h l (cl.changeAsks false left.allocation l || s.commitAsks changed taken l)) ∧
          (cl'.allocation ≠ [] → cl'.state = cl.state ∧
            (cl.state = .selecting → (∃ e ∈ cl.allocation, e.cyl = k) → cl'.schedule = some
              { lines := (lay (cl'.allocation.map (·.cyl))).map newLine, cursor := 0, outstanding := 0 })) ∧
          (cl'.allocation = [] → cl'.flags.starved = true ∧
            (cl.state = .countdown ∨ cl.state = .hold → cl'.state = cl.state ∧ t.unit h = s.unit h) ∧
            (cl.state = .waiting → cl'.state = .starved ∧ cl'.readyAt = none ∧ ∀ w ∈ t.manifold.waitList, w.hall ≠ h) ∧
            (cl.state = .selecting → s.manifold.lastHall = some h →
              cl'.state = .starved ∧ cl'.readyAt = none ∧ cl'.schedule = none ∧ t.unit h = .inhibited ∧
              GrantWithdrawn s t h))) ∧
      (∀ h cl, c.disposition = .assigned h → s.claim h = some cl →
        (cl.state = .countdown ∨ cl.state = .hold ∨ cl.state = .waiting ∨ cl.state = .selecting) →
        c'.condition ≠ .empty → cl.allocation ≠ [] →
        c'.disposition = .assigned h ∧ (c'.e = c.e → t.claims = s.claims) ∧
        (c'.e ≠ c.e → ∃ cl', t.claim h = some cl' ∧ Handed s t h k c.e c'.e cl cl')) ∧
      (∀ h cl, c.disposition = .assigned h → s.claim h = some cl → cl.state = .firing →
        c'.disposition = .assigned h ∧ ∃ cl', t.claim h = some cl' ∧ HandedFiring s t h k c.e c'.e cl cl')

/-- RACK_TEMPERATURE_SAMPLE after start-up: a valid sample is stored as the rack's Tr, an invalid one leaves it, and no
cylinder is recomputed (R9, R158). -/
def Obligations.RackTemperatureSample : Prop :=
  ∀ (r : Rack) (i : LoopCurrent) (s : State), s.mode ≠ .startup →
    ∃ t, exec (.rackTemperatureSample r i) s = .next t ∧
      (3600 ≤ i → i ≤ 21000 →
        t.rackTemps[r] = some (min 850 (((((i - 4000 : Nat) * 1250 + 8000) / 16000 : Nat) : Int) - 400)) ∧
        ∃ x, t.rackTemps[r] = some x ∧ t.rackTemp r = x) ∧
      (i < 3600 ∨ 21000 < i → t.rackTemps[r] = s.rackTemps[r]) ∧
      (∀ q : Rack, q ≠ r → t.rackTemps[q] = s.rackTemps[q]) ∧
      t = { s with rackTemps := t.rackTemps }

/-- The last outstanding first sample, of a cylinder or of a rack, valid or not, and the start-up expiry each complete start-up:
the mode is set from the key level and image valid, the set and the deadline go, and every port begins to receive in
HUNTING (R179, R180). -/
def Obligations.StartupCompletes : Prop :=
  ∀ (c : Instr) (s : State), s.mode = .startup →
    ((∃ k i, c = .pressureSample k i ∧ s.ctl.outstanding = [.cylinder k]) ∨
      (∃ r i, c = .rackTemperatureSample r i ∧ s.ctl.outstanding = [.rack r]) ∨
      (c = .startupExpiry ∧ s.ctl.startupUnit.raised s.now .startup = true)) →
    ∃ t, exec c s = .next t ∧
      t.mode = (if s.ctl.key = .on then .maintenance else if s.ctl.imageValid then .normal else .uncommissioned) ∧
      t.ctl.outstanding = [] ∧ t.ctl.startupUnit = .inhibited ∧ t.ctl.imageValid = s.ctl.imageValid ∧
      (∀ h, (t.port h).rx = { state := .hunting, buffer := [], lastByte := none, complete := none }) ∧
      t.site.rx = { state := .hunting, buffer := [], lastByte := none, complete := none } ∧
      (t.mode = .maintenance → ∀ ch, (t.channel ch).energised = false)

/-! ### The manifold -/

/-- MANIFOLD_PRESSURE_SAMPLE: every sample is recorded, as a pressure or as INVALID. It changes nothing else, in VENTING too when
it is INVALID or reads above the vent threshold, but for the one that ends a venting (VentingEnds) and the first after reset
found in IDLE, which starts a venting when it reads above the vent threshold (R96, R106, R107, R112). -/
def Obligations.ManifoldSampleRecorded : Prop :=
  ∀ (i : LoopCurrent) (s : State),
    (s.manifold.state = .venting → 3600 ≤ i → i ≤ 21000 → s.timing.ventThreshold < min 4000 ((i - 4000 + 2) / 4)) →
    let p := min 4000 ((i - 4000 + 2) / 4)
    let reading : ManifoldPressure := if 3600 ≤ i ∧ i ≤ 21000 then .valid p else .invalid
    let first := s.manifold.state = .idle ∧ s.manifold.pressure = none ∧
      3600 ≤ i ∧ i ≤ 21000 ∧ s.timing.ventThreshold < p
    ∃ t, exec (.manifoldPressureSample i) s = .next t ∧ t.manifold.pressure = some reading ∧
      (¬ first → t = { s with manifold := { s.manifold with pressure := some reading } }) ∧
      (first → t.manifold = { s.manifold with
          pressure := some reading, state := .venting
          unit := .load s.now (s.now + ms s.timing.ventTimeout) .vent } ∧
        t.circuits.ventCmd = .opened ∧ t = { s with manifold := t.manifold, circuits := t.circuits })

/-- Venting ends by a valid sample at or below the vent threshold with OK, the sample being recorded, and by the vent deadline's
expiry with TIMEOUT, the pressure standing, and the vent is commanded closed. With no grant to make the manifold is IDLE and holds no deadline, and in MAINT_PENDING with no
claim left the mode becomes MAINTENANCE. With a claim at the head of the wait list and no mismatch flag set the manifold is
granted to it: it is SELECTING with its schedule built, its hall holds the manifold in OPENING, its selector alone is newly
commanded open, its capture armed and its selector open deadline loaded (R88, R98, R99, R106, R182). -/
def Obligations.VentingEnds : Prop :=
  let recorded (c : Instr) (s : State) : Option ManifoldPressure := match c with
    | .manifoldPressureSample i => some (.valid (min 4000 ((i - 4000 + 2) / 4)))
    | _ => s.manifold.pressure
  ∀ (c : Instr) (s : State) (result : VentResult), s.manifold.state = .venting →
    ((∃ i, c = .manifoldPressureSample i ∧ 3600 ≤ i ∧ i ≤ 21000 ∧
        min 4000 ((i - 4000 + 2) / 4) ≤ s.timing.ventThreshold ∧ result = .ok) ∨
      (c = .ventTimeout ∧ s.manifold.unit.raised s.now .vent = true ∧ result = .timeout)) →
    (s.manifold.waitList = [] ∨ (∃ h, s.mismatch h = true) →
      ∃ t, exec c s = .next t ∧ t.manifold.state = .idle ∧ t.manifold.lastVent = result ∧
        t.manifold.pressure = recorded c s ∧ t.manifold.unit = .inhibited ∧ t.circuits.ventCmd = .closed ∧ t.manifold.waitList = s.manifold.waitList ∧
        t.manifold.holder = s.manifold.holder ∧ t.manifold.lastHall = s.manifold.lastHall ∧
        t.mode = (if s.mode = .maintPending ∧ ∀ h, s.nonTerminal h = false then .maintenance else s.mode) ∧
        t = { s with manifold := t.manifold, circuits := t.circuits, ctl := t.ctl }) ∧
    (∀ w rest cl, s.manifold.waitList = w :: rest → (∀ h, s.mismatch h = false) → s.claim w.hall = some cl →
      ∃ t, exec c s = .next t ∧
        t.manifold.state = .opening ∧ t.manifold.holder = some w.hall ∧ t.manifold.lastHall = some w.hall ∧
        t.manifold.lastVent = result ∧ t.manifold.pressure = recorded c s ∧
        t.manifold.waitList = rest.filter (fun x => x.hall ≠ w.hall) ∧
        t.claim w.hall = some { cl with
          state := .selecting, fired := []
          schedule := some
            { lines := (lay (cl.allocation.map (·.cyl))).map newLine, cursor := 0, outstanding := 0 } } ∧
        t.unit w.hall = .load s.now (s.now + ms s.timing.selectorOpenTimeout) .selectorOpen ∧
        t.captures.selectors[w.hall] = .armed ∧ t.circuits.ventCmd = .closed ∧
        t.selectorCmd w.hall = .opened ∧ (∀ h, h ≠ w.hall → t.selectorCmd h = s.selectorCmd h) ∧
        (∀ h, h ≠ w.hall → t.claim h = s.claim h ∧ t.unit h = s.unit h) ∧
        t = { s with manifold := t.manifold, circuits := t.circuits, claims := t.claims, units := t.units,
                     captures := t.captures })

/-- CLOSE_TIMEOUT in CLOSING: the last hall's mismatch flag is set, with its SELECTOR_FAIL latch when the flag was clear, and
the manifold vents: the vent is commanded open and the vent deadline replaces the close deadline (R105, R106, R109). -/
def Obligations.CloseTimeoutVents : Prop :=
  ∀ (s : State) (h : Hall), s.manifold.state = .closing → s.manifold.lastHall = some h →
    s.manifold.unit.raised s.now .close = true →
    ∃ t, exec .closeTimeout s = .next t ∧ t.manifold.state = .venting ∧ t.mismatch h = true ∧
      (∀ j, j ≠ h → t.mismatch j = s.mismatch j) ∧
      (s.mismatch h = false → (t.port h).latches.selectorFail ≠ .clear) ∧
      t.manifold.unit = .load s.now (s.now + ms s.timing.ventTimeout) .vent ∧ t.circuits.ventCmd = .opened ∧
      (∀ j, j ≠ h → t.port j = s.port j) ∧
      t = { s with manifold := t.manifold, circuits := t.circuits, ports := t.ports }

/-! ### Release circuits -/

/-- SUPERVISION_CHECK of a channel with a role and no pulse in progress: the line's class by the test of its drive, the measured
state and the good-check count, with no other channel's record changed in them. An UNUSED channel is not checked, and a slot
in a pulse is passed over (R149, R152, R153). The units of the measurement are the model's (assumption entry 13). -/
def Obligations.SupervisionRecord : Prop :=
  ∀ (c : ChanIdx) (m : LineMeasurement) (s : State),
    (s.role c = .unused ∨ (s.channel c).pulse.isSome = true → exec (.supervisionCheck c m) s = .next s) ∧
    (s.role c ≠ .unused → (s.channel c).pulse = none →
      let r : LineState :=
        if (s.channel c).energised then (if m.limited then .shorted else if m.drive < 50 then .opened else .normal)
        else (if m.resistance < 250 then .shorted else if 4000 < m.resistance then .opened else .normal)
      ∃ t, exec (.supervisionCheck c m) s = .next t ∧ (t.channel c).measured = r ∧
        (t.channel c).goodChecks = (if r = .normal then min 3 ((s.channel c).goodChecks + 1) else 0) ∧
        (t.channel c).failedPulse = (s.channel c).failedPulse ∧
        (∀ d, d ≠ c → (t.channel d).measured = (s.channel d).measured ∧
          (t.channel d).goodChecks = (s.channel d).goodChecks ∧
          (t.channel d).failedPulse = (s.channel d).failedPulse))

/-- A check of a SELECTOR channel, energised or not, that reads OPEN or SHORT with the hall's mark clear sets the mark and fails
the hall's claim in COUNTDOWN, HOLD, STARVED or WAITING: FAILED_SELECTOR_FAULT, allocation empty, unit inhibited, SELECTOR_FAIL
set. A claim in another state is left, and the selector's command and drive stand. With the mark set already it stays, the
good-check count is 0 and no claim changes. The third good check clears the mark and changes no claim; another good check
leaves it (R65, R69, R153, R155). The units of the measurement are the model's (assumption entry 13). -/
def Obligations.SelectorFaultMark : Prop :=
  ∀ (c : ChanIdx) (m : LineMeasurement) (s : State) (h : Hall),
    s.role c = .selector h → (s.channel c).pulse = none →
    let r : LineState :=
      if (s.channel c).energised then (if m.limited then .shorted else if m.drive < 50 then .opened else .normal)
      else (if m.resistance < 250 then .shorted else if 4000 < m.resistance then .opened else .normal)
    (r = .opened ∨ r = .shorted → s.selectorFaulted h = false →
      ∃ t, exec (.supervisionCheck c m) s = .next t ∧ t.selectorFaulted h = true ∧
        t.circuits.selectorCmds = s.circuits.selectorCmds ∧ (t.channel c).energised = (s.channel c).energised ∧
        (∀ cl, s.claim h = some cl →
          ((cl.state = .countdown ∨ cl.state = .hold ∨ cl.state = .starved ∨ cl.state = .waiting) →
            ∃ cl', t.claim h = some cl' ∧ cl'.state = .failed ∧ cl'.endReason = some .failedSelectorFault ∧
              cl'.endedAt = some s.now ∧ cl'.allocation = [] ∧ cl'.figures = cl.figures ∧
              t.unit h = .inhibited ∧ h ∉ t.order ∧ (t.port h).latches.selectorFail ≠ .clear) ∧
          (¬ (cl.state = .countdown ∨ cl.state = .hold ∨ cl.state = .starved ∨ cl.state = .waiting) →
            t.claim h = s.claim h)) ∧
        (∀ j, j ≠ h → t.claim j = s.claim j ∧ t.selectorFaulted j = s.selectorFaulted j)) ∧
    (r = .opened ∨ r = .shorted → s.selectorFaulted h = true →
      ∃ t, exec (.supervisionCheck c m) s = .next t ∧ (∀ j, t.selectorFaulted j = s.selectorFaulted j) ∧
        (t.channel c).goodChecks = 0 ∧ t = { s with circuits := t.circuits }) ∧
    (r = .normal → (s.channel c).goodChecks = 2 →
      ∃ t, exec (.supervisionCheck c m) s = .next t ∧ t.selectorFaulted h = false ∧
        (∀ j, j ≠ h → t.selectorFaulted j = s.selectorFaulted j) ∧ t = { s with circuits := t.circuits }) ∧
    (r = .normal → (s.channel c).goodChecks ≠ 2 →
      ∃ t, exec (.supervisionCheck c m) s = .next t ∧ (∀ j, t.selectorFaulted j = s.selectorFaulted j) ∧
        t = { s with circuits := t.circuits })

/-- A check of a CYLINDER channel: OPEN or SHORT puts a FREE cylinder in ACTUATOR_FAULT with cause SUPERVISION, puts an ASSIGNED
one there and takes it out of its claim's allocation without a fire, and leaves one FIRED, ISOLATED or in ACTUATOR_FAULT as it
is. The owner in COUNTDOWN, HOLD, WAITING or SELECTING answers the removal with a top-up, its flags and latches following, and
is STARVED-flagged, or STARVED, when nothing is left; in FIRING it makes a replacement run for the E the lost entry carried,
its lines appended. The third good check frees a cylinder with cause SUPERVISION, with a POOL GAIN when it is then eligible
(R20, R22, R24, R42, R57, R80 to R83, R89, R91, R92). -/
def Obligations.ActuatorSupervision : Prop :=
  ∀ (c : ChanIdx) (m : LineMeasurement) (s : State) (k : CylIdx) (y : Cylinder),
    s.role c = .cylinder k → (s.channel c).pulse = none → (s.channel c).energised = false → s.cyl k = some y →
    (m.resistance < 250 ∨ 4000 < m.resistance → (∀ h, y.disposition ≠ .assigned h) →
      ∃ t, exec (.supervisionCheck c m) s = .next t ∧
        t.cyl k = some { y with disposition :=
          if y.disposition = .free then .actuatorFault .supervision else y.disposition } ∧
        (∀ j, j ≠ k → t.cyl j = s.cyl j) ∧ t = { s with cyls := t.cyls, circuits := t.circuits }) ∧
    (∀ h cl, m.resistance < 250 ∨ 4000 < m.resistance → y.disposition = .assigned h → s.claim h = some cl →
      ∃ t cl', exec (.supervisionCheck c m) s = .next t ∧
        t.cyl k = some { y with disposition := .actuatorFault .supervision } ∧
        t.claim h = some cl' ∧ (∀ e ∈ cl'.allocation, e.cyl ≠ k) ∧ cl'.fired = cl.fired ∧
        (∀ j, j ≠ h → t.claim j = s.claim j) ∧
        (cl.state = .countdown ∨ cl.state = .hold ∨ cl.state = .waiting ∨ cl.state = .selecting →
          Removed s t h k cl cl') ∧
        (cl.state = .firing → Replaced s t h k cl cl')) ∧
    (250 ≤ m.resistance → m.resistance ≤ 4000 → (s.channel c).goodChecks = 2 →
      y.disposition = .actuatorFault .supervision →
      ∃ t, exec (.supervisionCheck c m) s = .next t ∧ t.cyl k = some { y with disposition := .free } ∧
        t.poolGains = s.poolGains + (if y.condition = .empty then 0 else 1) ∧
        (∀ j, j ≠ k → t.cyl j = s.cyl j) ∧
        t = { s with cyls := t.cyls, circuits := t.circuits, poolGains := t.poolGains })

/-- PULSE_COMPLETION with every measurement NORMAL, for a cylinder ASSIGNED to a claim in FIRING whose pulse has run its length:
the cylinder is FIRED and its index joins the tail of the fired list as its entry leaves the allocation; the channel's pulse
is absent, its measured state NORMAL, and its good-check count stands. Pulses outstanding falls by one; at 0 the line is DONE,
and with no line left after the cursor the claim is CONFIRMING under the confirm deadline, or DISCHARGED at once when the
discharge has been seen. The sums follow, and their fall sets nothing: every flag of the claim stands, and every latch of the
port but that of a discharge that ends stands, an OVER_CEILING latch that has been cleared too (R19, R40, R41, R121, R122,
R124, R127, R151; assumption entry 34). That the completion brings its measurements as a list is the model's (assumption
entry 13). -/
def Obligations.PulseReadsNormal : Prop :=
  ∀ (c : ChanIdx) (ms' : List PulseMeasurement) (s : State) (k : CylIdx) (h : Hall) (y : Cylinder) (cl : Claim),
    s.role c = .cylinder k → s.pulseOver c = true → s.cyl k = some y → y.disposition = .assigned h →
    s.claim h = some cl → cl.state = .firing → (∀ x ∈ ms', x.limited = false ∧ 800 ≤ x.current) →
    ∃ t cl', exec (.pulseCompletion c ms') s = .next t ∧ t.cyl k = some { y with disposition := .fired } ∧
      t.claim h = some cl' ∧ cl'.fired = cl.fired ++ [k] ∧
      cl'.allocation = cl.allocation.filter (fun e => e.cyl ≠ k) ∧ cl'.allocatedSum = sumE cl'.allocation ∧
      cl'.shortage = cl.figures.req - cl'.allocatedSum ∧ cl'.flags = cl.flags ∧
      (∀ l, l ≠ .discharged → LatchAsked s t h l false) ∧
      (t.channel c).pulse = none ∧ (t.channel c).measured = .normal ∧ (t.channel c).energised = false ∧
      (t.channel c).goodChecks = (s.channel c).goodChecks ∧
      (t.channel c).failedPulse = (s.channel c).failedPulse ∧
      (∀ sc, cl.schedule = some sc → 0 < sc.cursor → PulseTaken s t h cl cl' sc []) ∧
      (∀ j, j ≠ k → t.cyl j = s.cyl j) ∧ (∀ j, j ≠ h → t.claim j = s.claim j)

/-- PULSE_COMPLETION with a measurement below 0.8 A or held by the limit: the cylinder is in ACTUATOR_FAULT with cause PULSE, it is
not counted as fired and no entry names it; the channel's failed-pulse flag is set. The replacement run is made for the E that
the lost entry carried; its cylinders were eligible, become ASSIGNED, join the tail of the allocation, and are laid into new
lines appended PENDING; the sums follow, and so, by the removal and then by the commit, do OVER_CEILING, RESERVE_USED and
UNREAD_INCLUDED with their latches, SHORT standing; then pulses outstanding falls by one and the line's completion is taken
at 0 (R21, R40 to R42, R80, R91, R92, R121, R123, R124, R151). -/
def Obligations.PulseFails : Prop :=
  ∀ (c : ChanIdx) (ms' : List PulseMeasurement) (s : State) (k : CylIdx) (h : Hall) (y : Cylinder) (cl : Claim),
    s.role c = .cylinder k → s.pulseOver c = true → s.cyl k = some y → y.disposition = .assigned h →
    s.claim h = some cl → cl.state = .firing → (∃ x ∈ ms', x.limited = true ∨ x.current < 800) →
    ∃ t cl', exec (.pulseCompletion c ms') s = .next t ∧
      t.cyl k = some { y with disposition := .actuatorFault .pulse } ∧
      t.claim h = some cl' ∧ cl'.fired = cl.fired ∧
      (let left := cl.allocation.filter fun e => e.cyl ≠ k
       let taken := s.takenList (.replacement (s.entryE h k)) { cl with allocation := left }
       let changed := cl.changedTo false left
       cl'.allocation = left ++ taken ∧ cl'.allocatedSum = sumE cl'.allocation ∧
        cl'.shortage = cl.figures.req - cl'.allocatedSum ∧ cl'.flags.short = cl.flags.short ∧
        cl'.flags = (s.committed changed taken).flags ∧
        (∀ l, l ≠ .discharged → LatchAsked s t h l (cl.changeAsks false left l || s.commitAsks changed taken l)) ∧
        (∀ e ∈ taken, e.cyl ≠ k ∧ s.eligible e.cyl = true ∧ t.assignedTo h e.cyl = true ∧
          (s.rackRole e.cyl = .reserve → cl.reservePermitted = true)) ∧
        (∀ j, j ≠ k → (∀ e ∈ taken, e.cyl ≠ j) → t.cyl j = s.cyl j) ∧
        ∀ sc, cl.schedule = some sc → 0 < sc.cursor → sc.cursor ≤ sc.lines.length →
          PulseTaken s t h cl cl' sc ((lay (taken.map (·.cyl))).map newLine)) ∧
      (t.channel c).pulse = none ∧ (t.channel c).failedPulse = true ∧ (t.channel c).energised = false ∧
      (∀ j, j ≠ h → t.claim j = s.claim j)

/-! ### Contact inputs -/

/-- RAW_LEVEL_CHANGE of an established contact: a level that differs from the filtered level begins a run unless one is in
progress, one that equals it ends the run, the filtered level stands, and a LOOP FAULT presents the inactive level. The loop state of a
supervised contact is filtered in the same way from LOOP FAULT or not. Of the other state nothing changes (R143, R160,
R161). -/
def Obligations.RawLevelRuns : Prop :=
  (∀ (s : State) (l was : Level), s.inputs.key.level = some was →
    ∃ t, exec (.rawLevelChange (.key l)) s = .next t ∧ t = { s with inputs := t.inputs } ∧
      t.inputs.key = { raw := l, level := some was
                       run := if l = was then none else some (s.inputs.key.run.getD s.now) } ∧
      t.inputs.selectors = s.inputs.selectors ∧ t.inputs.switch = s.inputs.switch) ∧
  (∀ (s : State) (h : Hall) (m : Measurement) (was : Level) (loop : LoopState),
    (s.inputs.selectors[h]).level.level = some was → (s.inputs.selectors[h]).loop.level = some loop →
    let f : LoopState := if m = .loopFault then .fault else .normal
    let l : Level := match m with
      | .made => .made
      | .broken => .broken
      | .loopFault => if (s.hallRec h).openLevel = .made then .broken else .made
    ∃ t, exec (.rawLevelChange (.selector h m)) s = .next t ∧ t = { s with inputs := t.inputs } ∧
      (t.inputs.selectors[h]).measured = m ∧
      (t.inputs.selectors[h]).level =
        { raw := l, level := some was
          run := if l = was then none else some ((s.inputs.selectors[h]).level.run.getD s.now) } ∧
      (t.inputs.selectors[h]).loop =
        { raw := f, level := some loop
          run := if f = loop then none else some ((s.inputs.selectors[h]).loop.run.getD s.now) } ∧
      (∀ j : Hall, j ≠ h → t.inputs.selectors[j] = s.inputs.selectors[j]) ∧
      t.inputs.switch = s.inputs.switch ∧ t.inputs.key = s.inputs.key) ∧
  (∀ (s : State) (m : Measurement), ∃ t, exec (.rawLevelChange (.manifoldSwitch m)) s = .next t ∧
      t = { s with inputs := t.inputs } ∧ t.inputs.switch.measured = m ∧
      (∀ was loop, s.inputs.switch.level.level = some was → s.inputs.switch.loop.level = some loop →
        let f : LoopState := if m = .loopFault then .fault else .normal
        let l : Level := match m with
          | .made => .made
          | .broken => .broken
          | .loopFault => if s.image.thresholds.flowLevel = .made then .broken else .made
        t.inputs.switch.level =
          { raw := l, level := some was
            run := if l = was then none else some (s.inputs.switch.level.run.getD s.now) } ∧
        t.inputs.switch.loop =
          { raw := f, level := some loop
            run := if f = loop then none else some (s.inputs.switch.loop.run.getD s.now) }) ∧
      t.inputs.selectors = s.inputs.selectors ∧ t.inputs.key = s.inputs.key)

/-- SELECTOR_EDGE: a run that has lasted 50 ms gives the filtered level its raw level. An edge to OPEN is held by an ARMED
capture unit with its edge time, and sets the mismatch flag, with the SELECTOR_FAIL latch when it was clear, of a commissioned
hall that is not expected open. With the grant holder's line deferred in FIRING it fires that line at now, and the next line
deadline replaces the deferral deadline; a line with no cylinder still ASSIGNED is DONE at once, and its completion taken. An edge to CLOSED of the last hall in CLOSING starts the venting; any other clears the
hall's mismatch flag, a flag that was set being followed by a grant try, and changes the input alone when the flag was clear
(R98, R105, R108, R109, R116, R119, R121, R143, R146, R147). -/
def Obligations.SelectorEdges : Prop :=
  ∀ (s : State) (h : Hall) (start : Time), (s.inputs.selectors[h]).level.run = some start →
    reached (start + 50) s.now = true →
    ((s.inputs.selectors[h]).level.raw = (s.hallRec h).openLevel →
      ¬ ((s.unit h).kind? = some .deferral ∧ s.manifold.holder = some h ∧ s.claimState h = some .firing) →
      ∃ t, exec (.selectorEdge h) s = .next t ∧ t.selectorReading h = some .opened ∧
        (t.inputs.selectors[h]).level.run = none ∧
        t.captures.selectors[h] =
          (if s.captures.selectors[h] = .armed then .held (start + 50) else s.captures.selectors[h]) ∧
        t.mismatch h = (s.mismatch h || ((s.hallRec h).commissioned &&
          !decide (s.selectorCmd h = .opened ∨ s.manifold.state = .closing ∧ s.manifold.lastHall = some h))) ∧
        (s.mismatch h = false → t.mismatch h = true → (t.port h).latches.selectorFail ≠ .clear) ∧
        (t.mismatch h = s.mismatch h → t.ports = s.ports) ∧
        (∀ j, j ≠ h → t.mismatch j = s.mismatch j ∧ t.port j = s.port j) ∧
        t = { s with inputs := t.inputs, captures := t.captures, manifold := t.manifold, ports := t.ports }) ∧
    (∀ cl sc line, (s.inputs.selectors[h]).level.raw = (s.hallRec h).openLevel →
      (s.unit h).kind? = some .deferral → s.manifold.holder = some h → s.selectorCmd h = .opened →
      s.claim h = some cl → cl.state = .firing → cl.schedule = some sc → sc.lines[sc.cursor]? = some line →
      (∃ k ∈ line.cyls, s.assignedTo h k = true) →
      ∃ t, exec (.selectorEdge h) s = .next t ∧ t.selectorReading h = some .opened ∧
        (let pulsed := line.cyls.filter (s.assignedTo h)
         let fired : Schedule :=
          { lines := sc.lines.set sc.cursor { line with status := .pulsing, time := some s.now, pulsed := pulsed }
            cursor := sc.cursor + 1, outstanding := pulsed.length }
         t.claim h = some { cl with schedule := some fired } ∧
         (∀ c k, s.role c = .cylinder k → k ∈ pulsed → (t.channel c).pulse = some s.now) ∧
         (∀ c, (∀ k, s.role c = .cylinder k → k ∉ pulsed) → (t.channel c).pulse = (s.channel c).pulse)) ∧
        t.unit h = .load s.now (s.now + ms s.timing.lineInterval) .nextLine ∧
        (∀ j, j ≠ h → t.claim j = s.claim j ∧ t.unit j = s.unit j) ∧
        t = { s with inputs := t.inputs, captures := t.captures, claims := t.claims, units := t.units
                     circuits := t.circuits }) ∧
    (∀ cl sc line, (s.inputs.selectors[h]).level.raw = (s.hallRec h).openLevel →
      (s.unit h).kind? = some .deferral → s.manifold.holder = some h → s.selectorCmd h = .opened →
      s.claim h = some cl → cl.state = .firing → cl.schedule = some sc → sc.lines[sc.cursor]? = some line →
      (∀ k ∈ line.cyls, s.assignedTo h k = false) →
      ∃ t, exec (.selectorEdge h) s = .next t ∧ t.selectorReading h = some .opened ∧ EmptyLineFired s t h cl sc) ∧
    ((s.inputs.selectors[h]).level.raw ≠ (s.hallRec h).openLevel →
      (s.manifold.state = .closing → s.manifold.lastHall = some h →
        ∃ t, exec (.selectorEdge h) s = .next t ∧ t.selectorReading h = some .closed ∧
          t.manifold.state = .venting ∧ t.circuits.ventCmd = .opened ∧ t.mismatch h = false ∧
          t.manifold.unit = .load s.now (s.now + ms s.timing.ventTimeout) .vent ∧
          t = { s with inputs := t.inputs, manifold := t.manifold, circuits := t.circuits }) ∧
      (¬ (s.manifold.state = .closing ∧ s.manifold.lastHall = some h) → s.mismatch h = false →
        ∃ t, exec (.selectorEdge h) s = .next t ∧ t.selectorReading h = some .closed ∧
          t = { s with inputs := t.inputs }) ∧
      (¬ (s.manifold.state = .closing ∧ s.manifold.lastHall = some h) → s.mismatch h = true →
        ∃ t, exec (.selectorEdge h) s = .next t ∧ t.selectorReading h = some .closed ∧ t.mismatch h = false ∧
          (∀ j, j ≠ h → t.mismatch j = s.mismatch j) ∧
          (s.manifold.state ≠ .idle ∨ (∃ j, j ≠ h ∧ s.mismatch j = true) ∨ s.manifold.waitList = [] →
            t.manifold = { s.manifold with mismatch := t.manifold.mismatch } ∧
            t = { s with inputs := t.inputs, manifold := t.manifold }) ∧
          (∀ w rest cl, s.manifold.state = .idle → (∀ j, j ≠ h → s.mismatch j = false) →
            s.manifold.waitList = w :: rest → s.claim w.hall = some cl →
            GrantedTo s t w.hall cl ∧
            t = { s with inputs := t.inputs, manifold := t.manifold, circuits := t.circuits, claims := t.claims
                         units := t.units, captures := t.captures })))

/-- MANIFOLD_SWITCH_EDGE and LOOP_STATE_CHANGE: a run that has lasted 50 ms gives the switch, or a loop state, its raw value; an
edge to FLOW is held by the ARMED capture unit with its edge time, any other edge records nothing, and a loop state reaches no
other state (R143, R146, R147, R160). -/
def Obligations.SwitchEdgeAndLoopState : Prop :=
  (∀ (s : State) (start : Time), s.inputs.switch.level.run = some start → reached (start + 50) s.now = true →
    ∃ t, exec .manifoldSwitchEdge s = .next t ∧ t.inputs.switch.level.level = some s.inputs.switch.level.raw ∧
      t.inputs.switch.level.run = none ∧
      t.captures.switch =
        (if s.captures.switch = .armed ∧ s.inputs.switch.level.raw = s.image.thresholds.flowLevel
          then .held (start + 50) else s.captures.switch) ∧
      t.captures.selectors = s.captures.selectors ∧ t.inputs.selectors = s.inputs.selectors ∧
      t = { s with inputs := t.inputs, captures := t.captures }) ∧
  (∀ (s : State) (h : Hall) (start : Time), (s.inputs.selectors[h]).loop.run = some start →
    reached (start + 50) s.now = true →
    ∃ t, exec (.loopStateChange (.selector h)) s = .next t ∧
      (t.inputs.selectors[h]).loop = { raw := (s.inputs.selectors[h]).loop.raw
                                       level := some (s.inputs.selectors[h]).loop.raw, run := none } ∧
      (t.inputs.selectors[h]).level = (s.inputs.selectors[h]).level ∧
      t = { s with inputs := t.inputs }) ∧
  (∀ (s : State) (start : Time), s.inputs.switch.loop.run = some start → reached (start + 50) s.now = true →
    ∃ t, exec (.loopStateChange .manifoldSwitch) s = .next t ∧
      t.inputs.switch.loop.level = some s.inputs.switch.loop.raw ∧
      t.inputs.switch.level = s.inputs.switch.level ∧ t = { s with inputs := t.inputs })

/-- INPUT_ESTABLISHMENT at 50 ms: every filtered level and loop state becomes its raw value, the key level is read, and each
commissioned hall whose selector reads OPEN while it is not expected open has its mismatch flag set (R109, R113, R144, R161).
That the command changes nothing before 50 ms, and once established, is the model's: such an event is not raised
(assumption entry 5, DEDUCED). -/
def Obligations.InputsEstablished : Prop :=
  ∀ s : State,
    (s.inputs.key.level = none → reached 50 s.now = true →
      ∃ t, exec .inputEstablishment s = .next t ∧
        (∀ h : Hall, (t.inputs.selectors[h]).level.level = some (s.inputs.selectors[h]).level.raw ∧
          (t.inputs.selectors[h]).loop.level = some (s.inputs.selectors[h]).loop.raw) ∧
        t.inputs.switch.level.level = some s.inputs.switch.level.raw ∧
        t.inputs.switch.loop.level = some s.inputs.switch.loop.raw ∧
        t.inputs.key.level = some s.inputs.key.raw ∧
        t.ctl = { s.ctl with key := if s.inputs.key.raw = .made then .on else .off } ∧
        (∀ h, t.mismatch h = (s.mismatch h || ((s.hallRec h).commissioned &&
          decide ((s.inputs.selectors[h]).level.raw = (s.hallRec h).openLevel) && !s.expectedOpen h))) ∧
        (∀ h, s.mismatch h = false → t.mismatch h = true → (t.port h).latches.selectorFail ≠ .clear) ∧
        t = { s with inputs := t.inputs, ctl := t.ctl, manifold := t.manifold, ports := t.ports }) ∧
    (s.inputs.key.level ≠ none ∨ reached 50 s.now = false → exec .inputEstablishment s = .next s)

/-! ### The key -/

/-- KEY_ON, an edge complete to MADE. In NORMAL every claim short of FIRING becomes ABORTED with ABORTED_LOCKOUT, and the mode
becomes MAINT_PENDING when the manifold is then not IDLE or a claim is in FIRING or CONFIRMING, and MAINTENANCE otherwise. In
UNCOMMISSIONED the mode becomes MAINTENANCE, and every channel is de-energised; in MAINTENANCE a pending exit is withdrawn; in
STARTUP the key level alone changes. Beside the key's input nothing else changes in those three modes, nor in NORMAL what the
lockout does not reach (R68, R181). -/
def Obligations.KeyTurnedOn : Prop :=
  ∀ s : State, s.keyEdgeDue .made = true →
    ∃ t, exec .keyOn s = .next t ∧ t.ctl.key = .on ∧ t.inputs.key = { raw := .made, level := some .made, run := none } ∧
      t.inputs = { s.inputs with key := t.inputs.key } ∧
      (s.mode = .startup → t.mode = .startup ∧ t.claims = s.claims ∧
        t = { s with inputs := t.inputs, ctl := { s.ctl with key := .on } }) ∧
      (s.mode = .uncommissioned → t.mode = .maintenance ∧ t.claims = s.claims ∧
        (∀ c, t.channel c = { s.channel c with energised := false }) ∧
        t.circuits = { s.circuits with channels := t.circuits.channels } ∧
        t = { s with inputs := t.inputs, ctl := { s.ctl with key := .on, mode := .maintenance }
                     circuits := t.circuits }) ∧
      (s.mode = .maintenance → t.mode = .maintenance ∧ t.ctl.exitPending = false ∧ t.claims = s.claims ∧
        t = { s with inputs := t.inputs, ctl := { s.ctl with key := .on, exitPending := false } }) ∧
      (s.mode = .normal →
        t = { s with inputs := t.inputs, ctl := { s.ctl with key := .on, mode := t.mode }, cyls := t.cyls
                     claims := t.claims, units := t.units, order := t.order, poolGains := t.poolGains
                     manifold := t.manifold, circuits := t.circuits, captures := t.captures, ports := t.ports } ∧
        (∀ h cl, s.claim h = some cl → cl.state.shortOfFiring = true →
          ∃ cl', t.claim h = some cl' ∧ cl'.state = .aborted ∧ cl'.endReason = some .abortedLockout ∧
            cl'.allocation = [] ∧ (t.port h).latches.aborted ≠ .clear) ∧
        (∀ h cl, s.claim h = some cl → cl.state.shortOfFiring = false → t.claim h = some cl) ∧
        ((t.manifold.state ≠ .idle ∨ ∃ h, t.claimState h = some .firing ∨ t.claimState h = some .confirming) →
          t.mode = .maintPending) ∧
        (¬ (t.manifold.state ≠ .idle ∨ ∃ h, t.claimState h = some .firing ∨ t.claimState h = some .confirming) →
          t.mode = .maintenance)) ∧
      (t.mode = .maintenance → s.mode ≠ .maintenance → ∀ c, (t.channel c).energised = false)

/-- KEY_OFF, an edge complete to BROKEN. In MAINT_PENDING the mode becomes NORMAL and no claim changes; in MAINTENANCE with a
write in progress the exit is pending; with none the image is validated and the mode becomes NORMAL, with the CRC of the image
to be stored, or UNCOMMISSIONED, with the stored CRC left (R183, R189). -/
def Obligations.KeyTurnedOff : Prop :=
  ∀ s : State, s.keyEdgeDue .broken = true →
    ∃ t, exec .keyOff s = .next t ∧ t.ctl.key = .off ∧
      t.inputs.key = { raw := .broken, level := some .broken, run := none } ∧ t.claims = s.claims ∧
      t.image = s.image ∧ t.store.crc = s.store.crc ∧ t.store.write = s.store.write ∧
      (s.mode = .startup → t.mode = .startup) ∧ (s.mode = .maintPending → t.mode = .normal) ∧
      (s.mode = .maintenance → s.store.write.isSome = true → t.mode = .maintenance ∧ t.ctl.exitPending = true) ∧
      (s.mode = .maintenance → s.store.write = none → validate s.image = none →
        t.mode = .normal ∧ t.ctl.imageValid = true ∧ t.ctl.exitPending = false ∧
        t.store.crcStore = some (imageCrc s.image)) ∧
      (s.mode = .maintenance → s.store.write = none → validate s.image ≠ none →
        t.mode = .uncommissioned ∧ t.ctl.imageValid = false ∧ t.ctl.exitPending = false ∧
        t.store.crcStore = s.store.crcStore) ∧
      t = { s with inputs := t.inputs, ctl := t.ctl, store := t.store, circuits := t.circuits }

/-! ### Claims -/

/-- COUNTDOWN_EXPIRY of a claim in COUNTDOWN. With an allocation the claim is WAITING with ready at now, its place on the wait
list by R97, while no grant can be made: the manifold not IDLE, or a mismatch flag set. With the manifold IDLE, no flag set and
the wait list empty the join is followed by its grant. With an empty allocation a first allocation is tried: given one, with the flags
and latches of its commit, the claim is WAITING with it, or granted the manifold, in the same way; not given one, it is
STARVED. Its unit is inhibited unless the grant loads it (R42, R54, R55, R58, R78 to R81, R97 to R99). -/
def Obligations.CountdownExpires : Prop :=
  ∀ (s : State) (h : Hall) (cl : Claim), s.claim h = some cl → cl.state = .countdown →
    (s.unit h).raised s.now .countdown = true →
    (cl.allocation ≠ [] → (s.manifold.state ≠ .idle ∨ ∃ j, s.mismatch j = true) →
      ∃ t, exec (.countdownExpiry h) s = .next t ∧
        t.claim h = some { cl with state := .waiting, readyAt := some s.now } ∧ t.unit h = .inhibited ∧
        (∃ before after, s.manifold.waitList = before ++ after ∧
          t.manifold.waitList = before ++ { hall := h, readyAt := s.now } :: after ∧
          (∀ w ∈ after, w.readyAt = s.now ∧ h < w.hall) ∧
          (∀ w, before.getLast? = some w → ¬ (w.readyAt = s.now ∧ h < w.hall))) ∧
        t.manifold = { s.manifold with waitList := t.manifold.waitList } ∧
        t = { s with claims := t.claims, units := t.units, manifold := t.manifold } ∧
        (∀ j, j ≠ h → t.claim j = s.claim j ∧ t.unit j = s.unit j)) ∧
    (cl.allocation ≠ [] → s.manifold.state = .idle → (∀ j, s.mismatch j = false) → s.manifold.waitList = [] →
      ∃ t, exec (.countdownExpiry h) s = .next t ∧ GrantedTo s t h { cl with readyAt := some s.now } ∧
        t = { s with claims := t.claims, units := t.units, manifold := t.manifold, circuits := t.circuits
                     captures := t.captures }) ∧
    (cl.allocation = [] → s.servable h cl = true → (s.manifold.state ≠ .idle ∨ ∃ j, s.mismatch j = true) →
      ∃ t cl', exec (.countdownExpiry h) s = .next t ∧ t.claim h = some cl' ∧ Served s t h cl cl' ∧
        cl'.state = .waiting ∧ cl'.readyAt = some s.now ∧ t.unit h = .inhibited ∧
        (∃ w ∈ t.manifold.waitList, w.hall = h ∧ w.readyAt = s.now) ∧
        t.manifold = { s.manifold with waitList := t.manifold.waitList } ∧
        (∀ k, (∀ e ∈ s.takenList .firstAllocation cl, e.cyl ≠ k) → t.cyl k = s.cyl k) ∧
        (∀ j, j ≠ h → t.claim j = s.claim j ∧ t.unit j = s.unit j ∧ t.port j = s.port j) ∧
        t = { s with claims := t.claims, units := t.units, manifold := t.manifold, cyls := t.cyls, ports := t.ports }) ∧
    (cl.allocation = [] → s.servable h cl = true → s.manifold.state = .idle → (∀ j, s.mismatch j = false) →
      s.manifold.waitList = [] →
      ∃ t cl', exec (.countdownExpiry h) s = .next t ∧ Served s t h cl cl' ∧ cl'.readyAt = some s.now ∧
        GrantedTo s t h cl') ∧
    (cl.allocation = [] → s.servable h cl = false →
      ∃ t, exec (.countdownExpiry h) s = .next t ∧
        t.claim h = some { cl with state := .starved, flags := { cl.flags with starved := true } } ∧
        t.unit h = .inhibited ∧ t = { s with claims := t.claims, units := t.units } ∧
        (∀ j, j ≠ h → t.claim j = s.claim j ∧ t.unit j = s.unit j))

/-- HOLD_LIMIT_EXPIRY of a claim in HOLD: COUNTDOWN with the larger of the stored remaining and the resume minimum from now, the
delay source saying which, the hold fields removed, and the port's re-arm flag set (R63, R64). -/
def Obligations.HoldLimitExpires : Prop :=
  ∀ (s : State) (h : Hall) (cl : Claim) (r : Nat), s.claim h = some cl → cl.state = .hold → cl.remaining = some r →
    (s.unit h).raised s.now .holdLimit = true →
    ∃ t, exec (.holdLimitExpiry h) s = .next t ∧
      t.claim h = some { cl with
        state := .countdown, remaining := none, holdStartedAt := none
        delaySource := if s.timing.resumeMinimum ≤ r then .remaining else .resumeMin } ∧
      t.unit h = .load s.now (s.now + ms (max r s.timing.resumeMinimum)) .countdown ∧
      t.port h = { s.port h with reArm := true } ∧
      (∀ j, j ≠ h → t.claim j = s.claim j ∧ t.unit j = s.unit j ∧ t.port j = s.port j) ∧
      t = { s with claims := t.claims, units := t.units, ports := t.ports }

/-- SELECTOR_OPEN_TIMEOUT of the grant holder's claim in SELECTING: FAILED with FAILED_SELECTOR_OPEN, its allocation released, the
SELECTOR_FAIL latch set, and the grant withdrawn: no holder, selector commanded closed, capture disarmed, the manifold CLOSING
or VENTING as the selector reads (R65, R101, R102, R104). -/
def Obligations.SelectorOpenTimesOut : Prop :=
  ∀ (s : State) (h : Hall) (cl : Claim), s.claim h = some cl → cl.state = .selecting →
    s.manifold.lastHall = some h → (s.unit h).raised s.now .selectorOpen = true →
    ∃ t cl', exec (.selectorOpenTimeout h) s = .next t ∧ t.claim h = some cl' ∧ cl'.state = .failed ∧
      cl'.endReason = some .failedSelectorOpen ∧ cl'.endedAt = some s.now ∧ cl'.allocation = [] ∧
      cl'.schedule = none ∧ cl'.allocatedSum = 0 ∧ cl'.shortage = cl.figures.req ∧
      (∀ e ∈ cl.allocation, s.assignedTo h e.cyl = true → ∃ y, t.cyl e.cyl = some y ∧ y.disposition = .free) ∧
      t.unit h = .inhibited ∧ (t.port h).latches.selectorFail ≠ .clear ∧ h ∉ t.order ∧
      t.manifold.holder = none ∧ t.selectorCmd h = .closed ∧ t.captures.selectors[h] = .disarmed ∧
      t.manifold.state = (if s.selectorReading h = some .opened then .closing else .venting) ∧
      (∀ j, j ≠ h → t.claim j = s.claim j ∧ t.unit j = s.unit j)

/-! ### Discharge sequencing -/

/-- SELECTOR_CAPTURE of the grant holder in OPENING: the edge time is recorded, the claim is FIRING, the manifold DISCHARGING, the
switch capture armed, and line 1 fired at now: every cylinder of it still ASSIGNED to the hall is pulsed, the cursor is 1, and
the next line deadline loaded; with none still ASSIGNED line 1 is DONE at once, and its completion taken (R100, R115, R116,
R121, R124). -/
def Obligations.DischargeBegins : Prop :=
  ∀ (s : State) (h : Hall) (t0 : Time) (cl : Claim) (sc : Schedule) (line : Line) (rest : List Line),
    s.captures.selectors[h] = .held t0 → s.manifold.state = .opening → s.manifold.holder = some h →
    s.claim h = some cl → cl.state = .selecting → cl.schedule = some sc → sc.lines = line :: rest → sc.cursor = 0 →
    ((∀ k ∈ line.cyls, s.assignedTo h k = false) →
      ∃ t, exec (.selectorCapture h) s = .next t ∧
        EmptyLineFired s t h { cl with state := .firing, selectorOpenAt := some t0, dischargeSeenAt := none } sc ∧
        t.manifold = { s.manifold with state := .discharging } ∧ t.captures.switch = .armed ∧
        t.captures.selectors[h] = .disarmed) ∧
    ((∃ k ∈ line.cyls, s.assignedTo h k = true) →
    ∃ t, exec (.selectorCapture h) s = .next t ∧
      (let pulsed := line.cyls.filter (s.assignedTo h)
       t.claim h = some { cl with
        state := .firing, selectorOpenAt := some t0, dischargeSeenAt := none
        schedule := some
          { lines := { line with status := .pulsing, time := some s.now, pulsed := pulsed } :: rest
            cursor := 1, outstanding := pulsed.length } } ∧
       (∀ c k, s.role c = .cylinder k → k ∈ pulsed → (t.channel c).pulse = some s.now) ∧
       (∀ c, (∀ k, s.role c = .cylinder k → k ∉ pulsed) → (t.channel c).pulse = (s.channel c).pulse)) ∧
      t.manifold = { s.manifold with state := .discharging } ∧ t.captures.switch = .armed ∧
      t.captures.selectors[h] = .disarmed ∧
      t.unit h = .load s.now (s.now + ms s.timing.lineInterval) .nextLine ∧
      (∀ j, j ≠ h → t.claim j = s.claim j ∧ t.unit j = s.unit j) ∧
      t = { s with claims := t.claims, units := t.units, manifold := t.manifold, captures := t.captures,
                   circuits := t.circuits })

/-- MANIFOLD_SWITCH_CAPTURE: in FIRING its edge time is recorded as discharge seen at and firing goes on; in CONFIRMING the claim is
DISCHARGED with CONFIRMED. The unit is disarmed (R125, R127). -/
def Obligations.SwitchCaptureTaken : Prop :=
  ∀ (s : State) (h : Hall) (t0 : Time) (cl : Claim), s.captures.switch = .held t0 → s.manifold.holder = some h →
    s.claim h = some cl →
    (cl.state = .firing →
      ∃ t, exec .manifoldSwitchCapture s = .next t ∧ t.claim h = some { cl with dischargeSeenAt := some t0 } ∧
        t.captures.switch = .disarmed ∧ (∀ j, j ≠ h → t.claim j = s.claim j) ∧
        t = { s with claims := t.claims, captures := t.captures }) ∧
    (cl.state = .confirming →
      ∃ t cl', exec .manifoldSwitchCapture s = .next t ∧ t.claim h = some cl' ∧ cl'.state = .discharged ∧
        cl'.endReason = some .confirmed ∧ cl'.endedAt = some s.now ∧ cl'.dischargeSeenAt = some t0 ∧
        cl'.fired = cl.fired ∧ t.unit h = .inhibited ∧ t.captures.switch = .disarmed ∧ h ∉ t.order ∧
        (t.port h).latches.discharged ≠ .clear ∧ t.manifold.holder = none ∧ t.selectorCmd h = .closed ∧
        (t.manifold.state = .closing ∨ t.manifold.state = .venting))

/-- NEXT_LINE_EXPIRY of a claim in FIRING with no pulse outstanding: with the selector reading OPEN the line after the cursor is
fired at now, and with none of its cylinders still ASSIGNED it is DONE at once and its completion taken; otherwise it is
DEFERRED at now, nothing is pulsed, the cursor stands, and the deferral deadline replaces the next line deadline (R116, R117,
R121, R124). That it is taken with no pulse outstanding is the model's reading of R118 (assumption
entry 16). -/
def Obligations.NextLineExpires : Prop :=
  ∀ (s : State) (h : Hall) (cl : Claim) (sc : Schedule) (line : Line),
    s.claim h = some cl → cl.state = .firing → cl.schedule = some sc → sc.outstanding = 0 →
    sc.lines[sc.cursor]? = some line → (s.unit h).raised s.now .nextLine = true →
    (s.selectorReading h = some .opened → (∃ k ∈ line.cyls, s.assignedTo h k = true) →
      ∃ t, exec (.nextLineExpiry h) s = .next t ∧
        (let pulsed := line.cyls.filter (s.assignedTo h)
         let fired : Schedule :=
          { lines := sc.lines.set sc.cursor { line with status := .pulsing, time := some s.now, pulsed := pulsed }
            cursor := sc.cursor + 1, outstanding := pulsed.length }
         t.claim h = some { cl with schedule := some fired } ∧
         (∀ c k, s.role c = .cylinder k → k ∈ pulsed → (t.channel c).pulse = some s.now)) ∧
        t.unit h = .load s.now (s.now + ms s.timing.lineInterval) .nextLine ∧
        (∀ j, j ≠ h → t.claim j = s.claim j ∧ t.unit j = s.unit j) ∧
        t = { s with claims := t.claims, units := t.units, circuits := t.circuits }) ∧
    (s.selectorReading h = some .opened → (∀ k ∈ line.cyls, s.assignedTo h k = false) →
      ∃ t, exec (.nextLineExpiry h) s = .next t ∧ EmptyLineFired s t h cl sc) ∧
    (s.selectorReading h ≠ some .opened →
      ∃ t, exec (.nextLineExpiry h) s = .next t ∧
        (let deferred : Schedule :=
          { sc with lines := sc.lines.set sc.cursor { line with status := .deferred, deferredAt := some s.now } }
         t.claim h = some { cl with schedule := some deferred }) ∧
        t.unit h = .load s.now (s.now + ms s.timing.selectorOpenTimeout) .deferral ∧
        (∀ j, j ≠ h → t.claim j = s.claim j ∧ t.unit j = s.unit j) ∧
        t = { s with claims := t.claims, units := t.units })

/-- DEFERRAL_EXPIRY of a claim in FIRING: every line after the cursor is ABANDONED, the allocation is released, and PARTIAL and
its latch are set. With no capture of the switch the claim is in CONFIRMING with the confirm deadline measured from the last
line fired; with discharge seen at present it is DISCHARGED with CONFIRMED at once, PARTIAL set (R17, R120, R124, R127). -/
def Obligations.DeferralExpires : Prop :=
  ∀ (s : State) (h : Hall) (cl : Claim) (sc : Schedule) (last : Line) (t0 : Time),
    s.claim h = some cl → cl.state = .firing → cl.schedule = some sc →
    0 < sc.cursor → sc.lines[sc.cursor - 1]? = some last → last.time = some t0 →
    (s.unit h).raised s.now .deferral = true →
    ∃ t cl' sc', exec (.deferralExpiry h) s = .next t ∧ t.claim h = some cl' ∧
      cl'.flags.part = true ∧ cl'.allocation = [] ∧ cl'.fired = cl.fired ∧ cl'.schedule = some sc' ∧
      sc'.lines.length = sc.lines.length ∧ sc'.cursor = sc.cursor ∧
      (∀ i, i < sc.cursor → sc'.lines[i]? = sc.lines[i]?) ∧
      (∀ i l, sc.cursor ≤ i → sc.lines[i]? = some l → sc'.lines[i]? = some { l with status := .abandoned }) ∧
      (∀ e ∈ cl.allocation, s.assignedTo h e.cyl = true → ∃ y, t.cyl e.cyl = some y ∧ y.disposition = .free) ∧
      (t.port h).latches.part ≠ .clear ∧ (∀ j, j ≠ h → t.claim j = s.claim j ∧ t.unit j = s.unit j) ∧
      (cl.dischargeSeenAt = none → cl'.state = .confirming ∧
        t.unit h = .load s.now (t0 + ms s.timing.confirmTimeout) .confirm ∧ (∀ j, j ≠ h → t.port j = s.port j) ∧
        t = { s with claims := t.claims, units := t.units, cyls := t.cyls, ports := t.ports
                     poolGains := t.poolGains }) ∧
      (cl.dischargeSeenAt ≠ none → cl'.dischargeSeenAt = cl.dischargeSeenAt ∧ Confirmed s t h cl')

/-- CONFIRM_TIMEOUT of a claim in CONFIRMING: DISCHARGED with UNCONFIRMED, both latches set, off the admission order, the switch
capture disarmed, the grant ended (R126, R127). -/
def Obligations.ConfirmTimesOut : Prop :=
  ∀ (s : State) (h : Hall) (cl : Claim), s.claim h = some cl → cl.state = .confirming →
    (s.unit h).raised s.now .confirm = true →
    ∃ t, exec (.confirmTimeout h) s = .next t ∧
      t.claim h = some { cl with state := .discharged, endReason := some .unconfirmed, endedAt := some s.now } ∧
      t.unit h = .inhibited ∧ t.captures.switch = .disarmed ∧ t.order = s.order.filter (fun j => j ≠ h) ∧
      (t.port h).latches.unconfirmed ≠ .clear ∧ (t.port h).latches.discharged ≠ .clear ∧
      t.manifold.holder = none ∧ t.selectorCmd h = .closed ∧
      (t.manifold.state = .closing ∨ t.manifold.state = .venting) ∧
      (∀ j, j ≠ h → t.claim j = s.claim j ∧ t.unit j = s.unit j) ∧ t.cyls = s.cyls ∧ t.store = s.store

/-! ### Expiries of a port -/

/-- SUPERVISION_EXPIRY of an ACTIVE port: LOST, its unit inhibited, LINK_LOST set, and no other field of the port or state changed.
TEMPERATURE_EXPIRY: the reported temperature and its deadline are withdrawn, and nothing else changes (R30, R170). -/
def Obligations.PortExpiries : Prop :=
  (∀ (s : State) (h : Hall), (s.port h).link = .active → (s.port h).supervision.raised s.now .supervision = true →
    ∃ t, exec (.supervisionExpiry h) s = .next t ∧
      t.port h = { s.port h with
        link := .lost, supervision := .inhibited
        latches := { (s.port h).latches with
          linkLost := if (s.port h).latches.linkLost = .clear then .unreported else (s.port h).latches.linkLost } } ∧
      (∀ j, j ≠ h → t.port j = s.port j) ∧ t = { s with ports := t.ports }) ∧
  (∀ (s : State) (h : Hall), (s.port h).freshness.raised s.now .freshness = true →
    ∃ t, exec (.temperatureExpiry h) s = .next t ∧
      t.port h = { s.port h with temp := none, freshness := .inhibited } ∧
      (∀ j, j ≠ h → t.port j = s.port j) ∧ t = { s with ports := t.ports })

/-! ### Hall requests -/

/-- POLL of 4 bytes. With a present flag or a hold level above 1 it is refused with BAD_FIELD, and nothing of it is taken. With
valid fields it is answered ACCEPTED: a temperature is clamped and stored with its arrival time, clamped flag and
freshness deadline, and left when none is carried; the hold level is the POLL's, and acts on the hall's claim by its edges. A
rise from 0 with the re-arm flag clear holds a claim in COUNTDOWN with the remaining time it had, and one in WAITING or
SELECTING with remaining 0, off the wait list or its grant withdrawn, under the hold limit; a level of 0 clears the re-arm flag
and resumes a claim in HOLD with the larger of its remaining and the resume minimum; a level of 1 that is no such edge, such a
rise with a claim in HOLD, STARVED, FIRING, CONFIRMING or terminal or with none, and a level of 0 with no claim in HOLD change
no claim (R30, R59 to R63, R101, R168). -/
def Obligations.PollTaken : Prop :=
  ∀ (s : State) (h : Hall) (present t1 t0 hold : Byte), s.takesRequest h →
    (1 < present.toNat ∨ 1 < hold.toNat →
      ∃ t, exec (.poll h [present, t1, t0, hold]) s = .next t ∧ HallAnswered s t h 1 .badField ∧
        (t.port h).holdLevel = (s.port h).holdLevel ∧ (t.port h).reArm = (s.port h).reArm ∧
        (t.port h).temp = (s.port h).temp ∧ (t.port h).freshness = (s.port h).freshness ∧
        (∀ j, j ≠ h → t.port j = s.port j) ∧ t = { s with ports := t.ports, choices := t.choices }) ∧
    (present.toNat ≤ 1 → hold.toNat ≤ 1 →
    ∃ t, exec (.poll h [present, t1, t0, hold]) s = .next t ∧ HallAnswered s t h 1 .accepted ∧
      (t.port h).holdLevel = decide (hold = 1) ∧
      (let x := (t1 ++ t0 : BitVec 16).toInt
       let y := if x < -400 then -400 else if 850 < x then 850 else x
       present = 1 → (t.port h).temp = some { temperature := y, arrival := s.now, clamped := decide (y ≠ x) } ∧
        (t.port h).freshness = .load s.now (s.now + 120001) .freshness) ∧
      (present = 0 → (t.port h).temp = (s.port h).temp ∧ (t.port h).freshness = (s.port h).freshness) ∧
      (t.port h).reArm = ((s.port h).reArm && decide (hold = 1)) ∧
      (∀ j, j ≠ h → t.claim j = s.claim j) ∧
      (hold = 1 → (s.port h).holdLevel = true ∨ (s.port h).reArm = true →
        t.claims = s.claims ∧ t.units = s.units) ∧
      (hold = 1 → (∀ cl, s.claim h = some cl → cl.state = .hold ∨ cl.state = .starved ∨ cl.state = .firing ∨
          cl.state = .confirming ∨ cl.state.terminal = true) →
        t.claims = s.claims ∧ t.units = s.units ∧ t.manifold = s.manifold) ∧
      (hold = 0 → (∀ cl, s.claim h = some cl → cl.state ≠ .hold) →
        t.claims = s.claims ∧ t.units = s.units ∧ t.manifold = s.manifold) ∧
      (∀ cl, hold = 1 → (s.port h).holdLevel = false → (s.port h).reArm = false → s.claim h = some cl →
        cl.state = .countdown →
        t.claim h = some { cl with
          state := .hold, remaining := some ((s.unit h).remaining s.now), holdStartedAt := some s.now
          readyAt := none } ∧
        t.unit h = (if s.timing.holdLimit = 0 then .inhibited
          else .load s.now (s.now + ms s.timing.holdLimit) .holdLimit)) ∧
      (∀ cl, hold = 1 → (s.port h).holdLevel = false → (s.port h).reArm = false → s.claim h = some cl →
        cl.state = .waiting ∨ cl.state = .selecting →
        t.claim h = some { cl with
          state := .hold, remaining := some 0, holdStartedAt := some s.now, readyAt := none
          schedule := if cl.state = .selecting then none else cl.schedule } ∧
        t.unit h = (if s.timing.holdLimit = 0 then .inhibited
          else .load s.now (s.now + ms s.timing.holdLimit) .holdLimit) ∧ t.cyls = s.cyls ∧
        (cl.state = .waiting →
          t.manifold = { s.manifold with waitList := s.manifold.waitList.filter fun w => w.hall ≠ h }) ∧
        (cl.state = .selecting → s.manifold.lastHall = some h → GrantWithdrawn s t h)) ∧
      (∀ cl r, hold = 0 → s.claim h = some cl → cl.state = .hold → cl.remaining = some r →
        t.claim h = some { cl with
          state := .countdown, remaining := none, holdStartedAt := none
          delaySource := if s.timing.resumeMinimum ≤ r then .remaining else .resumeMin } ∧
        t.unit h = .load s.now (s.now + ms (max r s.timing.resumeMinimum)) .countdown))

/-- RELEASE, refused by the first of the checks of R49 that fails: answered with the refusal, and nothing else changes. One that
passes them all is answered ACCEPTED: a MANUAL one upgrades an AUTO claim in COUNTDOWN or HOLD, which counts down the smaller of
its remaining time and the manual delay; otherwise a new claim is admitted (R49, R52, R53). In STARTUP, where no port receives,
the refusal is the model's (assumption entry 26). -/
def Obligations.ReleaseChecks : Prop :=
  ∀ (s : State) (h : Hall) (basis reserve : Byte), s.takesRequest h →
    (∀ r, s.releaseRefusal h basis reserve = some r →
      ∃ t, exec (.release h [basis, reserve]) s = .next t ∧ HallAnswered s t h 2 r ∧
        (∀ j, j ≠ h → t.port j = s.port j) ∧ (t.port h).holdLevel = (s.port h).holdLevel ∧
        (t.port h).reArm = (s.port h).reArm ∧ (t.port h).temp = (s.port h).temp ∧
        t = { s with ports := t.ports, choices := t.choices }) ∧
    (s.releaseRefusal h basis reserve = none →
      ∃ t cl, exec (.release h [basis, reserve]) s = .next t ∧ HallAnswered s t h 2 .accepted ∧
        t.claim h = some cl ∧ cl.state = .countdown ∧
        (∀ old, s.claim h = some old → old.state.terminal = false →
          (t.port h).reArm = true ∧
          (let left := if old.state = .hold then old.remaining.getD 0 else (s.unit h).remaining s.now
           t.unit h = .load s.now (s.now + ms (min left (s.hallRec h).manualDelay)) .countdown ∧
           cl = { old with
             basis := .manual, state := .countdown, remaining := none, holdStartedAt := none
             delaySource := if left ≤ (s.hallRec h).manualDelay then .remaining else .manualDelay })) ∧
        ((∀ old, s.claim h = some old → old.state.terminal = true) → cl.admittedAt = s.now))

/-- RELEASE admitted as a new claim: the record of R50 with the figures of R38, the countdown of R51, its place at the tail of
the admission order ahead of higher halls admitted at the same time, and a first allocation that takes only eligible
cylinders, RESERVE ones only where permitted, is committed whole or not at all, and leaves the STARVED flag set exactly when
it is empty. It is given whenever classes 1 to 4 reach the minimum acceptable quantity, and a FULL and LOW pool of at most 32
cylinders that holds the requirement meets it. OVER_CEILING, SHORT, RESERVE_USED and UNREAD_INCLUDED are as its commit leaves
them, and the reply carries the latches that it asks for and no other new one (R38, R42, R50, R51, R54, R72, R74, R77 to R81;
what is taken, and in which order: RunLimits). -/
def Obligations.ReleaseAdmitted : Prop :=
  ∀ (s : State) (h : Hall) (basis reserve : Byte), s.takesRequest h → s.mode = .normal →
    (s.hallRec h).commissioned = true → s.selectorFaulted h = false → basis.toNat ≤ 1 → reserve.toNat ≤ 1 →
    (∀ old, s.claim h = some old → old.state.terminal = true) →
    ∃ t cl, exec (.release h [basis, reserve]) s = .next t ∧ t.claim h = some cl ∧ cl.state = .countdown ∧
      cl.basis = (if basis = 1 then .manual else .auto) ∧ cl.admittedAt = s.now ∧
      cl.delaySource = (if basis = 1 then .manualDelay else .autoDelay) ∧
      cl.reservePermitted = (match (s.hallRec h).reservePolicy with
        | .never => false
        | .always => true
        | .onRequest => decide (reserve = 1)) ∧
      cl.figures = s.figures h ∧ cl.readyAt = none ∧ cl.schedule = none ∧ cl.fired = [] ∧ cl.endReason = none ∧
      cl.allocatedSum = sumE cl.allocation ∧ cl.shortage = cl.figures.req - cl.allocatedSum ∧
      (cl.flags.starved = true ↔ cl.allocation = []) ∧ cl.allocation.length ≤ 32 ∧
      (cl.allocation ≠ [] → s.minAcceptable h cl.figures.req ≤ cl.allocatedSum) ∧
      (∀ e ∈ cl.allocation, s.eligible e.cyl = true ∧ t.assignedTo h e.cyl = true ∧
        (s.rackRole e.cyl = .reserve → cl.reservePermitted = true)) ∧
      (∀ k, (∀ e ∈ cl.allocation, e.cyl ≠ k) → t.cyl k = s.cyl k) ∧
      t.unit h = .load s.now (s.now + ms (if basis = 1 then (s.hallRec h).manualDelay
        else (s.hallRec h).autoDelay)) .countdown ∧
      (let fresh : Claim := newClaim cl.basis cl.reservePermitted s.now (s.figures h)
       cl.allocation = (if s.servable h fresh then s.takenList .firstAllocation fresh else []) ∧
        cl.flags = { (s.committed fresh cl.allocation).flags with starved := decide (cl.allocation = []) } ∧
        ∃ r, (t.port h).reply = some r ∧ ∀ l,
          r.latches.get l = (if s.commitAsks fresh cl.allocation l then ((s.port h).latches.get l).raise
            else (s.port h).latches.get l) ∧
          (t.port h).latches.get l = (r.latches.get l).report) ∧
      (let pool := s.poolOf .main .full ++ s.poolOf .main .low ++
        if cl.reservePermitted then s.poolOf .reserve .full ++ s.poolOf .reserve .low else []
       pool.length ≤ 32 → cl.figures.req ≤ sumE pool → 0 < cl.figures.req → (s.hallRec h).minFraction ≤ 100 →
        cl.figures.req ≤ cl.allocatedSum) ∧
      (∃ before after, s.order = before ++ after ∧ t.order = before ++ h :: after ∧
        (∀ j ∈ after, h < j ∧ ∃ c, s.claim j = some c ∧ c.admittedAt = s.now) ∧
        (∀ j, before.getLast? = some j → ¬ (h < j ∧ ∃ c, s.claim j = some c ∧ c.admittedAt = s.now))) ∧
      (∀ j, j ≠ h → t.claim j = s.claim j ∧ t.unit j = s.unit j ∧ t.port j = s.port j) ∧
      t = { s with claims := t.claims, units := t.units, order := t.order, cyls := t.cyls, ports := t.ports,
                   choices := t.choices }

/-- ABORT: refused with NO_CLAIM where there is no claim, and with TOO_LATE from FIRING on; a claim short of FIRING becomes ABORTED
with ABORTED_BY_PANEL, whatever the mode: its cylinders go from ASSIGNED to FREE, with one POOL GAIN where one became eligible,
WAITING leaves the wait list, SELECTING has its grant withdrawn, and the ABORTED latch is asked for, carried by the reply. The
hold level and re-arm flag stand, and so do the other halls' claims, deadlines and ports (R66). -/
def Obligations.AbortOutcome : Prop :=
  ∀ (s : State) (h : Hall), s.takesRequest h →
    ∃ t, exec (.abort h []) s = .next t ∧
      (t.port h).holdLevel = (s.port h).holdLevel ∧ (t.port h).reArm = (s.port h).reArm ∧
      (s.claim h = none → HallAnswered s t h 3 .noClaim ∧ t = { s with ports := t.ports, choices := t.choices }) ∧
      (∀ cl, s.claim h = some cl →
        ((cl.state = .countdown ∨ cl.state = .hold ∨ cl.state = .starved ∨ cl.state = .waiting ∨
            cl.state = .selecting) →
          HallAnswered s t h 3 .accepted ∧
          ∃ cl', t.claim h = some cl' ∧ cl'.state = .aborted ∧ cl'.endReason = some .abortedByPanel ∧
            cl'.endedAt = some s.now ∧ cl'.allocation = [] ∧ cl'.remaining = none ∧ cl'.figures = cl.figures ∧
            t.unit h = .inhibited ∧ h ∉ t.order ∧ (∀ w ∈ t.manifold.waitList, cl.state = .waiting → w.hall ≠ h) ∧
            AbortedByPanel s t h cl ∧
            (∃ r, (t.port h).reply = some r ∧ ∀ l, r.latches.get l =
              if l = .aborted then ((s.port h).latches.get l).raise else (s.port h).latches.get l) ∧
            t = { s with claims := t.claims, units := t.units, order := t.order, cyls := t.cyls
                         poolGains := t.poolGains, manifold := t.manifold, circuits := t.circuits
                         captures := t.captures, ports := t.ports, choices := t.choices }) ∧
        ((cl.state = .firing ∨ cl.state = .confirming ∨ cl.state = .discharged ∨ cl.state = .aborted ∨
            cl.state = .failed) →
          HallAnswered s t h 3 .tooLate ∧ t = { s with ports := t.ports, choices := t.choices })) ∧
      (∀ j, j ≠ h → t.claim j = s.claim j ∧ t.unit j = s.unit j ∧ t.port j = s.port j) ∧
      (ModeLaw s → s.mode = .maintPending ∨ s.mode = .maintenance →
        HallAnswered s t h 3 .noClaim ∨ HallAnswered s t h 3 .tooLate)

/-- LATCH_CLEAR: every latch both set and reported is cleared; one set and unreported is left set, carried as NEW in the reply,
and reported by it, so that a second LATCH_CLEAR clears it. No claim, mismatch flag, mark or other port changes (R173). -/
def Obligations.LatchClear : Prop :=
  ∀ (s : State) (h : Hall), s.takesRequest h →
    ∃ t r, exec (.latchClear h []) s = .next t ∧ HallAnswered s t h 4 .accepted ∧ (t.port h).reply = some r ∧
      (∀ l, r.latches.get l = (if (s.port h).latches.get l = .reported then .clear else (s.port h).latches.get l)) ∧
      (∀ l, (t.port h).latches.get l =
        (if (s.port h).latches.get l = .unreported then .reported else .clear)) ∧
      (∀ l, ((t.port h).latches.map LatchState.acknowledge).get l = .clear) ∧
      t.claims = s.claims ∧ t.manifold = s.manifold ∧ t.circuits = s.circuits ∧
      (∀ j, j ≠ h → t.port j = s.port j) ∧ (t.port h).holdLevel = (s.port h).holdLevel ∧
      (t.port h).reArm = (s.port h).reArm ∧ (t.port h).temp = (s.port h).temp ∧
      t = { s with ports := t.ports, choices := t.choices }

/-- QUERY. In NORMAL and MAINT_PENDING a commissioned hall is answered with the live figures at now and their minimum acceptable
quantity. Otherwise it is refused: NOT_COMMISSIONED in UNCOMMISSIONED and for a hall that is not commissioned, LOCKOUT in
MAINTENANCE, with no live figures. A port that does not receive yet takes nothing. Nothing but the port changes (R43, R44). -/
def Obligations.QueryAnswered : Prop :=
  ∀ (s : State) (h : Hall),
    ((s.port h).rx.state = .off → exec (.query h []) s = .next s) ∧
    (s.takesRequest h → s.mode ≠ .startup →
      ∃ t r, exec (.query h []) s = .next t ∧ (t.port h).reply = some r ∧ (∀ j, j ≠ h → t.port j = s.port j) ∧
        (t.port h).holdLevel = (s.port h).holdLevel ∧ (t.port h).reArm = (s.port h).reArm ∧
        (t.port h).temp = (s.port h).temp ∧
        t = { s with ports := t.ports, choices := t.choices } ∧
        (let refused : Option Result :=
          if s.mode = .uncommissioned then some .notCommissioned
          else if s.mode = .maintenance then some .lockout
          else if (s.hallRec h).commissioned = false then some .notCommissioned else none
         (∀ x, refused = some x → HallAnswered s t h 5 x ∧ r.live = none) ∧
         (refused = none → HallAnswered s t h 5 .accepted ∧
          r.live = some { figures := s.figures h
                          minAcceptable := ((s.figures h).req * (s.hallRec h).minFraction + 99) / 100 })))

/-- A request of an unknown kind is refused with UNKNOWN_KIND, and one of a known hall kind or site kind whose payload has another
length than its kind's with BAD_FIELD, in every mode; each is answered, and changes nothing besides its port (R166, R178,
R193). The length of a COMMISSION_WRITE that names its record is in SiteWritesBegin. -/
def Obligations.UnknownKindOrLength : Prop :=
  (∀ (s : State) (h : Hall) (k : BitVec 7) (payload : Payload), s.takesRequest h →
    ∃ t, exec (.hallUnknownKind h k payload) s = .next t ∧ HallAnswered s t h (k.zeroExtend 8) .unknownKind ∧
      (∀ j, j ≠ h → t.port j = s.port j) ∧ t = { s with ports := t.ports, choices := t.choices }) ∧
  (∀ (s : State) (h : Hall) (i : Instr) (f : Frame) (n : Nat), s.takesRequest h →
    requestOf i = some (.hall h, f) →
    ((f.kind = 1 ∧ n = 4) ∨ (f.kind = 2 ∧ n = 2) ∨ ((f.kind = 3 ∨ f.kind = 4 ∨ f.kind = 5) ∧ n = 0)) →
    (∀ k p, i ≠ .hallUnknownKind h k p) → f.payload.length ≠ n →
    ∃ t, exec i s = .next t ∧ HallAnswered s t h f.kind .badField ∧ (∀ j, j ≠ h → t.port j = s.port j) ∧
      t = { s with ports := t.ports, choices := t.choices }) ∧
  (∀ (s : State) (k : BitVec 7) (payload : Payload), s.takesSiteRequest →
    ∃ t, exec (.siteUnknownKind k payload) s = .next t ∧ SiteAnswered s t (k.zeroExtend 8) .unknownKind [] ∧
      t = { s with site := t.site, choices := t.choices }) ∧
  (∀ (s : State) (i : Instr) (f : Frame), s.takesSiteRequest → requestOf i = some (.site, f) →
    (∀ k p, i ≠ .siteUnknownKind k p) →
    ((f.kind = 16 ∨ f.kind = 20 ∨ f.kind = 21) ∧ f.payload.length ≠ 1) ∨
      ((f.kind = 17 ∨ f.kind = 18 ∨ f.kind = 19) ∧ f.payload.length ≠ 2) ∨ (f.kind = 22 ∧ f.payload.length < 2) →
    ∃ t, exec i s = .next t ∧ SiteAnswered s t f.kind .badField [] ∧
      t = { s with site := t.site, choices := t.choices })

/-- An arrival on a port that owes a reply is discarded: it gets no reply, reloads no deadline and reaches no other block; all
that goes is the frame itself, if it stood in the buffer (R165, R177; the buffer is the model's: assumption entry 7). -/
def Obligations.ArrivalDiscarded : Prop :=
  ∀ (s : State) (i : Instr) (p : Port) (f : Frame), requestOf i = some (p, f) →
    (∀ h, p = .hall h → (s.port h).rx.state ≠ .off → (s.port h).owed = true →
      exec i s = .next (s.setPort h { s.port h with rx := { (s.port h).rx with
        complete := if (s.port h).rx.complete = some f then none else (s.port h).rx.complete } })) ∧
    (p = .site → s.site.rx.state ≠ .off → s.site.owed = true →
      exec i s = .next (s.setSite { s.site with rx := { s.site.rx with
        complete := if s.site.rx.complete = some f then none else s.site.rx.complete } }))

/-! ### The links -/

/-- BYTE_RECEIVED, FRAME_ABANDONED and REPLY_TRANSMITTED. In HUNTING a start marker begins a frame and any other byte is discarded;
a frame abandoned empties the buffer and returns to HUNTING. A frame whose last byte is more than 5 ms old raises its
abandonment, and a byte that comes first finds HUNTING; with no more than 5 ms passed none is raised, and the byte fills the
frame. A byte that comes while the port transmits is not received. At the last stop bit of a reply whose transmission has begun,
reply owed returns to no and the bytes sent, which the model keeps (assumption entry 9), are the reply's frame, on a hall port 53 with live figures and 35 without
(R164, R165, R177, R192). That the gap is timed in whole milliseconds of the timebase is the model's (assumption entry 14). -/
def Obligations.LinkEvents : Prop :=
  ∀ s : State,
    (∀ (h : Hall) (b : Byte), (s.port h).rx.state = .hunting → (s.port h).owed = false →
      exec (.byteReceived (.hall h) b) s = .next (if b = 0xA5 then
        s.setPort h { s.port h with
          rx := { state := .assembling, buffer := [], lastByte := some s.now, complete := none } } else s)) ∧
    (∀ b : Byte, s.site.rx.state = .hunting → s.site.owed = false →
      exec (.byteReceived .site b) s = .next (if b = 0xA5 then
        s.setSite { s.site with
          rx := { state := .assembling, buffer := [], lastByte := some s.now, complete := none } } else s)) ∧
    (∀ (h : Hall) (cause : AbandonCause), (s.port h).rx.state = .assembling →
      exec (.frameAbandoned (.hall h) cause) s = .next (s.setPort h { s.port h with
        rx := { (s.port h).rx with state := .hunting, buffer := [], lastByte := none } })) ∧
    (∀ cause : AbandonCause, s.site.rx.state = .assembling →
      exec (.frameAbandoned .site cause) s = .next (s.setSite { s.site with
        rx := { s.site.rx with state := .hunting, buffer := [], lastByte := none } })) ∧
    (∀ (h : Hall) (u : Time) (d : Nat) (b : Byte), (s.port h).rx.state = .assembling →
      (s.port h).rx.lastByte = some u → s.now = u + ms d → (s.port h).owed = false →
      (5 < d → d < 2 ^ 31 →
        Instr.frameAbandoned (.hall h) .byteGap ∈ s.raised ∧
        exec (.byteReceived (.hall h) b) s = .next (s.setPort h { s.port h with
          rx := if b = 0xA5 then { state := .assembling, buffer := [], lastByte := some s.now, complete := none }
            else { (s.port h).rx with state := .hunting, buffer := [], lastByte := none } })) ∧
      (d ≤ 5 → Instr.frameAbandoned (.hall h) .byteGap ∉ s.raised ∧
        ((s.port h).rx.buffer = [] → exec (.byteReceived (.hall h) b) s = .next (s.setPort h { s.port h with
          rx := { (s.port h).rx with buffer := [b], lastByte := some s.now } })))) ∧
    (∀ (u : Time) (d : Nat) (b : Byte), s.site.rx.state = .assembling →
      s.site.rx.lastByte = some u → s.now = u + ms d → s.site.owed = false →
      (5 < d → d < 2 ^ 31 →
        Instr.frameAbandoned .site .byteGap ∈ s.raised ∧
        exec (.byteReceived .site b) s = .next (s.setSite { s.site with
          rx := if b = 0xA5 then { state := .assembling, buffer := [], lastByte := some s.now, complete := none }
            else { s.site.rx with state := .hunting, buffer := [], lastByte := none } })) ∧
      (d ≤ 5 → Instr.frameAbandoned .site .byteGap ∉ s.raised ∧
        (s.site.rx.buffer = [] → exec (.byteReceived .site b) s = .next (s.setSite { s.site with
          rx := { s.site.rx with buffer := [b], lastByte := some s.now } })))) ∧
    (∀ (h : Hall) (b : Byte) (d : Time), (s.port h).rx.state ≠ .assembling → (s.port h).owed = true →
      (s.port h).replyBegins = some d → reached d s.now = true → exec (.byteReceived (.hall h) b) s = .next s) ∧
    (∀ (b : Byte) (d : Time), s.site.rx.state ≠ .assembling → s.site.owed = true →
      s.site.replyBegins = some d → reached d s.now = true → exec (.byteReceived .site b) s = .next s) ∧
    (∀ (h : Hall) (r : HallReply) (d : Time), (s.port h).owed = true → (s.port h).reply = some r →
      (s.port h).replyBegins = some d → reached d s.now = true →
      ∃ t, exec (.replyTransmitted (.hall h)) s = .next t ∧ (t.port h).owed = false ∧ (t.port h).reply = none ∧
        (t.port h).sent = [0xA5, r.kind, BitVec.ofNat 8 r.payload.length] ++ r.payload ++
          crcBytes (crc16 ([r.kind, BitVec.ofNat 8 r.payload.length] ++ r.payload)) ∧
        (t.port h).sent.length = (if r.live.isSome then 53 else 35) ∧
        (t.port h).latches = (s.port h).latches ∧ (t.port h).link = (s.port h).link ∧
        (∀ j, j ≠ h → t.port j = s.port j) ∧ t = { s with ports := t.ports }) ∧
    (∀ (r : SiteReply) (d : Time), s.site.owed = true → s.site.reply = some r → s.site.replyBegins = some d →
      reached d s.now = true →
      ∃ t, exec (.replyTransmitted .site) s = .next t ∧ t.site.owed = false ∧ t.site.reply = none ∧
        t.site.sent = [0xA5, r.kind, BitVec.ofNat 8 r.payload.length] ++ r.payload ++
          crcBytes (crc16 ([r.kind, BitVec.ofNat 8 r.payload.length] ++ r.payload)) ∧
        t = { s with site := t.site })

/-! ### The site port -/

/-- SITE_POLL, CYLINDER_QUERY, CLAIM_QUERY and COMMISSION_READ. Each is answered, in every mode, with a content that carries, field
by field at its place, what the page carries of the state, every content byte being 0 for a hall with no record, or refused: a page above 2 with BAD_FIELD, a range past index 63 with BAD_INDEX before a count outside 1 to 8 with BAD_FIELD, a
hall outside 1 to 8 with BAD_INDEX. They change nothing in what they read (R26, R47, R111, R132, R162, R175, R178, R187, R194,
section 12.3). The remaining of CLAIM_QUERY page 0 is the model's reading (assumption entry 17). -/
def Obligations.SiteReads : Prop :=
  ∀ s : State, s.takesSiteRequest →
    (∀ page : Byte, ∃ t, exec (.sitePoll [page]) s = .next t ∧
      t = { s with site := t.site, choices := t.choices } ∧
      (page.toNat ≤ 2 → ∃ content, SiteAnswered s t 16 .accepted content ∧
        (page = 0 → PollPage0 s content) ∧ (page = 1 → PollPage1 s content) ∧ (page = 2 → PollPage2 s content)) ∧
      (2 < page.toNat → SiteAnswered s t 16 .badField [])) ∧
    (∀ first count : Byte, ∃ t, exec (.cylinderQuery [first, count]) s = .next t ∧
      t = { s with site := t.site, choices := t.choices } ∧
      (63 < first.toNat ∨ 64 < first.toNat + count.toNat → SiteAnswered s t 17 .badIndex []) ∧
      (first.toNat ≤ 63 → count = 0 → SiteAnswered s t 17 .badField []) ∧
      (first.toNat + count.toNat ≤ 64 → 8 < count.toNat → SiteAnswered s t 17 .badField []) ∧
      (first.toNat + count.toNat ≤ 64 → 1 ≤ count.toNat → count.toNat ≤ 8 →
        ∃ rest, SiteAnswered s t 17 .accepted (BitVec.ofNat 8 (min count.toNat 3) :: rest) ∧
          rest.length = 14 * min count.toNat 3 ∧
          ∀ (j : Nat) (k : CylIdx), j < min count.toNat 3 → k.val = first.toNat + j →
            CylinderShown s k ((rest.drop (14 * j)).take 14))) ∧
    (∀ hall page : Byte, ∃ t, exec (.claimQuery [hall, page]) s = .next t ∧
      t = { s with site := t.site, choices := t.choices } ∧
      (hall.toNat = 0 ∨ 8 < hall.toNat → SiteAnswered s t 18 .badIndex []) ∧
      (∀ h : Hall, hall.toNat = h.val + 1 → ∃ content, SiteAnswered s t 18 .accepted content ∧
        content.length = (if page = 0 then 36 else if page.toNat ≤ 6 then 33 else 40) ∧
        (∀ c, s.claim h = some c → ClaimShown s h c page.toNat content) ∧
        (s.claim h = none → content = List.replicate content.length 0))) ∧
    (∀ kind index : Byte, ∃ t, exec (.commissionRead [kind, index]) s = .next t ∧
      t = { s with site := t.site, choices := t.choices } ∧
      (kind = 0 ∨ 9 < kind.toNat → SiteAnswered s t 19 .badField []) ∧
      (kind ≠ 0 → kind.toNat ≤ 9 → recordName kind index = none → SiteAnswered s t 19 .badIndex []) ∧
      (∀ name, recordName kind index = some name →
        SiteAnswered s t 19 .accepted (kind :: index :: s.store.readRecord name)))

/-- COMMISSION_WRITE, MAINT_ISOLATE and MAINT_RESTORE. A COMMISSION_WRITE whose length is not its record kind's is refused with
BAD_FIELD. Outside MAINTENANCE each is refused with NOT_MAINTENANCE. In MAINTENANCE an
index out of range, or of a cylinder not fitted, is refused with BAD_INDEX, and a field out of range with BAD_FIELD. A refused
one begins no write: the store stands. An honoured one begins: the write stands, no reply is formed, and the image holds its
old values (R178, R184, R186). -/
def Obligations.SiteWritesBegin : Prop :=
  ∀ s : State, s.takesSiteRequest →
    (∀ (kind index : Byte) (record : List Byte), writeLength kind ≠ some record.length →
      ∃ t, exec (.commissionWrite (kind :: index :: record)) s = .next t ∧ SiteAnswered s t 22 .badField [] ∧
        t = { s with site := t.site, choices := t.choices }) ∧
    (∀ (kind index : Byte) (record : List Byte), writeLength kind = some record.length →
      ∃ t, exec (.commissionWrite (kind :: index :: record)) s = .next t ∧
        (s.mode ≠ .maintenance → SiteAnswered s t 22 .notMaintenance [] ∧ t.store = s.store) ∧
        (s.mode = .maintenance → recordName kind index = none →
          SiteAnswered s t 22 .badIndex [] ∧ t.store = s.store) ∧
        (∀ name, s.mode = .maintenance → recordName kind index = some name → parseRecord name record = none →
          SiteAnswered s t 22 .badField [] ∧ t.store = s.store) ∧
        (∀ name w, s.mode = .maintenance → recordName kind index = some name → parseRecord name record = some w →
          t.store = { s.store with write := some (.commission w) } ∧ t.site.owed = true ∧
          t.site.reply = s.site.reply) ∧
        t.image = s.image ∧ t = { s with site := t.site, choices := t.choices, store := t.store }) ∧
    (∀ index : Byte, ∃ t, exec (.maintIsolate [index]) s = .next t ∧
      (s.mode ≠ .maintenance → SiteAnswered s t 20 .notMaintenance [] ∧ t.store = s.store) ∧
      (s.mode = .maintenance → 63 < index.toNat → SiteAnswered s t 20 .badIndex [] ∧ t.store = s.store) ∧
      (∀ k : CylIdx, s.mode = .maintenance → index.toNat = k.val →
        ((s.image.cylinders[k]).fitted = false → SiteAnswered s t 20 .badIndex [] ∧ t.store = s.store) ∧
        ((s.image.cylinders[k]).fitted = true → t.store = { s.store with write := some (.isolate k) } ∧
          t.site.owed = true ∧ t.site.reply = s.site.reply)) ∧
      t.cyls = s.cyls ∧ t = { s with site := t.site, choices := t.choices, store := t.store }) ∧
    (∀ index : Byte, ∃ t, exec (.maintRestore [index]) s = .next t ∧
      (s.mode ≠ .maintenance → SiteAnswered s t 21 .notMaintenance [] ∧ t.store = s.store) ∧
      (s.mode = .maintenance → 63 < index.toNat → SiteAnswered s t 21 .badIndex [] ∧ t.store = s.store) ∧
      (∀ k : CylIdx, s.mode = .maintenance → index.toNat = k.val →
        ((s.image.cylinders[k]).fitted = false → SiteAnswered s t 21 .badIndex [] ∧ t.store = s.store) ∧
        ((s.image.cylinders[k]).fitted = true → t.store = { s.store with write := some (.restore k) } ∧
          t.site.owed = true ∧ t.site.reply = s.site.reply)) ∧
      t.cyls = s.cyls ∧ t = { s with site := t.site, choices := t.choices, store := t.store })

/-- COMMISSION_WRITE_COMPLETION, with its reply owed. Whatever the record, the image takes it, and the record is answered as it
now stands in the store with the mode as the event leaves it. With an exit pending the maintenance exit is made: NORMAL with
the CRC of the image to be stored, or UNCOMMISSIONED. With none the mode and the stored CRC stand. Of a CYLINDER record: a
cylinder newly fitted is in service and starts as after reset, one newly unfitted loses its running record, and one whose Q_nom
or p_nom changes has phi, condition and E made anew. Of a CHANNEL record: a role that changes restarts the channel's
supervision record. Of a HALL record: the selector reads by the new OPEN level, a change of reading is an edge at now, and a
change of commissioned clears or tests the mismatch flag. Of the THRESHOLDS record: the switch reads by the new FLOW level, and
a change of reading to FLOW is an edge at now (R2, R109, R145, R147, R157, R183 to R185, R189). -/
def Obligations.WriteCompletes : Prop :=
  ∀ (s : State) (w : RecordWrite), s.store.write = some (.commission w) → s.site.owed = true →
    (s.ctl.exitPending = true →
      ∃ t, exec .commissionWriteCompletion s = .next t ∧ t.image = s.image.write w ∧ t.store.write = none ∧
        t.store.crc = s.store.crc ∧ t.ctl.exitPending = false ∧
        t.ctl.imageValid = (validate (s.image.write w)).isNone ∧
        (validate (s.image.write w) = none →
          t.mode = .normal ∧ t.store.crcStore = some (imageCrc (s.image.write w))) ∧
        (validate (s.image.write w) ≠ none → t.mode = .uncommissioned ∧ t.store.crcStore = s.store.crcStore) ∧
        SiteAnswered s t 22 .accepted (w.name.kindByte :: w.name.indexByte :: t.store.readRecord w.name)) ∧
    (s.ctl.exitPending = false →
    ∃ t, exec .commissionWriteCompletion s = .next t ∧
      (t.store = { s.store with write := none, image := s.image.write w } ∧ t.mode = s.mode ∧
        SiteAnswered s t 22 .accepted
          (w.name.kindByte :: w.name.indexByte :: t.store.readRecord w.name)) ∧
      (∀ h r, w = .hall h r → s.manifold.holder = none → s.manifold.waitList = [] → s.manifold.state ≠ .closing →
        let before := s.selectorReading h
        let after : Option Valve := (s.inputs.selectors[h]).level.level.map fun l =>
          if l = r.openLevel then .opened else .closed
        let expected := decide (s.selectorCmd h = .opened)
        let edge := if before = after then s.mismatch h
          else if after = some .opened then s.mismatch h || (r.commissioned && !expected) else false
        t.hallRec h = r ∧ (∀ j, j ≠ h → t.hallRec j = s.hallRec j) ∧ t.selectorReading h = after ∧
        t.captures.selectors[h] =
          (if before ≠ after ∧ after = some .opened ∧ s.captures.selectors[h] = .armed then .held s.now
            else s.captures.selectors[h]) ∧
        t.mismatch h =
          (if (s.hallRec h).commissioned = true ∧ r.commissioned = false then false
            else if (s.hallRec h).commissioned = false ∧ r.commissioned = true then
              edge || (decide (after = some .opened) && !expected)
            else edge) ∧
        (s.mismatch h = false → t.mismatch h = true → (t.port h).latches.selectorFail ≠ .clear) ∧
        (∀ j, j ≠ h → t.mismatch j = s.mismatch j ∧ t.port j = s.port j ∧ t.selectorReading j = s.selectorReading j) ∧
        t.manifold = { s.manifold with mismatch := t.manifold.mismatch } ∧
        t = { s with store := t.store, inputs := t.inputs, captures := t.captures, manifold := t.manifold
                     ports := t.ports, site := t.site, choices := t.choices }) ∧
      (∀ th, w = .thresholds th →
        let before := s.switchReading
        let after := s.inputs.switch.level.level.map fun l => decide (l = th.flowLevel)
        t.image.thresholds = th ∧ t.switchReading = after ∧
        t.captures.switch =
          (if before ≠ after ∧ after = some true ∧ s.captures.switch = .armed then .held s.now
            else s.captures.switch) ∧
        t.captures.selectors = s.captures.selectors ∧
        t = { s with store := t.store, inputs := t.inputs, captures := t.captures, site := t.site
                     choices := t.choices }) ∧
      (∀ k fitted qNom pNom, w = .cylinder k fitted qNom pNom →
        (s.cyl k).isSome = (s.image.cylinders[k]).fitted →
        (t.image.cylinders[k]).fitted = fitted ∧ (t.image.cylinders[k]).qNom = qNom ∧
        (t.image.cylinders[k]).pNom = pNom ∧
        (t.image.cylinders[k]).inService =
          (if fitted = (s.image.cylinders[k]).fitted then (s.image.cylinders[k]).inService else fitted) ∧
        (∀ j : CylIdx, j ≠ k → t.image.cylinders[j] = s.image.cylinders[j] ∧ t.cyl j = s.cyl j) ∧
        (fitted = false → t.cyl k = none) ∧
        (fitted = true → (s.image.cylinders[k]).fitted = false →
          t.cyl k = some { window := none, pos := 0, seeded := false, streak := 0, pAvg := 0, phi := 0, e := 0
                           condition := .unread, disposition := .free }) ∧
        (∀ c, fitted = true → s.cyl k = some c → ∃ c', t.cyl k = some c' ∧ c'.window = c.window ∧
          c'.disposition = c.disposition ∧
          (c.seeded = true → c.condition ≠ .unread →
            (qNom ≠ (s.image.cylinders[k]).qNom ∨ pNom ≠ (s.image.cylinders[k]).pNom) →
            c'.phi = min 1000 (c.pAvg * 2881 * 1000 / (pNom * (2731 + s.rackTemp (rackOf k)).toNat)) ∧
            c'.condition = classifyFrom s.image.thresholds.low s.image.thresholds.empty c.condition c'.phi ∧
            c'.e = (if c'.condition = .full ∨ c'.condition = .low then qNom * c'.phi / 1000 else 0)))) ∧
      (∀ c role, w = .channel c role →
        (role ≠ s.role c → (t.channel c).measured = .unknown ∧ (t.channel c).goodChecks = 0 ∧
          (t.channel c).failedPulse = false) ∧
        (role = s.role c → t.channel c = s.channel c) ∧
        (∀ d, d ≠ c → (t.channel d).measured = (s.channel d).measured ∧
          (t.channel d).goodChecks = (s.channel d).goodChecks)))

/-- MAINT_ISOLATE_COMPLETION and MAINT_RESTORE_COMPLETION, with the reply owed. Isolation stores in service no and makes the
cylinder ISOLATED; a restore stores in service yes, makes an ISOLATED, FIRED or faulted cylinder FREE, and clears the
failed-pulse flag of its channels; with an exit pending the maintenance exit is then made; each is answered with the cylinder's
record and the mode as the event leaves them. A POOL GAIN is handed whenever the restored cylinder is eligible, also
where it was FREE already (the model's reading of R23: assumption entry 10). CRC_STORE_COMPLETION stores the CRC and changes nothing else
(R23, R157, R183, R186, R189). -/
def Obligations.MaintenanceCompletions : Prop :=
  (∀ (s : State) (k : CylIdx) (c : Cylinder), s.store.write = some (.isolate k) → s.ctl.exitPending = false →
    s.site.owed = true → s.cyl k = some c →
    ∃ t content, exec .maintIsolateCompletion s = .next t ∧ t.cyl k = some { c with disposition := .isolated } ∧
      (t.image.cylinders[k]).inService = false ∧ t.store.write = none ∧ t.poolGains = s.poolGains ∧
      SiteAnswered s t 20 .accepted content ∧ content.length = 15 ∧ t.mode = s.mode ∧
      (∀ j, j ≠ k → t.cyl j = s.cyl j) ∧
      t = { s with store := t.store, cyls := t.cyls, site := t.site, choices := t.choices }) ∧
  (∀ (s : State) (k : CylIdx) (c : Cylinder), s.store.write = some (.restore k) → s.ctl.exitPending = false →
    s.site.owed = true → s.cyl k = some c → (∀ h, c.disposition ≠ .assigned h) →
    ∃ t content, exec .maintRestoreCompletion s = .next t ∧ t.cyl k = some { c with disposition := .free } ∧
      (t.image.cylinders[k]).inService = true ∧ t.store.write = none ∧
      t.poolGains = s.poolGains + (if c.condition = .empty then 0 else 1) ∧
      (∀ ch, s.role ch = .cylinder k → t.channel ch = { s.channel ch with failedPulse := false }) ∧
      (∀ ch, s.role ch ≠ .cylinder k → t.channel ch = s.channel ch) ∧
      SiteAnswered s t 21 .accepted content ∧ content.length = 15 ∧
      (∀ j, j ≠ k → t.cyl j = s.cyl j) ∧
      t = { s with store := t.store, cyls := t.cyls, site := t.site, choices := t.choices, circuits := t.circuits,
                   poolGains := t.poolGains }) ∧
  (∀ (s : State) (k : CylIdx) (c : Cylinder), s.store.write = some (.isolate k) → s.ctl.exitPending = true →
    s.site.owed = true → s.cyl k = some c →
    ∃ t record, exec .maintIsolateCompletion s = .next t ∧ t.cyl k = some { c with disposition := .isolated } ∧
      t.image = { s.image with
        cylinders := s.image.cylinders.set k { s.image.cylinders[k] with inService := false } } ∧
      t.store.write = none ∧ ExitMade s t ∧ SiteAnswered s t 20 .accepted (1 :: record) ∧ CylinderShown t k record ∧
      (∀ j, j ≠ k → t.cyl j = s.cyl j) ∧
      (∀ ch, t.channel ch = { s.channel ch with energised := t.driven ch }) ∧
      t.circuits = { s.circuits with channels := t.circuits.channels } ∧
      t = { s with store := t.store, cyls := t.cyls, site := t.site, choices := t.choices, ctl := t.ctl
                   circuits := t.circuits }) ∧
  (∀ (s : State) (k : CylIdx) (c : Cylinder), s.store.write = some (.restore k) → s.ctl.exitPending = true →
    s.site.owed = true → s.cyl k = some c → (∀ h, c.disposition ≠ .assigned h) →
    ∃ t record, exec .maintRestoreCompletion s = .next t ∧ t.cyl k = some { c with disposition := .free } ∧
      t.image = { s.image with
        cylinders := s.image.cylinders.set k { s.image.cylinders[k] with inService := true } } ∧
      t.store.write = none ∧ ExitMade s t ∧ SiteAnswered s t 21 .accepted (1 :: record) ∧ CylinderShown t k record ∧
      t.poolGains = s.poolGains + (if c.condition = .empty then 0 else 1) ∧
      (∀ j, j ≠ k → t.cyl j = s.cyl j) ∧
      (∀ ch, t.channel ch = { s.channel ch with
        energised := t.driven ch
        failedPulse := if s.role ch = .cylinder k then false else (s.channel ch).failedPulse }) ∧
      t.circuits = { s.circuits with channels := t.circuits.channels } ∧
      t = { s with store := t.store, cyls := t.cyls, site := t.site, choices := t.choices, ctl := t.ctl
                   circuits := t.circuits, poolGains := t.poolGains }) ∧
  (∀ (s : State) (crc : BitVec 16), s.store.crcStore = some crc →
    exec .crcStoreCompletion s = .next { s with store := { s.store with crc := crc, crcStore := none } })

/-! ### The Allocator -/

/-- STARVED_RE_EVALUATION answers one POOL GAIN. With no STARVED-flagged claim on record nothing else changes, and a claim
without the flag that is not on the wait list never does. A claim in STARVED that holds nothing is tried: given no cylinders it
stays as it was; given some, it holds at least its minimum acceptable quantity, its flag is clear, and, while the manifold is
not IDLE, it is WAITING with ready at now and stands on the wait list. The first flagged claim of the admission order is served
whenever classes 1 to 4 of the pool reach its minimum acceptable quantity and anything is taken, with exactly the first
allocation the pool gives, and the flags and latches of its commit: in COUNTDOWN and HOLD it keeps its state and its deadline, in STARVED it is WAITING, and, the only
one flagged, with the manifold IDLE, no mismatch flag set and no other waiting, it is granted the manifold. When the pool does
not reach it, it stays as it is (R42, R55, R56, R78 to R81, R86, R97 to R99). -/
def Obligations.StarvedReEvaluation : Prop :=
  ∀ s : State, s.poolGains ≠ 0 →
    ∃ t, exec .starvedReEvaluation s = .next t ∧ t.poolGains = s.poolGains - 1 ∧
      t = { s with claims := t.claims, units := t.units, cyls := t.cyls, ports := t.ports, manifold := t.manifold
                   circuits := t.circuits, captures := t.captures, poolGains := t.poolGains } ∧
      ((∀ h cl, s.claim h = some cl → cl.flags.starved = false) → t = { s with poolGains := s.poolGains - 1 }) ∧
      (∀ h cl, s.claim h = some cl → cl.flags.starved = false → (∀ w ∈ s.manifold.waitList, w.hall ≠ h) →
        t.claim h = some cl) ∧
      (∀ h cl, s.claim h = some cl → cl.flags.starved = true → cl.state = .starved → cl.allocation = [] →
        h ∈ s.order → s.order.Nodup → s.manifold.state ≠ .idle →
        ∃ cl', t.claim h = some cl' ∧
          (cl'.allocation = [] → cl' = cl) ∧
          (cl'.allocation ≠ [] → cl'.state = .waiting ∧ cl'.readyAt = some s.now ∧ cl'.flags.starved = false ∧
            s.minAcceptable h cl.figures.req ≤ cl'.allocatedSum ∧ cl'.allocation.length ≤ 32 ∧
            ∃ w ∈ t.manifold.waitList, w.hall = h ∧ w.readyAt = s.now)) ∧
      (∀ h cl before after, s.order = before ++ h :: after → s.order.Nodup →
        (∀ j ∈ before, ∀ c, s.claim j = some c → c.flags.starved = false ∨ c.state.terminal = true) →
        s.claim h = some cl → cl.flags.starved = true → cl.allocation = [] → cl.state.terminal = false →
        (∀ w ∈ s.manifold.waitList, w.hall ≠ h) →
        (s.servable h cl = false → t.claim h = some cl ∧ t.unit h = s.unit h) ∧
        (s.servable h cl = true → cl.state = .countdown ∨ cl.state = .hold →
          ∃ cl', t.claim h = some cl' ∧ Served s t h cl cl' ∧ cl'.state = cl.state ∧ cl'.readyAt = cl.readyAt ∧
            t.unit h = s.unit h) ∧
        (s.servable h cl = true → cl.state = .starved → (s.manifold.state ≠ .idle ∨ ∃ j, s.mismatch j = true) →
          ∃ cl', t.claim h = some cl' ∧ Served s t h cl cl' ∧ cl'.state = .waiting ∧ cl'.readyAt = some s.now ∧
            t.unit h = s.unit h ∧ ∃ w ∈ t.manifold.waitList, w.hall = h ∧ w.readyAt = s.now) ∧
        (s.servable h cl = true → cl.state = .starved → s.manifold.state = .idle → s.manifold.waitList = [] →
          (∀ j, s.mismatch j = false) → (∀ j c, j ≠ h → s.claim j = some c → c.flags.starved = false) →
          ∃ cl', Served s t h cl cl' ∧ cl'.readyAt = some s.now ∧ GrantedTo s t h cl'))

/-- The firing lines laid from a list of cylinders hold them in order, each line with 1 to 4 cylinders and at most 2 of one rack,
and a line is closed only when the next cylinder cannot join it: it holds 4, or 2 of that cylinder's rack; so k cylinders give
at least k/4 lines rounded up (R88). -/
def Obligations.FiringLines : Prop :=
  ∀ ks : List CylIdx, (lay ks).flatten = ks ∧
    (∀ line ∈ lay ks, line ≠ [] ∧ line.length ≤ 4 ∧
      ∀ r : Rack, (line.filter fun k => rackOf k = r).length ≤ 2) ∧
    (∀ i line next k, (lay ks)[i]? = some line → (lay ks)[i + 1]? = some next → next.head? = some k →
      line.length = 4 ∨ (line.filter fun j => rackOf j = rackOf k).length = 2) ∧
    (ks.length + 3) / 4 ≤ (lay ks).length

/-- Whatever its kind, a run for a claim that has at most 32 cylinders allocated and fired takes none beyond 32 together, takes
each cylinder once, only eligible ones, with their present E, and RESERVE ones only with reserve permitted. It takes them class
by class, and a candidate of a class only with every candidate of the classes before; within a class by rotation, from each
rack in ascending position order, the racks standing by the total E of their candidates and then by letter; and it passes over
none. It takes a cylinder only while its target is not met: that of a first allocation or a top-up by classes 1 to 4, class 5
being taken whole where they have not met it, and that of a replacement by all it has taken. It ends before the candidates do
only for its target, for the limit of 32, or, a replacement, for the limit of 255 lines. Classes 1 to 4 of what it takes are
what the minimum acceptable test counts (R73 to R79, R91, R92). -/
def Obligations.RunLimits : Prop :=
  ∀ (s : State) (kind : RunKind) (c : Claim), c.allocation.length + c.fired.length ≤ 32 →
    let taken := s.takenList kind c
    c.allocation.length + c.fired.length + taken.length ≤ 32 ∧
    (taken.map (·.cyl)).Nodup ∧
    (∀ e ∈ taken, s.eligible e.cyl = true ∧ (∃ y, s.cyl e.cyl = some y ∧ y.e = e.e) ∧
      (s.rackRole e.cyl = .reserve → c.reservePermitted = true)) ∧
    RunTakes s kind c taken ∧ (s.takeCredited kind c).1 = s.credited c.reservePermitted taken

/-! ### Arithmetic and time -/

/-- The table position of a temperature and the interpolated factors: the index lies in 0 to 14, the rest in 0 to 50 and in 0 to 49
below 650; with every table entry in 1 to 65535 each weighted sum is at most 3 276 750, and each factor lies between the two
points used, is exact at either end, and in 1 to 65535 (R32, R33). -/
def Obligations.FloodingFactors : Prop :=
  ∀ (table : Vector Nat 16) (t : Int), (∀ i : Fin 16, 1 ≤ table[i] ∧ table[i] ≤ 65535) →
    ∃ i r : Nat, ∃ hi : i ≤ 14,
      let tc : Int := if t < -100 then -100 else if 650 < t then 650 else t
      let a := table[i]'(by omega)
      let b := table[i + 1]'(by omega)
      let sum := a * (50 - r) + b * r
      let fd := designFactor table t
      let fc := ceilingFactor table t
      i = min ((tc + 100).toNat / 50) 14 ∧ r = (tc + 100).toNat - 50 * i ∧ r ≤ 50 ∧ (tc < 650 → r ≤ 49) ∧
      (tc = 650 → i = 14 ∧ r = 50) ∧ sum ≤ 3276750 ∧
      fd = (sum + 49) / 50 ∧ fc = sum / 50 ∧ (r = 0 → fd = a ∧ fc = a) ∧ (r = 50 → fd = b ∧ fc = b) ∧
      min a b ≤ fc ∧ fc ≤ fd ∧ fd ≤ max a b ∧ 1 ≤ fc ∧ fd ≤ 65535

/-- R35: the design mass V × f_d, with V and f_d in 1 to 65535, is at least 1 and at most 4 294 836 225, less than 2^32. R36: with a
margin of at most 50 per cent the requirement is the least number that covers the mass with its margin; the product it divides
is at most 644 225 433 750 and fits in 40 bits; the requirement is at least 1 and at most 64 422 544, less than 2^32; and a
claim of that requirement with an empty allocation has a shortage. -/
def Obligations.DesignMass : Prop :=
  ∀ v fd m : Nat, 1 ≤ v → v ≤ 65535 → 1 ≤ fd → fd ≤ 65535 → m ≤ 50 →
    1 ≤ v * fd ∧ v * fd ≤ 4294836225 ∧ v * fd < 2 ^ 32 ∧
    v * fd * (100 + m) ≤ 10000 * requirement v fd m ∧
    10000 * requirement v fd m < v * fd * (100 + m) + 10000 ∧
    v * fd * (100 + m) ≤ 644225433750 ∧ v * fd * (100 + m) < 2 ^ 40 ∧
    1 ≤ requirement v fd m ∧ requirement v fd m ≤ 64422544 ∧ requirement v fd m < 2 ^ 32 ∧
    ∀ c : Claim, c.figures.req = requirement v fd m → c.allocation = [] → c.resum.shortage ≠ 0

/-- A deadline set d ms ahead, with d at most 600 000, is not reached until d ms have passed, wherever the wrap of the timebase lies,
is reached for the 2^31 - 1 ms after that, and its remaining time counts down to 0 (R136, R137). -/
def Obligations.DeadlineReached : Prop :=
  ∀ (now : Time) (d e : Nat), d ≤ 600000 →
    (e < d → reached (now + ms d) (now + ms e) = false ∧ remainingTime (now + ms d) (now + ms e) = d - e) ∧
    (d ≤ e → e < d + 2 ^ 31 → reached (now + ms d) (now + ms e) = true ∧
      remainingTime (now + ms d) (now + ms e) = 0)
end

