-- ==== Sys2Proof/Laws/State.lean ====
section
/-! SUPPORT. The small lemmas of State: what each write of one record leaves alone, and what reading a record gives after
it. -/

namespace Sys2Proof

/-- Reading a tabulated vector. -/
@[simp] theorem getElem_tabulate {α : Type} (n : Nat) (f : Fin n → α) (i : Nat) (h : i < n) :
    (tabulate n f)[i] = f ⟨i, h⟩ := by
  simp [tabulate]

namespace Machine

/-! ### Writes of one record: the fields left alone -/

@[simp] theorem State.setCyl_frame (s : State) (k : CylIdx) (c : Option Cylinder) :
   (s.setCyl k c).pending = s.pending ∧ (s.setCyl k c).now = s.now ∧ (s.setCyl k c).choices = s.choices ∧
    (s.setCyl k c).store = s.store ∧ (s.setCyl k c).ctl = s.ctl ∧ (s.setCyl k c).rackTemps = s.rackTemps ∧
    (s.setCyl k c).claims = s.claims ∧ (s.setCyl k c).units = s.units ∧ (s.setCyl k c).order = s.order ∧
    (s.setCyl k c).poolGains = s.poolGains ∧ (s.setCyl k c).manifold = s.manifold ∧
    (s.setCyl k c).circuits = s.circuits ∧ (s.setCyl k c).inputs = s.inputs ∧ (s.setCyl k c).captures = s.captures ∧
    (s.setCyl k c).ports = s.ports ∧ (s.setCyl k c).site = s.site := by
  and_intros <;> rfl

@[simp] theorem State.setClaim_frame (s : State) (h : Hall) (c : Option Claim) :
   (s.setClaim h c).pending = s.pending ∧ (s.setClaim h c).now = s.now ∧ (s.setClaim h c).choices = s.choices ∧
    (s.setClaim h c).store = s.store ∧ (s.setClaim h c).ctl = s.ctl ∧ (s.setClaim h c).cyls = s.cyls ∧
    (s.setClaim h c).rackTemps = s.rackTemps ∧ (s.setClaim h c).units = s.units ∧ (s.setClaim h c).order = s.order ∧
    (s.setClaim h c).poolGains = s.poolGains ∧ (s.setClaim h c).manifold = s.manifold ∧
    (s.setClaim h c).circuits = s.circuits ∧ (s.setClaim h c).inputs = s.inputs ∧
    (s.setClaim h c).captures = s.captures ∧ (s.setClaim h c).ports = s.ports ∧ (s.setClaim h c).site = s.site := by
  and_intros <;> rfl

@[simp] theorem State.setUnit_frame (s : State) (h : Hall) (u : CompareUnit) :
   (s.setUnit h u).pending = s.pending ∧ (s.setUnit h u).now = s.now ∧ (s.setUnit h u).choices = s.choices ∧
    (s.setUnit h u).store = s.store ∧ (s.setUnit h u).ctl = s.ctl ∧ (s.setUnit h u).cyls = s.cyls ∧
    (s.setUnit h u).rackTemps = s.rackTemps ∧ (s.setUnit h u).claims = s.claims ∧ (s.setUnit h u).order = s.order ∧
    (s.setUnit h u).poolGains = s.poolGains ∧ (s.setUnit h u).manifold = s.manifold ∧
    (s.setUnit h u).circuits = s.circuits ∧ (s.setUnit h u).inputs = s.inputs ∧
    (s.setUnit h u).captures = s.captures ∧ (s.setUnit h u).ports = s.ports ∧ (s.setUnit h u).site = s.site := by
  and_intros <;> rfl

@[simp] theorem State.setPort_frame (s : State) (h : Hall) (p : HallPort) :
   (s.setPort h p).pending = s.pending ∧ (s.setPort h p).now = s.now ∧ (s.setPort h p).choices = s.choices ∧
    (s.setPort h p).store = s.store ∧ (s.setPort h p).ctl = s.ctl ∧ (s.setPort h p).cyls = s.cyls ∧
    (s.setPort h p).rackTemps = s.rackTemps ∧ (s.setPort h p).claims = s.claims ∧ (s.setPort h p).units = s.units ∧
    (s.setPort h p).order = s.order ∧ (s.setPort h p).poolGains = s.poolGains ∧
    (s.setPort h p).manifold = s.manifold ∧ (s.setPort h p).circuits = s.circuits ∧
    (s.setPort h p).inputs = s.inputs ∧ (s.setPort h p).captures = s.captures ∧ (s.setPort h p).site = s.site := by
  and_intros <;> rfl

@[simp] theorem State.setChannel_frame (s : State) (c : ChanIdx) (ch : Channel) :
   (s.setChannel c ch).pending = s.pending ∧ (s.setChannel c ch).now = s.now ∧
    (s.setChannel c ch).choices = s.choices ∧ (s.setChannel c ch).store = s.store ∧ (s.setChannel c ch).ctl = s.ctl ∧
    (s.setChannel c ch).cyls = s.cyls ∧ (s.setChannel c ch).rackTemps = s.rackTemps ∧
    (s.setChannel c ch).claims = s.claims ∧ (s.setChannel c ch).units = s.units ∧
    (s.setChannel c ch).order = s.order ∧ (s.setChannel c ch).poolGains = s.poolGains ∧
    (s.setChannel c ch).manifold = s.manifold ∧ (s.setChannel c ch).inputs = s.inputs ∧
    (s.setChannel c ch).captures = s.captures ∧ (s.setChannel c ch).ports = s.ports ∧
    (s.setChannel c ch).site = s.site := by
  and_intros <;> rfl

@[simp] theorem State.setManifold_frame (s : State) (m : Manifold) :
   (s.setManifold m).pending = s.pending ∧ (s.setManifold m).now = s.now ∧ (s.setManifold m).choices = s.choices ∧
    (s.setManifold m).store = s.store ∧ (s.setManifold m).ctl = s.ctl ∧ (s.setManifold m).cyls = s.cyls ∧
    (s.setManifold m).rackTemps = s.rackTemps ∧ (s.setManifold m).claims = s.claims ∧
    (s.setManifold m).units = s.units ∧ (s.setManifold m).order = s.order ∧
    (s.setManifold m).poolGains = s.poolGains ∧ (s.setManifold m).circuits = s.circuits ∧
    (s.setManifold m).inputs = s.inputs ∧ (s.setManifold m).captures = s.captures ∧
    (s.setManifold m).ports = s.ports ∧ (s.setManifold m).site = s.site := by
  and_intros <;> rfl

@[simp] theorem State.setCtl_frame (s : State) (c : ModeControl) :
   (s.setCtl c).pending = s.pending ∧ (s.setCtl c).now = s.now ∧ (s.setCtl c).choices = s.choices ∧
    (s.setCtl c).store = s.store ∧ (s.setCtl c).cyls = s.cyls ∧ (s.setCtl c).rackTemps = s.rackTemps ∧
    (s.setCtl c).claims = s.claims ∧ (s.setCtl c).units = s.units ∧ (s.setCtl c).order = s.order ∧
    (s.setCtl c).poolGains = s.poolGains ∧ (s.setCtl c).manifold = s.manifold ∧ (s.setCtl c).circuits = s.circuits ∧
    (s.setCtl c).inputs = s.inputs ∧ (s.setCtl c).captures = s.captures ∧ (s.setCtl c).ports = s.ports ∧
    (s.setCtl c).site = s.site := by
  and_intros <;> rfl

@[simp] theorem State.setStore_frame (s : State) (st : Store) :
   (s.setStore st).pending = s.pending ∧ (s.setStore st).now = s.now ∧ (s.setStore st).choices = s.choices ∧
    (s.setStore st).ctl = s.ctl ∧ (s.setStore st).cyls = s.cyls ∧ (s.setStore st).rackTemps = s.rackTemps ∧
    (s.setStore st).claims = s.claims ∧ (s.setStore st).units = s.units ∧ (s.setStore st).order = s.order ∧
    (s.setStore st).poolGains = s.poolGains ∧ (s.setStore st).manifold = s.manifold ∧
    (s.setStore st).circuits = s.circuits ∧ (s.setStore st).inputs = s.inputs ∧
    (s.setStore st).captures = s.captures ∧ (s.setStore st).ports = s.ports ∧ (s.setStore st).site = s.site := by
  and_intros <;> rfl

@[simp] theorem State.setImage_frame (s : State) (i : Image) :
   (s.setImage i).pending = s.pending ∧ (s.setImage i).now = s.now ∧ (s.setImage i).choices = s.choices ∧
    (s.setImage i).ctl = s.ctl ∧ (s.setImage i).cyls = s.cyls ∧ (s.setImage i).rackTemps = s.rackTemps ∧
    (s.setImage i).claims = s.claims ∧ (s.setImage i).units = s.units ∧ (s.setImage i).order = s.order ∧
    (s.setImage i).poolGains = s.poolGains ∧ (s.setImage i).manifold = s.manifold ∧
    (s.setImage i).circuits = s.circuits ∧ (s.setImage i).inputs = s.inputs ∧ (s.setImage i).captures = s.captures ∧
    (s.setImage i).ports = s.ports ∧ (s.setImage i).site = s.site := by
  and_intros <;> rfl

@[simp] theorem State.setInputs_frame (s : State) (i : Inputs) :
   (s.setInputs i).pending = s.pending ∧ (s.setInputs i).now = s.now ∧ (s.setInputs i).choices = s.choices ∧
    (s.setInputs i).store = s.store ∧ (s.setInputs i).ctl = s.ctl ∧ (s.setInputs i).cyls = s.cyls ∧
    (s.setInputs i).rackTemps = s.rackTemps ∧ (s.setInputs i).claims = s.claims ∧ (s.setInputs i).units = s.units ∧
    (s.setInputs i).order = s.order ∧ (s.setInputs i).poolGains = s.poolGains ∧
    (s.setInputs i).manifold = s.manifold ∧ (s.setInputs i).circuits = s.circuits ∧
    (s.setInputs i).captures = s.captures ∧ (s.setInputs i).ports = s.ports ∧ (s.setInputs i).site = s.site := by
  and_intros <;> rfl

@[simp] theorem State.setSelectorCapture_frame (s : State) (h : Hall) (u : CaptureUnit) :
   (s.setSelectorCapture h u).pending = s.pending ∧ (s.setSelectorCapture h u).now = s.now ∧
    (s.setSelectorCapture h u).choices = s.choices ∧ (s.setSelectorCapture h u).store = s.store ∧
    (s.setSelectorCapture h u).ctl = s.ctl ∧ (s.setSelectorCapture h u).cyls = s.cyls ∧
    (s.setSelectorCapture h u).rackTemps = s.rackTemps ∧ (s.setSelectorCapture h u).claims = s.claims ∧
    (s.setSelectorCapture h u).units = s.units ∧ (s.setSelectorCapture h u).order = s.order ∧
    (s.setSelectorCapture h u).poolGains = s.poolGains ∧ (s.setSelectorCapture h u).manifold = s.manifold ∧
    (s.setSelectorCapture h u).circuits = s.circuits ∧ (s.setSelectorCapture h u).inputs = s.inputs ∧
    (s.setSelectorCapture h u).ports = s.ports ∧ (s.setSelectorCapture h u).site = s.site := by
  and_intros <;> rfl

@[simp] theorem State.setSwitchCapture_frame (s : State) (u : CaptureUnit) :
   (s.setSwitchCapture u).pending = s.pending ∧ (s.setSwitchCapture u).now = s.now ∧
    (s.setSwitchCapture u).choices = s.choices ∧ (s.setSwitchCapture u).store = s.store ∧
    (s.setSwitchCapture u).ctl = s.ctl ∧ (s.setSwitchCapture u).cyls = s.cyls ∧
    (s.setSwitchCapture u).rackTemps = s.rackTemps ∧ (s.setSwitchCapture u).claims = s.claims ∧
    (s.setSwitchCapture u).units = s.units ∧ (s.setSwitchCapture u).order = s.order ∧
    (s.setSwitchCapture u).poolGains = s.poolGains ∧ (s.setSwitchCapture u).manifold = s.manifold ∧
    (s.setSwitchCapture u).circuits = s.circuits ∧ (s.setSwitchCapture u).inputs = s.inputs ∧
    (s.setSwitchCapture u).ports = s.ports ∧ (s.setSwitchCapture u).site = s.site := by
  and_intros <;> rfl

@[simp] theorem State.setSite_frame (s : State) (p : SitePort) :
   (s.setSite p).pending = s.pending ∧ (s.setSite p).now = s.now ∧ (s.setSite p).choices = s.choices ∧
    (s.setSite p).store = s.store ∧ (s.setSite p).ctl = s.ctl ∧ (s.setSite p).cyls = s.cyls ∧
    (s.setSite p).rackTemps = s.rackTemps ∧ (s.setSite p).claims = s.claims ∧ (s.setSite p).units = s.units ∧
    (s.setSite p).order = s.order ∧ (s.setSite p).poolGains = s.poolGains ∧ (s.setSite p).manifold = s.manifold ∧
    (s.setSite p).circuits = s.circuits ∧ (s.setSite p).inputs = s.inputs ∧ (s.setSite p).captures = s.captures ∧
    (s.setSite p).ports = s.ports := by
  and_intros <;> rfl

@[simp] theorem State.setOrder_frame (s : State) (o : List Hall) :
   (s.setOrder o).pending = s.pending ∧ (s.setOrder o).now = s.now ∧ (s.setOrder o).choices = s.choices ∧
    (s.setOrder o).store = s.store ∧ (s.setOrder o).ctl = s.ctl ∧ (s.setOrder o).cyls = s.cyls ∧
    (s.setOrder o).rackTemps = s.rackTemps ∧ (s.setOrder o).claims = s.claims ∧ (s.setOrder o).units = s.units ∧
    (s.setOrder o).poolGains = s.poolGains ∧ (s.setOrder o).manifold = s.manifold ∧
    (s.setOrder o).circuits = s.circuits ∧ (s.setOrder o).inputs = s.inputs ∧ (s.setOrder o).captures = s.captures ∧
    (s.setOrder o).ports = s.ports ∧ (s.setOrder o).site = s.site := by
  and_intros <;> rfl

@[simp] theorem State.setFaulted_frame (s : State) (h : Hall) (b : Bool) :
   (s.setFaulted h b).pending = s.pending ∧ (s.setFaulted h b).now = s.now ∧ (s.setFaulted h b).choices = s.choices ∧
    (s.setFaulted h b).store = s.store ∧ (s.setFaulted h b).ctl = s.ctl ∧ (s.setFaulted h b).cyls = s.cyls ∧
    (s.setFaulted h b).rackTemps = s.rackTemps ∧ (s.setFaulted h b).claims = s.claims ∧
    (s.setFaulted h b).units = s.units ∧ (s.setFaulted h b).order = s.order ∧
    (s.setFaulted h b).poolGains = s.poolGains ∧ (s.setFaulted h b).manifold = s.manifold ∧
    (s.setFaulted h b).inputs = s.inputs ∧ (s.setFaulted h b).captures = s.captures ∧
    (s.setFaulted h b).ports = s.ports ∧ (s.setFaulted h b).site = s.site := by
  and_intros <;> rfl

@[simp] theorem State.updClaim_frame (s : State) (h : Hall) (f : Claim → Claim) :
   (s.updClaim h f).pending = s.pending ∧ (s.updClaim h f).now = s.now ∧ (s.updClaim h f).choices = s.choices ∧
    (s.updClaim h f).store = s.store ∧ (s.updClaim h f).ctl = s.ctl ∧ (s.updClaim h f).cyls = s.cyls ∧
    (s.updClaim h f).rackTemps = s.rackTemps ∧ (s.updClaim h f).units = s.units ∧ (s.updClaim h f).order = s.order ∧
    (s.updClaim h f).poolGains = s.poolGains ∧ (s.updClaim h f).manifold = s.manifold ∧
    (s.updClaim h f).circuits = s.circuits ∧ (s.updClaim h f).inputs = s.inputs ∧
    (s.updClaim h f).captures = s.captures ∧ (s.updClaim h f).ports = s.ports ∧ (s.updClaim h f).site = s.site := by
  and_intros <;> rfl

@[simp] theorem State.updCyl_frame (s : State) (k : CylIdx) (f : Cylinder → Cylinder) :
   (s.updCyl k f).pending = s.pending ∧ (s.updCyl k f).now = s.now ∧ (s.updCyl k f).choices = s.choices ∧
    (s.updCyl k f).store = s.store ∧ (s.updCyl k f).ctl = s.ctl ∧ (s.updCyl k f).rackTemps = s.rackTemps ∧
    (s.updCyl k f).claims = s.claims ∧ (s.updCyl k f).units = s.units ∧ (s.updCyl k f).order = s.order ∧
    (s.updCyl k f).poolGains = s.poolGains ∧ (s.updCyl k f).manifold = s.manifold ∧
    (s.updCyl k f).circuits = s.circuits ∧ (s.updCyl k f).inputs = s.inputs ∧ (s.updCyl k f).captures = s.captures ∧
    (s.updCyl k f).ports = s.ports ∧ (s.updCyl k f).site = s.site := by
  and_intros <;> rfl

@[simp] theorem State.updPort_frame (s : State) (h : Hall) (f : HallPort → HallPort) :
   (s.updPort h f).pending = s.pending ∧ (s.updPort h f).now = s.now ∧ (s.updPort h f).choices = s.choices ∧
    (s.updPort h f).store = s.store ∧ (s.updPort h f).ctl = s.ctl ∧ (s.updPort h f).cyls = s.cyls ∧
    (s.updPort h f).rackTemps = s.rackTemps ∧ (s.updPort h f).claims = s.claims ∧ (s.updPort h f).units = s.units ∧
    (s.updPort h f).order = s.order ∧ (s.updPort h f).poolGains = s.poolGains ∧
    (s.updPort h f).manifold = s.manifold ∧ (s.updPort h f).circuits = s.circuits ∧
    (s.updPort h f).inputs = s.inputs ∧ (s.updPort h f).captures = s.captures ∧ (s.updPort h f).site = s.site := by
  and_intros <;> rfl

@[simp] theorem State.loadUnit_frame (s : State) (h : Hall) (d : Time) (k : DeadlineKind) :
   (s.loadUnit h d k).pending = s.pending ∧ (s.loadUnit h d k).now = s.now ∧ (s.loadUnit h d k).choices = s.choices ∧
    (s.loadUnit h d k).store = s.store ∧ (s.loadUnit h d k).ctl = s.ctl ∧ (s.loadUnit h d k).cyls = s.cyls ∧
    (s.loadUnit h d k).rackTemps = s.rackTemps ∧ (s.loadUnit h d k).claims = s.claims ∧
    (s.loadUnit h d k).order = s.order ∧ (s.loadUnit h d k).poolGains = s.poolGains ∧
    (s.loadUnit h d k).manifold = s.manifold ∧ (s.loadUnit h d k).circuits = s.circuits ∧
    (s.loadUnit h d k).inputs = s.inputs ∧ (s.loadUnit h d k).captures = s.captures ∧
    (s.loadUnit h d k).ports = s.ports ∧ (s.loadUnit h d k).site = s.site := by
  and_intros <;> rfl

@[simp] theorem State.removeUnit_frame (s : State) (h : Hall) :
   (s.removeUnit h).pending = s.pending ∧ (s.removeUnit h).now = s.now ∧ (s.removeUnit h).choices = s.choices ∧
    (s.removeUnit h).store = s.store ∧ (s.removeUnit h).ctl = s.ctl ∧ (s.removeUnit h).cyls = s.cyls ∧
    (s.removeUnit h).rackTemps = s.rackTemps ∧ (s.removeUnit h).claims = s.claims ∧ (s.removeUnit h).order = s.order ∧
    (s.removeUnit h).poolGains = s.poolGains ∧ (s.removeUnit h).manifold = s.manifold ∧
    (s.removeUnit h).circuits = s.circuits ∧ (s.removeUnit h).inputs = s.inputs ∧
    (s.removeUnit h).captures = s.captures ∧ (s.removeUnit h).ports = s.ports ∧ (s.removeUnit h).site = s.site := by
  and_intros <;> rfl

@[simp] theorem State.setLatch_frame (s : State) (h : Hall) (l : Latch) :
   (s.setLatch h l).pending = s.pending ∧ (s.setLatch h l).now = s.now ∧ (s.setLatch h l).choices = s.choices ∧
    (s.setLatch h l).store = s.store ∧ (s.setLatch h l).ctl = s.ctl ∧ (s.setLatch h l).cyls = s.cyls ∧
    (s.setLatch h l).rackTemps = s.rackTemps ∧ (s.setLatch h l).claims = s.claims ∧ (s.setLatch h l).units = s.units ∧
    (s.setLatch h l).order = s.order ∧ (s.setLatch h l).poolGains = s.poolGains ∧
    (s.setLatch h l).manifold = s.manifold ∧ (s.setLatch h l).circuits = s.circuits ∧
    (s.setLatch h l).inputs = s.inputs ∧ (s.setLatch h l).captures = s.captures ∧ (s.setLatch h l).site = s.site := by
  and_intros <;> rfl

@[simp] theorem State.setDisposition_frame (s : State) (k : CylIdx) (d : Disposition) :
   (s.setDisposition k d).pending = s.pending ∧ (s.setDisposition k d).now = s.now ∧
    (s.setDisposition k d).choices = s.choices ∧ (s.setDisposition k d).store = s.store ∧
    (s.setDisposition k d).ctl = s.ctl ∧ (s.setDisposition k d).rackTemps = s.rackTemps ∧
    (s.setDisposition k d).claims = s.claims ∧ (s.setDisposition k d).units = s.units ∧
    (s.setDisposition k d).order = s.order ∧ (s.setDisposition k d).poolGains = s.poolGains ∧
    (s.setDisposition k d).manifold = s.manifold ∧ (s.setDisposition k d).circuits = s.circuits ∧
    (s.setDisposition k d).inputs = s.inputs ∧ (s.setDisposition k d).captures = s.captures ∧
    (s.setDisposition k d).ports = s.ports ∧ (s.setDisposition k d).site = s.site := by
  and_intros <;> rfl

@[simp] theorem State.poolGain_frame (s : State) :
   (s.poolGain).pending = s.pending ∧ (s.poolGain).now = s.now ∧ (s.poolGain).choices = s.choices ∧
    (s.poolGain).store = s.store ∧ (s.poolGain).ctl = s.ctl ∧ (s.poolGain).cyls = s.cyls ∧
    (s.poolGain).rackTemps = s.rackTemps ∧ (s.poolGain).claims = s.claims ∧ (s.poolGain).units = s.units ∧
    (s.poolGain).order = s.order ∧ (s.poolGain).manifold = s.manifold ∧ (s.poolGain).circuits = s.circuits ∧
    (s.poolGain).inputs = s.inputs ∧ (s.poolGain).captures = s.captures ∧ (s.poolGain).ports = s.ports ∧
    (s.poolGain).site = s.site := by
  and_intros <;> rfl

@[simp] theorem State.redrive_frame (s : State) :
   (s.redrive).pending = s.pending ∧ (s.redrive).now = s.now ∧ (s.redrive).choices = s.choices ∧
    (s.redrive).store = s.store ∧ (s.redrive).ctl = s.ctl ∧ (s.redrive).cyls = s.cyls ∧
    (s.redrive).rackTemps = s.rackTemps ∧ (s.redrive).claims = s.claims ∧ (s.redrive).units = s.units ∧
    (s.redrive).order = s.order ∧ (s.redrive).poolGains = s.poolGains ∧ (s.redrive).manifold = s.manifold ∧
    (s.redrive).inputs = s.inputs ∧ (s.redrive).captures = s.captures ∧ (s.redrive).ports = s.ports ∧
    (s.redrive).site = s.site := by
  and_intros <;> rfl

@[simp] theorem State.commandSelector_frame (s : State) (h : Hall) (v : Valve) :
   (s.commandSelector h v).pending = s.pending ∧ (s.commandSelector h v).now = s.now ∧
    (s.commandSelector h v).choices = s.choices ∧ (s.commandSelector h v).store = s.store ∧
    (s.commandSelector h v).ctl = s.ctl ∧ (s.commandSelector h v).cyls = s.cyls ∧
    (s.commandSelector h v).rackTemps = s.rackTemps ∧ (s.commandSelector h v).claims = s.claims ∧
    (s.commandSelector h v).units = s.units ∧ (s.commandSelector h v).order = s.order ∧
    (s.commandSelector h v).poolGains = s.poolGains ∧ (s.commandSelector h v).manifold = s.manifold ∧
    (s.commandSelector h v).inputs = s.inputs ∧ (s.commandSelector h v).captures = s.captures ∧
    (s.commandSelector h v).ports = s.ports ∧ (s.commandSelector h v).site = s.site := by
  and_intros <;> rfl

@[simp] theorem State.commandVent_frame (s : State) (v : Valve) :
   (s.commandVent v).pending = s.pending ∧ (s.commandVent v).now = s.now ∧ (s.commandVent v).choices = s.choices ∧
    (s.commandVent v).store = s.store ∧ (s.commandVent v).ctl = s.ctl ∧ (s.commandVent v).cyls = s.cyls ∧
    (s.commandVent v).rackTemps = s.rackTemps ∧ (s.commandVent v).claims = s.claims ∧
    (s.commandVent v).units = s.units ∧ (s.commandVent v).order = s.order ∧
    (s.commandVent v).poolGains = s.poolGains ∧ (s.commandVent v).manifold = s.manifold ∧
    (s.commandVent v).inputs = s.inputs ∧ (s.commandVent v).captures = s.captures ∧
    (s.commandVent v).ports = s.ports ∧ (s.commandVent v).site = s.site := by
  and_intros <;> rfl

@[simp] theorem State.setMode_frame (s : State) (m : Mode) :
   (s.setMode m).pending = s.pending ∧ (s.setMode m).now = s.now ∧ (s.setMode m).choices = s.choices ∧
    (s.setMode m).store = s.store ∧ (s.setMode m).cyls = s.cyls ∧ (s.setMode m).rackTemps = s.rackTemps ∧
    (s.setMode m).claims = s.claims ∧ (s.setMode m).units = s.units ∧ (s.setMode m).order = s.order ∧
    (s.setMode m).poolGains = s.poolGains ∧ (s.setMode m).manifold = s.manifold ∧ (s.setMode m).inputs = s.inputs ∧
    (s.setMode m).captures = s.captures ∧ (s.setMode m).ports = s.ports ∧ (s.setMode m).site = s.site := by
  and_intros <;> rfl

@[simp] theorem State.firePulse_frame (s : State) (k : CylIdx) :
   (s.firePulse k).pending = s.pending ∧ (s.firePulse k).now = s.now ∧ (s.firePulse k).choices = s.choices ∧
    (s.firePulse k).store = s.store ∧ (s.firePulse k).ctl = s.ctl ∧ (s.firePulse k).cyls = s.cyls ∧
    (s.firePulse k).rackTemps = s.rackTemps ∧ (s.firePulse k).claims = s.claims ∧ (s.firePulse k).units = s.units ∧
    (s.firePulse k).order = s.order ∧ (s.firePulse k).poolGains = s.poolGains ∧
    (s.firePulse k).manifold = s.manifold ∧ (s.firePulse k).inputs = s.inputs ∧
    (s.firePulse k).captures = s.captures ∧ (s.firePulse k).ports = s.ports ∧ (s.firePulse k).site = s.site := by
  and_intros <;> rfl

@[simp] theorem State.poolGainIf_frame (s : State) (b : Bool) :
   (s.poolGainIf b).pending = s.pending ∧ (s.poolGainIf b).now = s.now ∧ (s.poolGainIf b).choices = s.choices ∧
    (s.poolGainIf b).store = s.store ∧ (s.poolGainIf b).ctl = s.ctl ∧ (s.poolGainIf b).cyls = s.cyls ∧
    (s.poolGainIf b).rackTemps = s.rackTemps ∧ (s.poolGainIf b).claims = s.claims ∧ (s.poolGainIf b).units = s.units ∧
    (s.poolGainIf b).order = s.order ∧ (s.poolGainIf b).manifold = s.manifold ∧
    (s.poolGainIf b).circuits = s.circuits ∧ (s.poolGainIf b).inputs = s.inputs ∧
    (s.poolGainIf b).captures = s.captures ∧ (s.poolGainIf b).ports = s.ports ∧ (s.poolGainIf b).site = s.site := by
  cases b <;> and_intros <;> rfl

@[simp] theorem State.maintPendingEnd_frame (s : State) :
   (s.maintPendingEnd).pending = s.pending ∧ (s.maintPendingEnd).now = s.now ∧
    (s.maintPendingEnd).choices = s.choices ∧ (s.maintPendingEnd).store = s.store ∧
    (s.maintPendingEnd).cyls = s.cyls ∧ (s.maintPendingEnd).rackTemps = s.rackTemps ∧
    (s.maintPendingEnd).claims = s.claims ∧ (s.maintPendingEnd).units = s.units ∧
    (s.maintPendingEnd).order = s.order ∧ (s.maintPendingEnd).poolGains = s.poolGains ∧
    (s.maintPendingEnd).manifold = s.manifold ∧ (s.maintPendingEnd).inputs = s.inputs ∧
    (s.maintPendingEnd).captures = s.captures ∧ (s.maintPendingEnd).ports = s.ports ∧
    (s.maintPendingEnd).site = s.site := by
  unfold State.maintPendingEnd
  and_intros <;> split <;> rfl

/-! ### Writes of a whole record: the field written -/

@[simp] theorem State.setManifold_manifold (s : State) (m : Manifold) : (s.setManifold m).manifold = m := rfl

@[simp] theorem State.setCtl_ctl (s : State) (c : ModeControl) : (s.setCtl c).ctl = c := rfl

@[simp] theorem State.setStore_store (s : State) (st : Store) : (s.setStore st).store = st := rfl

@[simp] theorem State.setInputs_inputs (s : State) (i : Inputs) : (s.setInputs i).inputs = i := rfl

@[simp] theorem State.setSite_site (s : State) (p : SitePort) : (s.setSite p).site = p := rfl

@[simp] theorem State.setOrder_order (s : State) (o : List Hall) : (s.setOrder o).order = o := rfl

@[simp] theorem State.poolGain_poolGains (s : State) : s.poolGain.poolGains = s.poolGains + 1 := rfl

@[simp] theorem State.poolGainIf_poolGains (s : State) (b : Bool) :
    (s.poolGainIf b).poolGains = s.poolGains + if b then 1 else 0 := by cases b <;> rfl

/-! ### Reading after a write -/

theorem State.cyl_setCyl (s : State) (k j : CylIdx) (c : Option Cylinder) :
    (s.setCyl k c).cyl j = if j = k then c else s.cyl j := by
  simp [State.cyl, State.setCyl, Vector.getElem_set, Fin.ext_iff, eq_comm]

theorem State.claim_setClaim (s : State) (h j : Hall) (c : Option Claim) :
    (s.setClaim h c).claim j = if j = h then c else s.claim j := by
  simp [State.claim, State.setClaim, Vector.getElem_set, Fin.ext_iff, eq_comm]

theorem State.unit_setUnit (s : State) (h j : Hall) (u : CompareUnit) :
    (s.setUnit h u).unit j = if j = h then u else s.unit j := by
  simp [State.unit, State.setUnit, Vector.getElem_set, Fin.ext_iff, eq_comm]

theorem State.port_setPort (s : State) (h j : Hall) (p : HallPort) :
    (s.setPort h p).port j = if j = h then p else s.port j := by
  simp [State.port, State.setPort, Vector.getElem_set, Fin.ext_iff, eq_comm]

theorem State.channel_setChannel (s : State) (c d : ChanIdx) (ch : Channel) :
    (s.setChannel c ch).channel d = if d = c then ch else s.channel d := by
  simp [State.channel, State.setChannel, Vector.getElem_set, Fin.ext_iff, eq_comm]

theorem State.claim_updClaim (s : State) (h j : Hall) (f : Claim → Claim) :
    (s.updClaim h f).claim j = if j = h then (s.claim h).map f else s.claim j := by
  simp [State.updClaim, State.claim_setClaim]

theorem State.cyl_updCyl (s : State) (k j : CylIdx) (f : Cylinder → Cylinder) :
    (s.updCyl k f).cyl j = if j = k then (s.cyl k).map f else s.cyl j := by
  simp [State.updCyl, State.cyl_setCyl]

theorem State.port_updPort (s : State) (h j : Hall) (f : HallPort → HallPort) :
    (s.updPort h f).port j = if j = h then f (s.port h) else s.port j := by
  simp [State.updPort, State.port_setPort]

theorem State.cyl_setDisposition (s : State) (k j : CylIdx) (d : Disposition) :
    (s.setDisposition k d).cyl j =
      if j = k then (s.cyl k).map fun c => { c with disposition := d } else s.cyl j :=
  State.cyl_updCyl s k j _

theorem State.unit_loadUnit (s : State) (h j : Hall) (d : Time) (k : DeadlineKind) :
    (s.loadUnit h d k).unit j = if j = h then .load s.now d k else s.unit j :=
  State.unit_setUnit s h j _

theorem State.unit_removeUnit (s : State) (h j : Hall) :
    (s.removeUnit h).unit j = if j = h then .inhibited else s.unit j :=
  State.unit_setUnit s h j _

@[simp] theorem State.claim_updClaim_self (s : State) (h : Hall) (f : Claim → Claim) :
    (s.updClaim h f).claim h = (s.claim h).map f := by simp [State.claim_updClaim]

@[simp] theorem State.claim_setClaim_self (s : State) (h : Hall) (c : Option Claim) :
    (s.setClaim h c).claim h = c := by simp [State.claim_setClaim]

@[simp] theorem State.unit_loadUnit_self (s : State) (h : Hall) (d : Time) (k : DeadlineKind) :
    (s.loadUnit h d k).unit h = .load s.now d k := by simp [State.unit_loadUnit]

@[simp] theorem State.unit_removeUnit_self (s : State) (h : Hall) : (s.removeUnit h).unit h = .inhibited := by
  simp [State.unit_removeUnit]

@[simp] theorem State.port_updPort_self (s : State) (h : Hall) (f : HallPort → HallPort) :
    (s.updPort h f).port h = f (s.port h) := by simp [State.port_updPort]

/-! ### Latches -/

@[simp] theorem Latches.get_put_self (ls : Latches) (l : Latch) (x : LatchState) : (ls.put l x).get l = x := by
  cases l <;> rfl

theorem Latches.get_put_of_ne (ls : Latches) (l m : Latch) (x : LatchState) (hm : m ≠ l) :
    (ls.put l x).get m = ls.get m := by
  cases l <;> cases m <;> first | rfl | exact absurd rfl hm

@[simp] theorem Latches.get_map (f : LatchState → LatchState) (ls : Latches) (l : Latch) :
    (ls.map f).get l = f (ls.get l) := by cases l <;> rfl

@[simp] theorem LatchState.raise_ne_clear (x : LatchState) : x.raise ≠ .clear := by cases x <;> simp [LatchState.raise]

/-- Setting a latch sets it, keeps a reported bit, and leaves the port's other fields (R171). -/
theorem State.port_setLatch (s : State) (h j : Hall) (l : Latch) :
    (s.setLatch h l).port j =
      if j = h then { s.port h with latches := (s.port h).latches.put l ((s.port h).latches.get l).raise }
      else s.port j := State.port_updPort s h j _

/-! ### Channels and drives -/

theorem State.channel_redrive (s : State) (c : ChanIdx) :
    s.redrive.channel c = { s.channel c with energised := s.driven c } := by
  simp [State.channel, State.redrive]

/-- Driving the channels changes nothing that decides how they are to be driven. -/
@[simp] theorem State.driven_redrive (s : State) (c : ChanIdx) : s.redrive.driven c = s.driven c := by
  have hp : (s.redrive.channel c).pulse = (s.channel c).pulse := by rw [State.channel_redrive]
  unfold State.driven
  rw [hp]
  rfl

@[simp] theorem State.redrive_selectorCmd (s : State) (h : Hall) : s.redrive.selectorCmd h = s.selectorCmd h := rfl

@[simp] theorem State.redrive_ventCmd (s : State) : s.redrive.circuits.ventCmd = s.circuits.ventCmd := rfl

theorem State.selectorCmd_commandSelector (s : State) (h j : Hall) (v : Valve) :
    (s.commandSelector h v).selectorCmd j = if j = h then v else s.selectorCmd j := by
  simp [State.selectorCmd, State.commandSelector, State.redrive, Vector.getElem_set, Fin.ext_iff, eq_comm]

@[simp] theorem State.commandSelector_ventCmd (s : State) (h : Hall) (v : Valve) :
    (s.commandSelector h v).circuits.ventCmd = s.circuits.ventCmd := rfl

@[simp] theorem State.commandVent_ventCmd (s : State) (v : Valve) : (s.commandVent v).circuits.ventCmd = v := rfl

@[simp] theorem State.commandVent_selectorCmd (s : State) (h : Hall) (v : Valve) :
    (s.commandVent v).selectorCmd h = s.selectorCmd h := rfl

@[simp] theorem State.setMode_mode (s : State) (m : Mode) : (s.setMode m).mode = m := rfl

/-- In MAINTENANCE no channel is energised (R150). -/
theorem State.setMode_maintenance_energised (s : State) (c : ChanIdx) :
    ((s.setMode .maintenance).channel c).energised = false := by
  simp [State.setMode, State.channel_redrive, State.driven, State.mode]

/-- The end of MAINT_PENDING is a change to MAINTENANCE or nothing (R182). -/
theorem State.maintPendingEnd_cases (s : State) :
    s.maintPendingEnd = s ∨
      (s.mode = .maintPending ∧ s.manifold.state = .idle ∧ s.noClaimLeft = true ∧
        s.maintPendingEnd = s.setMode .maintenance) := by
  unfold State.maintPendingEnd
  split
  · rename_i hs
    exact .inr ⟨hs.1, hs.2.1, hs.2.2, rfl⟩
  · exact .inl rfl

/-- An operation that keeps a quantity keeps it when it is folded over a list. -/
theorem foldl_keeps {σ α β : Type} (f : σ → α → σ) (g : σ → β) (hf : ∀ s a, g (f s a) = g s) (l : List α) (s : σ) :
    g (l.foldl f s) = g s := by
  induction l generalizing s with
  | nil => rfl
  | cons a l ih => rw [List.foldl_cons, ih, hf]

end Machine

end Sys2Proof
end

