-- ==== Sys2Proof/Laws/Claims.lean ====
section
/-! SUPPORT. What the operations of the Allocator, the Manifold Arbiter and the Claim Table leave alone. -/

namespace Sys2Proof.Machine

/-! ### Allocator: the fields left alone -/

@[simp] theorem State.reallocate_frame (s : State) (h : Hall) (commit : Bool) (alloc : List Entry) :
   (s.reallocate h commit alloc).pending = s.pending ∧ (s.reallocate h commit alloc).now = s.now ∧
    (s.reallocate h commit alloc).choices = s.choices ∧ (s.reallocate h commit alloc).store = s.store ∧
    (s.reallocate h commit alloc).ctl = s.ctl ∧ (s.reallocate h commit alloc).cyls = s.cyls ∧
    (s.reallocate h commit alloc).rackTemps = s.rackTemps ∧ (s.reallocate h commit alloc).units = s.units ∧
    (s.reallocate h commit alloc).order = s.order ∧ (s.reallocate h commit alloc).poolGains = s.poolGains ∧
    (s.reallocate h commit alloc).manifold = s.manifold ∧ (s.reallocate h commit alloc).circuits = s.circuits ∧
    (s.reallocate h commit alloc).inputs = s.inputs ∧ (s.reallocate h commit alloc).captures = s.captures ∧
    (s.reallocate h commit alloc).site = s.site := by
  unfold State.reallocate
  and_intros <;> (try dsimp only) <;> (repeat' split) <;> simp

@[simp] theorem State.assign_frame (s : State) (h : Hall) (taken : List Entry) :
   (s.assign h taken).pending = s.pending ∧ (s.assign h taken).now = s.now ∧ (s.assign h taken).choices = s.choices ∧
    (s.assign h taken).store = s.store ∧ (s.assign h taken).ctl = s.ctl ∧ (s.assign h taken).rackTemps = s.rackTemps ∧
    (s.assign h taken).claims = s.claims ∧ (s.assign h taken).units = s.units ∧ (s.assign h taken).order = s.order ∧
    (s.assign h taken).poolGains = s.poolGains ∧ (s.assign h taken).manifold = s.manifold ∧
    (s.assign h taken).circuits = s.circuits ∧ (s.assign h taken).inputs = s.inputs ∧
    (s.assign h taken).captures = s.captures ∧ (s.assign h taken).ports = s.ports ∧ (s.assign h taken).site = s.site := by
  unfold State.assign
  and_intros <;> exact foldl_keeps _ _ (fun _ _ => by simp) _ _

@[simp] theorem State.commit_frame (s : State) (h : Hall) (taken : List Entry) :
   (s.commit h taken).pending = s.pending ∧ (s.commit h taken).now = s.now ∧ (s.commit h taken).choices = s.choices ∧
    (s.commit h taken).store = s.store ∧ (s.commit h taken).ctl = s.ctl ∧ (s.commit h taken).rackTemps = s.rackTemps ∧
    (s.commit h taken).units = s.units ∧ (s.commit h taken).order = s.order ∧
    (s.commit h taken).poolGains = s.poolGains ∧ (s.commit h taken).manifold = s.manifold ∧
    (s.commit h taken).circuits = s.circuits ∧ (s.commit h taken).inputs = s.inputs ∧
    (s.commit h taken).captures = s.captures ∧ (s.commit h taken).site = s.site := by
  unfold State.commit
  and_intros <;> (try dsimp only) <;> (repeat' split) <;> simp

@[simp] theorem State.firstAllocation_frame (s : State) (h : Hall) :
   (s.firstAllocation h).pending = s.pending ∧ (s.firstAllocation h).now = s.now ∧
    (s.firstAllocation h).choices = s.choices ∧ (s.firstAllocation h).store = s.store ∧
    (s.firstAllocation h).ctl = s.ctl ∧ (s.firstAllocation h).rackTemps = s.rackTemps ∧
    (s.firstAllocation h).units = s.units ∧ (s.firstAllocation h).order = s.order ∧
    (s.firstAllocation h).poolGains = s.poolGains ∧ (s.firstAllocation h).manifold = s.manifold ∧
    (s.firstAllocation h).circuits = s.circuits ∧ (s.firstAllocation h).inputs = s.inputs ∧
    (s.firstAllocation h).captures = s.captures ∧ (s.firstAllocation h).site = s.site := by
  unfold State.firstAllocation
  and_intros <;> (try dsimp only) <;> (repeat' split) <;> simp

@[simp] theorem State.topUp_frame (s : State) (h : Hall) :
   (s.topUp h).pending = s.pending ∧ (s.topUp h).now = s.now ∧ (s.topUp h).choices = s.choices ∧
    (s.topUp h).store = s.store ∧ (s.topUp h).ctl = s.ctl ∧ (s.topUp h).rackTemps = s.rackTemps ∧
    (s.topUp h).units = s.units ∧ (s.topUp h).order = s.order ∧ (s.topUp h).poolGains = s.poolGains ∧
    (s.topUp h).manifold = s.manifold ∧ (s.topUp h).circuits = s.circuits ∧ (s.topUp h).inputs = s.inputs ∧
    (s.topUp h).captures = s.captures ∧ (s.topUp h).site = s.site := by
  unfold State.topUp
  and_intros <;> (repeat' split) <;> simp

@[simp] theorem State.replace_frame (s : State) (h : Hall) (debt : Nat) :
   (s.replace h debt).pending = s.pending ∧ (s.replace h debt).now = s.now ∧ (s.replace h debt).choices = s.choices ∧
    (s.replace h debt).store = s.store ∧ (s.replace h debt).ctl = s.ctl ∧ (s.replace h debt).rackTemps = s.rackTemps ∧
    (s.replace h debt).units = s.units ∧ (s.replace h debt).order = s.order ∧
    (s.replace h debt).poolGains = s.poolGains ∧ (s.replace h debt).manifold = s.manifold ∧
    (s.replace h debt).circuits = s.circuits ∧ (s.replace h debt).inputs = s.inputs ∧
    (s.replace h debt).captures = s.captures ∧ (s.replace h debt).site = s.site := by
  unfold State.replace
  and_intros <;> (try dsimp only) <;> (repeat' split) <;> simp

/-- Freeing some cylinders touches the Cylinder Table alone. -/
@[simp] theorem State.free_frame (s : State) (held : List Entry) :
   (held.foldl (fun s e => s.setDisposition e.cyl .free) s).pending = s.pending ∧
    (held.foldl (fun s e => s.setDisposition e.cyl .free) s).now = s.now ∧
    (held.foldl (fun s e => s.setDisposition e.cyl .free) s).choices = s.choices ∧
    (held.foldl (fun s e => s.setDisposition e.cyl .free) s).store = s.store ∧
    (held.foldl (fun s e => s.setDisposition e.cyl .free) s).ctl = s.ctl ∧
    (held.foldl (fun s e => s.setDisposition e.cyl .free) s).rackTemps = s.rackTemps ∧
    (held.foldl (fun s e => s.setDisposition e.cyl .free) s).claims = s.claims ∧
    (held.foldl (fun s e => s.setDisposition e.cyl .free) s).units = s.units ∧
    (held.foldl (fun s e => s.setDisposition e.cyl .free) s).order = s.order ∧
    (held.foldl (fun s e => s.setDisposition e.cyl .free) s).poolGains = s.poolGains ∧
    (held.foldl (fun s e => s.setDisposition e.cyl .free) s).manifold = s.manifold ∧
    (held.foldl (fun s e => s.setDisposition e.cyl .free) s).circuits = s.circuits ∧
    (held.foldl (fun s e => s.setDisposition e.cyl .free) s).inputs = s.inputs ∧
    (held.foldl (fun s e => s.setDisposition e.cyl .free) s).captures = s.captures ∧
    (held.foldl (fun s e => s.setDisposition e.cyl .free) s).ports = s.ports ∧
    (held.foldl (fun s e => s.setDisposition e.cyl .free) s).site = s.site := by
  and_intros <;> exact foldl_keeps _ _ (fun _ _ => by simp) _ _

@[simp] theorem State.releaseAllocation_frame (s : State) (h : Hall) :
   (s.releaseAllocation h).pending = s.pending ∧ (s.releaseAllocation h).now = s.now ∧
    (s.releaseAllocation h).choices = s.choices ∧ (s.releaseAllocation h).store = s.store ∧
    (s.releaseAllocation h).ctl = s.ctl ∧ (s.releaseAllocation h).rackTemps = s.rackTemps ∧
    (s.releaseAllocation h).units = s.units ∧ (s.releaseAllocation h).order = s.order ∧
    (s.releaseAllocation h).manifold = s.manifold ∧ (s.releaseAllocation h).circuits = s.circuits ∧
    (s.releaseAllocation h).inputs = s.inputs ∧ (s.releaseAllocation h).captures = s.captures ∧
    (s.releaseAllocation h).site = s.site := by
  unfold State.releaseAllocation
  and_intros <;> (try dsimp only) <;> (repeat' split) <;> simp

/-! ### Manifold Arbiter: the fields left alone -/

@[simp] theorem State.putMismatch_frame (s : State) (h : Hall) (b : Bool) :
   (s.putMismatch h b).pending = s.pending ∧ (s.putMismatch h b).now = s.now ∧
    (s.putMismatch h b).choices = s.choices ∧ (s.putMismatch h b).store = s.store ∧ (s.putMismatch h b).ctl = s.ctl ∧
    (s.putMismatch h b).cyls = s.cyls ∧ (s.putMismatch h b).rackTemps = s.rackTemps ∧
    (s.putMismatch h b).claims = s.claims ∧ (s.putMismatch h b).units = s.units ∧
    (s.putMismatch h b).order = s.order ∧ (s.putMismatch h b).poolGains = s.poolGains ∧
    (s.putMismatch h b).circuits = s.circuits ∧ (s.putMismatch h b).inputs = s.inputs ∧
    (s.putMismatch h b).captures = s.captures ∧ (s.putMismatch h b).ports = s.ports ∧
    (s.putMismatch h b).site = s.site := by
  unfold State.putMismatch
  and_intros <;> (try dsimp only) <;> simp

@[simp] theorem State.setMismatch_frame (s : State) (h : Hall) :
   (s.setMismatch h).pending = s.pending ∧ (s.setMismatch h).now = s.now ∧ (s.setMismatch h).choices = s.choices ∧
    (s.setMismatch h).store = s.store ∧ (s.setMismatch h).ctl = s.ctl ∧ (s.setMismatch h).cyls = s.cyls ∧
    (s.setMismatch h).rackTemps = s.rackTemps ∧ (s.setMismatch h).claims = s.claims ∧
    (s.setMismatch h).units = s.units ∧ (s.setMismatch h).order = s.order ∧
    (s.setMismatch h).poolGains = s.poolGains ∧ (s.setMismatch h).circuits = s.circuits ∧
    (s.setMismatch h).inputs = s.inputs ∧ (s.setMismatch h).captures = s.captures ∧ (s.setMismatch h).site = s.site := by
  unfold State.setMismatch
  and_intros <;> (repeat' split) <;> simp

@[simp] theorem State.testMismatch_frame (s : State) (h : Hall) :
   (s.testMismatch h).pending = s.pending ∧ (s.testMismatch h).now = s.now ∧ (s.testMismatch h).choices = s.choices ∧
    (s.testMismatch h).store = s.store ∧ (s.testMismatch h).ctl = s.ctl ∧ (s.testMismatch h).cyls = s.cyls ∧
    (s.testMismatch h).rackTemps = s.rackTemps ∧ (s.testMismatch h).claims = s.claims ∧
    (s.testMismatch h).units = s.units ∧ (s.testMismatch h).order = s.order ∧
    (s.testMismatch h).poolGains = s.poolGains ∧ (s.testMismatch h).circuits = s.circuits ∧
    (s.testMismatch h).inputs = s.inputs ∧ (s.testMismatch h).captures = s.captures ∧ (s.testMismatch h).site = s.site := by
  unfold State.testMismatch
  and_intros <;> (repeat' split) <;> simp

@[simp] theorem State.enterVenting_frame (s : State) :
   (s.enterVenting).pending = s.pending ∧ (s.enterVenting).now = s.now ∧ (s.enterVenting).choices = s.choices ∧
    (s.enterVenting).store = s.store ∧ (s.enterVenting).ctl = s.ctl ∧ (s.enterVenting).cyls = s.cyls ∧
    (s.enterVenting).rackTemps = s.rackTemps ∧ (s.enterVenting).claims = s.claims ∧ (s.enterVenting).units = s.units ∧
    (s.enterVenting).order = s.order ∧ (s.enterVenting).poolGains = s.poolGains ∧ (s.enterVenting).inputs = s.inputs ∧
    (s.enterVenting).captures = s.captures ∧ (s.enterVenting).ports = s.ports ∧ (s.enterVenting).site = s.site := by
  unfold State.enterVenting
  and_intros <;> (try dsimp only) <;> simp

@[simp] theorem State.leaveClosing_frame (s : State) :
   (s.leaveClosing).pending = s.pending ∧ (s.leaveClosing).now = s.now ∧ (s.leaveClosing).choices = s.choices ∧
    (s.leaveClosing).store = s.store ∧ (s.leaveClosing).ctl = s.ctl ∧ (s.leaveClosing).cyls = s.cyls ∧
    (s.leaveClosing).rackTemps = s.rackTemps ∧ (s.leaveClosing).claims = s.claims ∧ (s.leaveClosing).units = s.units ∧
    (s.leaveClosing).order = s.order ∧ (s.leaveClosing).poolGains = s.poolGains ∧ (s.leaveClosing).inputs = s.inputs ∧
    (s.leaveClosing).captures = s.captures ∧ (s.leaveClosing).site = s.site := by
  unfold State.leaveClosing
  and_intros <;> (repeat' split) <;> simp

/-- A selector that does not read OPEN fails no mismatch test (R109). -/
theorem State.testMismatch_of_closed (s : State) (h : Hall) (hr : s.selectorReading h ≠ some .opened) :
    s.testMismatch h = s := by
  unfold State.testMismatch
  rw [if_neg]
  exact fun e => hr e.2.1

/-- Entry to CLOSING: with the last hall's selector reading OPEN it stays, under the close deadline; otherwise it goes on to
VENTING, where no mismatch can be found (R104). -/
theorem State.enterClosing_eq (s : State) :
    s.enterClosing =
      if s.manifold.lastHall.bind s.selectorReading = some .opened then
        s.setManifold { s.manifold with
          state := .closing, unit := .load s.now (s.now + ms s.timing.selectorCloseTimeout) .close }
      else (s.setManifold { s.manifold with state := .closing, unit := .inhibited }).enterVenting := by
  obtain ⟨l, hl⟩ : ∃ l, s.manifold.lastHall = l := ⟨_, rfl⟩
  unfold State.enterClosing State.leaveClosing
  simp only [State.setManifold_manifold, hl]
  cases l with
  | none => rfl
  | some h =>
    simp only [Option.bind_some]
    split
    · rfl
    · rename_i hr
      exact State.testMismatch_of_closed _ _ hr

/-- Entry to CLOSING sets no mismatch flag and no latch (R104). -/
theorem State.enterClosing_mismatch (s : State) : s.enterClosing.manifold.mismatch = s.manifold.mismatch ∧
    s.enterClosing.ports = s.ports := by
  rw [State.enterClosing_eq]
  split <;> constructor <;> rfl

@[simp] theorem State.enterClosing_frame (s : State) :
   (s.enterClosing).pending = s.pending ∧ (s.enterClosing).now = s.now ∧ (s.enterClosing).choices = s.choices ∧
    (s.enterClosing).store = s.store ∧ (s.enterClosing).ctl = s.ctl ∧ (s.enterClosing).cyls = s.cyls ∧
    (s.enterClosing).rackTemps = s.rackTemps ∧ (s.enterClosing).claims = s.claims ∧ (s.enterClosing).units = s.units ∧
    (s.enterClosing).order = s.order ∧ (s.enterClosing).poolGains = s.poolGains ∧ (s.enterClosing).inputs = s.inputs ∧
    (s.enterClosing).captures = s.captures ∧ (s.enterClosing).ports = s.ports ∧ (s.enterClosing).site = s.site := by
  rw [State.enterClosing_eq]
  and_intros <;> split <;> simp

@[simp] theorem State.endGrant_frame (s : State) (h : Hall) :
   (s.endGrant h).pending = s.pending ∧ (s.endGrant h).now = s.now ∧ (s.endGrant h).choices = s.choices ∧
    (s.endGrant h).store = s.store ∧ (s.endGrant h).ctl = s.ctl ∧ (s.endGrant h).cyls = s.cyls ∧
    (s.endGrant h).rackTemps = s.rackTemps ∧ (s.endGrant h).claims = s.claims ∧ (s.endGrant h).units = s.units ∧
    (s.endGrant h).order = s.order ∧ (s.endGrant h).poolGains = s.poolGains ∧ (s.endGrant h).inputs = s.inputs ∧
    (s.endGrant h).captures = s.captures ∧ (s.endGrant h).ports = s.ports ∧ (s.endGrant h).site = s.site := by
  unfold State.endGrant
  and_intros <;> (try dsimp only) <;> simp

@[simp] theorem State.withdrawGrant_frame (s : State) (h : Hall) :
   (s.withdrawGrant h).pending = s.pending ∧ (s.withdrawGrant h).now = s.now ∧
    (s.withdrawGrant h).choices = s.choices ∧ (s.withdrawGrant h).store = s.store ∧ (s.withdrawGrant h).ctl = s.ctl ∧
    (s.withdrawGrant h).cyls = s.cyls ∧ (s.withdrawGrant h).rackTemps = s.rackTemps ∧
    (s.withdrawGrant h).claims = s.claims ∧ (s.withdrawGrant h).units = s.units ∧
    (s.withdrawGrant h).order = s.order ∧ (s.withdrawGrant h).poolGains = s.poolGains ∧
    (s.withdrawGrant h).inputs = s.inputs ∧ (s.withdrawGrant h).ports = s.ports ∧ (s.withdrawGrant h).site = s.site := by
  unfold State.withdrawGrant
  and_intros <;> simp

@[simp] theorem State.place_frame (s : State) (h : Hall) (t : Time) :
   (s.place h t).pending = s.pending ∧ (s.place h t).now = s.now ∧ (s.place h t).choices = s.choices ∧
    (s.place h t).store = s.store ∧ (s.place h t).ctl = s.ctl ∧ (s.place h t).cyls = s.cyls ∧
    (s.place h t).rackTemps = s.rackTemps ∧ (s.place h t).claims = s.claims ∧ (s.place h t).units = s.units ∧
    (s.place h t).order = s.order ∧ (s.place h t).poolGains = s.poolGains ∧ (s.place h t).circuits = s.circuits ∧
    (s.place h t).inputs = s.inputs ∧ (s.place h t).captures = s.captures ∧ (s.place h t).ports = s.ports ∧
    (s.place h t).site = s.site := by
  unfold State.place
  and_intros <;> (try dsimp only) <;> simp

@[simp] theorem State.leaveWaitList_frame (s : State) (h : Hall) :
   (s.leaveWaitList h).pending = s.pending ∧ (s.leaveWaitList h).now = s.now ∧
    (s.leaveWaitList h).choices = s.choices ∧ (s.leaveWaitList h).store = s.store ∧ (s.leaveWaitList h).ctl = s.ctl ∧
    (s.leaveWaitList h).cyls = s.cyls ∧ (s.leaveWaitList h).rackTemps = s.rackTemps ∧
    (s.leaveWaitList h).claims = s.claims ∧ (s.leaveWaitList h).units = s.units ∧
    (s.leaveWaitList h).order = s.order ∧ (s.leaveWaitList h).poolGains = s.poolGains ∧
    (s.leaveWaitList h).circuits = s.circuits ∧ (s.leaveWaitList h).inputs = s.inputs ∧
    (s.leaveWaitList h).captures = s.captures ∧ (s.leaveWaitList h).ports = s.ports ∧
    (s.leaveWaitList h).site = s.site := by
  unfold State.leaveWaitList
  and_intros <;> (try dsimp only) <;> simp

@[simp] theorem State.grant_frame (s : State) (h : Hall) :
   (s.grant h).pending = s.pending ∧ (s.grant h).now = s.now ∧ (s.grant h).choices = s.choices ∧
    (s.grant h).store = s.store ∧ (s.grant h).ctl = s.ctl ∧ (s.grant h).cyls = s.cyls ∧
    (s.grant h).rackTemps = s.rackTemps ∧ (s.grant h).order = s.order ∧ (s.grant h).poolGains = s.poolGains ∧
    (s.grant h).inputs = s.inputs ∧ (s.grant h).ports = s.ports ∧ (s.grant h).site = s.site := by
  unfold State.grant
  and_intros <;> (try dsimp only) <;> simp

@[simp] theorem State.tryGrant_frame (s : State) :
   (s.tryGrant).pending = s.pending ∧ (s.tryGrant).now = s.now ∧ (s.tryGrant).choices = s.choices ∧
    (s.tryGrant).store = s.store ∧ (s.tryGrant).ctl = s.ctl ∧ (s.tryGrant).cyls = s.cyls ∧
    (s.tryGrant).rackTemps = s.rackTemps ∧ (s.tryGrant).order = s.order ∧ (s.tryGrant).poolGains = s.poolGains ∧
    (s.tryGrant).inputs = s.inputs ∧ (s.tryGrant).ports = s.ports ∧ (s.tryGrant).site = s.site := by
  unfold State.tryGrant
  and_intros <;> (repeat' split) <;> simp

/-- Joining the wait list touches the manifold record alone. -/
@[simp] theorem State.placeAll_frame (s : State) (hs : List Hall) :
   (hs.foldl (fun s h => s.place h s.now) s).pending = s.pending ∧
    (hs.foldl (fun s h => s.place h s.now) s).now = s.now ∧
    (hs.foldl (fun s h => s.place h s.now) s).choices = s.choices ∧
    (hs.foldl (fun s h => s.place h s.now) s).store = s.store ∧
    (hs.foldl (fun s h => s.place h s.now) s).ctl = s.ctl ∧ (hs.foldl (fun s h => s.place h s.now) s).cyls = s.cyls ∧
    (hs.foldl (fun s h => s.place h s.now) s).rackTemps = s.rackTemps ∧
    (hs.foldl (fun s h => s.place h s.now) s).claims = s.claims ∧
    (hs.foldl (fun s h => s.place h s.now) s).units = s.units ∧
    (hs.foldl (fun s h => s.place h s.now) s).order = s.order ∧
    (hs.foldl (fun s h => s.place h s.now) s).poolGains = s.poolGains ∧
    (hs.foldl (fun s h => s.place h s.now) s).circuits = s.circuits ∧
    (hs.foldl (fun s h => s.place h s.now) s).inputs = s.inputs ∧
    (hs.foldl (fun s h => s.place h s.now) s).captures = s.captures ∧
    (hs.foldl (fun s h => s.place h s.now) s).ports = s.ports ∧
    (hs.foldl (fun s h => s.place h s.now) s).site = s.site := by
  and_intros <;> exact foldl_keeps _ _ (fun _ _ => by simp) _ _

@[simp] theorem State.join_frame (s : State) (hs : List Hall) :
   (s.join hs).pending = s.pending ∧ (s.join hs).now = s.now ∧ (s.join hs).choices = s.choices ∧
    (s.join hs).store = s.store ∧ (s.join hs).ctl = s.ctl ∧ (s.join hs).cyls = s.cyls ∧
    (s.join hs).rackTemps = s.rackTemps ∧ (s.join hs).order = s.order ∧ (s.join hs).poolGains = s.poolGains ∧
    (s.join hs).inputs = s.inputs ∧ (s.join hs).ports = s.ports ∧ (s.join hs).site = s.site := by
  unfold State.join
  and_intros <;> simp

@[simp] theorem State.clearMismatch_frame (s : State) (h : Hall) :
   (s.clearMismatch h).pending = s.pending ∧ (s.clearMismatch h).now = s.now ∧
    (s.clearMismatch h).choices = s.choices ∧ (s.clearMismatch h).store = s.store ∧ (s.clearMismatch h).ctl = s.ctl ∧
    (s.clearMismatch h).cyls = s.cyls ∧ (s.clearMismatch h).rackTemps = s.rackTemps ∧
    (s.clearMismatch h).order = s.order ∧ (s.clearMismatch h).poolGains = s.poolGains ∧
    (s.clearMismatch h).inputs = s.inputs ∧ (s.clearMismatch h).ports = s.ports ∧ (s.clearMismatch h).site = s.site := by
  unfold State.clearMismatch
  and_intros <;> (repeat' split) <;> simp

@[simp] theorem State.endVenting_frame (s : State) (result : VentResult) :
   (s.endVenting result).pending = s.pending ∧ (s.endVenting result).now = s.now ∧
    (s.endVenting result).choices = s.choices ∧ (s.endVenting result).store = s.store ∧
    (s.endVenting result).cyls = s.cyls ∧ (s.endVenting result).rackTemps = s.rackTemps ∧
    (s.endVenting result).order = s.order ∧ (s.endVenting result).poolGains = s.poolGains ∧
    (s.endVenting result).inputs = s.inputs ∧ (s.endVenting result).ports = s.ports ∧
    (s.endVenting result).site = s.site := by
  unfold State.endVenting
  and_intros <;> (try dsimp only) <;> simp

@[simp] theorem State.arbiterEdge_frame (s : State) (h : Hall) (v : Valve) :
   (s.arbiterEdge h v).pending = s.pending ∧ (s.arbiterEdge h v).now = s.now ∧
    (s.arbiterEdge h v).choices = s.choices ∧ (s.arbiterEdge h v).store = s.store ∧ (s.arbiterEdge h v).ctl = s.ctl ∧
    (s.arbiterEdge h v).cyls = s.cyls ∧ (s.arbiterEdge h v).rackTemps = s.rackTemps ∧
    (s.arbiterEdge h v).order = s.order ∧ (s.arbiterEdge h v).poolGains = s.poolGains ∧
    (s.arbiterEdge h v).inputs = s.inputs ∧ (s.arbiterEdge h v).site = s.site := by
  unfold State.arbiterEdge
  and_intros <;> (try dsimp only) <;> (repeat' split) <;> simp

/-! ### Claim Table: the fields left alone -/

@[simp] theorem State.endClaim_frame (s : State) (h : Hall) (state : ClaimState) (reason : EndReason) :
   (s.endClaim h state reason).pending = s.pending ∧ (s.endClaim h state reason).now = s.now ∧
    (s.endClaim h state reason).choices = s.choices ∧ (s.endClaim h state reason).store = s.store ∧
    (s.endClaim h state reason).ctl = s.ctl ∧ (s.endClaim h state reason).rackTemps = s.rackTemps ∧
    (s.endClaim h state reason).inputs = s.inputs ∧ (s.endClaim h state reason).site = s.site := by
  unfold State.endClaim
  and_intros <;> (try dsimp only) <;> (repeat' split) <;> simp

@[simp] theorem State.starve_frame (s : State) (h : Hall) :
   (s.starve h).pending = s.pending ∧ (s.starve h).now = s.now ∧ (s.starve h).choices = s.choices ∧
    (s.starve h).store = s.store ∧ (s.starve h).ctl = s.ctl ∧ (s.starve h).cyls = s.cyls ∧
    (s.starve h).rackTemps = s.rackTemps ∧ (s.starve h).order = s.order ∧ (s.starve h).poolGains = s.poolGains ∧
    (s.starve h).inputs = s.inputs ∧ (s.starve h).ports = s.ports ∧ (s.starve h).site = s.site := by
  unfold State.starve
  and_intros <;> (try dsimp only) <;> (repeat' split) <;> simp

@[simp] theorem State.rebuild_frame (s : State) (h : Hall) (before : List Entry) :
   (s.rebuild h before).pending = s.pending ∧ (s.rebuild h before).now = s.now ∧
    (s.rebuild h before).choices = s.choices ∧ (s.rebuild h before).store = s.store ∧
    (s.rebuild h before).ctl = s.ctl ∧ (s.rebuild h before).cyls = s.cyls ∧
    (s.rebuild h before).rackTemps = s.rackTemps ∧ (s.rebuild h before).units = s.units ∧
    (s.rebuild h before).order = s.order ∧ (s.rebuild h before).poolGains = s.poolGains ∧
    (s.rebuild h before).manifold = s.manifold ∧ (s.rebuild h before).circuits = s.circuits ∧
    (s.rebuild h before).inputs = s.inputs ∧ (s.rebuild h before).captures = s.captures ∧
    (s.rebuild h before).ports = s.ports ∧ (s.rebuild h before).site = s.site := by
  unfold State.rebuild
  and_intros <;> simp

@[simp] theorem State.answerLoss_frame (s : State) (h : Hall) (before : List Entry) :
   (s.answerLoss h before).pending = s.pending ∧ (s.answerLoss h before).now = s.now ∧
    (s.answerLoss h before).choices = s.choices ∧ (s.answerLoss h before).store = s.store ∧
    (s.answerLoss h before).ctl = s.ctl ∧ (s.answerLoss h before).rackTemps = s.rackTemps ∧
    (s.answerLoss h before).order = s.order ∧ (s.answerLoss h before).poolGains = s.poolGains ∧
    (s.answerLoss h before).inputs = s.inputs ∧ (s.answerLoss h before).site = s.site := by
  unfold State.answerLoss
  and_intros <;> (try dsimp only) <;> (repeat' split) <;> simp

@[simp] theorem State.dropEntry_frame (s : State) (h : Hall) (k : CylIdx) :
   (s.dropEntry h k).pending = s.pending ∧ (s.dropEntry h k).now = s.now ∧ (s.dropEntry h k).choices = s.choices ∧
    (s.dropEntry h k).store = s.store ∧ (s.dropEntry h k).ctl = s.ctl ∧ (s.dropEntry h k).cyls = s.cyls ∧
    (s.dropEntry h k).rackTemps = s.rackTemps ∧ (s.dropEntry h k).units = s.units ∧
    (s.dropEntry h k).order = s.order ∧ (s.dropEntry h k).poolGains = s.poolGains ∧
    (s.dropEntry h k).manifold = s.manifold ∧ (s.dropEntry h k).circuits = s.circuits ∧
    (s.dropEntry h k).inputs = s.inputs ∧ (s.dropEntry h k).captures = s.captures ∧ (s.dropEntry h k).site = s.site := by
  unfold State.dropEntry
  and_intros <;> (repeat' split) <;> simp

@[simp] theorem State.removal_frame (s : State) (h : Hall) (k : CylIdx) :
   (s.removal h k).pending = s.pending ∧ (s.removal h k).now = s.now ∧ (s.removal h k).choices = s.choices ∧
    (s.removal h k).store = s.store ∧ (s.removal h k).ctl = s.ctl ∧ (s.removal h k).rackTemps = s.rackTemps ∧
    (s.removal h k).order = s.order ∧ (s.removal h k).poolGains = s.poolGains ∧ (s.removal h k).inputs = s.inputs ∧
    (s.removal h k).site = s.site := by
  unfold State.removal
  and_intros <;> (repeat' split) <;> simp

@[simp] theorem State.handE_frame (s : State) (h : Hall) (k : CylIdx) (old new : Nat) :
   (s.handE h k old new).pending = s.pending ∧ (s.handE h k old new).now = s.now ∧
    (s.handE h k old new).choices = s.choices ∧ (s.handE h k old new).store = s.store ∧
    (s.handE h k old new).ctl = s.ctl ∧ (s.handE h k old new).rackTemps = s.rackTemps ∧
    (s.handE h k old new).order = s.order ∧ (s.handE h k old new).poolGains = s.poolGains ∧
    (s.handE h k old new).inputs = s.inputs ∧ (s.handE h k old new).site = s.site := by
  unfold State.handE
  and_intros <;> (try dsimp only) <;> (repeat' split) <;> simp

@[simp] theorem State.openClaim_frame (s : State) (h : Hall) (basis : Basis) (asked : Bool) :
   (s.openClaim h basis asked).pending = s.pending ∧ (s.openClaim h basis asked).now = s.now ∧
    (s.openClaim h basis asked).choices = s.choices ∧ (s.openClaim h basis asked).store = s.store ∧
    (s.openClaim h basis asked).ctl = s.ctl ∧ (s.openClaim h basis asked).rackTemps = s.rackTemps ∧
    (s.openClaim h basis asked).poolGains = s.poolGains ∧ (s.openClaim h basis asked).manifold = s.manifold ∧
    (s.openClaim h basis asked).circuits = s.circuits ∧ (s.openClaim h basis asked).inputs = s.inputs ∧
    (s.openClaim h basis asked).captures = s.captures ∧ (s.openClaim h basis asked).site = s.site := by
  unfold State.openClaim
  and_intros <;> (try dsimp only) <;> (repeat' split) <;> simp

@[simp] theorem State.resume_frame (s : State) (h : Hall) (left : Nat) (source : DelaySource) :
   (s.resume h left source).pending = s.pending ∧ (s.resume h left source).now = s.now ∧
    (s.resume h left source).choices = s.choices ∧ (s.resume h left source).store = s.store ∧
    (s.resume h left source).ctl = s.ctl ∧ (s.resume h left source).cyls = s.cyls ∧
    (s.resume h left source).rackTemps = s.rackTemps ∧ (s.resume h left source).order = s.order ∧
    (s.resume h left source).poolGains = s.poolGains ∧ (s.resume h left source).manifold = s.manifold ∧
    (s.resume h left source).circuits = s.circuits ∧ (s.resume h left source).inputs = s.inputs ∧
    (s.resume h left source).captures = s.captures ∧ (s.resume h left source).ports = s.ports ∧
    (s.resume h left source).site = s.site := by
  unfold State.resume
  and_intros <;> simp

@[simp] theorem State.upgrade_frame (s : State) (h : Hall) (c : Claim) :
   (s.upgrade h c).pending = s.pending ∧ (s.upgrade h c).now = s.now ∧ (s.upgrade h c).choices = s.choices ∧
    (s.upgrade h c).store = s.store ∧ (s.upgrade h c).ctl = s.ctl ∧ (s.upgrade h c).cyls = s.cyls ∧
    (s.upgrade h c).rackTemps = s.rackTemps ∧ (s.upgrade h c).order = s.order ∧
    (s.upgrade h c).poolGains = s.poolGains ∧ (s.upgrade h c).manifold = s.manifold ∧
    (s.upgrade h c).circuits = s.circuits ∧ (s.upgrade h c).inputs = s.inputs ∧
    (s.upgrade h c).captures = s.captures ∧ (s.upgrade h c).site = s.site := by
  unfold State.upgrade
  and_intros <;> (try dsimp only) <;> (repeat' split) <;> simp

@[simp] theorem State.enterHold_frame (s : State) (h : Hall) (left : Nat) :
   (s.enterHold h left).pending = s.pending ∧ (s.enterHold h left).now = s.now ∧
    (s.enterHold h left).choices = s.choices ∧ (s.enterHold h left).store = s.store ∧
    (s.enterHold h left).ctl = s.ctl ∧ (s.enterHold h left).cyls = s.cyls ∧
    (s.enterHold h left).rackTemps = s.rackTemps ∧ (s.enterHold h left).order = s.order ∧
    (s.enterHold h left).poolGains = s.poolGains ∧ (s.enterHold h left).manifold = s.manifold ∧
    (s.enterHold h left).circuits = s.circuits ∧ (s.enterHold h left).inputs = s.inputs ∧
    (s.enterHold h left).captures = s.captures ∧ (s.enterHold h left).ports = s.ports ∧
    (s.enterHold h left).site = s.site := by
  unfold State.enterHold
  and_intros <;> (try dsimp only) <;> (repeat' split) <;> simp

@[simp] theorem State.holdEdge_frame (s : State) (h : Hall) :
   (s.holdEdge h).pending = s.pending ∧ (s.holdEdge h).now = s.now ∧ (s.holdEdge h).choices = s.choices ∧
    (s.holdEdge h).store = s.store ∧ (s.holdEdge h).ctl = s.ctl ∧ (s.holdEdge h).cyls = s.cyls ∧
    (s.holdEdge h).rackTemps = s.rackTemps ∧ (s.holdEdge h).order = s.order ∧ (s.holdEdge h).poolGains = s.poolGains ∧
    (s.holdEdge h).inputs = s.inputs ∧ (s.holdEdge h).ports = s.ports ∧ (s.holdEdge h).site = s.site := by
  unfold State.holdEdge
  and_intros <;> (repeat' split) <;> simp

@[simp] theorem State.endHold_frame (s : State) (h : Hall) (c : Claim) :
   (s.endHold h c).pending = s.pending ∧ (s.endHold h c).now = s.now ∧ (s.endHold h c).choices = s.choices ∧
    (s.endHold h c).store = s.store ∧ (s.endHold h c).ctl = s.ctl ∧ (s.endHold h c).cyls = s.cyls ∧
    (s.endHold h c).rackTemps = s.rackTemps ∧ (s.endHold h c).order = s.order ∧
    (s.endHold h c).poolGains = s.poolGains ∧ (s.endHold h c).manifold = s.manifold ∧
    (s.endHold h c).circuits = s.circuits ∧ (s.endHold h c).inputs = s.inputs ∧
    (s.endHold h c).captures = s.captures ∧ (s.endHold h c).ports = s.ports ∧ (s.endHold h c).site = s.site := by
  unfold State.endHold
  and_intros <;> (try dsimp only) <;> (repeat' split) <;> simp

@[simp] theorem State.holdFall_frame (s : State) (h : Hall) :
   (s.holdFall h).pending = s.pending ∧ (s.holdFall h).now = s.now ∧ (s.holdFall h).choices = s.choices ∧
    (s.holdFall h).store = s.store ∧ (s.holdFall h).ctl = s.ctl ∧ (s.holdFall h).cyls = s.cyls ∧
    (s.holdFall h).rackTemps = s.rackTemps ∧ (s.holdFall h).order = s.order ∧ (s.holdFall h).poolGains = s.poolGains ∧
    (s.holdFall h).manifold = s.manifold ∧ (s.holdFall h).circuits = s.circuits ∧ (s.holdFall h).inputs = s.inputs ∧
    (s.holdFall h).captures = s.captures ∧ (s.holdFall h).ports = s.ports ∧ (s.holdFall h).site = s.site := by
  unfold State.holdFall
  and_intros <;> (repeat' split) <;> simp

@[simp] theorem State.observeHold_frame (s : State) (h : Hall) (level : Bool) :
   (s.observeHold h level).pending = s.pending ∧ (s.observeHold h level).now = s.now ∧
    (s.observeHold h level).choices = s.choices ∧ (s.observeHold h level).store = s.store ∧
    (s.observeHold h level).ctl = s.ctl ∧ (s.observeHold h level).cyls = s.cyls ∧
    (s.observeHold h level).rackTemps = s.rackTemps ∧ (s.observeHold h level).order = s.order ∧
    (s.observeHold h level).poolGains = s.poolGains ∧ (s.observeHold h level).inputs = s.inputs ∧
    (s.observeHold h level).site = s.site := by
  unfold State.observeHold
  and_intros <;> (try dsimp only) <;> (repeat' split) <;> simp

@[simp] theorem State.makeWaiting_frame (s : State) (h : Hall) :
   (s.makeWaiting h).pending = s.pending ∧ (s.makeWaiting h).now = s.now ∧ (s.makeWaiting h).choices = s.choices ∧
    (s.makeWaiting h).store = s.store ∧ (s.makeWaiting h).ctl = s.ctl ∧ (s.makeWaiting h).cyls = s.cyls ∧
    (s.makeWaiting h).rackTemps = s.rackTemps ∧ (s.makeWaiting h).units = s.units ∧
    (s.makeWaiting h).order = s.order ∧ (s.makeWaiting h).poolGains = s.poolGains ∧
    (s.makeWaiting h).manifold = s.manifold ∧ (s.makeWaiting h).circuits = s.circuits ∧
    (s.makeWaiting h).inputs = s.inputs ∧ (s.makeWaiting h).captures = s.captures ∧
    (s.makeWaiting h).ports = s.ports ∧ (s.makeWaiting h).site = s.site := by
  unfold State.makeWaiting
  and_intros <;> simp

@[simp] theorem State.countdownOver_frame (s : State) (h : Hall) :
   (s.countdownOver h).pending = s.pending ∧ (s.countdownOver h).now = s.now ∧
    (s.countdownOver h).choices = s.choices ∧ (s.countdownOver h).store = s.store ∧ (s.countdownOver h).ctl = s.ctl ∧
    (s.countdownOver h).rackTemps = s.rackTemps ∧ (s.countdownOver h).order = s.order ∧
    (s.countdownOver h).poolGains = s.poolGains ∧ (s.countdownOver h).inputs = s.inputs ∧
    (s.countdownOver h).site = s.site := by
  unfold State.countdownOver
  and_intros <;> (try dsimp only) <;> (repeat' split) <;> simp

/-- One try of a starved re-evaluation touches the Cylinder Table, the claims and the ports. -/
theorem State.tryStarved_frame (acc : State × List Hall) (h : Hall) :
   (State.tryStarved acc h).1.pending = acc.1.pending ∧ (State.tryStarved acc h).1.now = acc.1.now ∧
    (State.tryStarved acc h).1.choices = acc.1.choices ∧ (State.tryStarved acc h).1.store = acc.1.store ∧
    (State.tryStarved acc h).1.ctl = acc.1.ctl ∧ (State.tryStarved acc h).1.rackTemps = acc.1.rackTemps ∧
    (State.tryStarved acc h).1.units = acc.1.units ∧ (State.tryStarved acc h).1.order = acc.1.order ∧
    (State.tryStarved acc h).1.poolGains = acc.1.poolGains ∧ (State.tryStarved acc h).1.manifold = acc.1.manifold ∧
    (State.tryStarved acc h).1.circuits = acc.1.circuits ∧ (State.tryStarved acc h).1.inputs = acc.1.inputs ∧
    (State.tryStarved acc h).1.captures = acc.1.captures ∧ (State.tryStarved acc h).1.site = acc.1.site := by
  unfold State.tryStarved
  and_intros <;> (repeat' split) <;> (try dsimp only) <;> (repeat' split) <;> simp

@[simp] theorem State.reEvaluate_frame (s : State) :
   s.reEvaluate.pending = s.pending ∧ s.reEvaluate.now = s.now ∧ s.reEvaluate.choices = s.choices ∧
    s.reEvaluate.store = s.store ∧ s.reEvaluate.ctl = s.ctl ∧ s.reEvaluate.rackTemps = s.rackTemps ∧
    s.reEvaluate.order = s.order ∧ s.reEvaluate.poolGains = s.poolGains ∧ s.reEvaluate.inputs = s.inputs ∧
    s.reEvaluate.site = s.site := by
  have keep {β : Type} (g : State → β) (hg : ∀ a h, g (State.tryStarved a h).1 = g a.1) :
      g (s.order.foldl State.tryStarved (s, [])).1 = g s :=
    foldl_keeps State.tryStarved (fun a => g a.1) hg s.order (s, [])
  unfold State.reEvaluate
  and_intros <;> dsimp only <;> split <;> (try simp only [State.join_frame]) <;> exact keep _ fun a h => by simp [State.tryStarved_frame]

@[simp] theorem State.lockout_frame (s : State) :
   s.lockout.pending = s.pending ∧ s.lockout.now = s.now ∧ s.lockout.choices = s.choices ∧ s.lockout.store = s.store ∧
    s.lockout.ctl = s.ctl ∧ s.lockout.rackTemps = s.rackTemps ∧ s.lockout.inputs = s.inputs ∧ s.lockout.site = s.site := by
  have keep {β : Type} (g : State → β) (hg : ∀ s h, g (State.endClaim s h .aborted .abortedLockout) = g s) :
      g (allHalls.foldl (fun s h => match s.claim h with
        | some c => if c.state.shortOfFiring then s.endClaim h .aborted .abortedLockout else s
        | none => s) s) = g s :=
    foldl_keeps _ g (fun s h => by
      split
      · split
        · exact hg s h
        · rfl
      · rfl) _ _
  unfold State.lockout
  and_intros <;> dsimp only <;> exact keep _ fun s h => by simp

end Sys2Proof.Machine
end

