-- ==== Sys2Proof/Laws/Blocks.lean ====
section
/-! SUPPORT. What the operations of the Discharge Sequencer, the Cylinder Table, the Release Circuit Bank, Mode Control, the
contact inputs and the ports leave alone. -/

namespace Sys2Proof.Machine

/-! ### Discharge Sequencer -/

@[simp] theorem State.updSchedule_frame (s : State) (h : Hall) (f : Schedule → Schedule) :
   (s.updSchedule h f).pending = s.pending ∧ (s.updSchedule h f).now = s.now ∧
    (s.updSchedule h f).choices = s.choices ∧ (s.updSchedule h f).store = s.store ∧ (s.updSchedule h f).ctl = s.ctl ∧
    (s.updSchedule h f).cyls = s.cyls ∧ (s.updSchedule h f).rackTemps = s.rackTemps ∧
    (s.updSchedule h f).units = s.units ∧ (s.updSchedule h f).order = s.order ∧
    (s.updSchedule h f).poolGains = s.poolGains ∧ (s.updSchedule h f).manifold = s.manifold ∧
    (s.updSchedule h f).circuits = s.circuits ∧ (s.updSchedule h f).inputs = s.inputs ∧
    (s.updSchedule h f).captures = s.captures ∧ (s.updSchedule h f).ports = s.ports ∧
    (s.updSchedule h f).site = s.site := by
  unfold State.updSchedule
  and_intros <;> simp

@[simp] theorem State.discharge_frame (s : State) (h : Hall) (reason : EndReason) :
   (s.discharge h reason).pending = s.pending ∧ (s.discharge h reason).now = s.now ∧
    (s.discharge h reason).choices = s.choices ∧ (s.discharge h reason).store = s.store ∧
    (s.discharge h reason).cyls = s.cyls ∧ (s.discharge h reason).rackTemps = s.rackTemps ∧
    (s.discharge h reason).poolGains = s.poolGains ∧ (s.discharge h reason).inputs = s.inputs ∧
    (s.discharge h reason).site = s.site := by
  unfold State.discharge
  and_intros <;> (try dsimp only) <;> (repeat' split) <;> simp

@[simp] theorem State.enterConfirming_frame (s : State) (h : Hall) :
   (s.enterConfirming h).pending = s.pending ∧ (s.enterConfirming h).now = s.now ∧
    (s.enterConfirming h).choices = s.choices ∧ (s.enterConfirming h).store = s.store ∧
    (s.enterConfirming h).cyls = s.cyls ∧ (s.enterConfirming h).rackTemps = s.rackTemps ∧
    (s.enterConfirming h).poolGains = s.poolGains ∧ (s.enterConfirming h).inputs = s.inputs ∧
    (s.enterConfirming h).site = s.site := by
  unfold State.enterConfirming
  and_intros <;> (try dsimp only) <;> (repeat' split) <;> simp

@[simp] theorem State.lineCompletion_frame (s : State) (h : Hall) :
   (s.lineCompletion h).pending = s.pending ∧ (s.lineCompletion h).now = s.now ∧
    (s.lineCompletion h).choices = s.choices ∧ (s.lineCompletion h).store = s.store ∧
    (s.lineCompletion h).cyls = s.cyls ∧ (s.lineCompletion h).rackTemps = s.rackTemps ∧
    (s.lineCompletion h).poolGains = s.poolGains ∧ (s.lineCompletion h).inputs = s.inputs ∧
    (s.lineCompletion h).site = s.site := by
  unfold State.lineCompletion
  and_intros <;> (repeat' split) <;> simp

/-- Beginning some fire pulses touches the circuits alone. -/
@[simp] theorem State.firePulses_frame (s : State) (pulsed : List CylIdx) :
   (pulsed.foldl State.firePulse s).pending = s.pending ∧ (pulsed.foldl State.firePulse s).now = s.now ∧
    (pulsed.foldl State.firePulse s).choices = s.choices ∧ (pulsed.foldl State.firePulse s).store = s.store ∧
    (pulsed.foldl State.firePulse s).ctl = s.ctl ∧ (pulsed.foldl State.firePulse s).cyls = s.cyls ∧
    (pulsed.foldl State.firePulse s).rackTemps = s.rackTemps ∧ (pulsed.foldl State.firePulse s).claims = s.claims ∧
    (pulsed.foldl State.firePulse s).units = s.units ∧ (pulsed.foldl State.firePulse s).order = s.order ∧
    (pulsed.foldl State.firePulse s).poolGains = s.poolGains ∧
    (pulsed.foldl State.firePulse s).manifold = s.manifold ∧ (pulsed.foldl State.firePulse s).inputs = s.inputs ∧
    (pulsed.foldl State.firePulse s).captures = s.captures ∧ (pulsed.foldl State.firePulse s).ports = s.ports ∧
    (pulsed.foldl State.firePulse s).site = s.site := by
  and_intros <;> exact foldl_keeps _ _ (fun _ _ => by simp) _ _

@[simp] theorem State.fireLine_frame (s : State) (h : Hall) :
   (s.fireLine h).pending = s.pending ∧ (s.fireLine h).now = s.now ∧ (s.fireLine h).choices = s.choices ∧
    (s.fireLine h).store = s.store ∧ (s.fireLine h).cyls = s.cyls ∧ (s.fireLine h).rackTemps = s.rackTemps ∧
    (s.fireLine h).poolGains = s.poolGains ∧ (s.fireLine h).inputs = s.inputs ∧ (s.fireLine h).site = s.site := by
  unfold State.fireLine
  and_intros <;> (try dsimp only) <;> (repeat' split) <;> simp

@[simp] theorem State.beginDischarge_frame (s : State) (h : Hall) (t : Time) :
   (s.beginDischarge h t).pending = s.pending ∧ (s.beginDischarge h t).now = s.now ∧
    (s.beginDischarge h t).choices = s.choices ∧ (s.beginDischarge h t).store = s.store ∧
    (s.beginDischarge h t).cyls = s.cyls ∧ (s.beginDischarge h t).rackTemps = s.rackTemps ∧
    (s.beginDischarge h t).poolGains = s.poolGains ∧ (s.beginDischarge h t).inputs = s.inputs ∧
    (s.beginDischarge h t).site = s.site := by
  unfold State.beginDischarge
  and_intros <;> (try dsimp only) <;> simp

@[simp] theorem State.deferLine_frame (s : State) (h : Hall) :
   (s.deferLine h).pending = s.pending ∧ (s.deferLine h).now = s.now ∧ (s.deferLine h).choices = s.choices ∧
    (s.deferLine h).store = s.store ∧ (s.deferLine h).ctl = s.ctl ∧ (s.deferLine h).cyls = s.cyls ∧
    (s.deferLine h).rackTemps = s.rackTemps ∧ (s.deferLine h).order = s.order ∧
    (s.deferLine h).poolGains = s.poolGains ∧ (s.deferLine h).manifold = s.manifold ∧
    (s.deferLine h).circuits = s.circuits ∧ (s.deferLine h).inputs = s.inputs ∧
    (s.deferLine h).captures = s.captures ∧ (s.deferLine h).ports = s.ports ∧ (s.deferLine h).site = s.site := by
  unfold State.deferLine
  and_intros <;> (try dsimp only) <;> simp

@[simp] theorem State.lineTime_frame (s : State) (h : Hall) :
   (s.lineTime h).pending = s.pending ∧ (s.lineTime h).now = s.now ∧ (s.lineTime h).choices = s.choices ∧
    (s.lineTime h).store = s.store ∧ (s.lineTime h).cyls = s.cyls ∧ (s.lineTime h).rackTemps = s.rackTemps ∧
    (s.lineTime h).poolGains = s.poolGains ∧ (s.lineTime h).inputs = s.inputs ∧ (s.lineTime h).site = s.site := by
  unfold State.lineTime
  and_intros <;> (repeat' split) <;> simp

@[simp] theorem State.abandon_frame (s : State) (h : Hall) :
   (s.abandon h).pending = s.pending ∧ (s.abandon h).now = s.now ∧ (s.abandon h).choices = s.choices ∧
    (s.abandon h).store = s.store ∧ (s.abandon h).rackTemps = s.rackTemps ∧ (s.abandon h).inputs = s.inputs ∧
    (s.abandon h).site = s.site := by
  unfold State.abandon
  and_intros <;> (try dsimp only) <;> simp

@[simp] theorem State.sequencerEdge_frame (s : State) (h : Hall) (v : Valve) :
   (s.sequencerEdge h v).pending = s.pending ∧ (s.sequencerEdge h v).now = s.now ∧
    (s.sequencerEdge h v).choices = s.choices ∧ (s.sequencerEdge h v).store = s.store ∧
    (s.sequencerEdge h v).cyls = s.cyls ∧ (s.sequencerEdge h v).rackTemps = s.rackTemps ∧
    (s.sequencerEdge h v).poolGains = s.poolGains ∧ (s.sequencerEdge h v).inputs = s.inputs ∧
    (s.sequencerEdge h v).site = s.site := by
  unfold State.sequencerEdge
  and_intros <;> (repeat' split) <;> simp

@[simp] theorem State.finishPulse_frame (s : State) (h : Hall) :
   (s.finishPulse h).pending = s.pending ∧ (s.finishPulse h).now = s.now ∧ (s.finishPulse h).choices = s.choices ∧
    (s.finishPulse h).store = s.store ∧ (s.finishPulse h).cyls = s.cyls ∧ (s.finishPulse h).rackTemps = s.rackTemps ∧
    (s.finishPulse h).poolGains = s.poolGains ∧ (s.finishPulse h).inputs = s.inputs ∧ (s.finishPulse h).site = s.site := by
  unfold State.finishPulse
  and_intros <;> (try dsimp only) <;> (repeat' split) <;> simp

@[simp] theorem State.creditFired_frame (s : State) (h : Hall) (k : CylIdx) :
   (s.creditFired h k).pending = s.pending ∧ (s.creditFired h k).now = s.now ∧
    (s.creditFired h k).choices = s.choices ∧ (s.creditFired h k).store = s.store ∧ (s.creditFired h k).ctl = s.ctl ∧
    (s.creditFired h k).cyls = s.cyls ∧ (s.creditFired h k).rackTemps = s.rackTemps ∧
    (s.creditFired h k).units = s.units ∧ (s.creditFired h k).order = s.order ∧
    (s.creditFired h k).poolGains = s.poolGains ∧ (s.creditFired h k).manifold = s.manifold ∧
    (s.creditFired h k).circuits = s.circuits ∧ (s.creditFired h k).inputs = s.inputs ∧
    (s.creditFired h k).captures = s.captures ∧ (s.creditFired h k).ports = s.ports ∧
    (s.creditFired h k).site = s.site := by
  unfold State.creditFired
  and_intros <;> simp

@[simp] theorem State.pulseNormal_frame (s : State) (h : Hall) (k : CylIdx) :
   (s.pulseNormal h k).pending = s.pending ∧ (s.pulseNormal h k).now = s.now ∧
    (s.pulseNormal h k).choices = s.choices ∧ (s.pulseNormal h k).store = s.store ∧
    (s.pulseNormal h k).rackTemps = s.rackTemps ∧ (s.pulseNormal h k).poolGains = s.poolGains ∧
    (s.pulseNormal h k).inputs = s.inputs ∧ (s.pulseNormal h k).site = s.site := by
  unfold State.pulseNormal
  and_intros <;> simp

@[simp] theorem State.pulseFailed_frame (s : State) (h : Hall) (k : CylIdx) :
   (s.pulseFailed h k).pending = s.pending ∧ (s.pulseFailed h k).now = s.now ∧
    (s.pulseFailed h k).choices = s.choices ∧ (s.pulseFailed h k).store = s.store ∧
    (s.pulseFailed h k).rackTemps = s.rackTemps ∧ (s.pulseFailed h k).poolGains = s.poolGains ∧
    (s.pulseFailed h k).inputs = s.inputs ∧ (s.pulseFailed h k).site = s.site := by
  unfold State.pulseFailed
  and_intros <;> (try dsimp only) <;> simp

@[simp] theorem State.lostToFault_frame (s : State) (h : Hall) (k : CylIdx) :
   (s.lostToFault h k).pending = s.pending ∧ (s.lostToFault h k).now = s.now ∧
    (s.lostToFault h k).choices = s.choices ∧ (s.lostToFault h k).store = s.store ∧ (s.lostToFault h k).ctl = s.ctl ∧
    (s.lostToFault h k).rackTemps = s.rackTemps ∧ (s.lostToFault h k).order = s.order ∧
    (s.lostToFault h k).poolGains = s.poolGains ∧ (s.lostToFault h k).inputs = s.inputs ∧
    (s.lostToFault h k).site = s.site := by
  unfold State.lostToFault
  and_intros <;> (repeat' split) <;> simp

@[simp] theorem State.dischargeSeen_frame (s : State) (h : Hall) (t : Time) :
   (s.dischargeSeen h t).pending = s.pending ∧ (s.dischargeSeen h t).now = s.now ∧
    (s.dischargeSeen h t).choices = s.choices ∧ (s.dischargeSeen h t).store = s.store ∧
    (s.dischargeSeen h t).cyls = s.cyls ∧ (s.dischargeSeen h t).rackTemps = s.rackTemps ∧
    (s.dischargeSeen h t).poolGains = s.poolGains ∧ (s.dischargeSeen h t).inputs = s.inputs ∧
    (s.dischargeSeen h t).site = s.site := by
  unfold State.dischargeSeen
  and_intros <;> (try dsimp only) <;> (repeat' split) <;> simp

/-! ### Cylinder Table -/

@[simp] theorem State.handOver_frame (s : State) (k : CylIdx) (valid : Bool) (old new : Cylinder) :
   (s.handOver k valid old new).pending = s.pending ∧ (s.handOver k valid old new).now = s.now ∧
    (s.handOver k valid old new).choices = s.choices ∧ (s.handOver k valid old new).store = s.store ∧
    (s.handOver k valid old new).ctl = s.ctl ∧ (s.handOver k valid old new).rackTemps = s.rackTemps ∧
    (s.handOver k valid old new).order = s.order ∧ (s.handOver k valid old new).inputs = s.inputs ∧
    (s.handOver k valid old new).site = s.site := by
  unfold State.handOver
  and_intros <;> (repeat' split) <;> simp

@[simp] theorem State.takeSample_frame (s : State) (k : CylIdx) (p : Option Nat) :
   (s.takeSample k p).pending = s.pending ∧ (s.takeSample k p).now = s.now ∧ (s.takeSample k p).choices = s.choices ∧
    (s.takeSample k p).store = s.store ∧ (s.takeSample k p).ctl = s.ctl ∧ (s.takeSample k p).rackTemps = s.rackTemps ∧
    (s.takeSample k p).order = s.order ∧ (s.takeSample k p).inputs = s.inputs ∧ (s.takeSample k p).site = s.site := by
  unfold State.takeSample
  and_intros <;> (try dsimp only) <;> (repeat' split) <;> simp

@[simp] theorem State.takeRackSample_frame (s : State) (r : Rack) (t : Option Int) :
   (s.takeRackSample r t).pending = s.pending ∧ (s.takeRackSample r t).now = s.now ∧
    (s.takeRackSample r t).choices = s.choices ∧ (s.takeRackSample r t).store = s.store ∧
    (s.takeRackSample r t).ctl = s.ctl ∧ (s.takeRackSample r t).cyls = s.cyls ∧
    (s.takeRackSample r t).claims = s.claims ∧ (s.takeRackSample r t).units = s.units ∧
    (s.takeRackSample r t).order = s.order ∧ (s.takeRackSample r t).poolGains = s.poolGains ∧
    (s.takeRackSample r t).manifold = s.manifold ∧ (s.takeRackSample r t).circuits = s.circuits ∧
    (s.takeRackSample r t).inputs = s.inputs ∧ (s.takeRackSample r t).captures = s.captures ∧
    (s.takeRackSample r t).ports = s.ports ∧ (s.takeRackSample r t).site = s.site := by
  unfold State.takeRackSample
  and_intros <;> (repeat' split) <;> simp

@[simp] theorem State.actuatorFaulted_frame (s : State) (k : CylIdx) :
   (s.actuatorFaulted k).pending = s.pending ∧ (s.actuatorFaulted k).now = s.now ∧
    (s.actuatorFaulted k).choices = s.choices ∧ (s.actuatorFaulted k).store = s.store ∧
    (s.actuatorFaulted k).ctl = s.ctl ∧ (s.actuatorFaulted k).rackTemps = s.rackTemps ∧
    (s.actuatorFaulted k).order = s.order ∧ (s.actuatorFaulted k).poolGains = s.poolGains ∧
    (s.actuatorFaulted k).inputs = s.inputs ∧ (s.actuatorFaulted k).site = s.site := by
  unfold State.actuatorFaulted
  and_intros <;> (repeat' split) <;> simp

@[simp] theorem State.actuatorGood_frame (s : State) (k : CylIdx) :
   (s.actuatorGood k).pending = s.pending ∧ (s.actuatorGood k).now = s.now ∧ (s.actuatorGood k).choices = s.choices ∧
    (s.actuatorGood k).store = s.store ∧ (s.actuatorGood k).ctl = s.ctl ∧ (s.actuatorGood k).rackTemps = s.rackTemps ∧
    (s.actuatorGood k).claims = s.claims ∧ (s.actuatorGood k).units = s.units ∧ (s.actuatorGood k).order = s.order ∧
    (s.actuatorGood k).manifold = s.manifold ∧ (s.actuatorGood k).circuits = s.circuits ∧
    (s.actuatorGood k).inputs = s.inputs ∧ (s.actuatorGood k).captures = s.captures ∧
    (s.actuatorGood k).ports = s.ports ∧ (s.actuatorGood k).site = s.site := by
  unfold State.actuatorGood
  and_intros <;> (try dsimp only) <;> (repeat' split) <;> simp

@[simp] theorem State.isolate_frame (s : State) (k : CylIdx) :
   (s.isolate k).pending = s.pending ∧ (s.isolate k).now = s.now ∧ (s.isolate k).choices = s.choices ∧
    (s.isolate k).store = s.store ∧ (s.isolate k).ctl = s.ctl ∧ (s.isolate k).rackTemps = s.rackTemps ∧
    (s.isolate k).claims = s.claims ∧ (s.isolate k).units = s.units ∧ (s.isolate k).order = s.order ∧
    (s.isolate k).poolGains = s.poolGains ∧ (s.isolate k).manifold = s.manifold ∧
    (s.isolate k).circuits = s.circuits ∧ (s.isolate k).inputs = s.inputs ∧ (s.isolate k).captures = s.captures ∧
    (s.isolate k).ports = s.ports ∧ (s.isolate k).site = s.site := by
  unfold State.isolate
  and_intros <;> simp

@[simp] theorem State.restore_frame (s : State) (k : CylIdx) :
   (s.restore k).pending = s.pending ∧ (s.restore k).now = s.now ∧ (s.restore k).choices = s.choices ∧
    (s.restore k).store = s.store ∧ (s.restore k).ctl = s.ctl ∧ (s.restore k).rackTemps = s.rackTemps ∧
    (s.restore k).claims = s.claims ∧ (s.restore k).units = s.units ∧ (s.restore k).order = s.order ∧
    (s.restore k).manifold = s.manifold ∧ (s.restore k).circuits = s.circuits ∧ (s.restore k).inputs = s.inputs ∧
    (s.restore k).captures = s.captures ∧ (s.restore k).ports = s.ports ∧ (s.restore k).site = s.site := by
  unfold State.restore
  and_intros <;> (try dsimp only) <;> (repeat' split) <;> simp

@[simp] theorem State.cylinderWritten_frame (s : State) (k : CylIdx) (old : CylinderRecord) :
   (s.cylinderWritten k old).pending = s.pending ∧ (s.cylinderWritten k old).now = s.now ∧
    (s.cylinderWritten k old).choices = s.choices ∧ (s.cylinderWritten k old).store = s.store ∧
    (s.cylinderWritten k old).ctl = s.ctl ∧ (s.cylinderWritten k old).rackTemps = s.rackTemps ∧
    (s.cylinderWritten k old).claims = s.claims ∧ (s.cylinderWritten k old).units = s.units ∧
    (s.cylinderWritten k old).order = s.order ∧ (s.cylinderWritten k old).manifold = s.manifold ∧
    (s.cylinderWritten k old).circuits = s.circuits ∧ (s.cylinderWritten k old).inputs = s.inputs ∧
    (s.cylinderWritten k old).captures = s.captures ∧ (s.cylinderWritten k old).ports = s.ports ∧
    (s.cylinderWritten k old).site = s.site := by
  unfold State.cylinderWritten
  and_intros <;> (try dsimp only) <;> (repeat' split) <;> simp

/-! ### Release Circuit Bank -/

@[simp] theorem State.markFaulted_frame (s : State) (h : Hall) :
   (s.markFaulted h).pending = s.pending ∧ (s.markFaulted h).now = s.now ∧ (s.markFaulted h).choices = s.choices ∧
    (s.markFaulted h).store = s.store ∧ (s.markFaulted h).ctl = s.ctl ∧ (s.markFaulted h).rackTemps = s.rackTemps ∧
    (s.markFaulted h).inputs = s.inputs ∧ (s.markFaulted h).site = s.site := by
  unfold State.markFaulted
  and_intros <;> (try dsimp only) <;> (repeat' split) <;> simp

@[simp] theorem State.handCheck_frame (s : State) (role : Role) (r : LineState) (third : Bool) :
   (s.handCheck role r third).pending = s.pending ∧ (s.handCheck role r third).now = s.now ∧
    (s.handCheck role r third).choices = s.choices ∧ (s.handCheck role r third).store = s.store ∧
    (s.handCheck role r third).ctl = s.ctl ∧ (s.handCheck role r third).rackTemps = s.rackTemps ∧
    (s.handCheck role r third).inputs = s.inputs ∧ (s.handCheck role r third).site = s.site := by
  unfold State.handCheck
  and_intros <;> (repeat' split) <;> simp

@[simp] theorem State.superviseChannel_frame (s : State) (c : ChanIdx) (m : LineMeasurement) :
   (s.superviseChannel c m).pending = s.pending ∧ (s.superviseChannel c m).now = s.now ∧
    (s.superviseChannel c m).choices = s.choices ∧ (s.superviseChannel c m).store = s.store ∧
    (s.superviseChannel c m).ctl = s.ctl ∧ (s.superviseChannel c m).rackTemps = s.rackTemps ∧
    (s.superviseChannel c m).inputs = s.inputs ∧ (s.superviseChannel c m).site = s.site := by
  unfold State.superviseChannel
  and_intros <;> (try dsimp only) <;> (repeat' split) <;> simp

@[simp] theorem State.handPulse_frame (s : State) (k : CylIdx) (r : LineState) :
   (s.handPulse k r).pending = s.pending ∧ (s.handPulse k r).now = s.now ∧ (s.handPulse k r).choices = s.choices ∧
    (s.handPulse k r).store = s.store ∧ (s.handPulse k r).rackTemps = s.rackTemps ∧
    (s.handPulse k r).poolGains = s.poolGains ∧ (s.handPulse k r).inputs = s.inputs ∧ (s.handPulse k r).site = s.site := by
  unfold State.handPulse
  and_intros <;> (repeat' split) <;> simp

@[simp] theorem State.completePulse_frame (s : State) (c : ChanIdx) (msr : List PulseMeasurement) :
   (s.completePulse c msr).pending = s.pending ∧ (s.completePulse c msr).now = s.now ∧
    (s.completePulse c msr).choices = s.choices ∧ (s.completePulse c msr).store = s.store ∧
    (s.completePulse c msr).rackTemps = s.rackTemps ∧ (s.completePulse c msr).poolGains = s.poolGains ∧
    (s.completePulse c msr).inputs = s.inputs ∧ (s.completePulse c msr).site = s.site := by
  unfold State.completePulse
  and_intros <;> (try dsimp only) <;> (repeat' split) <;> simp

/-! ### Mode Control -/

@[simp] theorem State.completeStartup_frame (s : State) :
   (s.completeStartup).pending = s.pending ∧ (s.completeStartup).now = s.now ∧
    (s.completeStartup).choices = s.choices ∧ (s.completeStartup).store = s.store ∧
    (s.completeStartup).cyls = s.cyls ∧ (s.completeStartup).rackTemps = s.rackTemps ∧
    (s.completeStartup).claims = s.claims ∧ (s.completeStartup).units = s.units ∧
    (s.completeStartup).order = s.order ∧ (s.completeStartup).poolGains = s.poolGains ∧
    (s.completeStartup).manifold = s.manifold ∧ (s.completeStartup).inputs = s.inputs ∧
    (s.completeStartup).captures = s.captures := by
  unfold State.completeStartup
  and_intros <;> (try dsimp only) <;> (repeat' split) <;> simp

@[simp] theorem State.firstSample_frame (s : State) (src : SampleSource) :
   (s.firstSample src).pending = s.pending ∧ (s.firstSample src).now = s.now ∧
    (s.firstSample src).choices = s.choices ∧ (s.firstSample src).store = s.store ∧
    (s.firstSample src).cyls = s.cyls ∧ (s.firstSample src).rackTemps = s.rackTemps ∧
    (s.firstSample src).claims = s.claims ∧ (s.firstSample src).units = s.units ∧
    (s.firstSample src).order = s.order ∧ (s.firstSample src).poolGains = s.poolGains ∧
    (s.firstSample src).manifold = s.manifold ∧ (s.firstSample src).inputs = s.inputs ∧
    (s.firstSample src).captures = s.captures := by
  unfold State.firstSample
  and_intros <;> (try dsimp only) <;> (repeat' split) <;> simp

@[simp] theorem State.maintenanceExit_frame (s : State) :
   (s.maintenanceExit).pending = s.pending ∧ (s.maintenanceExit).now = s.now ∧
    (s.maintenanceExit).choices = s.choices ∧ (s.maintenanceExit).cyls = s.cyls ∧
    (s.maintenanceExit).rackTemps = s.rackTemps ∧ (s.maintenanceExit).claims = s.claims ∧
    (s.maintenanceExit).units = s.units ∧ (s.maintenanceExit).order = s.order ∧
    (s.maintenanceExit).poolGains = s.poolGains ∧ (s.maintenanceExit).manifold = s.manifold ∧
    (s.maintenanceExit).inputs = s.inputs ∧ (s.maintenanceExit).captures = s.captures ∧
    (s.maintenanceExit).ports = s.ports ∧ (s.maintenanceExit).site = s.site := by
  unfold State.maintenanceExit
  and_intros <;> (try dsimp only) <;> (repeat' split) <;> simp

@[simp] theorem State.exitIfPending_frame (s : State) :
   (s.exitIfPending).pending = s.pending ∧ (s.exitIfPending).now = s.now ∧ (s.exitIfPending).choices = s.choices ∧
    (s.exitIfPending).cyls = s.cyls ∧ (s.exitIfPending).rackTemps = s.rackTemps ∧
    (s.exitIfPending).claims = s.claims ∧ (s.exitIfPending).units = s.units ∧ (s.exitIfPending).order = s.order ∧
    (s.exitIfPending).poolGains = s.poolGains ∧ (s.exitIfPending).manifold = s.manifold ∧
    (s.exitIfPending).inputs = s.inputs ∧ (s.exitIfPending).captures = s.captures ∧
    (s.exitIfPending).ports = s.ports ∧ (s.exitIfPending).site = s.site := by
  unfold State.exitIfPending
  and_intros <;> (repeat' split) <;> simp

@[simp] theorem State.keyTurnedOn_frame (s : State) :
   (s.keyTurnedOn).pending = s.pending ∧ (s.keyTurnedOn).now = s.now ∧ (s.keyTurnedOn).choices = s.choices ∧
    (s.keyTurnedOn).store = s.store ∧ (s.keyTurnedOn).rackTemps = s.rackTemps ∧ (s.keyTurnedOn).inputs = s.inputs ∧
    (s.keyTurnedOn).site = s.site := by
  unfold State.keyTurnedOn
  and_intros <;> (try dsimp only) <;> (repeat' split) <;> simp

@[simp] theorem State.keyTurnedOff_frame (s : State) :
   (s.keyTurnedOff).pending = s.pending ∧ (s.keyTurnedOff).now = s.now ∧ (s.keyTurnedOff).choices = s.choices ∧
    (s.keyTurnedOff).cyls = s.cyls ∧ (s.keyTurnedOff).rackTemps = s.rackTemps ∧ (s.keyTurnedOff).claims = s.claims ∧
    (s.keyTurnedOff).units = s.units ∧ (s.keyTurnedOff).order = s.order ∧ (s.keyTurnedOff).poolGains = s.poolGains ∧
    (s.keyTurnedOff).manifold = s.manifold ∧ (s.keyTurnedOff).inputs = s.inputs ∧
    (s.keyTurnedOff).captures = s.captures ∧ (s.keyTurnedOff).ports = s.ports ∧ (s.keyTurnedOff).site = s.site := by
  unfold State.keyTurnedOff
  and_intros <;> (try dsimp only) <;> (repeat' split) <;> simp

/-! ### Contact inputs -/

@[simp] theorem State.setSelectorContact_frame (s : State) (h : Hall) (c : Contact) :
   (s.setSelectorContact h c).pending = s.pending ∧ (s.setSelectorContact h c).now = s.now ∧
    (s.setSelectorContact h c).choices = s.choices ∧ (s.setSelectorContact h c).store = s.store ∧
    (s.setSelectorContact h c).ctl = s.ctl ∧ (s.setSelectorContact h c).cyls = s.cyls ∧
    (s.setSelectorContact h c).rackTemps = s.rackTemps ∧ (s.setSelectorContact h c).claims = s.claims ∧
    (s.setSelectorContact h c).units = s.units ∧ (s.setSelectorContact h c).order = s.order ∧
    (s.setSelectorContact h c).poolGains = s.poolGains ∧ (s.setSelectorContact h c).manifold = s.manifold ∧
    (s.setSelectorContact h c).circuits = s.circuits ∧ (s.setSelectorContact h c).captures = s.captures ∧
    (s.setSelectorContact h c).ports = s.ports ∧ (s.setSelectorContact h c).site = s.site := by
  unfold State.setSelectorContact
  and_intros <;> (try dsimp only) <;> simp

@[simp] theorem State.setSwitchContact_frame (s : State) (c : Contact) :
   (s.setSwitchContact c).pending = s.pending ∧ (s.setSwitchContact c).now = s.now ∧
    (s.setSwitchContact c).choices = s.choices ∧ (s.setSwitchContact c).store = s.store ∧
    (s.setSwitchContact c).ctl = s.ctl ∧ (s.setSwitchContact c).cyls = s.cyls ∧
    (s.setSwitchContact c).rackTemps = s.rackTemps ∧ (s.setSwitchContact c).claims = s.claims ∧
    (s.setSwitchContact c).units = s.units ∧ (s.setSwitchContact c).order = s.order ∧
    (s.setSwitchContact c).poolGains = s.poolGains ∧ (s.setSwitchContact c).manifold = s.manifold ∧
    (s.setSwitchContact c).circuits = s.circuits ∧ (s.setSwitchContact c).captures = s.captures ∧
    (s.setSwitchContact c).ports = s.ports ∧ (s.setSwitchContact c).site = s.site := by
  unfold State.setSwitchContact
  and_intros <;> (try dsimp only) <;> simp

@[simp] theorem State.setKeyFilter_frame (s : State) (f : InputFilter Level) :
   (s.setKeyFilter f).pending = s.pending ∧ (s.setKeyFilter f).now = s.now ∧ (s.setKeyFilter f).choices = s.choices ∧
    (s.setKeyFilter f).store = s.store ∧ (s.setKeyFilter f).ctl = s.ctl ∧ (s.setKeyFilter f).cyls = s.cyls ∧
    (s.setKeyFilter f).rackTemps = s.rackTemps ∧ (s.setKeyFilter f).claims = s.claims ∧
    (s.setKeyFilter f).units = s.units ∧ (s.setKeyFilter f).order = s.order ∧
    (s.setKeyFilter f).poolGains = s.poolGains ∧ (s.setKeyFilter f).manifold = s.manifold ∧
    (s.setKeyFilter f).circuits = s.circuits ∧ (s.setKeyFilter f).captures = s.captures ∧
    (s.setKeyFilter f).ports = s.ports ∧ (s.setKeyFilter f).site = s.site := by
  unfold State.setKeyFilter
  and_intros <;> (try dsimp only) <;> simp

@[simp] theorem State.readContact_frame (s : State) (r : ContactReading) :
   (s.readContact r).pending = s.pending ∧ (s.readContact r).now = s.now ∧ (s.readContact r).choices = s.choices ∧
    (s.readContact r).store = s.store ∧ (s.readContact r).ctl = s.ctl ∧ (s.readContact r).cyls = s.cyls ∧
    (s.readContact r).rackTemps = s.rackTemps ∧ (s.readContact r).claims = s.claims ∧
    (s.readContact r).units = s.units ∧ (s.readContact r).order = s.order ∧
    (s.readContact r).poolGains = s.poolGains ∧ (s.readContact r).manifold = s.manifold ∧
    (s.readContact r).circuits = s.circuits ∧ (s.readContact r).captures = s.captures ∧
    (s.readContact r).ports = s.ports ∧ (s.readContact r).site = s.site := by
  unfold State.readContact
  and_intros <;> (repeat' split) <;> simp

@[simp] theorem State.handSelector_frame (s : State) (h : Hall) (v : Valve) (t : Time) :
   (s.handSelector h v t).pending = s.pending ∧ (s.handSelector h v t).now = s.now ∧
    (s.handSelector h v t).choices = s.choices ∧ (s.handSelector h v t).store = s.store ∧
    (s.handSelector h v t).cyls = s.cyls ∧ (s.handSelector h v t).rackTemps = s.rackTemps ∧
    (s.handSelector h v t).poolGains = s.poolGains ∧ (s.handSelector h v t).inputs = s.inputs ∧
    (s.handSelector h v t).site = s.site := by
  unfold State.handSelector
  and_intros <;> (try dsimp only) <;> (repeat' split) <;> simp

@[simp] theorem State.handSwitch_frame (s : State) (flow : Bool) (t : Time) :
   (s.handSwitch flow t).pending = s.pending ∧ (s.handSwitch flow t).now = s.now ∧
    (s.handSwitch flow t).choices = s.choices ∧ (s.handSwitch flow t).store = s.store ∧
    (s.handSwitch flow t).ctl = s.ctl ∧ (s.handSwitch flow t).cyls = s.cyls ∧
    (s.handSwitch flow t).rackTemps = s.rackTemps ∧ (s.handSwitch flow t).claims = s.claims ∧
    (s.handSwitch flow t).units = s.units ∧ (s.handSwitch flow t).order = s.order ∧
    (s.handSwitch flow t).poolGains = s.poolGains ∧ (s.handSwitch flow t).manifold = s.manifold ∧
    (s.handSwitch flow t).circuits = s.circuits ∧ (s.handSwitch flow t).inputs = s.inputs ∧
    (s.handSwitch flow t).ports = s.ports ∧ (s.handSwitch flow t).site = s.site := by
  unfold State.handSwitch
  and_intros <;> (repeat' split) <;> simp

@[simp] theorem State.selectorEdge_frame (s : State) (h : Hall) :
   (s.selectorEdge h).pending = s.pending ∧ (s.selectorEdge h).now = s.now ∧ (s.selectorEdge h).choices = s.choices ∧
    (s.selectorEdge h).store = s.store ∧ (s.selectorEdge h).cyls = s.cyls ∧
    (s.selectorEdge h).rackTemps = s.rackTemps ∧ (s.selectorEdge h).poolGains = s.poolGains ∧
    (s.selectorEdge h).site = s.site := by
  unfold State.selectorEdge
  and_intros <;> (try dsimp only) <;> (repeat' split) <;> simp

@[simp] theorem State.switchEdge_frame (s : State) :
   (s.switchEdge).pending = s.pending ∧ (s.switchEdge).now = s.now ∧ (s.switchEdge).choices = s.choices ∧
    (s.switchEdge).store = s.store ∧ (s.switchEdge).ctl = s.ctl ∧ (s.switchEdge).cyls = s.cyls ∧
    (s.switchEdge).rackTemps = s.rackTemps ∧ (s.switchEdge).claims = s.claims ∧ (s.switchEdge).units = s.units ∧
    (s.switchEdge).order = s.order ∧ (s.switchEdge).poolGains = s.poolGains ∧ (s.switchEdge).manifold = s.manifold ∧
    (s.switchEdge).circuits = s.circuits ∧ (s.switchEdge).ports = s.ports ∧ (s.switchEdge).site = s.site := by
  unfold State.switchEdge
  and_intros <;> (try dsimp only) <;> (repeat' split) <;> simp

@[simp] theorem State.takeKeyEdge_frame (s : State) :
   (s.takeKeyEdge).pending = s.pending ∧ (s.takeKeyEdge).now = s.now ∧ (s.takeKeyEdge).choices = s.choices ∧
    (s.takeKeyEdge).store = s.store ∧ (s.takeKeyEdge).ctl = s.ctl ∧ (s.takeKeyEdge).cyls = s.cyls ∧
    (s.takeKeyEdge).rackTemps = s.rackTemps ∧ (s.takeKeyEdge).claims = s.claims ∧ (s.takeKeyEdge).units = s.units ∧
    (s.takeKeyEdge).order = s.order ∧ (s.takeKeyEdge).poolGains = s.poolGains ∧
    (s.takeKeyEdge).manifold = s.manifold ∧ (s.takeKeyEdge).circuits = s.circuits ∧
    (s.takeKeyEdge).captures = s.captures ∧ (s.takeKeyEdge).ports = s.ports ∧ (s.takeKeyEdge).site = s.site := by
  unfold State.takeKeyEdge
  and_intros <;> simp

@[simp] theorem State.loopChange_frame (s : State) (c : SupervisedContact) :
   (s.loopChange c).pending = s.pending ∧ (s.loopChange c).now = s.now ∧ (s.loopChange c).choices = s.choices ∧
    (s.loopChange c).store = s.store ∧ (s.loopChange c).ctl = s.ctl ∧ (s.loopChange c).cyls = s.cyls ∧
    (s.loopChange c).rackTemps = s.rackTemps ∧ (s.loopChange c).claims = s.claims ∧ (s.loopChange c).units = s.units ∧
    (s.loopChange c).order = s.order ∧ (s.loopChange c).poolGains = s.poolGains ∧
    (s.loopChange c).manifold = s.manifold ∧ (s.loopChange c).circuits = s.circuits ∧
    (s.loopChange c).captures = s.captures ∧ (s.loopChange c).ports = s.ports ∧ (s.loopChange c).site = s.site := by
  unfold State.loopChange
  and_intros <;> (try dsimp only) <;> (repeat' split) <;> simp

/-- Testing every hall for a mismatch touches the flags and the ports' latches. -/
@[simp] theorem State.testMismatches_frame (s : State) (hs : List Hall) :
   (hs.foldl State.testMismatch s).pending = s.pending ∧ (hs.foldl State.testMismatch s).now = s.now ∧
    (hs.foldl State.testMismatch s).choices = s.choices ∧ (hs.foldl State.testMismatch s).store = s.store ∧
    (hs.foldl State.testMismatch s).ctl = s.ctl ∧ (hs.foldl State.testMismatch s).cyls = s.cyls ∧
    (hs.foldl State.testMismatch s).rackTemps = s.rackTemps ∧ (hs.foldl State.testMismatch s).claims = s.claims ∧
    (hs.foldl State.testMismatch s).units = s.units ∧ (hs.foldl State.testMismatch s).order = s.order ∧
    (hs.foldl State.testMismatch s).poolGains = s.poolGains ∧ (hs.foldl State.testMismatch s).circuits = s.circuits ∧
    (hs.foldl State.testMismatch s).inputs = s.inputs ∧ (hs.foldl State.testMismatch s).captures = s.captures ∧
    (hs.foldl State.testMismatch s).site = s.site := by
  and_intros <;> exact foldl_keeps _ _ (fun _ _ => by simp) _ _

@[simp] theorem State.establish_frame (s : State) :
   (s.establish).pending = s.pending ∧ (s.establish).now = s.now ∧ (s.establish).choices = s.choices ∧
    (s.establish).store = s.store ∧ (s.establish).cyls = s.cyls ∧ (s.establish).rackTemps = s.rackTemps ∧
    (s.establish).claims = s.claims ∧ (s.establish).units = s.units ∧ (s.establish).order = s.order ∧
    (s.establish).poolGains = s.poolGains ∧ (s.establish).circuits = s.circuits ∧
    (s.establish).captures = s.captures ∧ (s.establish).site = s.site := by
  unfold State.establish
  and_intros <;> (try dsimp only) <;> (repeat' split) <;> simp

@[simp] theorem State.represent_frame (s : State) :
   (s.represent).pending = s.pending ∧ (s.represent).now = s.now ∧ (s.represent).choices = s.choices ∧
    (s.represent).store = s.store ∧ (s.represent).ctl = s.ctl ∧ (s.represent).cyls = s.cyls ∧
    (s.represent).rackTemps = s.rackTemps ∧ (s.represent).claims = s.claims ∧ (s.represent).units = s.units ∧
    (s.represent).order = s.order ∧ (s.represent).poolGains = s.poolGains ∧ (s.represent).manifold = s.manifold ∧
    (s.represent).circuits = s.circuits ∧ (s.represent).captures = s.captures ∧ (s.represent).ports = s.ports ∧
    (s.represent).site = s.site := by
  unfold State.represent
  and_intros <;> (try dsimp only) <;> (repeat' split) <;> simp

/-! ### Hall ports -/

@[simp] theorem State.answerHall_frame (s : State) (h : Hall) (kind : Byte) (result : Result) (live : Option LiveFigures) :
   (s.answerHall h kind result live).pending = s.pending ∧ (s.answerHall h kind result live).now = s.now ∧
    (s.answerHall h kind result live).store = s.store ∧ (s.answerHall h kind result live).ctl = s.ctl ∧
    (s.answerHall h kind result live).cyls = s.cyls ∧ (s.answerHall h kind result live).rackTemps = s.rackTemps ∧
    (s.answerHall h kind result live).claims = s.claims ∧ (s.answerHall h kind result live).units = s.units ∧
    (s.answerHall h kind result live).order = s.order ∧ (s.answerHall h kind result live).poolGains = s.poolGains ∧
    (s.answerHall h kind result live).manifold = s.manifold ∧
    (s.answerHall h kind result live).circuits = s.circuits ∧ (s.answerHall h kind result live).inputs = s.inputs ∧
    (s.answerHall h kind result live).captures = s.captures ∧ (s.answerHall h kind result live).site = s.site := by
  unfold State.answerHall
  and_intros <;> (try dsimp only) <;> simp

@[simp] theorem State.superviseLink_frame (s : State) (h : Hall) :
   (s.superviseLink h).pending = s.pending ∧ (s.superviseLink h).now = s.now ∧
    (s.superviseLink h).choices = s.choices ∧ (s.superviseLink h).store = s.store ∧ (s.superviseLink h).ctl = s.ctl ∧
    (s.superviseLink h).cyls = s.cyls ∧ (s.superviseLink h).rackTemps = s.rackTemps ∧
    (s.superviseLink h).claims = s.claims ∧ (s.superviseLink h).units = s.units ∧
    (s.superviseLink h).order = s.order ∧ (s.superviseLink h).poolGains = s.poolGains ∧
    (s.superviseLink h).manifold = s.manifold ∧ (s.superviseLink h).circuits = s.circuits ∧
    (s.superviseLink h).inputs = s.inputs ∧ (s.superviseLink h).captures = s.captures ∧
    (s.superviseLink h).site = s.site := by
  unfold State.superviseLink
  and_intros <;> simp

@[simp] theorem State.releaseFrame_frame (s : State) (h : Hall) (f : Frame) :
   (s.releaseFrame h f).pending = s.pending ∧ (s.releaseFrame h f).now = s.now ∧
    (s.releaseFrame h f).choices = s.choices ∧ (s.releaseFrame h f).store = s.store ∧
    (s.releaseFrame h f).ctl = s.ctl ∧ (s.releaseFrame h f).cyls = s.cyls ∧
    (s.releaseFrame h f).rackTemps = s.rackTemps ∧ (s.releaseFrame h f).claims = s.claims ∧
    (s.releaseFrame h f).units = s.units ∧ (s.releaseFrame h f).order = s.order ∧
    (s.releaseFrame h f).poolGains = s.poolGains ∧ (s.releaseFrame h f).manifold = s.manifold ∧
    (s.releaseFrame h f).circuits = s.circuits ∧ (s.releaseFrame h f).inputs = s.inputs ∧
    (s.releaseFrame h f).captures = s.captures ∧ (s.releaseFrame h f).site = s.site := by
  unfold State.releaseFrame
  and_intros <;> simp

@[simp] theorem State.reportTemperature_frame (s : State) (h : Hall) (t : Int) :
   (s.reportTemperature h t).pending = s.pending ∧ (s.reportTemperature h t).now = s.now ∧
    (s.reportTemperature h t).choices = s.choices ∧ (s.reportTemperature h t).store = s.store ∧
    (s.reportTemperature h t).ctl = s.ctl ∧ (s.reportTemperature h t).cyls = s.cyls ∧
    (s.reportTemperature h t).rackTemps = s.rackTemps ∧ (s.reportTemperature h t).claims = s.claims ∧
    (s.reportTemperature h t).units = s.units ∧ (s.reportTemperature h t).order = s.order ∧
    (s.reportTemperature h t).poolGains = s.poolGains ∧ (s.reportTemperature h t).manifold = s.manifold ∧
    (s.reportTemperature h t).circuits = s.circuits ∧ (s.reportTemperature h t).inputs = s.inputs ∧
    (s.reportTemperature h t).captures = s.captures ∧ (s.reportTemperature h t).site = s.site := by
  unfold State.reportTemperature
  and_intros <;> (try dsimp only) <;> simp

@[simp] theorem State.hallByte_frame (s : State) (h : Hall) (b : Byte) :
   (s.hallByte h b).pending = s.pending ∧ (s.hallByte h b).now = s.now ∧ (s.hallByte h b).choices = s.choices ∧
    (s.hallByte h b).store = s.store ∧ (s.hallByte h b).ctl = s.ctl ∧ (s.hallByte h b).cyls = s.cyls ∧
    (s.hallByte h b).rackTemps = s.rackTemps ∧ (s.hallByte h b).claims = s.claims ∧ (s.hallByte h b).units = s.units ∧
    (s.hallByte h b).order = s.order ∧ (s.hallByte h b).poolGains = s.poolGains ∧
    (s.hallByte h b).manifold = s.manifold ∧ (s.hallByte h b).circuits = s.circuits ∧
    (s.hallByte h b).inputs = s.inputs ∧ (s.hallByte h b).captures = s.captures ∧ (s.hallByte h b).site = s.site := by
  unfold State.hallByte
  and_intros <;> simp

@[simp] theorem State.linkLost_frame (s : State) (h : Hall) :
   (s.linkLost h).pending = s.pending ∧ (s.linkLost h).now = s.now ∧ (s.linkLost h).choices = s.choices ∧
    (s.linkLost h).store = s.store ∧ (s.linkLost h).ctl = s.ctl ∧ (s.linkLost h).cyls = s.cyls ∧
    (s.linkLost h).rackTemps = s.rackTemps ∧ (s.linkLost h).claims = s.claims ∧ (s.linkLost h).units = s.units ∧
    (s.linkLost h).order = s.order ∧ (s.linkLost h).poolGains = s.poolGains ∧ (s.linkLost h).manifold = s.manifold ∧
    (s.linkLost h).circuits = s.circuits ∧ (s.linkLost h).inputs = s.inputs ∧ (s.linkLost h).captures = s.captures ∧
    (s.linkLost h).site = s.site := by
  unfold State.linkLost
  and_intros <;> simp

@[simp] theorem State.withdrawTemperature_frame (s : State) (h : Hall) :
   (s.withdrawTemperature h).pending = s.pending ∧ (s.withdrawTemperature h).now = s.now ∧
    (s.withdrawTemperature h).choices = s.choices ∧ (s.withdrawTemperature h).store = s.store ∧
    (s.withdrawTemperature h).ctl = s.ctl ∧ (s.withdrawTemperature h).cyls = s.cyls ∧
    (s.withdrawTemperature h).rackTemps = s.rackTemps ∧ (s.withdrawTemperature h).claims = s.claims ∧
    (s.withdrawTemperature h).units = s.units ∧ (s.withdrawTemperature h).order = s.order ∧
    (s.withdrawTemperature h).poolGains = s.poolGains ∧ (s.withdrawTemperature h).manifold = s.manifold ∧
    (s.withdrawTemperature h).circuits = s.circuits ∧ (s.withdrawTemperature h).inputs = s.inputs ∧
    (s.withdrawTemperature h).captures = s.captures ∧ (s.withdrawTemperature h).site = s.site := by
  unfold State.withdrawTemperature
  and_intros <;> simp

/-! ### Site port -/

@[simp] theorem State.answerSite_frame (s : State) (kind : Byte) (result : Result) (content : List Byte) :
   (s.answerSite kind result content).pending = s.pending ∧ (s.answerSite kind result content).now = s.now ∧
    (s.answerSite kind result content).store = s.store ∧ (s.answerSite kind result content).ctl = s.ctl ∧
    (s.answerSite kind result content).cyls = s.cyls ∧ (s.answerSite kind result content).rackTemps = s.rackTemps ∧
    (s.answerSite kind result content).claims = s.claims ∧ (s.answerSite kind result content).units = s.units ∧
    (s.answerSite kind result content).order = s.order ∧ (s.answerSite kind result content).poolGains = s.poolGains ∧
    (s.answerSite kind result content).manifold = s.manifold ∧
    (s.answerSite kind result content).circuits = s.circuits ∧ (s.answerSite kind result content).inputs = s.inputs ∧
    (s.answerSite kind result content).captures = s.captures ∧ (s.answerSite kind result content).ports = s.ports := by
  unfold State.answerSite
  and_intros <;> (try dsimp only) <;> (repeat' split) <;> simp

@[simp] theorem State.siteArrival_frame (s : State) (f : Frame) (owner : State → SiteOutcome) :
   (s.siteArrival f owner).pending = s.pending ∧ (s.siteArrival f owner).now = s.now ∧
    (s.siteArrival f owner).ctl = s.ctl ∧ (s.siteArrival f owner).cyls = s.cyls ∧
    (s.siteArrival f owner).rackTemps = s.rackTemps ∧ (s.siteArrival f owner).claims = s.claims ∧
    (s.siteArrival f owner).units = s.units ∧ (s.siteArrival f owner).order = s.order ∧
    (s.siteArrival f owner).poolGains = s.poolGains ∧ (s.siteArrival f owner).manifold = s.manifold ∧
    (s.siteArrival f owner).circuits = s.circuits ∧ (s.siteArrival f owner).inputs = s.inputs ∧
    (s.siteArrival f owner).captures = s.captures ∧ (s.siteArrival f owner).ports = s.ports := by
  unfold State.siteArrival
  and_intros <;> (try dsimp only) <;> (repeat' split) <;> simp

@[simp] theorem State.openLevelWritten_frame (s : State) (h : Hall) (before : Option Valve) :
   (s.openLevelWritten h before).pending = s.pending ∧ (s.openLevelWritten h before).now = s.now ∧
    (s.openLevelWritten h before).choices = s.choices ∧ (s.openLevelWritten h before).store = s.store ∧
    (s.openLevelWritten h before).cyls = s.cyls ∧ (s.openLevelWritten h before).rackTemps = s.rackTemps ∧
    (s.openLevelWritten h before).poolGains = s.poolGains ∧ (s.openLevelWritten h before).inputs = s.inputs ∧
    (s.openLevelWritten h before).site = s.site := by
  unfold State.openLevelWritten
  and_intros <;> (repeat' split) <;> simp

@[simp] theorem State.commissionedWritten_frame (s : State) (h : Hall) (before : Bool) :
   (s.commissionedWritten h before).pending = s.pending ∧ (s.commissionedWritten h before).now = s.now ∧
    (s.commissionedWritten h before).choices = s.choices ∧ (s.commissionedWritten h before).store = s.store ∧
    (s.commissionedWritten h before).ctl = s.ctl ∧ (s.commissionedWritten h before).cyls = s.cyls ∧
    (s.commissionedWritten h before).rackTemps = s.rackTemps ∧ (s.commissionedWritten h before).order = s.order ∧
    (s.commissionedWritten h before).poolGains = s.poolGains ∧ (s.commissionedWritten h before).inputs = s.inputs ∧
    (s.commissionedWritten h before).site = s.site := by
  unfold State.commissionedWritten
  and_intros <;> (repeat' split) <;> simp

@[simp] theorem State.flowLevelWritten_frame (s : State) (before : Option Bool) :
   (s.flowLevelWritten before).pending = s.pending ∧ (s.flowLevelWritten before).now = s.now ∧
    (s.flowLevelWritten before).choices = s.choices ∧ (s.flowLevelWritten before).store = s.store ∧
    (s.flowLevelWritten before).ctl = s.ctl ∧ (s.flowLevelWritten before).cyls = s.cyls ∧
    (s.flowLevelWritten before).rackTemps = s.rackTemps ∧ (s.flowLevelWritten before).claims = s.claims ∧
    (s.flowLevelWritten before).units = s.units ∧ (s.flowLevelWritten before).order = s.order ∧
    (s.flowLevelWritten before).poolGains = s.poolGains ∧ (s.flowLevelWritten before).manifold = s.manifold ∧
    (s.flowLevelWritten before).circuits = s.circuits ∧ (s.flowLevelWritten before).inputs = s.inputs ∧
    (s.flowLevelWritten before).ports = s.ports ∧ (s.flowLevelWritten before).site = s.site := by
  unfold State.flowLevelWritten
  and_intros <;> (repeat' split) <;> simp

@[simp] theorem State.roleWritten_frame (s : State) (c : ChanIdx) (before : Role) :
   (s.roleWritten c before).pending = s.pending ∧ (s.roleWritten c before).now = s.now ∧
    (s.roleWritten c before).choices = s.choices ∧ (s.roleWritten c before).store = s.store ∧
    (s.roleWritten c before).ctl = s.ctl ∧ (s.roleWritten c before).cyls = s.cyls ∧
    (s.roleWritten c before).rackTemps = s.rackTemps ∧ (s.roleWritten c before).claims = s.claims ∧
    (s.roleWritten c before).units = s.units ∧ (s.roleWritten c before).order = s.order ∧
    (s.roleWritten c before).poolGains = s.poolGains ∧ (s.roleWritten c before).manifold = s.manifold ∧
    (s.roleWritten c before).inputs = s.inputs ∧ (s.roleWritten c before).captures = s.captures ∧
    (s.roleWritten c before).ports = s.ports ∧ (s.roleWritten c before).site = s.site := by
  unfold State.roleWritten
  and_intros <;> (try dsimp only) <;> (repeat' split) <;> simp

@[simp] theorem State.writeEnded_frame (s : State) :
   (s.writeEnded).pending = s.pending ∧ (s.writeEnded).now = s.now ∧ (s.writeEnded).choices = s.choices ∧
    (s.writeEnded).ctl = s.ctl ∧ (s.writeEnded).cyls = s.cyls ∧ (s.writeEnded).rackTemps = s.rackTemps ∧
    (s.writeEnded).claims = s.claims ∧ (s.writeEnded).units = s.units ∧ (s.writeEnded).order = s.order ∧
    (s.writeEnded).poolGains = s.poolGains ∧ (s.writeEnded).manifold = s.manifold ∧
    (s.writeEnded).circuits = s.circuits ∧ (s.writeEnded).inputs = s.inputs ∧ (s.writeEnded).captures = s.captures ∧
    (s.writeEnded).ports = s.ports ∧ (s.writeEnded).site = s.site := by
  unfold State.writeEnded
  and_intros <;> (try dsimp only) <;> simp

@[simp] theorem State.applyWrite_frame (s : State) (w : RecordWrite) :
   (s.applyWrite w).pending = s.pending ∧ (s.applyWrite w).now = s.now ∧ (s.applyWrite w).choices = s.choices ∧
    (s.applyWrite w).rackTemps = s.rackTemps ∧ (s.applyWrite w).site = s.site := by
  unfold State.applyWrite
  and_intros <;> (try dsimp only) <;> (repeat' split) <;> simp

@[simp] theorem State.completeWrite_frame (s : State) (w : RecordWrite) :
   (s.completeWrite w).pending = s.pending ∧ (s.completeWrite w).now = s.now ∧
    (s.completeWrite w).rackTemps = s.rackTemps := by
  unfold State.completeWrite
  and_intros <;> (try dsimp only) <;> simp

@[simp] theorem State.clearFailedPulse_frame (s : State) (k : CylIdx) :
   (s.clearFailedPulse k).pending = s.pending ∧ (s.clearFailedPulse k).now = s.now ∧
    (s.clearFailedPulse k).choices = s.choices ∧ (s.clearFailedPulse k).store = s.store ∧
    (s.clearFailedPulse k).ctl = s.ctl ∧ (s.clearFailedPulse k).cyls = s.cyls ∧
    (s.clearFailedPulse k).rackTemps = s.rackTemps ∧ (s.clearFailedPulse k).claims = s.claims ∧
    (s.clearFailedPulse k).units = s.units ∧ (s.clearFailedPulse k).order = s.order ∧
    (s.clearFailedPulse k).poolGains = s.poolGains ∧ (s.clearFailedPulse k).manifold = s.manifold ∧
    (s.clearFailedPulse k).inputs = s.inputs ∧ (s.clearFailedPulse k).captures = s.captures ∧
    (s.clearFailedPulse k).ports = s.ports ∧ (s.clearFailedPulse k).site = s.site := by
  unfold State.clearFailedPulse
  and_intros <;> dsimp only

@[simp] theorem State.answerMaint_frame (s : State) (kind : Byte) (k : CylIdx) :
   (s.answerMaint kind k).pending = s.pending ∧ (s.answerMaint kind k).now = s.now ∧
    (s.answerMaint kind k).store = s.store ∧ (s.answerMaint kind k).ctl = s.ctl ∧
    (s.answerMaint kind k).cyls = s.cyls ∧ (s.answerMaint kind k).rackTemps = s.rackTemps ∧
    (s.answerMaint kind k).claims = s.claims ∧ (s.answerMaint kind k).units = s.units ∧
    (s.answerMaint kind k).order = s.order ∧ (s.answerMaint kind k).poolGains = s.poolGains ∧
    (s.answerMaint kind k).manifold = s.manifold ∧ (s.answerMaint kind k).circuits = s.circuits ∧
    (s.answerMaint kind k).inputs = s.inputs ∧ (s.answerMaint kind k).captures = s.captures ∧
    (s.answerMaint kind k).ports = s.ports := by
  unfold State.answerMaint
  and_intros <;> simp

@[simp] theorem State.completeIsolate_frame (s : State) (k : CylIdx) :
   (s.completeIsolate k).pending = s.pending ∧ (s.completeIsolate k).now = s.now ∧
    (s.completeIsolate k).rackTemps = s.rackTemps ∧ (s.completeIsolate k).claims = s.claims ∧
    (s.completeIsolate k).units = s.units ∧ (s.completeIsolate k).order = s.order ∧
    (s.completeIsolate k).poolGains = s.poolGains ∧ (s.completeIsolate k).manifold = s.manifold ∧
    (s.completeIsolate k).inputs = s.inputs ∧ (s.completeIsolate k).captures = s.captures ∧
    (s.completeIsolate k).ports = s.ports := by
  unfold State.completeIsolate
  and_intros <;> (try dsimp only) <;> simp

@[simp] theorem State.completeRestore_frame (s : State) (k : CylIdx) :
   (s.completeRestore k).pending = s.pending ∧ (s.completeRestore k).now = s.now ∧
    (s.completeRestore k).rackTemps = s.rackTemps ∧ (s.completeRestore k).claims = s.claims ∧
    (s.completeRestore k).units = s.units ∧ (s.completeRestore k).order = s.order ∧
    (s.completeRestore k).manifold = s.manifold ∧ (s.completeRestore k).inputs = s.inputs ∧
    (s.completeRestore k).captures = s.captures ∧ (s.completeRestore k).ports = s.ports := by
  unfold State.completeRestore
  and_intros <;> (try dsimp only) <;> simp

@[simp] theorem State.crcStored_frame (s : State) :
   (s.crcStored).pending = s.pending ∧ (s.crcStored).now = s.now ∧ (s.crcStored).choices = s.choices ∧
    (s.crcStored).ctl = s.ctl ∧ (s.crcStored).cyls = s.cyls ∧ (s.crcStored).rackTemps = s.rackTemps ∧
    (s.crcStored).claims = s.claims ∧ (s.crcStored).units = s.units ∧ (s.crcStored).order = s.order ∧
    (s.crcStored).poolGains = s.poolGains ∧ (s.crcStored).manifold = s.manifold ∧
    (s.crcStored).circuits = s.circuits ∧ (s.crcStored).inputs = s.inputs ∧ (s.crcStored).captures = s.captures ∧
    (s.crcStored).ports = s.ports ∧ (s.crcStored).site = s.site := by
  unfold State.crcStored
  and_intros <;> (try dsimp only) <;> (repeat' split) <;> simp

@[simp] theorem State.siteByte_frame (s : State) (b : Byte) :
   (s.siteByte b).pending = s.pending ∧ (s.siteByte b).now = s.now ∧ (s.siteByte b).choices = s.choices ∧
    (s.siteByte b).store = s.store ∧ (s.siteByte b).ctl = s.ctl ∧ (s.siteByte b).cyls = s.cyls ∧
    (s.siteByte b).rackTemps = s.rackTemps ∧ (s.siteByte b).claims = s.claims ∧ (s.siteByte b).units = s.units ∧
    (s.siteByte b).order = s.order ∧ (s.siteByte b).poolGains = s.poolGains ∧ (s.siteByte b).manifold = s.manifold ∧
    (s.siteByte b).circuits = s.circuits ∧ (s.siteByte b).inputs = s.inputs ∧ (s.siteByte b).captures = s.captures ∧
    (s.siteByte b).ports = s.ports := by
  unfold State.siteByte
  and_intros <;> (try dsimp only) <;> simp

/-! ### Manifold samples, captures and expiries -/

@[simp] theorem State.recordPressure_frame (s : State) (p : Option Nat) :
   (s.recordPressure p).pending = s.pending ∧ (s.recordPressure p).now = s.now ∧
    (s.recordPressure p).choices = s.choices ∧ (s.recordPressure p).store = s.store ∧
    (s.recordPressure p).ctl = s.ctl ∧ (s.recordPressure p).cyls = s.cyls ∧
    (s.recordPressure p).rackTemps = s.rackTemps ∧ (s.recordPressure p).claims = s.claims ∧
    (s.recordPressure p).units = s.units ∧ (s.recordPressure p).order = s.order ∧
    (s.recordPressure p).poolGains = s.poolGains ∧ (s.recordPressure p).circuits = s.circuits ∧
    (s.recordPressure p).inputs = s.inputs ∧ (s.recordPressure p).captures = s.captures ∧
    (s.recordPressure p).ports = s.ports ∧ (s.recordPressure p).site = s.site := by
  unfold State.recordPressure
  and_intros <;> (try dsimp only) <;> (repeat' split) <;> simp

@[simp] theorem State.takeManifoldSample_frame (s : State) (p : Option Nat) :
   (s.takeManifoldSample p).pending = s.pending ∧ (s.takeManifoldSample p).now = s.now ∧
    (s.takeManifoldSample p).choices = s.choices ∧ (s.takeManifoldSample p).store = s.store ∧
    (s.takeManifoldSample p).cyls = s.cyls ∧ (s.takeManifoldSample p).rackTemps = s.rackTemps ∧
    (s.takeManifoldSample p).order = s.order ∧ (s.takeManifoldSample p).poolGains = s.poolGains ∧
    (s.takeManifoldSample p).inputs = s.inputs ∧ (s.takeManifoldSample p).ports = s.ports ∧
    (s.takeManifoldSample p).site = s.site := by
  unfold State.takeManifoldSample
  and_intros <;> (try dsimp only) <;> (repeat' split) <;> simp

@[simp] theorem State.takeSelectorCapture_frame (s : State) (h : Hall) :
   (s.takeSelectorCapture h).pending = s.pending ∧ (s.takeSelectorCapture h).now = s.now ∧
    (s.takeSelectorCapture h).choices = s.choices ∧ (s.takeSelectorCapture h).store = s.store ∧
    (s.takeSelectorCapture h).cyls = s.cyls ∧ (s.takeSelectorCapture h).rackTemps = s.rackTemps ∧
    (s.takeSelectorCapture h).poolGains = s.poolGains ∧ (s.takeSelectorCapture h).inputs = s.inputs ∧
    (s.takeSelectorCapture h).site = s.site := by
  unfold State.takeSelectorCapture
  and_intros <;> (try dsimp only) <;> (repeat' split) <;> simp

@[simp] theorem State.takeSwitchCapture_frame (s : State) :
   (s.takeSwitchCapture).pending = s.pending ∧ (s.takeSwitchCapture).now = s.now ∧
    (s.takeSwitchCapture).choices = s.choices ∧ (s.takeSwitchCapture).store = s.store ∧
    (s.takeSwitchCapture).cyls = s.cyls ∧ (s.takeSwitchCapture).rackTemps = s.rackTemps ∧
    (s.takeSwitchCapture).poolGains = s.poolGains ∧ (s.takeSwitchCapture).inputs = s.inputs ∧
    (s.takeSwitchCapture).site = s.site := by
  unfold State.takeSwitchCapture
  and_intros <;> (try dsimp only) <;> (repeat' split) <;> simp

@[simp] theorem State.takeSupervisionExpiry_frame (s : State) (h : Hall) :
   (s.takeSupervisionExpiry h).pending = s.pending ∧ (s.takeSupervisionExpiry h).now = s.now ∧
    (s.takeSupervisionExpiry h).choices = s.choices ∧ (s.takeSupervisionExpiry h).store = s.store ∧
    (s.takeSupervisionExpiry h).ctl = s.ctl ∧ (s.takeSupervisionExpiry h).cyls = s.cyls ∧
    (s.takeSupervisionExpiry h).rackTemps = s.rackTemps ∧ (s.takeSupervisionExpiry h).claims = s.claims ∧
    (s.takeSupervisionExpiry h).units = s.units ∧ (s.takeSupervisionExpiry h).order = s.order ∧
    (s.takeSupervisionExpiry h).poolGains = s.poolGains ∧ (s.takeSupervisionExpiry h).manifold = s.manifold ∧
    (s.takeSupervisionExpiry h).circuits = s.circuits ∧ (s.takeSupervisionExpiry h).inputs = s.inputs ∧
    (s.takeSupervisionExpiry h).captures = s.captures ∧ (s.takeSupervisionExpiry h).site = s.site := by
  unfold State.takeSupervisionExpiry
  and_intros <;> (try dsimp only) <;> (repeat' split) <;> simp

@[simp] theorem State.takeFreshnessExpiry_frame (s : State) (h : Hall) :
   (s.takeFreshnessExpiry h).pending = s.pending ∧ (s.takeFreshnessExpiry h).now = s.now ∧
    (s.takeFreshnessExpiry h).choices = s.choices ∧ (s.takeFreshnessExpiry h).store = s.store ∧
    (s.takeFreshnessExpiry h).ctl = s.ctl ∧ (s.takeFreshnessExpiry h).cyls = s.cyls ∧
    (s.takeFreshnessExpiry h).rackTemps = s.rackTemps ∧ (s.takeFreshnessExpiry h).claims = s.claims ∧
    (s.takeFreshnessExpiry h).units = s.units ∧ (s.takeFreshnessExpiry h).order = s.order ∧
    (s.takeFreshnessExpiry h).poolGains = s.poolGains ∧ (s.takeFreshnessExpiry h).manifold = s.manifold ∧
    (s.takeFreshnessExpiry h).circuits = s.circuits ∧ (s.takeFreshnessExpiry h).inputs = s.inputs ∧
    (s.takeFreshnessExpiry h).captures = s.captures ∧ (s.takeFreshnessExpiry h).site = s.site := by
  unfold State.takeFreshnessExpiry
  and_intros <;> (repeat' split) <;> simp

@[simp] theorem State.takeStartupExpiry_frame (s : State) :
   (s.takeStartupExpiry).pending = s.pending ∧ (s.takeStartupExpiry).now = s.now ∧
    (s.takeStartupExpiry).choices = s.choices ∧ (s.takeStartupExpiry).store = s.store ∧
    (s.takeStartupExpiry).cyls = s.cyls ∧ (s.takeStartupExpiry).rackTemps = s.rackTemps ∧
    (s.takeStartupExpiry).claims = s.claims ∧ (s.takeStartupExpiry).units = s.units ∧
    (s.takeStartupExpiry).order = s.order ∧ (s.takeStartupExpiry).poolGains = s.poolGains ∧
    (s.takeStartupExpiry).manifold = s.manifold ∧ (s.takeStartupExpiry).inputs = s.inputs ∧
    (s.takeStartupExpiry).captures = s.captures := by
  unfold State.takeStartupExpiry
  and_intros <;> (try dsimp only) <;> (repeat' split) <;> simp

@[simp] theorem State.holdLimitOver_frame (s : State) (h : Hall) :
   (s.holdLimitOver h).pending = s.pending ∧ (s.holdLimitOver h).now = s.now ∧
    (s.holdLimitOver h).choices = s.choices ∧ (s.holdLimitOver h).store = s.store ∧ (s.holdLimitOver h).ctl = s.ctl ∧
    (s.holdLimitOver h).cyls = s.cyls ∧ (s.holdLimitOver h).rackTemps = s.rackTemps ∧
    (s.holdLimitOver h).order = s.order ∧ (s.holdLimitOver h).poolGains = s.poolGains ∧
    (s.holdLimitOver h).manifold = s.manifold ∧ (s.holdLimitOver h).circuits = s.circuits ∧
    (s.holdLimitOver h).inputs = s.inputs ∧ (s.holdLimitOver h).captures = s.captures ∧
    (s.holdLimitOver h).site = s.site := by
  unfold State.holdLimitOver
  and_intros <;> simp

@[simp] theorem State.closeTimeout_frame (s : State) :
   (s.closeTimeout).pending = s.pending ∧ (s.closeTimeout).now = s.now ∧ (s.closeTimeout).choices = s.choices ∧
    (s.closeTimeout).store = s.store ∧ (s.closeTimeout).ctl = s.ctl ∧ (s.closeTimeout).cyls = s.cyls ∧
    (s.closeTimeout).rackTemps = s.rackTemps ∧ (s.closeTimeout).claims = s.claims ∧ (s.closeTimeout).units = s.units ∧
    (s.closeTimeout).order = s.order ∧ (s.closeTimeout).poolGains = s.poolGains ∧ (s.closeTimeout).inputs = s.inputs ∧
    (s.closeTimeout).captures = s.captures ∧ (s.closeTimeout).site = s.site := by
  unfold State.closeTimeout
  and_intros <;> (repeat' split) <;> simp

@[simp] theorem State.answerPoolGain_frame (s : State) :
   (s.answerPoolGain).pending = s.pending ∧ (s.answerPoolGain).now = s.now ∧ (s.answerPoolGain).choices = s.choices ∧
    (s.answerPoolGain).store = s.store ∧ (s.answerPoolGain).ctl = s.ctl ∧ (s.answerPoolGain).rackTemps = s.rackTemps ∧
    (s.answerPoolGain).order = s.order ∧ (s.answerPoolGain).inputs = s.inputs ∧ (s.answerPoolGain).site = s.site := by
  unfold State.answerPoolGain
  and_intros <;> (repeat' split) <;> simp

/-- Taking a claim's expiry touches its unit and what its owner touches (R138). -/
theorem State.takeClaimExpiry_cases (s : State) (h : Hall) (k : DeadlineKind) (st : ClaimState)
    (owner : State → State) :
    s.takeClaimExpiry h k st owner = s ∨ s.takeClaimExpiry h k st owner = s.removeUnit h ∨
      ((s.unit h).raised s.now k = true ∧ s.claimState h = some st ∧
        s.takeClaimExpiry h k st owner = owner (s.removeUnit h)) := by
  unfold State.takeClaimExpiry
  split
  · rename_i hr
    split
    · rename_i hst
      exact .inr (.inr ⟨hr, hst, rfl⟩)
    · exact .inr (.inl rfl)
  · exact .inl rfl

/-- Taking an expiry of the manifold unit touches the unit and what its owner touches (R138). -/
theorem State.takeManifoldExpiry_cases (s : State) (k : DeadlineKind) (st : ManifoldState) (owner : State → State) :
    let s1 := s.setManifold { s.manifold with unit := .inhibited }
    s.takeManifoldExpiry k st owner = s ∨ s.takeManifoldExpiry k st owner = s1 ∨
      (s.manifold.unit.raised s.now k = true ∧ s.manifold.state = st ∧
        s.takeManifoldExpiry k st owner = owner s1) := by
  unfold State.takeManifoldExpiry
  dsimp only
  split
  · rename_i hr
    split
    · rename_i hst
      exact .inr (.inr ⟨hr, hst, rfl⟩)
    · exact .inr (.inl rfl)
  · exact .inl rfl

/-- Every command is taken: no command of the part faults or is refused by the model. -/
theorem exec_next (i : Instr) (s : State) : ∃ t, exec i s = .next t := by
  cases i <;> exact ⟨_, rfl⟩

end Sys2Proof.Machine
end

