-- ==== Sys2Proof/Laws/Local.lean ====
section
/-! SUPPORT. The operations that act for one hall leave every other hall's claim, unit and port alone. -/

namespace Sys2Proof.Machine

variable {j h : Hall}

/-! ### Writes of one record -/

@[simp] theorem State.setClaim_other (s : State) (hj : j ≠ h) (c : Option Claim) :
    (s.setClaim h c).claims[(j : Nat)] = s.claims[(j : Nat)] :=
  Vector.getElem_set_ne h.isLt j.isLt fun e => hj (Fin.ext e.symm)

@[simp] theorem State.setUnit_other (s : State) (hj : j ≠ h) (u : CompareUnit) :
    (s.setUnit h u).units[(j : Nat)] = s.units[(j : Nat)] :=
  Vector.getElem_set_ne h.isLt j.isLt fun e => hj (Fin.ext e.symm)

@[simp] theorem State.setPort_other (s : State) (hj : j ≠ h) (p : HallPort) :
    (s.setPort h p).ports[(j : Nat)] = s.ports[(j : Nat)] :=
  Vector.getElem_set_ne h.isLt j.isLt fun e => hj (Fin.ext e.symm)

/-! ### Operations for one hall -/

@[simp] theorem State.updClaim_other (s : State) (hj : j ≠ h) (f : Claim → Claim) :
   (s.updClaim h f).claims[(j : Nat)] = s.claims[(j : Nat)] := by
  unfold State.updClaim
  simp [hj]

@[simp] theorem State.updPort_other (s : State) (hj : j ≠ h) (f : HallPort → HallPort) :
   (s.updPort h f).ports[(j : Nat)] = s.ports[(j : Nat)] := by
  unfold State.updPort
  simp [hj]

@[simp] theorem State.loadUnit_other (s : State) (hj : j ≠ h) (d : Time) (k : DeadlineKind) :
   (s.loadUnit h d k).units[(j : Nat)] = s.units[(j : Nat)] := by
  unfold State.loadUnit
  simp [hj]

@[simp] theorem State.removeUnit_other (s : State) (hj : j ≠ h) :
   (s.removeUnit h).units[(j : Nat)] = s.units[(j : Nat)] := by
  unfold State.removeUnit
  simp [hj]

@[simp] theorem State.setLatch_other (s : State) (hj : j ≠ h) (l : Latch) :
   (s.setLatch h l).ports[(j : Nat)] = s.ports[(j : Nat)] := by
  unfold State.setLatch
  simp [hj]

@[simp] theorem State.reallocate_other (s : State) (hj : j ≠ h) (commit : Bool) (alloc : List Entry) :
   (s.reallocate h commit alloc).claims[(j : Nat)] = s.claims[(j : Nat)] ∧
    (s.reallocate h commit alloc).ports[(j : Nat)] = s.ports[(j : Nat)] := by
  unfold State.reallocate
  and_intros <;> (try dsimp only) <;> (repeat' split) <;> simp [hj]

@[simp] theorem State.commit_other (s : State) (hj : j ≠ h) (taken : List Entry) :
   (s.commit h taken).claims[(j : Nat)] = s.claims[(j : Nat)] ∧
    (s.commit h taken).ports[(j : Nat)] = s.ports[(j : Nat)] := by
  unfold State.commit
  and_intros <;> (try dsimp only) <;> (repeat' split) <;> simp [hj]

@[simp] theorem State.firstAllocation_other (s : State) (hj : j ≠ h) :
   (s.firstAllocation h).claims[(j : Nat)] = s.claims[(j : Nat)] ∧
    (s.firstAllocation h).ports[(j : Nat)] = s.ports[(j : Nat)] := by
  unfold State.firstAllocation
  and_intros <;> (try dsimp only) <;> (repeat' split) <;> simp [hj]

@[simp] theorem State.topUp_other (s : State) (hj : j ≠ h) :
   (s.topUp h).claims[(j : Nat)] = s.claims[(j : Nat)] ∧ (s.topUp h).ports[(j : Nat)] = s.ports[(j : Nat)] := by
  unfold State.topUp
  and_intros <;> (repeat' split) <;> simp [hj]

@[simp] theorem State.replace_other (s : State) (hj : j ≠ h) (debt : Nat) :
   (s.replace h debt).claims[(j : Nat)] = s.claims[(j : Nat)] ∧
    (s.replace h debt).ports[(j : Nat)] = s.ports[(j : Nat)] := by
  unfold State.replace
  and_intros <;> (try dsimp only) <;> (repeat' split) <;> simp [hj]

@[simp] theorem State.releaseAllocation_other (s : State) (hj : j ≠ h) :
   (s.releaseAllocation h).claims[(j : Nat)] = s.claims[(j : Nat)] ∧
    (s.releaseAllocation h).ports[(j : Nat)] = s.ports[(j : Nat)] := by
  unfold State.releaseAllocation
  and_intros <;> (try dsimp only) <;> (repeat' split) <;> simp [hj]

@[simp] theorem State.setMismatch_other (s : State) (hj : j ≠ h) :
   (s.setMismatch h).ports[(j : Nat)] = s.ports[(j : Nat)] := by
  unfold State.setMismatch
  (repeat' split) <;> simp [hj]

@[simp] theorem State.testMismatch_other (s : State) (hj : j ≠ h) :
   (s.testMismatch h).ports[(j : Nat)] = s.ports[(j : Nat)] := by
  unfold State.testMismatch
  (repeat' split) <;> simp [hj]

@[simp] theorem State.endClaim_other (s : State) (hj : j ≠ h) (state : ClaimState) (reason : EndReason) :
   (s.endClaim h state reason).claims[(j : Nat)] = s.claims[(j : Nat)] ∧
    (s.endClaim h state reason).units[(j : Nat)] = s.units[(j : Nat)] ∧
    (s.endClaim h state reason).ports[(j : Nat)] = s.ports[(j : Nat)] := by
  unfold State.endClaim
  and_intros <;> (try dsimp only) <;> (repeat' split) <;> simp [hj]

@[simp] theorem State.starve_other (s : State) (hj : j ≠ h) :
   (s.starve h).claims[(j : Nat)] = s.claims[(j : Nat)] ∧ (s.starve h).units[(j : Nat)] = s.units[(j : Nat)] := by
  unfold State.starve
  and_intros <;> (try dsimp only) <;> (repeat' split) <;> simp [hj]

@[simp] theorem State.rebuild_other (s : State) (hj : j ≠ h) (before : List Entry) :
   (s.rebuild h before).claims[(j : Nat)] = s.claims[(j : Nat)] := by
  unfold State.rebuild
  simp [hj]

@[simp] theorem State.dropEntry_other (s : State) (hj : j ≠ h) (k : CylIdx) :
   (s.dropEntry h k).claims[(j : Nat)] = s.claims[(j : Nat)] ∧ (s.dropEntry h k).ports[(j : Nat)] = s.ports[(j : Nat)] := by
  unfold State.dropEntry
  and_intros <;> (repeat' split) <;> simp [hj]

@[simp] theorem State.answerLoss_other (s : State) (hj : j ≠ h) (before : List Entry) :
   (s.answerLoss h before).claims[(j : Nat)] = s.claims[(j : Nat)] ∧
    (s.answerLoss h before).units[(j : Nat)] = s.units[(j : Nat)] ∧
    (s.answerLoss h before).ports[(j : Nat)] = s.ports[(j : Nat)] := by
  unfold State.answerLoss
  and_intros <;> (try dsimp only) <;> (repeat' split) <;> simp [hj]

@[simp] theorem State.removal_other (s : State) (hj : j ≠ h) (k : CylIdx) :
   (s.removal h k).claims[(j : Nat)] = s.claims[(j : Nat)] ∧ (s.removal h k).units[(j : Nat)] = s.units[(j : Nat)] ∧
    (s.removal h k).ports[(j : Nat)] = s.ports[(j : Nat)] := by
  unfold State.removal
  and_intros <;> (repeat' split) <;> simp [hj]

@[simp] theorem State.handE_other (s : State) (hj : j ≠ h) (k : CylIdx) (old new : Nat) :
   (s.handE h k old new).claims[(j : Nat)] = s.claims[(j : Nat)] ∧
    (s.handE h k old new).units[(j : Nat)] = s.units[(j : Nat)] ∧
    (s.handE h k old new).ports[(j : Nat)] = s.ports[(j : Nat)] := by
  unfold State.handE
  and_intros <;> (try dsimp only) <;> (repeat' split) <;> simp [hj]

@[simp] theorem State.openClaim_other (s : State) (hj : j ≠ h) (basis : Basis) (asked : Bool) :
   (s.openClaim h basis asked).claims[(j : Nat)] = s.claims[(j : Nat)] ∧
    (s.openClaim h basis asked).units[(j : Nat)] = s.units[(j : Nat)] ∧
    (s.openClaim h basis asked).ports[(j : Nat)] = s.ports[(j : Nat)] := by
  unfold State.openClaim
  and_intros <;> (try dsimp only) <;> (repeat' split) <;> simp [hj]

@[simp] theorem State.resume_other (s : State) (hj : j ≠ h) (left : Nat) (source : DelaySource) :
   (s.resume h left source).claims[(j : Nat)] = s.claims[(j : Nat)] ∧
    (s.resume h left source).units[(j : Nat)] = s.units[(j : Nat)] := by
  unfold State.resume
  and_intros <;> simp [hj]

@[simp] theorem State.upgrade_other (s : State) (hj : j ≠ h) (c : Claim) :
   (s.upgrade h c).claims[(j : Nat)] = s.claims[(j : Nat)] ∧ (s.upgrade h c).units[(j : Nat)] = s.units[(j : Nat)] ∧
    (s.upgrade h c).ports[(j : Nat)] = s.ports[(j : Nat)] := by
  unfold State.upgrade
  and_intros <;> (try dsimp only) <;> (repeat' split) <;> simp [hj]

@[simp] theorem State.enterHold_other (s : State) (hj : j ≠ h) (left : Nat) :
   (s.enterHold h left).claims[(j : Nat)] = s.claims[(j : Nat)] ∧
    (s.enterHold h left).units[(j : Nat)] = s.units[(j : Nat)] := by
  unfold State.enterHold
  and_intros <;> (try dsimp only) <;> (repeat' split) <;> simp [hj]

@[simp] theorem State.holdEdge_other (s : State) (hj : j ≠ h) :
   (s.holdEdge h).claims[(j : Nat)] = s.claims[(j : Nat)] ∧ (s.holdEdge h).units[(j : Nat)] = s.units[(j : Nat)] := by
  unfold State.holdEdge
  and_intros <;> (repeat' split) <;> simp [hj]

@[simp] theorem State.endHold_other (s : State) (hj : j ≠ h) (c : Claim) :
   (s.endHold h c).claims[(j : Nat)] = s.claims[(j : Nat)] ∧ (s.endHold h c).units[(j : Nat)] = s.units[(j : Nat)] := by
  unfold State.endHold
  and_intros <;> (try dsimp only) <;> (repeat' split) <;> simp [hj]

@[simp] theorem State.holdFall_other (s : State) (hj : j ≠ h) :
   (s.holdFall h).claims[(j : Nat)] = s.claims[(j : Nat)] ∧ (s.holdFall h).units[(j : Nat)] = s.units[(j : Nat)] := by
  unfold State.holdFall
  and_intros <;> (repeat' split) <;> simp [hj]

@[simp] theorem State.observeHold_other (s : State) (hj : j ≠ h) (level : Bool) :
   (s.observeHold h level).claims[(j : Nat)] = s.claims[(j : Nat)] ∧
    (s.observeHold h level).units[(j : Nat)] = s.units[(j : Nat)] ∧
    (s.observeHold h level).ports[(j : Nat)] = s.ports[(j : Nat)] := by
  unfold State.observeHold
  and_intros <;> (try dsimp only) <;> (repeat' split) <;> simp [hj]

@[simp] theorem State.makeWaiting_other (s : State) (hj : j ≠ h) :
   (s.makeWaiting h).claims[(j : Nat)] = s.claims[(j : Nat)] := by
  unfold State.makeWaiting
  simp [hj]

@[simp] theorem State.updSchedule_other (s : State) (hj : j ≠ h) (f : Schedule → Schedule) :
   (s.updSchedule h f).claims[(j : Nat)] = s.claims[(j : Nat)] := by
  unfold State.updSchedule
  simp [hj]

@[simp] theorem State.discharge_other (s : State) (hj : j ≠ h) (reason : EndReason) :
   (s.discharge h reason).claims[(j : Nat)] = s.claims[(j : Nat)] ∧
    (s.discharge h reason).units[(j : Nat)] = s.units[(j : Nat)] ∧
    (s.discharge h reason).ports[(j : Nat)] = s.ports[(j : Nat)] := by
  unfold State.discharge
  and_intros <;> (try dsimp only) <;> (repeat' split) <;> simp [hj]

@[simp] theorem State.enterConfirming_other (s : State) (hj : j ≠ h) :
   (s.enterConfirming h).claims[(j : Nat)] = s.claims[(j : Nat)] ∧
    (s.enterConfirming h).units[(j : Nat)] = s.units[(j : Nat)] ∧
    (s.enterConfirming h).ports[(j : Nat)] = s.ports[(j : Nat)] := by
  unfold State.enterConfirming
  and_intros <;> (try dsimp only) <;> (repeat' split) <;> simp [hj]

@[simp] theorem State.lineCompletion_other (s : State) (hj : j ≠ h) :
   (s.lineCompletion h).claims[(j : Nat)] = s.claims[(j : Nat)] ∧
    (s.lineCompletion h).units[(j : Nat)] = s.units[(j : Nat)] ∧
    (s.lineCompletion h).ports[(j : Nat)] = s.ports[(j : Nat)] := by
  unfold State.lineCompletion
  and_intros <;> (repeat' split) <;> simp [hj]

@[simp] theorem State.fireLine_other (s : State) (hj : j ≠ h) :
   (s.fireLine h).claims[(j : Nat)] = s.claims[(j : Nat)] ∧ (s.fireLine h).units[(j : Nat)] = s.units[(j : Nat)] ∧
    (s.fireLine h).ports[(j : Nat)] = s.ports[(j : Nat)] := by
  unfold State.fireLine
  and_intros <;> (try dsimp only) <;> (repeat' split) <;> simp [hj]

@[simp] theorem State.beginDischarge_other (s : State) (hj : j ≠ h) (t : Time) :
   (s.beginDischarge h t).claims[(j : Nat)] = s.claims[(j : Nat)] ∧
    (s.beginDischarge h t).units[(j : Nat)] = s.units[(j : Nat)] ∧
    (s.beginDischarge h t).ports[(j : Nat)] = s.ports[(j : Nat)] := by
  unfold State.beginDischarge
  and_intros <;> (try dsimp only) <;> simp [hj]

@[simp] theorem State.deferLine_other (s : State) (hj : j ≠ h) :
   (s.deferLine h).claims[(j : Nat)] = s.claims[(j : Nat)] ∧ (s.deferLine h).units[(j : Nat)] = s.units[(j : Nat)] := by
  unfold State.deferLine
  and_intros <;> (try dsimp only) <;> simp [hj]

@[simp] theorem State.lineTime_other (s : State) (hj : j ≠ h) :
   (s.lineTime h).claims[(j : Nat)] = s.claims[(j : Nat)] ∧ (s.lineTime h).units[(j : Nat)] = s.units[(j : Nat)] ∧
    (s.lineTime h).ports[(j : Nat)] = s.ports[(j : Nat)] := by
  unfold State.lineTime
  and_intros <;> (repeat' split) <;> simp [hj]

@[simp] theorem State.abandon_other (s : State) (hj : j ≠ h) :
   (s.abandon h).claims[(j : Nat)] = s.claims[(j : Nat)] ∧ (s.abandon h).units[(j : Nat)] = s.units[(j : Nat)] ∧
    (s.abandon h).ports[(j : Nat)] = s.ports[(j : Nat)] := by
  unfold State.abandon
  and_intros <;> (try dsimp only) <;> simp [hj]

@[simp] theorem State.finishPulse_other (s : State) (hj : j ≠ h) :
   (s.finishPulse h).claims[(j : Nat)] = s.claims[(j : Nat)] ∧
    (s.finishPulse h).units[(j : Nat)] = s.units[(j : Nat)] ∧ (s.finishPulse h).ports[(j : Nat)] = s.ports[(j : Nat)] := by
  unfold State.finishPulse
  and_intros <;> (try dsimp only) <;> (repeat' split) <;> simp [hj]

@[simp] theorem State.creditFired_other (s : State) (hj : j ≠ h) (k : CylIdx) :
   (s.creditFired h k).claims[(j : Nat)] = s.claims[(j : Nat)] := by
  unfold State.creditFired
  simp [hj]

@[simp] theorem State.pulseNormal_other (s : State) (hj : j ≠ h) (k : CylIdx) :
   (s.pulseNormal h k).claims[(j : Nat)] = s.claims[(j : Nat)] ∧
    (s.pulseNormal h k).units[(j : Nat)] = s.units[(j : Nat)] ∧
    (s.pulseNormal h k).ports[(j : Nat)] = s.ports[(j : Nat)] := by
  unfold State.pulseNormal
  and_intros <;> simp [hj]

@[simp] theorem State.pulseFailed_other (s : State) (hj : j ≠ h) (k : CylIdx) :
   (s.pulseFailed h k).claims[(j : Nat)] = s.claims[(j : Nat)] ∧
    (s.pulseFailed h k).units[(j : Nat)] = s.units[(j : Nat)] ∧
    (s.pulseFailed h k).ports[(j : Nat)] = s.ports[(j : Nat)] := by
  unfold State.pulseFailed
  and_intros <;> (try dsimp only) <;> simp [hj]

@[simp] theorem State.lostToFault_other (s : State) (hj : j ≠ h) (k : CylIdx) :
   (s.lostToFault h k).claims[(j : Nat)] = s.claims[(j : Nat)] ∧
    (s.lostToFault h k).units[(j : Nat)] = s.units[(j : Nat)] ∧
    (s.lostToFault h k).ports[(j : Nat)] = s.ports[(j : Nat)] := by
  unfold State.lostToFault
  and_intros <;> (repeat' split) <;> simp [hj]

@[simp] theorem State.dischargeSeen_other (s : State) (hj : j ≠ h) (t : Time) :
   (s.dischargeSeen h t).claims[(j : Nat)] = s.claims[(j : Nat)] ∧
    (s.dischargeSeen h t).units[(j : Nat)] = s.units[(j : Nat)] ∧
    (s.dischargeSeen h t).ports[(j : Nat)] = s.ports[(j : Nat)] := by
  unfold State.dischargeSeen
  and_intros <;> (try dsimp only) <;> (repeat' split) <;> simp [hj]

@[simp] theorem State.markFaulted_other (s : State) (hj : j ≠ h) :
   (s.markFaulted h).claims[(j : Nat)] = s.claims[(j : Nat)] ∧
    (s.markFaulted h).units[(j : Nat)] = s.units[(j : Nat)] ∧ (s.markFaulted h).ports[(j : Nat)] = s.ports[(j : Nat)] := by
  unfold State.markFaulted
  and_intros <;> (try dsimp only) <;> (repeat' split) <;> simp [hj]

@[simp] theorem State.superviseLink_other (s : State) (hj : j ≠ h) :
   (s.superviseLink h).ports[(j : Nat)] = s.ports[(j : Nat)] := by
  unfold State.superviseLink
  simp [hj]

@[simp] theorem State.releaseFrame_other (s : State) (hj : j ≠ h) (f : Frame) :
   (s.releaseFrame h f).ports[(j : Nat)] = s.ports[(j : Nat)] := by
  unfold State.releaseFrame
  simp [hj]

@[simp] theorem State.answerHall_other (s : State) (hj : j ≠ h) (kind : Byte) (result : Result) (live : Option LiveFigures) :
   (s.answerHall h kind result live).ports[(j : Nat)] = s.ports[(j : Nat)] := by
  unfold State.answerHall
  dsimp only; simp [hj]

@[simp] theorem State.linkLost_other (s : State) (hj : j ≠ h) :
   (s.linkLost h).ports[(j : Nat)] = s.ports[(j : Nat)] := by
  unfold State.linkLost
  simp [hj]

end Sys2Proof.Machine
end

