-- ==== Sys2Proof/Laws/PerInstr.lean ====
section
/-! SUPPORT. What holds of each command as syntax: the family RequestFrame, one lemma per constructor. -/

namespace Sys2Proof.Laws.RequestFrame

open Sys2Proof.Machine

/-- A well-formed command that is a request spells a frame whose kind is a request kind and whose bytes number 5 more than its
payload's, at most 53 (R164, R192, R193). -/
def Statement (i : Instr) : Prop :=
  i.wf = true → ∀ p f, requestOf i = some (p, f) →
    f.kind.toNat < 128 ∧ f.bytes.length = f.payload.length + 5 ∧ f.bytes.length ≤ 53

/-- A frame of a request kind with a payload that fits keeps the statement. -/
theorem of_frame {i : Instr} {p : Port} {f : Frame} (hr : requestOf i = some (p, f)) (hk : f.kind.toNat < 128)
    (hp : i.wf = true → payloadWf f.payload = true) : Statement i := by
  intro hw p' f' hr'
  rw [hr] at hr'
  cases hr'
  have hl : f.payload.length ≤ 48 := of_decide_eq_true (hp hw)
  have hb : f.bytes.length = f.payload.length + 5 := by simp [Frame.bytes, Frame.body, crcBytes]
  exact ⟨hk, hb, by omega⟩

/-- A command that is no request keeps the statement. -/
theorem of_none {i : Instr} (hr : requestOf i = none) : Statement i := by
  intro _ p f hf
  rw [hr] at hf
  cases hf

/-- An unknown kind of 7 bits is a request kind. -/
theorem kind_lt (k : BitVec 7) : (k.zeroExtend 8 : Byte).toNat < 128 := by
  have := k.isLt
  simp [BitVec.toNat_setWidth]
  omega

theorem deviceReset : Statement (.deviceReset) := of_none rfl

theorem inputEstablishment : Statement (.inputEstablishment) := of_none rfl

theorem pressureSample (k : CylIdx) (i : LoopCurrent) : Statement (.pressureSample k i) := of_none rfl

theorem rackTemperatureSample (r : Rack) (i : LoopCurrent) : Statement (.rackTemperatureSample r i) := of_none rfl

theorem manifoldPressureSample (i : LoopCurrent) : Statement (.manifoldPressureSample i) := of_none rfl

theorem supervisionCheck (c : ChanIdx) (m : LineMeasurement) : Statement (.supervisionCheck c m) := of_none rfl

theorem pulseCompletion (c : ChanIdx) (ms : List PulseMeasurement) : Statement (.pulseCompletion c ms) := of_none rfl

theorem selectorEdge (h : Hall) : Statement (.selectorEdge h) := of_none rfl

theorem manifoldSwitchEdge : Statement (.manifoldSwitchEdge) := of_none rfl

theorem keyOn : Statement (.keyOn) := of_none rfl

theorem keyOff : Statement (.keyOff) := of_none rfl

theorem selectorCapture (h : Hall) : Statement (.selectorCapture h) := of_none rfl

theorem manifoldSwitchCapture : Statement (.manifoldSwitchCapture) := of_none rfl

theorem countdownExpiry (h : Hall) : Statement (.countdownExpiry h) := of_none rfl

theorem holdLimitExpiry (h : Hall) : Statement (.holdLimitExpiry h) := of_none rfl

theorem selectorOpenTimeout (h : Hall) : Statement (.selectorOpenTimeout h) := of_none rfl

theorem nextLineExpiry (h : Hall) : Statement (.nextLineExpiry h) := of_none rfl

theorem deferralExpiry (h : Hall) : Statement (.deferralExpiry h) := of_none rfl

theorem confirmTimeout (h : Hall) : Statement (.confirmTimeout h) := of_none rfl

theorem closeTimeout : Statement (.closeTimeout) := of_none rfl

theorem ventTimeout : Statement (.ventTimeout) := of_none rfl

theorem supervisionExpiry (h : Hall) : Statement (.supervisionExpiry h) := of_none rfl

theorem temperatureExpiry (h : Hall) : Statement (.temperatureExpiry h) := of_none rfl

theorem startupExpiry : Statement (.startupExpiry) := of_none rfl

theorem poll (h : Hall) (payload : Payload) : Statement (.poll h payload) :=
  of_frame rfl (of_decide_eq_true rfl) id

theorem release (h : Hall) (payload : Payload) : Statement (.release h payload) :=
  of_frame rfl (of_decide_eq_true rfl) id

theorem abort (h : Hall) (payload : Payload) : Statement (.abort h payload) :=
  of_frame rfl (of_decide_eq_true rfl) id

theorem latchClear (h : Hall) (payload : Payload) : Statement (.latchClear h payload) :=
  of_frame rfl (of_decide_eq_true rfl) id

theorem query (h : Hall) (payload : Payload) : Statement (.query h payload) :=
  of_frame rfl (of_decide_eq_true rfl) id

theorem hallUnknownKind (h : Hall) (kind : BitVec 7) (payload : Payload) : Statement (.hallUnknownKind h kind payload) :=
  of_frame rfl (kind_lt kind) fun hw => (Bool.and_eq_true_iff.1 hw).1

theorem frameAbandoned (p : Port) (cause : AbandonCause) : Statement (.frameAbandoned p cause) := of_none rfl

theorem replyTransmitted (p : Port) : Statement (.replyTransmitted p) := of_none rfl

theorem sitePoll (payload : Payload) : Statement (.sitePoll payload) :=
  of_frame rfl (of_decide_eq_true rfl) id

theorem cylinderQuery (payload : Payload) : Statement (.cylinderQuery payload) :=
  of_frame rfl (of_decide_eq_true rfl) id

theorem claimQuery (payload : Payload) : Statement (.claimQuery payload) :=
  of_frame rfl (of_decide_eq_true rfl) id

theorem commissionRead (payload : Payload) : Statement (.commissionRead payload) :=
  of_frame rfl (of_decide_eq_true rfl) id

theorem commissionWrite (payload : Payload) : Statement (.commissionWrite payload) :=
  of_frame rfl (of_decide_eq_true rfl) id

theorem maintIsolate (payload : Payload) : Statement (.maintIsolate payload) :=
  of_frame rfl (of_decide_eq_true rfl) id

theorem maintRestore (payload : Payload) : Statement (.maintRestore payload) :=
  of_frame rfl (of_decide_eq_true rfl) id

theorem siteUnknownKind (kind : BitVec 7) (payload : Payload) : Statement (.siteUnknownKind kind payload) :=
  of_frame rfl (kind_lt kind) fun hw => (Bool.and_eq_true_iff.1 hw).1

theorem commissionWriteCompletion : Statement (.commissionWriteCompletion) := of_none rfl

theorem maintIsolateCompletion : Statement (.maintIsolateCompletion) := of_none rfl

theorem maintRestoreCompletion : Statement (.maintRestoreCompletion) := of_none rfl

theorem crcStoreCompletion : Statement (.crcStoreCompletion) := of_none rfl

theorem starvedReEvaluation : Statement (.starvedReEvaluation) := of_none rfl

theorem byteReceived (p : Port) (b : Byte) : Statement (.byteReceived p b) := of_none rfl

theorem rawLevelChange (reading : ContactReading) : Statement (.rawLevelChange reading) := of_none rfl

theorem loopStateChange (c : SupervisedContact) : Statement (.loopStateChange c) := of_none rfl

end Sys2Proof.Laws.RequestFrame
end

