-- ==== Sys2Proof/Laws/Specs.lean ====
section
/-! SUPPORT. What the shared operations do: one statement for each, cited in place of its definition. -/

namespace Sys2Proof.Machine

/-! ### Latches asked for -/

/-- What a raise of latch `l` at hall `h`'s port leaves: the latch set (R171). -/
theorem State.setLatch_set (s : State) (h : Hall) (l : Latch) : ((s.setLatch h l).port h).latches.get l ≠ .clear := by
  rw [State.port_setLatch, if_pos rfl]
  simp

/-- A latch once set is not cleared by a raise of any latch (R171). -/
theorem State.setLatch_keeps (s : State) (h j : Hall) (l m : Latch) (hm : (s.port j).latches.get m ≠ .clear) :
    ((s.setLatch h l).port j).latches.get m ≠ .clear := by
  rw [State.port_setLatch]
  split
  · rename_i e
    subst e
    by_cases hlm : m = l
    · subst hlm
      simp
    · simpa [Latches.get_put_of_ne _ _ _ _ hlm] using hm
  · exact hm

/-- A latch after a raise at its port: the raised one is set, every other stands (R171). -/
theorem State.get_setLatch (s : State) (h : Hall) (l m : Latch) :
    ((s.setLatch h m).port h).latches.get l =
      if l = m then ((s.port h).latches.get l).raise else (s.port h).latches.get l := by
  rw [State.port_setLatch, if_pos rfl]
  split
  · rename_i e
    subst e
    simp
  · rename_i e
    simp [Latches.get_put_of_ne _ _ _ _ e]

/-! ### Dispositions of several cylinders -/

/-- A fold of changes of disposition reaches exactly the cylinders of the entries. -/
theorem State.cyl_foldl_setDisposition (d : Disposition) (es : List Entry) (s : State) (k : CylIdx) :
    (es.foldl (fun s e => s.setDisposition e.cyl d) s).cyl k =
      if k ∈ es.map (·.cyl) then (s.cyl k).map fun c => { c with disposition := d } else s.cyl k := by
  induction es generalizing s with
  | nil => rfl
  | cons e es ih =>
    rw [List.foldl_cons, ih]
    by_cases hk : k = e.cyl
    · subst hk
      simp [State.cyl_setDisposition, Function.comp_def]
    · simp [State.cyl_setDisposition, hk]

/-- Assigning a taken list makes its cylinders ASSIGNED to the hall, and changes no other record (R16). -/
theorem State.cyl_assign (s : State) (h : Hall) (taken : List Entry) (k : CylIdx) :
    (s.assign h taken).cyl k =
      if k ∈ taken.map (·.cyl) then (s.cyl k).map fun c => { c with disposition := .assigned h } else s.cyl k :=
  State.cyl_foldl_setDisposition _ taken s k

/-! ### Allocation -/

/-- What reallocating a claim leaves of it: the allocation given, its sums and its flags (R40, R41, R81). -/
theorem State.claim_reallocate (s : State) (h : Hall) (commit : Bool) (alloc : List Entry) (c : Claim)
    (hc : s.claim h = some c) :
    (s.reallocate h commit alloc).claim h =
      some (Claim.reflag commit c (Claim.resum { c with allocation := alloc })) := by
  unfold State.reallocate
  rw [hc]
  dsimp only
  split <;> split <;> simp [State.claim, State.setClaim]

/-- The figures, the state and the schedule of a claim stand when it is reallocated; its sums are those of the new
allocation. -/
theorem Claim.reflag_resum (commit : Bool) (c : Claim) (alloc : List Entry) :
    let c' := Claim.reflag commit c (Claim.resum { c with allocation := alloc })
    c'.allocation = alloc ∧ c'.allocatedSum = sumE alloc ∧ c'.shortage = c.figures.req - sumE alloc ∧
      c'.state = c.state ∧ c'.figures = c.figures ∧ c'.schedule = c.schedule ∧ c'.fired = c.fired ∧
      c'.flags.starved = c.flags.starved ∧ c'.flags.part = c.flags.part :=
  ⟨rfl, rfl, rfl, rfl, rfl, rfl, rfl, rfl, rfl⟩

/-- Releasing an allocation leaves the claim with none, its state, figures and fired list standing (R17). -/
theorem State.claim_releaseAllocation (s : State) (h : Hall) (c : Claim) (hc : s.claim h = some c) :
    ∃ c', (s.releaseAllocation h).claim h = some c' ∧ c'.allocation = [] ∧ c'.allocatedSum = 0 ∧
      c'.shortage = c.figures.req ∧ c'.state = c.state ∧ c'.figures = c.figures ∧ c'.fired = c.fired ∧
      c'.schedule = c.schedule := by
  unfold State.releaseAllocation
  rw [hc]
  dsimp only
  have h1 : (((c.allocation.filter fun e => match s.cyl e.cyl with
      | some y => y.disposition = .assigned h
      | none => false).foldl (fun s e => s.setDisposition e.cyl .free) s)).claim h = some c := by
    simpa [State.claim] using hc
  refine ⟨Claim.reflag false c (Claim.resum { c with allocation := [] }), ?_, rfl, rfl, ?_, rfl, rfl, rfl, rfl⟩
  · have h2 := State.claim_reallocate _ h false [] c h1
    simp only [State.claim, State.poolGainIf_frame] at h2 ⊢
    exact h2
  · simp [Claim.reflag, Claim.resum, sumE]

/-- Taking in order takes a first part of the candidates, after what was taken already (R76). -/
theorem takeInOrder_prefix (met : List Entry → Bool) (blocked : List Entry → Entry → Bool) (cands taken : List Entry) :
    ∃ n, (takeInOrder met blocked taken cands).1 = taken ++ cands.take n := by
  induction cands generalizing taken with
  | nil => exact ⟨0, by simp [takeInOrder]⟩
  | cons e rest ih =>
    unfold takeInOrder
    split
    · exact ⟨0, by simp⟩
    · split
      · exact ⟨0, by simp⟩
      · obtain ⟨n, hn⟩ := ih (taken ++ [e])
        exact ⟨n + 1, by simp [hn]⟩

/-- All that taking in order does: it takes a first part of the candidates, each while the target is not met and nothing blocks
it, and it ends with the candidates, at its target, or before a candidate that is blocked, which it reports (R76, R77). -/
theorem takeInOrder_spec (met : List Entry → Bool) (blocked : List Entry → Entry → Bool) (cands taken : List Entry) :
    ∃ n ≤ cands.length, let r := takeInOrder met blocked taken cands
      r.1 = taken ++ cands.take n ∧
      (∀ m < n, met (taken ++ cands.take m) = false ∧
        ∀ e, cands[m]? = some e → blocked (taken ++ cands.take m) e = false) ∧
      (r.2 = true → met r.1 = false ∧ ∃ e, cands[n]? = some e ∧ blocked r.1 e = true) ∧
      (r.2 = false → n = cands.length ∨ met r.1 = true) := by
  induction cands generalizing taken with
  | nil => exact ⟨0, by simp [takeInOrder]⟩
  | cons e rest ih =>
    unfold takeInOrder
    split
    · rename_i hm
      exact ⟨0, by simp [hm]⟩
    · rename_i hm
      split
      · rename_i hb
        exact ⟨0, by simp [hm, hb]⟩
      · rename_i hb
        obtain ⟨n, hn, h1, h2, h3, h4⟩ := ih (taken ++ [e])
        refine ⟨n + 1, by simpa using hn, by simpa using h1, fun m hlt => ?_, by simpa using h3, by simpa using h4⟩
        cases m with
        | zero => simp [hm, hb]
        | succ m => simpa using h2 m (by omega)

/-- What is taken was taken already or is a candidate. -/
theorem takeInOrder_mem (met : List Entry → Bool) (blocked : List Entry → Entry → Bool) (cands taken : List Entry)
    (e : Entry) (he : e ∈ (takeInOrder met blocked taken cands).1) : e ∈ taken ∨ e ∈ cands := by
  obtain ⟨n, hn⟩ := takeInOrder_prefix met blocked cands taken
  rw [hn, List.mem_append] at he
  exact he.imp_right List.mem_of_mem_take

/-- A candidate of a condition is the entry of an eligible cylinder with that condition and its present E (R74). -/
theorem State.candidate_spec (s : State) (cond : Condition) (k : CylIdx) (e : Entry)
    (he : s.candidate cond k = some e) :
    e.cyl = k ∧ s.eligible k = true ∧ ∃ c, s.cyl k = some c ∧ c.condition = cond ∧ e.e = c.e := by
  unfold State.candidate at he
  split at he
  · rename_i c hc
    split at he
    · rename_i hx
      cases he
      exact ⟨rfl, hx.1, c, hc, hx.2, rfl⟩
    · cases he
  · cases he

/-- The cylinders of rack `r` lie in rack `r`. -/
theorem rackOf_rackCylinders (r : Rack) (k : CylIdx) (hk : k ∈ rackCylinders r) : rackOf k = r := by
  obtain ⟨i, -, rfl⟩ := List.mem_map.1 hk
  apply Fin.ext
  have := i.isLt
  simp only [rackOf]
  omega

/-! ### The grant -/

/-- A grant is tried: it is made to the head of the wait list when the manifold is IDLE and no mismatch flag is set, and
nothing changes otherwise (R98). -/
theorem State.tryGrant_cases (s : State) :
    (s.mayGrant = false ∧ s.tryGrant = s) ∨
      ∃ w rest, s.mayGrant = true ∧ s.manifold.waitList = w :: rest ∧ s.tryGrant = s.grant w.hall := by
  unfold State.tryGrant
  cases hm : s.mayGrant with
  | false => exact .inl ⟨rfl, rfl⟩
  | true =>
    obtain ⟨l, hl⟩ : ∃ l, s.manifold.waitList = l := ⟨_, rfl⟩
    cases l with
    | nil => simp [State.mayGrant, hl] at hm
    | cons w rest => exact .inr ⟨w, rest, rfl, hl, by simp [hl]⟩

/-- Away from IDLE no grant is made (R98). -/
theorem State.tryGrant_of_busy (s : State) (hs : s.manifold.state ≠ .idle) : s.tryGrant = s := by
  simp [State.tryGrant, State.mayGrant, hs]

/-- A join puts the hall before the entries at the tail of the same ready at and a higher hall number, and moves nothing
else (R72, R97). -/
theorem joinTail_split {α : Type} (behind : α → Bool) (x : α) (l : List α) :
    ∃ before after, l = before ++ after ∧ joinTail behind x l = before ++ x :: after ∧
      ∀ y ∈ after, behind y = true := by
  refine ⟨(l.reverse.dropWhile behind).reverse, (l.reverse.takeWhile behind).reverse, ?_, rfl, ?_⟩
  · rw [← List.reverse_append, List.takeWhile_append_dropWhile, List.reverse_reverse]
  · intro y hy
    exact List.mem_takeWhile_imp (List.mem_reverse.1 hy)

/-! ### Pulses and lines -/

/-- A pulse all of whose measurements classify NORMAL reads NORMAL (R151). -/
theorem pulseReading_normal (ms : List PulseMeasurement) :
    pulseReading ms = .normal ↔ ∀ m ∈ ms, classifyPulse m = .normal := by
  induction ms with
  | nil => simp [pulseReading]
  | cons m rest ih =>
    unfold pulseReading
    split
    · rename_i hm
      simp [ih, hm]
    · rename_i hm
      simp [hm]

/-! ### Bytes -/

@[simp] theorem length_bytesOf (n x : Nat) : (bytesOf n x).length = n := by
  induction n generalizing x with
  | zero => rfl
  | succ n ih => simp [bytesOf, ih]

theorem number_append (bs : List Byte) (b : Byte) : number (bs ++ [b]) = number bs * 256 + b.toNat := by
  simp [number]

/-- The bytes of a number spell it, cut to their width. -/
theorem number_bytesOf (n x : Nat) : number (bytesOf n x) = x % 256 ^ n := by
  induction n generalizing x with
  | zero => simp [bytesOf, number, Nat.mod_one]
  | succ n ih =>
    rw [bytesOf, number_append, ih, Nat.pow_succ', Nat.mod_mul]
    simp
    omega

theorem length_hallBytes (r : HallRecord) : (hallBytes r).length = 16 := by simp [hallBytes]

theorem length_cylinderBytes (r : CylinderRecord) : (cylinderBytes r).length = 6 := by simp [cylinderBytes]

theorem length_timingBytes (t : Timing) : (timingBytes t).length = 19 := by simp [timingBytes]

theorem length_roleBytes (r : Role) : (roleBytes r).length = 2 := by cases r <;> rfl

/-! ### Receivers (R164, R165) -/

@[simp] theorem Receiver.hunt_state (r : Receiver) : r.hunt.state = .hunting := rfl

@[simp] theorem Receiver.hunt_buffer (r : Receiver) : r.hunt.buffer = [] := rfl

@[simp] theorem Receiver.hunt_lastByte (r : Receiver) : r.hunt.lastByte = none := rfl

@[simp] theorem Receiver.hunt_complete (r : Receiver) : r.hunt.complete = r.complete := rfl

/-- Abandoning acts on a frame being assembled alone (R164). -/
theorem Receiver.abandon_eq (r : Receiver) :
    r.abandon = if r.state = .assembling then { r with state := .hunting, buffer := [], lastByte := none } else r := rfl

/-- No receiver assembles after it has abandoned. -/
theorem Receiver.abandon_state_ne (r : Receiver) : r.abandon.state ≠ .assembling := by
  rw [Receiver.abandon_eq]
  split
  · exact RxState.noConfusion
  · assumption

/-- Being held abandons a frame, and otherwise changes nothing (R165). -/
@[simp] theorem Receiver.held_true (r : Receiver) : r.held true = r.abandon := rfl

@[simp] theorem Receiver.held_false (r : Receiver) : r.held false = r := rfl

/-- When the byte gap has passed: a frame is being assembled, and its last byte is more than 5 ms old (R164). -/
theorem Receiver.gapPassed_iff (r : Receiver) (now : Time) :
    r.gapPassed now = true ↔ r.state = .assembling ∧ ∃ t, r.lastByte = some t ∧ reached (t + ms 6) now = true := by
  unfold Receiver.gapPassed
  cases r.state <;> cases r.lastByte <;> simp [Config.byteGap]

/-- A byte within the gap is taken by the receiver as it stands (R164). -/
theorem Receiver.byte_of_no_gap (r : Receiver) (now : Time) (b : Byte) (h : r.gapPassed now = false) :
    r.byte now b = r.take now b := by
  simp [Receiver.byte, h]

/-- A byte after the gap is taken in HUNTING (R164). -/
theorem Receiver.byte_of_gap (r : Receiver) (now : Time) (b : Byte) (h : r.gapPassed now = true) :
    r.byte now b = if b = Config.startMarker then
      { state := .assembling, buffer := [], lastByte := some now, complete := none } else r.hunt := by
  have hs := ((r.gapPassed_iff now).1 h).1
  simp [Receiver.byte, h, Receiver.abandon, hs, Receiver.take]

/-- A receiver that assembles no frame has had no byte gap. -/
theorem Receiver.gapPassed_of_ne (r : Receiver) (now : Time) (h : r.state ≠ .assembling) : r.gapPassed now = false := by
  cases hg : r.gapPassed now
  · rfl
  · exact absurd ((r.gapPassed_iff now).1 hg).1 h

/-! ### First allocations and top-ups -/

/-- A FIRST ALLOCATION commits the run's list when it is to be given, and sets STARVED to the contrary (R54, R79). -/
theorem State.firstAllocation_eq (s : State) (h : Hall) (c : Claim) (hc : s.claim h = some c) :
    s.firstAllocation h =
      State.updClaim
        (if s.minAcceptable h c.figures.req ≤ sumE (s.takeCredited .firstAllocation c).1 &&
            !(s.takenList .firstAllocation c).isEmpty
          then s.commit h (s.takenList .firstAllocation c) else s) h
        fun c' => { c' with flags := { c'.flags with
          starved := !(s.minAcceptable h c.figures.req ≤ sumE (s.takeCredited .firstAllocation c).1 &&
            !(s.takenList .firstAllocation c).isEmpty) } } := by
  simp only [State.firstAllocation, hc, State.takenList]
  rfl

/-- A TOP-UP commits the run's list (R83). -/
theorem State.topUp_eq (s : State) (h : Hall) (c : Claim) (hc : s.claim h = some c) :
    s.topUp h = s.commit h (s.takenList .topUp c) := by
  simp only [State.topUp, hc]

/-- The candidates of the racks are those of their cylinders. -/
theorem State.rackCandidates_congr (s t : State) (hc : ∀ cond k, t.candidate cond k = s.candidate cond k)
    (cond : Condition) : t.rackCandidates cond = s.rackCandidates cond := by
  funext r
  have : t.candidate cond = s.candidate cond := funext (hc cond)
  simp [State.rackCandidates, this]

/-- A run reads the pool, that is the candidates and the rack roles, and nothing else of the state (R73, R74). -/
theorem State.takenList_congr (s t : State) (hc : ∀ cond k, t.candidate cond k = s.candidate cond k)
    (hr : t.image.racks = s.image.racks) (kind : RunKind) (c : Claim) : t.takenList kind c = s.takenList kind c := by
  simp [State.takenList, State.takeCredited, State.takeLastResort, State.creditedOrder, State.lastResortOrder,
    State.classOrder, State.rackCandidates_congr s t hc, hr]

/-- Classes 1 to 4 read the same (R74). -/
theorem State.takeCredited_congr (s t : State) (hc : ∀ cond k, t.candidate cond k = s.candidate cond k)
    (hr : t.image.racks = s.image.racks) (kind : RunKind) (c : Claim) :
    t.takeCredited kind c = s.takeCredited kind c := by
  simp [State.takeCredited, State.creditedOrder, State.classOrder, State.rackCandidates_congr s t hc, hr]

/-- A record that is eligible neither before nor after a change leaves the pool as it was (R24). -/
theorem State.candidate_setCyl_of_ineligible (s : State) (k : CylIdx) (c : Option Cylinder) (cond : Condition)
    (j : CylIdx) (h : s.eligible k = false) (h' : eligibleRecord c = false) :
    (s.setCyl k c).candidate cond j = s.candidate cond j := by
  by_cases hj : j = k
  · subst hj
    have e : (s.setCyl j c).eligible j = false := by
      simpa [State.eligible, State.cyl_setCyl] using h'
    simp only [State.candidate, h, e]
    cases (s.setCyl j c).cyl j <;> cases s.cyl j <;> simp
  · have e : (s.setCyl k c).cyl j = s.cyl j := by simp [State.cyl_setCyl, hj]
    have e' : (s.setCyl k c).eligible j = s.eligible j := by rw [State.eligible, State.eligible, e]
    simp only [State.candidate, e, e']

/-- An empty taken list is a change of nothing (R73). -/
theorem State.commit_nil (s : State) (h : Hall) : s.commit h [] = s := by
  unfold State.commit
  split <;> simp

/-! ### The OVER_CEILING check, and the flags of a commit -/

/-- What the check finds: a non-terminal claim's sum that has changed and is above Cap (R42). -/
theorem overCeilingFound_iff (c c' : Claim) :
    overCeilingFound c c' = true ↔
      c'.state.terminal = false ∧ c'.allocatedSum ≠ c.allocatedSum ∧ c'.figures.cap < c'.allocatedSum := by
  simp [overCeilingFound, and_assoc]

/-- What a pulse that reads NORMAL leaves of the claim: its entry moves to the fired list, the sums follow, and the flags
stand (R122). -/
theorem State.claim_creditFired (s : State) (h : Hall) (k : CylIdx) (c : Claim) (hc : s.claim h = some c) :
    (s.creditFired h k).claim h = some { Claim.holding c (c.allocation.filter fun e => e.cyl ≠ k) with
      fired := c.fired ++ [k] } := by
  simp only [State.claim] at hc
  simp [State.creditFired, State.updClaim, State.setClaim, State.claim, hc, Claim.resum, Claim.holding]

/-- A reallocation leaves a non-terminal claim as the change of its allocation does (R40 to R42, R81). -/
theorem Claim.reflag_eq_changedTo (commit : Bool) (c : Claim) (alloc : List Entry) (ht : c.state.terminal = false) :
    Claim.reflag commit c (Claim.resum { c with allocation := alloc }) = c.changedTo commit alloc := by
  have d : ∀ {p q : Prop} [Decidable p] [Decidable q], (p ↔ q) → decide p = decide q := decide_eq_decide.2
  have h : c.figures.req - sumE alloc ≠ 0 ↔ sumE alloc < c.figures.req := by omega
  unfold Claim.reflag Claim.resum Claim.changedTo
  dsimp only
  congr 2
  · split <;> rename_i hx <;> simp only [shortEvaluated, Bool.and_eq_true, Bool.or_eq_true, decide_eq_true_eq] at hx
    · rw [if_pos hx]
      exact d h
    · rw [if_neg hx]
  · congr 1
    rw [Bool.eq_iff_iff, overCeilingFound_iff]
    simp [ht]

/-- The latches that a reallocation of a non-terminal claim asks for (R42, R81). -/
theorem State.latchAsked_reallocate (s : State) (h : Hall) (commit : Bool) (alloc : List Entry) (c : Claim)
    (hc : s.claim h = some c) (ht : c.state.terminal = false) (l : Latch) :
    LatchAsked s (s.reallocate h commit alloc) h l (c.changeAsks commit alloc l) := by
  have e := Claim.reflag_eq_changedTo commit c alloc ht
  have o : overCeilingFound c (Claim.resum { c with allocation := alloc }) =
      decide (sumE alloc ≠ c.allocatedSum ∧ c.figures.cap < sumE alloc) := by
    rw [Bool.eq_iff_iff, overCeilingFound_iff]
    simp [Claim.resum, ht]
  have p : ∀ x, ((s.setClaim h x).port h) = s.port h := fun _ => rfl
  unfold State.reallocate
  simp only [hc, e, o, LatchAsked]
  split <;> split <;> cases l <;> simp_all [State.get_setLatch, Claim.changeAsks]

/-- Some cylinder of a list is UNREAD. -/
theorem State.drawsUnread_eq (s : State) (taken : List Entry) :
    s.drawsUnread taken = taken.any fun e => unreadRecord (s.cyl e.cyl) := by
  unfold State.drawsUnread
  congr 1
  funext e
  cases s.cyl e.cyl <;> simp [unreadRecord]

/-- What a commit leaves of a non-terminal claim (R73, R78, R80). -/
theorem State.claim_commit (s : State) (h : Hall) (taken : List Entry) (c : Claim) (hc : s.claim h = some c)
    (ht : c.state.terminal = false) : (s.commit h taken).claim h = some (s.committed c taken) := by
  have ha : (s.assign h taken).claim h = some c := by simpa [State.claim] using hc
  have r := State.claim_reallocate _ h true (c.allocation ++ taken) c ha
  rw [Claim.reflag_eq_changedTo true c _ ht] at r
  have k : ∀ (x : State) (b : Bool), (if b then x.setLatch h .reserveUsed else x).claim h = x.claim h := by
    intro x b
    cases b <;> simp [State.claim]
  unfold State.commit State.committed
  rw [hc]
  cases taken with
  | nil => simpa using hc
  | cons x xs =>
    dsimp only [List.isEmpty_cons, Bool.false_eq_true, if_false]
    simp only [Bool.false_eq_true, if_false, reduceCtorEq]
    rw [k, State.claim_updClaim_self, r, ← State.drawsUnread_eq]
    rfl

/-- The latches that a commit asks for (R80). -/
theorem State.latchAsked_commit (s : State) (h : Hall) (taken : List Entry) (c : Claim) (hc : s.claim h = some c)
    (ht : c.state.terminal = false) (l : Latch) : LatchAsked s (s.commit h taken) h l (s.commitAsks c taken l) := by
  have ha : (s.assign h taken).claim h = some c := by simpa [State.claim] using hc
  have r := State.latchAsked_reallocate _ h true (c.allocation ++ taken) c ha ht l
  have p : (s.assign h taken).port h = s.port h := by simp [State.port]
  have u : ∀ (x : State) f, (x.updClaim h f).port h = x.port h := fun _ _ => rfl
  unfold LatchAsked State.commitAsks State.commit
  unfold LatchAsked at r
  rw [p] at r
  rw [hc]
  cases taken with
  | nil => simp
  | cons x xs =>
    dsimp only [List.isEmpty_cons, Bool.not_false, Bool.true_and]
    simp only [Bool.false_eq_true, if_false]
    by_cases hr : s.drawsReserve (x :: xs) = true
    · rw [State.drawsReserve] at hr
      rw [if_pos hr, State.get_setLatch, u]
      cases l <;> simp_all [State.drawsReserve, Claim.changeAsks]
    · rw [State.drawsReserve] at hr
      rw [if_neg hr, u, r]
      cases l <;> simp_all [State.drawsReserve, Claim.changeAsks]

/-- The sum over some of the entries is at most that over all. -/
theorem sumE_filter_le (p : Entry → Bool) (es : List Entry) : sumE (es.filter p) ≤ sumE es := by
  induction es with
  | nil => simp
  | cons e es ih =>
    have : sumE (e :: es) = e.e + sumE es := by simp [sumE]
    rw [List.filter_cons]
    split
    · simp only [sumE, List.map_cons, List.sum_cons] at *
      omega
    · omega

/-! ### Fields of a content (chapter 12) -/

/-- A number written out between other bytes is read back, cut to its width. -/
theorem wordAt_bytesOf (a b : List Byte) (n x : Nat) : wordAt (a ++ (bytesOf n x ++ b)) a.length n = x % 256 ^ n := by
  rw [wordAt, List.drop_left, List.take_left' (length_bytesOf n x), number_bytesOf]

/-- The first field of a pack, cut to its width. -/
theorem fieldOf_pack_head (w x : Nat) (rest : List (Nat × Nat)) : fieldOf (pack ((w, x) :: rest)) 0 w = x % 2 ^ w := by
  simp [fieldOf, pack]

/-- A later field of a pack is a field of the rest. -/
theorem fieldOf_pack_tail (w x lo n : Nat) (rest : List (Nat × Nat)) :
    fieldOf (pack ((w, x) :: rest)) (w + lo) n = fieldOf (pack rest) lo n := by
  have h : (x % 2 ^ w + 2 ^ w * pack rest) / 2 ^ w = pack rest := by
    rw [Nat.add_mul_div_left _ _ (Nat.two_pow_pos w), Nat.div_eq_of_lt (Nat.mod_lt _ (Nat.two_pow_pos w)), Nat.zero_add]
  simp only [fieldOf, pack, Nat.pow_add, ← Nat.div_div_eq_div_mul, h]

/-- A pack is less than two to the width of its fields. -/
theorem pack_lt (fs : List (Nat × Nat)) : pack fs < 2 ^ (fs.map (·.1)).sum := by
  induction fs with
  | nil => simp [pack]
  | cons f fs ih =>
    obtain ⟨w, x⟩ := f
    have hx : x % 2 ^ w < 2 ^ w := Nat.mod_lt _ (Nat.two_pow_pos w)
    have : 2 ^ w * (pack fs + 1) ≤ 2 ^ w * 2 ^ (fs.map (·.1)).sum := Nat.mul_le_mul_left _ ih
    simp only [pack, List.map_cons, List.sum_cons, Nat.pow_add]
    rw [Nat.mul_add] at this
    omega

/-! ### An empty line -/

/-- To fire a line with no cylinder still ASSIGNED: it is DONE at once, the next line deadline is loaded, and its line
completion taken (R116). -/
theorem State.fireLine_empty (s : State) (h : Hall) (c : Claim) (sc : Schedule) (line : Line) (hc : s.claim h = some c)
    (hs : c.schedule = some sc) (hl : sc.lines[sc.cursor]? = some line)
    (he : ∀ k ∈ line.cyls, s.assignedTo h k = false) :
    s.fireLine h = State.lineCompletion
      ((s.updSchedule h fun sc => sc.firedEmpty s.now).loadUnit h (s.now + ms s.timing.lineInterval) .nextLine) h := by
  have hp : line.cyls.filter (s.assignedTo h) = [] := by simpa using he
  have hb : (s.claim h).bind (·.schedule) = some sc := by simp [hc, hs]
  simp only [State.fireLine, hb, hl, hp]
  rfl

end Sys2Proof.Machine
end

