-- ==== Sys2Proof/Tests/Slice0.lean ====
section
/-! SUPPORT. Own tests: the checks of WellFormed refuse ill-formed terms; worked values of spec/; single commands on small
states; and, for each statement with hypotheses, a state and operands that meet them. -/

namespace Sys2Proof.Tests

open Sys2Proof.Machine

/-! ### WellFormed refuses -/

theorem test_wf_long_poll : (Instr.poll 0 (List.replicate 49 0)).wf = false := by decide

theorem test_wf_full_poll : (Instr.poll 0 (List.replicate 48 0)).wf = true := by decide

theorem test_wf_long_release : (Instr.release 0 (List.replicate 49 0)).wf = false := by decide

theorem test_wf_long_abort : (Instr.abort 0 (List.replicate 49 0)).wf = false := by decide

theorem test_wf_long_latch_clear : (Instr.latchClear 0 (List.replicate 49 0)).wf = false := by decide

theorem test_wf_long_query : (Instr.query 0 (List.replicate 49 0)).wf = false := by decide

theorem test_wf_long_site_poll : (Instr.sitePoll (List.replicate 49 0)).wf = false := by decide

theorem test_wf_long_cylinder_query : (Instr.cylinderQuery (List.replicate 49 0)).wf = false := by decide

theorem test_wf_long_claim_query : (Instr.claimQuery (List.replicate 49 0)).wf = false := by decide

theorem test_wf_long_commission_read : (Instr.commissionRead (List.replicate 49 0)).wf = false := by decide

theorem test_wf_long_commission_write : (Instr.commissionWrite (List.replicate 49 0)).wf = false := by decide

theorem test_wf_long_maint_isolate : (Instr.maintIsolate (List.replicate 49 0)).wf = false := by decide

theorem test_wf_long_maint_restore : (Instr.maintRestore (List.replicate 49 0)).wf = false := by decide

theorem test_wf_hall_kind_known : (Instr.hallUnknownKind 0 5 []).wf = false := by decide

theorem test_wf_hall_kind_long : (Instr.hallUnknownKind 0 6 (List.replicate 49 0)).wf = false := by decide

theorem test_wf_hall_kind_unknown : (Instr.hallUnknownKind 0 16 []).wf = true := by decide

theorem test_wf_site_kind_known : (Instr.siteUnknownKind 16 []).wf = false := by decide

theorem test_wf_site_kind_long : (Instr.siteUnknownKind 15 (List.replicate 49 0)).wf = false := by decide

theorem test_wf_site_kind_unknown : (Instr.siteUnknownKind 5 []).wf = true := by decide

/-! ### The installation of the examples (sections 2.1, 2.9.1, 11.0), with two cylinders fitted -/

/-- The design table of section 2.1. -/
def designT : Vector Nat 16 := #v[700, 684, 668, 652, 637, 623, 610, 598, 586, 574, 563, 552, 541, 531, 521, 511]

/-- The ceiling table of section 2.1. -/
def ceilingT : Vector Nat 16 := #v[940, 920, 900, 880, 860, 840, 820, 804, 788, 772, 757, 742, 728, 714, 700, 687]

/-- Hall 3 of section 2.9.1. -/
def hallT : HallRecord :=
  { commissioned := true, volume := 2400, margin := 10, minFraction := 50, reservePolicy := .onRequest, fallback := 180
    autoDelay := 30000, manualDelay := 10000, supervisionTimeout := 3000, openLevel := .made }

/-- The timing of section 11.0. -/
def timingT : Timing :=
  { resumeMinimum := 10000, holdLimit := 120000, selectorOpenTimeout := 8000, selectorCloseTimeout := 8000
    lineInterval := 500, firePulse := 100, confirmTimeout := 10000, ventThreshold := 20, ventTimeout := 60000 }

/-- A CYLINDER record of section 11.0. -/
def bottleT : CylinderRecord := { fitted := true, qNom := 800, pNom := 3000, inService := true }

/-- An image with hall 1, cylinders 0 and 1, and their channels. -/
def imageT : Image :=
  { blankImage with
    halls := blankImage.halls.set 0 hallT
    cylinders := (blankImage.cylinders.set 0 bottleT).set 1 bottleT
    designTable := designT
    ceilingTable := ceilingT
    timing := timingT
    thresholds := { low := 950, empty := 200, flowLevel := .made }
    roles := (((blankImage.roles.set 0 (.cylinder 0)).set 1 (.cylinder 1)).set 64 (.selector 0)).set 72 .vent }

/-- A cylinder that reads 285.0 bar, FULL with E 760 (section 11.0). -/
def cylT (d : Disposition) : Cylinder :=
  { window := some { w0 := 2850, w1 := 2850, w2 := 2850, w3 := 2850 }, pos := 1, seeded := true, streak := 0, pAvg := 2850
    phi := 950, e := 760, condition := .full, disposition := d }

/-- The filter of an established input. -/
def filterT {α : Type} (x : α) : InputFilter α := { raw := x, level := some x, run := none }

/-- An established contact that reads `l`. -/
def contactT (l : Level) : Contact :=
  { measured := match l with | .made => .made | .broken => .broken, level := filterT l, loop := filterT .normal }

/-- In NORMAL at 100 000 ms, every input established BROKEN, both cylinders FULL and FREE, every port HUNTING. -/
def s0 : State :=
  { State.reset with
    now := 100000
    store := { image := imageT, crc := 0, write := none, crcStore := none }
    ctl := { mode := .normal, key := .off, imageValid := true, exitPending := false, outstanding := []
             startupUnit := .inhibited }
    cyls := (State.reset.cyls.set 0 (some (cylT .free))).set 1 (some (cylT .free))
    inputs := { selectors := .replicate 8 (contactT .broken), switch := contactT .broken, key := filterT .broken }
    ports := .replicate 8 { resetPort with rx := { resetReceiver with state := .hunting } }
    site := { resetSite with rx := { resetReceiver with state := .hunting } } }

/-- The claim of hall 1 in state `st` with cylinder 0 allocated. -/
def claimT (st : ClaimState) : Claim :=
  { newClaim .auto false 90000 (s0.figures 0) with
    state := st, allocation := [{ cyl := 0, e := 760 }], allocatedSum := 760, shortage := (s0.figures 0).req - 760
    remaining := if st = .hold then some 7000 else none }

/-- A schedule of one line, fired or not. -/
def scheduleT (cursor : Nat) : Schedule :=
  { lines := [{ newLine [0] with time := if cursor = 0 then none else some 99000 }, newLine [1]]
    cursor := cursor, outstanding := 0 }

/-- Hall 1 has a claim in state `st` whose cylinder 0 is ASSIGNED, with `u` in its unit. -/
def sC (st : ClaimState) (u : CompareUnit := .inhibited) : State :=
  { ((s0.setClaim 0 (some (claimT st))).setUnit 0 u).setDisposition 0 (.assigned 0) with order := [0] }

/-- The manifold of the state is in state `m`, held by or last held by hall 1. -/
def heldBy (m : ManifoldState) (holder : Option Hall) (s : State) : State :=
  s.setManifold { s.manifold with state := m, holder := holder, lastHall := some 0, pressure := some .invalid }

/-- The claim in FIRING with one line fired. -/
def sF (u : CompareUnit := .inhibited) : State :=
  heldBy .discharging (some 0) ((sC .firing u).setClaim 0 (some { claimT .firing with schedule := some (scheduleT 1) }))

/-! ### Worked values -/

/-- The check value of the CRC, R192: the nine characters 123456789 give 0x29B1. -/
theorem test_crc_check_value :
    crc16 [0x31, 0x32, 0x33, 0x34, 0x35, 0x36, 0x37, 0x38, 0x39] = 0x29B1 := by decide +kernel

/-- Section 11.0: p_avg 2850 at 15.0 degrees gives phi 950, FULL, E 760. -/
theorem test_charge_fraction : chargeFraction 2850 3000 150 = 950 ∧ classify 950 200 950 = .full ∧
    effective 800 950 .full = 760 := by decide

/-- Section 2.9.1: at 22.4 degrees f_d is 605 and f_c is 812; Req 15 972, Cap 19 488, minimum acceptable 7986. -/
theorem test_figures_hall_3 : designFactor designT 224 = 605 ∧ ceilingFactor ceilingT 224 = 812 ∧
    requirement 2400 605 10 = 15972 ∧ ceilingMass 2400 812 = 19488 ∧ minimumAcceptable 15972 50 = 7986 := by decide

/-- Section 11.3: the lines of hall 5's allocation hold 2, 4, 3, 4 and 4 cylinders. -/
theorem test_lines_hall_5 :
    lay [12, 13, 14, 15, 32, 48, 33, 49, 34, 35, 51, 36, 52, 37, 53, 38, 54] =
      [[12, 13], [14, 15, 32, 48], [33, 49, 34], [35, 51, 36, 52], [37, 53, 38, 54]] := rfl

/-- R158: 4 mA is 0.0 bar and 20 mA is 400.0 bar; 3.6 and 21.0 mA are valid, and limited. -/
theorem test_loop_pressure : loopPressure 4000 = some 0 ∧ loopPressure 20000 = some 4000 ∧ loopPressure 3600 = some 0 ∧
    loopPressure 21000 = some 4000 ∧ loopPressure 3599 = none ∧ loopPressure 21001 = none := by decide

/-- R158: 4 mA is -40.0 degrees and 20 mA is 85.0 degrees. -/
theorem test_loop_temperature : loopTemperature 4000 = some (-400) ∧ loopTemperature 20000 = some 850 := by decide

/-- R190: the blank factory image fails validation on its ranges. -/
theorem test_blank_image_fails : validate blankImage = some .range := by decide

/-- No row of the opcode table gives bits, so no word spells a command. -/
theorem test_no_word : decodeTableWord 16 0x0102 = none := by decide

/-! ### Single commands -/

/-- A reply's free delay lies within the bounds of R165. -/
theorem test_reply_delay (n : Nat) : ∃ d, 1 ≤ d ∧ d ≤ 5 ∧ Config.replyDelay n = BitVec.ofNat 32 d :=
  ⟨1 + Config.replyTiming n % 5, by omega, by omega, rfl⟩

/-- The next state of a command. -/
def next (c : Instr) (s : State) : State := match exec c s with | .next t => t | _ => s

/-- R179: after a device reset the mode is STARTUP and every fitted cylinder's first sample is outstanding. -/
theorem test_device_reset : (next .deviceReset s0).mode = .startup ∧
    .cylinder 1 ∈ (next .deviceReset s0).ctl.outstanding ∧ .cylinder 2 ∉ (next .deviceReset s0).ctl.outstanding := by
  decide

/-- R49: in NORMAL an AUTO RELEASE counts down the auto delay; two cylinders of 760 fall short of the minimum acceptable, so it
stands STARVED-flagged with nothing allocated (R54, R79). -/
theorem test_release : (next (.release 0 [0, 0]) s0).unit 0 = .watching 130000 .countdown ∧
    ((next (.release 0 [0, 0]) s0).claim 0).map (fun c => (c.flags.starved, c.allocation)) = some (true, []) := by
  decide

/-- R66: an ABORT in COUNTDOWN frees the cylinder and hands one POOL GAIN. -/
theorem test_abort : (next (.abort 0 []) (sC .countdown)).poolGains = 1 ∧
    (next (.abort 0 []) (sC .countdown)).cyl 0 = some (cylT .free) := by decide

/-- R59: a hold edge in COUNTDOWN is a HOLD under the hold limit. -/
theorem test_poll_hold : (next (.poll 0 [0, 0, 0, 1]) (sC .countdown (.watching 107000 .countdown))).claimState 0 = some .hold ∧
    (next (.poll 0 [0, 0, 0, 1]) (sC .countdown (.watching 107000 .countdown))).unit 0 = .watching 220000 .holdLimit := by
  decide

/-- R186: MAINT_ISOLATE outside MAINTENANCE programs nothing. -/
theorem test_isolate_refused : (next (.maintIsolate [0]) s0).store.write = none := by decide

/-! ### Steps: the hypotheses met -/

theorem witness_StepTakesFront : ({ s0 with pending := [.keyOn, .keyOff] } : State).pending = .keyOn :: [.keyOff] := rfl

theorem witness_IdleStep_raised : s0.pending = [] ∧ ({ s0 with poolGains := 1 } : State).raised ≠ [] := by decide

theorem witness_IdleStep_tick : s0.pending = [] ∧ s0.raised = [] := by decide

/-- A receiver with a frame begun 1 ms ago. -/
def rxT : Receiver := { state := .assembling, buffer := [1], lastByte := some 99999, complete := none }

/-- A reply is owed whose transmission begins with the next millisecond, while a frame is assembled. -/
theorem witness_IdleStep_held :
    let s := s0.updPort 0 fun p => { p with rx := rxT, owed := true, replyBegins := some 100001 }
    s.pending = [] ∧ s.raised = [] ∧ (s.port 0).rx.state = .assembling ∧
      transmitting (s.port 0).owed (s.port 0).replyBegins (s.now + 1) = true := by decide

/-! ### Laws: a state that keeps them, with the grant in OPENING -/

/-- Hall 1 holds the grant in SELECTING, with its schedule. -/
def sG : State :=
  { ((heldBy .opening (some 0) (sC .selecting (.watching 108000 .selectorOpen))).commandSelector 0 .opened).setClaim 0
      (some { claimT .selecting with schedule := some (scheduleT 0) }) with
    pending := [.rackTemperatureSample 0 11040] }

theorem witness_step_taken : ∃ t, step sG = .next t := ⟨_, rfl⟩

theorem witness_GrantLawKept : GrantLaw sG :=
  ⟨by decide, by decide, by decide, by decide, by decide, by decide, by decide, by decide⟩

theorem witness_bank : ∀ k : CylIdx, ∀ c ∈ sG.cyl k, (c.seeded = false → c.condition = .unread) ∧ c.streak ≤ 3 ∧
    c.pAvg ≤ 4000 ∧ c.phi ≤ 1000 ∧ c.e = effective (sG.image.cylinders[k]).qNom c.phi c.condition ∧
    ∀ w ∈ c.window, w.w0 ≤ 4000 ∧ w.w1 ≤ 4000 ∧ w.w2 ≤ 4000 ∧ w.w3 ≤ 4000 := by decide

theorem witness_BankLawKept : BankLaw sG where
  fitted := by decide
  records k c hc :=
    let ⟨a, b, d, e, f, _⟩ := witness_bank k c hc
    ⟨a, b, d, e, f⟩
  windows k c w hc hw := (witness_bank k c hc).2.2.2.2.2 w hw

theorem witness_claims : ∀ h : Hall, ∀ c ∈ sG.claim h,
    (c.allocatedSum = sumE c.allocation ∧ c.shortage = c.figures.req - c.allocatedSum ∧
      c.allocation.length + c.fired.length ≤ Config.claimLimit ∧ c.state = .selecting) ∧
    (c.allocation ≠ [] ∧ c.flags.starved = false ∧ (c.allocation.map (·.cyl)).Nodup ∧
      (∀ e ∈ c.allocation, (sG.cyl e.cyl).map (·.e) = some e.e)) := by decide

theorem witness_owner : ∀ (h : Hall) (k : CylIdx), sG.assignedTo h k =
    (match sG.claim h with | some c => c.allocation.any (fun e => e.cyl = k) | none => false) := by decide

theorem witness_pulses : ∀ ch : ChanIdx, (sG.channel ch).pulse = none := by decide

theorem witness_quiet : ∀ k : CylIdx, sG.pulsing k = false := fun k => by
  simp [State.pulsing, witness_pulses]

theorem witness_claim : sG.claim 0 = some { claimT .selecting with schedule := some (scheduleT 0) } ∧
    ∀ h : Hall, h ≠ 0 → sG.claim h = none := by decide

theorem witness_image : validate sG.image = none := by decide +kernel

theorem witness_ScheduleLaw :
    ScheduleLaw sG { claimT .selecting with schedule := some (scheduleT 0) } (scheduleT 0) where
  cursor := by decide
  lines := by decide
  ahead := fun e he => .inl (by revert e; decide)
  outstanding := by
    have h : (claimT .selecting).allocation.filter (fun e => sG.pulsing e.cyl) = [] := by simp [witness_quiet]
    simp [h, scheduleT]

theorem witness_ClaimsLawKept : ClaimsLaw sG where
  each h c hc := by
    obtain ⟨⟨a, b, d, e⟩, f, g, _⟩ := witness_claims h c hc
    refine ⟨a, b, d, fun _ => by simp [e], fun hs => ?_, fun hs => ?_, fun _ => f⟩
    · simp [g] at hs
    · simp [e] at hs
  allocation :=
    { owner := fun h k => by
        rw [witness_owner h k]
        cases hc : sG.claim h <;> simp
      once := fun h c hc => (witness_claims h c hc).2.2.2.1
      content := fun h c e hc he => by simpa using (witness_claims h c hc).2.2.2.2 e he }
  schedule h c hc _ := by
    by_cases h0 : h = 0
    · subst h0
      obtain rfl := Option.some.inj (witness_claim.1.symm.trans hc)
      exact ⟨scheduleT 0, rfl, witness_ScheduleLaw⟩
    · simp [witness_claim.2 h h0] at hc
  deferral h c _ hc hf := by
    obtain ⟨⟨_, _, _, e⟩, _⟩ := witness_claims h c hc
    simp [e] at hf
  pulses ch hp := by simp [witness_pulses ch] at hp
  image _ := witness_image

theorem witness_DriveLawKept : DriveLaw sG := by
  unfold DriveLaw
  decide

theorem witness_ProgrammingLawKept : ProgrammingLaw sG := ⟨by decide, by decide, by decide⟩

theorem witness_ports : (∀ h : Hall, sG.port h = { resetPort with rx := { resetReceiver with state := .hunting } }) ∧
    sG.site = { resetSite with rx := { resetReceiver with state := .hunting } } := by decide

theorem witness_PortsLawKept : PortsLaw sG where
  halls h := by
    rw [witness_ports.1 h]
    exact ⟨by decide, by decide, by decide, by decide⟩
  siteOwed := by decide
  siteBegins := by decide
  receivers h := by
    rw [witness_ports.1 h]
    exact ⟨by decide, by decide, by decide⟩
  siteReceiver := ⟨by decide, by decide, by decide⟩

theorem witness_PortsLawKept_all : ProgrammingLaw sG ∧ PortsLaw sG := ⟨witness_ProgrammingLawKept, witness_PortsLawKept⟩

theorem witness_modes : (∀ h : Hall, sG.nonTerminal h = true → sG.mode = .normal ∨ sG.mode = .maintPending) ∧
    sG.mode = .normal := by decide

theorem witness_ModeLawKept : ModeLaw sG := ⟨witness_modes.1, fun _ _ _ _ => witness_modes.2⟩

/-! ### Encodings: the hypotheses met -/

theorem witness_FrameRoundTrip_hall : (Instr.poll 2 [1, 0, 200, 1]).wf = true ∧
    requestOf (.poll 2 [1, 0, 200, 1]) = some (.hall 2, { kind := 1, payload := [1, 0, 200, 1] }) ∧
    (s0.port 2).rx.state = .hunting ∧ (99995 : Time) = 99990 + ms 5 := by decide

theorem witness_FrameRoundTrip_unknown : (Instr.siteUnknownKind 127 (List.replicate 48 0xA5)).wf = true ∧
    requestOf (.siteUnknownKind 127 (List.replicate 48 0xA5)) =
      some (.site, { kind := 127, payload := List.replicate 48 0xA5 }) := by decide

theorem witness_RecordRoundTrip_cylinder : recordName 3 63 = some (.cylinder 63) ∧
    parseRecord (.cylinder 63) [1, 3, 0x20, 0x0B, 0xB8] = some (.cylinder 63 true 800 3000) := by decide

theorem witness_RecordRoundTrip_channel : recordName 8 79 = some (.channel 79) ∧
    parseRecord (.channel 79) [2, 8] = some (.channel 79 (.selector 7)) := by decide

/-! ### Samples: the hypotheses met -/

/-- Cylinder 0 with another record. -/
def with0 (f : Cylinder → Cylinder) (s : State) : State := s.updCyl 0 f

theorem witness_ValidPressureSample_seeds : (with0 (fun c => { c with streak := 3 }) s0).cyl 0 =
    some { cylT .free with streak := 3 } ∧ 3600 ≤ 3600 := by decide

theorem witness_ValidPressureSample_full : s0.cyl 0 = some (cylT .free) ∧ 3600 ≤ 21000 ∧ 21000 ≤ 21000 := by decide

theorem witness_ValidPressureSample_low : (with0 (fun c => { c with condition := .low }) s0).cyl 0 =
    some { cylT .free with condition := .low } := by decide

theorem witness_ValidPressureSample_empty : (with0 (fun c => { c with condition := .empty, e := 0 }) s0).cyl 0 =
    some { cylT .free with condition := .empty, e := 0 } := by decide

theorem witness_SampleHandedOver_free : s0.cyl 1 = some (cylT .free) ∧ s0.mode ≠ .startup := by decide

/-- The sample makes the ASSIGNED cylinder EMPTY. -/
theorem witness_SampleHandedOver_empty :
    let s := with0 (fun c => { c with streak := 3 }) (sC .waiting)
    s.cyl 0 = some { cylT (.assigned 0) with streak := 3 } ∧ s.claimState 0 = some .waiting ∧
      ((next (.pressureSample 0 4600) s).cyl 0).map (·.condition) = some .empty := by decide

/-- The same where nothing is left, in the states that then are STARVED, and where cylinder 1 can be taken. -/
theorem witness_SampleHandedOver_loss : ∀ st ∈ [ClaimState.countdown, .hold, .waiting, .selecting],
    let s := heldBy .opening (some 0) (with0 (fun c => { c with streak := 3 }) (sC st))
    s.claim 0 = some (claimT st) ∧ s.manifold.lastHall = some 0 ∧ (∃ e ∈ (claimT st).allocation, e.cyl = 0) ∧
      ((next (.pressureSample 0 4600) (s.setCyl 1 none)).claim 0).map (·.allocation) = some [] ∧
      ((next (.pressureSample 0 4600) s).claim 0).map (·.allocation) = some [{ cyl := 1, e := 760 }] := by decide

/-- The sample lowers the E of the ASSIGNED cylinder, or raises it, and it is not EMPTY. -/
theorem witness_SampleHandedOver_handed :
    let s := with0 (fun c => { c with streak := 3 }) (sC .selecting)
    (claimT .selecting).allocation ≠ [] ∧ ((next (.pressureSample 0 14000) s).cyl 0).map (·.condition) = some .low ∧
      ((next (.pressureSample 0 14000) s).cyl 0).map (·.e) = some 666 ∧
      ((next (.pressureSample 0 16000) s).cyl 0).map (·.e) = some 800 := by decide

theorem witness_SampleHandedOver_firing : sF.cyl 0 = some (cylT (.assigned 0)) ∧ sF.claimState 0 = some .firing := by
  decide

theorem witness_InvalidPressureSample_third : (with0 (fun c => { c with streak := 2 }) s0).cyl 0 =
    some { cylT .free with streak := 2 } ∧ 3599 < 3600 := by decide

theorem witness_InvalidPressureSample_other : s0.cyl 0 = some (cylT .free) ∧ 21000 < 21001 := by decide

/-- The third invalid sample of a cylinder ASSIGNED to a claim short of FIRING, or in it, with E to lose and with none. -/
theorem witness_InvalidPressureSample_handed :
    ∀ st ∈ [ClaimState.countdown, .hold, .waiting, .selecting, .firing], ∀ e ∈ [760, 0],
    let s := with0 (fun c => { c with streak := 2, e := e }) (sC st)
    s.cyl 0 = some { cylT (.assigned 0) with streak := 2, e := e } ∧ s.claim 0 = some (claimT st) ∧
      (claimT st).allocation ≠ [] ∧ s.mode ≠ .startup := by decide

/-- R8, R14, R82: the third invalid sample leaves the cylinder ASSIGNED at E 0, and the shortage takes cylinder 1; in FIRING it
takes nothing (R130). -/
theorem test_third_invalid_handed :
    let s (st : ClaimState) := with0 (fun c => { c with streak := 2 }) (sC st)
    ((next (.pressureSample 0 0) (s .waiting)).claim 0).map (·.allocation) =
        some [{ cyl := 0, e := 0 }, { cyl := 1, e := 760 }] ∧
      ((next (.pressureSample 0 0) (s .firing)).claim 0).map (·.allocation) = some [{ cyl := 0, e := 0 }] ∧
      (next (.pressureSample 0 0) (s .waiting)).assignedTo 0 0 = true := by decide

theorem witness_InvalidPressureSample_unfitted : s0.cyl 63 = none ∧ s0.mode ≠ .startup := by decide

theorem witness_RackTemperatureSample : s0.mode ≠ .startup ∧ 3600 ≤ 3600 ∧ 21000 < 21001 := by decide

/-- In STARTUP with one first sample outstanding. -/
def sS (src : SampleSource) : State :=
  { s0 with ctl := { s0.ctl with mode := .startup, outstanding := [src], startupUnit := .expired 1500 .startup } }

theorem witness_StartupCompletes : (sS (.cylinder 0)).mode = .startup ∧
    (sS (.cylinder 0)).ctl.outstanding = [.cylinder 0] ∧ (sS (.rack 3)).ctl.outstanding = [.rack 3] ∧
    (sS (.rack 3)).ctl.startupUnit.raised (sS (.rack 3)).now .startup = true := by decide

/-! ### The manifold: the hypotheses met -/

theorem witness_ManifoldSampleRecorded_first : s0.manifold.state = .idle ∧ s0.manifold.pressure = none ∧
    s0.timing.ventThreshold < min 4000 ((4084 - 4000 + 2) / 4) := by decide

theorem witness_ManifoldSampleRecorded_other : (heldBy .closing none s0).manifold.state ≠ .venting ∧
    (heldBy .closing none s0).manifold.state ≠ .idle := by decide

/-- VENTING with the vent deadline expired, and the claim of hall 1 waiting or not. -/
def sV (wait : List WaitEntry) : State :=
  let s := heldBy .venting none (sC .waiting)
  s.setManifold { s.manifold with unit := .expired 100000 .vent, waitList := wait }

/-- In VENTING, a sample one above the threshold; an INVALID one. -/
theorem witness_ManifoldSampleRecorded_venting : (sV []).manifold.state = .venting ∧
    (sV []).timing.ventThreshold < min 4000 ((4084 - 4000 + 2) / 4) ∧ ¬ 3600 ≤ 3599 ∧ ¬ 21001 ≤ 21000 := by decide

/-- R106: a sample above the threshold is recorded and the venting goes on; one at the threshold is recorded and ends it. -/
theorem test_venting_samples :
    (next (.manifoldPressureSample 4084) (sV [])).manifold.pressure = some (.valid 21) ∧
      (next (.manifoldPressureSample 4084) (sV [])).manifold.state = .venting ∧
      (next (.manifoldPressureSample 4080) (sV [])).manifold.pressure = some (.valid 20) ∧
      (next (.manifoldPressureSample 4080) (sV [])).manifold.state = .idle := by decide

theorem witness_VentingEnds_sample : (sV []).manifold.state = .venting ∧
    min 4000 ((4080 - 4000 + 2) / 4) ≤ (sV []).timing.ventThreshold ∧ (sV []).manifold.waitList = [] := by decide

theorem witness_VentingEnds_timeout : (sV []).manifold.unit.raised (sV []).now .vent = true ∧
    ((sV []).putMismatch 7 true).mismatch 7 = true := by decide

theorem witness_VentingEnds_grant : (sV [⟨0, 99000⟩]).manifold.waitList = [⟨0, 99000⟩] ∧
    (∀ h, (sV [⟨0, 99000⟩]).mismatch h = false) ∧ (sV [⟨0, 99000⟩]).claim 0 = some (claimT .waiting) := by decide

/-- CLOSING after hall 1 with the close deadline expired. -/
def sK : State :=
  let s := heldBy .closing none s0
  s.setManifold { s.manifold with unit := .expired 100000 .close }

theorem witness_CloseTimeoutVents : sK.manifold.state = .closing ∧ sK.manifold.lastHall = some 0 ∧
    sK.manifold.unit.raised sK.now .close = true ∧ sK.mismatch 0 = false := by decide

/-! ### Release circuits: the hypotheses met -/

/-- The pulse of cylinder 0's channel ran its length. -/
def sP : State := (sF.setChannel 0 { resetChannel with pulse := some 99900 }).redrive

theorem witness_SupervisionRecord : s0.role 79 = .unused ∧ (sP.channel 0).pulse.isSome = true ∧
    s0.role 64 ≠ .unused ∧ (s0.channel 64).pulse = none := by decide

theorem witness_SelectorFaultMark_set : s0.role 64 = .selector 0 ∧ (s0.channel 64).pulse = none ∧
    (s0.channel 64).energised = false ∧ s0.selectorFaulted 0 = false ∧ (sC .hold).claimState 0 = some .hold := by decide

/-- The readings at their limits, with the channel energised and not: SHORT, OPEN, NORMAL; and a mark set. -/
theorem witness_SelectorFaultMark_readings :
    classifyQuiescent ⟨249, 0, false⟩ = .shorted ∧ classifyQuiescent ⟨250, 0, false⟩ = .normal ∧
      classifyQuiescent ⟨4000, 0, false⟩ = .normal ∧ classifyQuiescent ⟨4001, 0, false⟩ = .opened ∧
      classifyDrive ⟨0, 49, false⟩ = .opened ∧ classifyDrive ⟨0, 50, false⟩ = .normal ∧
      classifyDrive ⟨0, 50, true⟩ = .shorted ∧ (s0.setFaulted 0 true).selectorFaulted 0 = true ∧
      ((s0.commandSelector 0 .opened).channel 64).energised = true ∧
      ((s0.commandSelector 0 .opened).channel 64).pulse = none := by decide

/-- R155: a SHORT on the energised selector channel of the grant holder marks the hall and leaves its claim and its command. -/
theorem test_selector_short_energised :
    let t := next (.supervisionCheck 64 ⟨0, 500, true⟩) sG
    t.selectorFaulted 0 = true ∧ t.claimState 0 = some .selecting ∧ (t.channel 64).energised = true := by decide

theorem witness_SelectorFaultMark_clear :
    ((s0.setChannel 64 { resetChannel with goodChecks := 2 }).channel 64).goodChecks = 2 := by decide

theorem witness_ActuatorSupervision_free : s0.role 0 = .cylinder 0 ∧ (s0.channel 0).pulse = none ∧
    (s0.channel 0).energised = false ∧ s0.cyl 0 = some (cylT .free) := by decide

theorem witness_ActuatorSupervision_assigned : (sC .waiting).cyl 0 = some (cylT (.assigned 0)) ∧
    (sC .waiting).claim 0 = some (claimT .waiting) := by decide

/-- Cylinder 0's owner in each state of the removal and of the replacement. -/
theorem witness_ActuatorSupervision_owner : (∀ st ∈ [ClaimState.countdown, .hold, .waiting, .selecting],
    let s := heldBy .opening (some 0) (sC st)
    s.role 0 = .cylinder 0 ∧ (s.channel 0).pulse = none ∧ (s.channel 0).energised = false ∧
      s.cyl 0 = some (cylT (.assigned 0)) ∧ s.claim 0 = some (claimT st) ∧ s.manifold.lastHall = some 0) ∧
    sF.cyl 0 = some (cylT (.assigned 0)) ∧ sF.claimState 0 = some .firing ∧ (sF.channel 0).pulse = none := by decide

/-- R20, R82: a SHORT on the channel of a WAITING claim's cylinder tops the claim up with the cylinder left in the pool. -/
theorem test_supervision_tops_up :
    let t := next (.supervisionCheck 0 ⟨100, 0, false⟩) (sC .waiting)
    (t.claim 0).map (fun c => c.allocation.map (·.cyl)) = some [1] ∧ t.assignedTo 0 1 = true ∧
      t.claimState 0 = some .waiting := by decide

/-- R57: with nothing left in the pool the same check makes the claim STARVED, flagged. -/
theorem test_supervision_starves :
    let t := next (.supervisionCheck 0 ⟨100, 0, false⟩) ((sC .waiting).setDisposition 1 .isolated)
    t.claimState 0 = some .starved ∧ (t.claim 0).map (·.flags.starved) = some true := by decide

theorem witness_ActuatorSupervision_third :
    let s := (s0.setChannel 0 { resetChannel with goodChecks := 2 }).setDisposition 0 (.actuatorFault .supervision)
    (s.channel 0).goodChecks = 2 ∧ s.cyl 0 = some (cylT (.actuatorFault .supervision)) := by decide

theorem witness_PulseReadsNormal : sP.role 0 = .cylinder 0 ∧ sP.pulseOver 0 = true ∧
    sP.cyl 0 = some (cylT (.assigned 0)) ∧ sP.claimState 0 = some .firing ∧
    ∀ x ∈ [({ current := 800, limited := false } : PulseMeasurement)], x.limited = false ∧ 800 ≤ x.current := by decide

/-- The claim in FIRING has fired the first of the first `n` lines of its schedule, with `outstanding` pulses of it to come;
`seen` is its discharge seen at. -/
def sPulse (n outstanding : Nat) (seen : Option Time) : State :=
  sP.setClaim 0 (some { claimT .firing with
    dischargeSeenAt := seen
    schedule := some { lines := (scheduleT 1).lines.take n, cursor := 1, outstanding := outstanding } })

/-- More pulses to come; the last with a line left; the last of the last line, with the discharge not seen and seen. -/
theorem witness_PulseReadsNormal_line :
    ∀ x ∈ [((2 : Nat), (2 : Nat), (none : Option Time)), (2, 1, none), (1, 1, none), (1, 1, some 99950)],
    let s := sPulse x.1 x.2.1 x.2.2
    s.role 0 = .cylinder 0 ∧ s.pulseOver 0 = true ∧ s.cyl 0 = some (cylT (.assigned 0)) ∧
      s.claimState 0 = some .firing ∧ 0 < x.1 ∧ 1 ≤ ((scheduleT 1).lines.take x.1).length ∧
      (((scheduleT 1).lines.take x.1)[1 - 1]?).bind (·.time) = some 99000 := by decide

/-- R121, R124: the last pulse of the last line is the entry to CONFIRMING, or the end where the discharge has been seen. -/
theorem test_last_pulse :
    (next (.pulseCompletion 0 [{ current := 900, limited := false }]) (sPulse 1 1 none)).claimState 0 =
      some .confirming ∧
    (next (.pulseCompletion 0 [{ current := 900, limited := false }]) (sPulse 1 1 (some 99950))).claimState 0 =
      some .discharged := by decide

/-- R123: the failed pulse of the last line leaves a line appended, and the claim goes on firing. -/
theorem test_failed_pulse :
    (next (.pulseCompletion 0 [{ current := 100, limited := false }]) (sPulse 1 1 none)).claimState 0 = some .firing := by
  decide

/-- R42, R122: with the sum above Cap before and after, a latch that has been cleared stays clear on a pulse that reads NORMAL,
and is asked for again by a failed pulse, a falling E and a rising E. -/
theorem test_over_ceiling :
    let c := { claimT .firing with
      allocation := [{ cyl := 0, e := 760 }, { cyl := 1, e := 760 }], allocatedSum := 1520
      figures := { (s0.figures 0) with cap := 100 }, flags := { noFlags with overCeiling := true } }
    let s := sP.setClaim 0 (some c)
    ((next (.pulseCompletion 0 [{ current := 900, limited := false }]) s).port 0).latches.overCeiling = .clear ∧
      ((next (.pulseCompletion 0 [{ current := 900, limited := false }]) s).claim 0).map (·.allocatedSum) = some 760 ∧
      ((next (.pulseCompletion 0 [{ current := 100, limited := false }]) s).port 0).latches.overCeiling = .unreported ∧
      ((next (.pressureSample 0 0) (with0 (fun y => { y with streak := 2 }) s)).port 0).latches.overCeiling =
        .unreported ∧
      ((next (.pressureSample 0 16000) (with0 (fun y => { y with streak := 3 }) s)).port 0).latches.overCeiling =
        .unreported := by decide

theorem witness_PulseFails_replaced :
    let left := (claimT .firing).allocation.filter fun e => e.cyl ≠ 0
    (sPulse 2 1 none).takenList (.replacement ((sPulse 2 1 none).entryE 0 0))
      { claimT .firing with allocation := left } = [{ cyl := 1, e := 760 }] := by decide

theorem witness_PulseFails : sP.pulseOver 0 = true ∧
    ∃ x ∈ [({ current := 799, limited := false } : PulseMeasurement)], x.limited = true ∨ x.current < 800 := by decide

/-! ### Inputs and the key: the hypotheses met -/

/-- The selector of hall 1 has read `l` for the filter time. -/
def sE (l : Level) (s : State) : State :=
  s.setSelectorContact 0 { contactT (Level.flip l) with
    level := { raw := l, level := some (Level.flip l), run := some 99950 } }

theorem witness_RawLevelRuns : s0.inputs.key.level = some .broken ∧
    (s0.inputs.selectors[(0 : Hall)]).level.level = some .broken ∧
    (s0.inputs.selectors[(0 : Hall)]).loop.level = some .normal ∧ s0.inputs.switch.level.level = some .broken ∧
    s0.inputs.switch.loop.level = some .normal := by decide

theorem witness_SelectorEdges_open : ((sE .made s0).inputs.selectors[(0 : Hall)]).level.run = some 99950 ∧
    reached (99950 + 50) (sE .made s0).now = true ∧
    ((sE .made s0).inputs.selectors[(0 : Hall)]).level.raw = ((sE .made s0).hallRec 0).openLevel ∧
    ¬ (((sE .made s0).unit 0).kind? = some .deferral ∧ (sE .made s0).manifold.holder = some 0 ∧
      (sE .made s0).claimState 0 = some .firing) := by decide

/-- The holder's second line is deferred, its cylinder 1 ASSIGNED. -/
theorem witness_SelectorEdges_deferred :
    let s := (sE .made ((sF (.watching 107000 .deferral)).setDisposition 1 (.assigned 0))).commandSelector 0 .opened
    (s.unit 0).kind? = some .deferral ∧ s.manifold.holder = some 0 ∧ s.selectorCmd 0 = .opened ∧
      s.claim 0 = some { claimT .firing with schedule := some (scheduleT 1) } ∧
      (scheduleT 1).lines[1]? = some (newLine [1]) ∧ s.assignedTo 0 1 = true := by decide

/-- The claim in FIRING of which `n` lines are left to fire, none with a cylinder still ASSIGNED; `seen` is its discharge seen
at. -/
def sEmpty (n : Nat) (seen : Option Time) (u : CompareUnit) : State :=
  (sF u).setClaim 0 (some { claimT .firing with
    dischargeSeenAt := seen
    schedule := some { scheduleT 1 with lines := (scheduleT 1).lines.take 1 ++ List.replicate n (newLine [1]) } })

/-- The deferred line is empty: with a line after it, and the last, the discharge not seen and seen. -/
theorem witness_SelectorEdges_empty :
    ∀ x ∈ [((2 : Nat), (none : Option Time)), (1, none), (1, some 99950)],
    let s := (sE .made (sEmpty x.1 x.2 (.watching 107000 .deferral))).commandSelector 0 .opened
    (s.unit 0).kind? = some .deferral ∧ s.manifold.holder = some 0 ∧ s.selectorCmd 0 = .opened ∧
      s.claimState 0 = some .firing ∧ ((s.claim 0).bind (·.schedule)).map (·.lines[1]?) = some (some (newLine [1])) ∧
      (∀ k ∈ (newLine [1]).cyls, s.assignedTo 0 k = false) := by decide

/-- R116, R121, R124: the empty deferred line is DONE at once, and its completion taken. -/
theorem test_empty_line :
    let t (n : Nat) (seen : Option Time) := next (.selectorEdge 0)
      ((sE .made (sEmpty n seen (.watching 107000 .deferral))).commandSelector 0 .opened)
    (t 2 none).claimState 0 = some .firing ∧ (t 2 none).unit 0 = .watching 100500 .nextLine ∧
      (t 1 none).claimState 0 = some .confirming ∧ (t 1 (some 99950)).claimState 0 = some .discharged := by decide

/-- A flag set, with no grant to make. -/
theorem witness_SelectorEdges_cleared : ((sE .broken s0).putMismatch 0 true).mismatch 0 = true ∧
    (sE .broken s0).manifold.waitList = [] := by decide

/-- A flag set, with the manifold IDLE and hall 1 waiting. -/
theorem witness_SelectorEdges_granted :
    let s := (sE .broken ((sC .waiting).place 0 99000)).putMismatch 0 true
    s.manifold.state = .idle ∧ (∀ j, j ≠ 0 → s.mismatch j = false) ∧ s.manifold.waitList = [⟨0, 99000⟩] ∧
      s.claim 0 = some (claimT .waiting) ∧ s.mismatch 0 = true := by decide

theorem witness_SelectorEdges_closing : (sE .broken sK).manifold.state = .closing ∧
    (sE .broken sK).manifold.lastHall = some 0 ∧
    ((sE .broken sK).inputs.selectors[(0 : Hall)]).level.raw ≠ ((sE .broken sK).hallRec 0).openLevel := by decide

theorem witness_SelectorEdges_closed : (sE .broken s0).manifold.state ≠ .closing ∧ (sE .broken s0).mismatch 0 = false := by
  decide

/-- The switch, or a loop, has read another value for the filter time. -/
def sW : State :=
  (s0.setSwitchContact { measured := .loopFault, level := { raw := .made, level := some .broken, run := some 99950 }
                         loop := { raw := .fault, level := some .normal, run := some 99950 } }).setSelectorContact 0
    { contactT .broken with loop := { raw := .fault, level := some .normal, run := some 99950 } }

theorem witness_SwitchEdgeAndLoopState : sW.inputs.switch.level.run = some 99950 ∧
    sW.inputs.switch.loop.run = some 99950 ∧ (sW.inputs.selectors[(0 : Hall)]).loop.run = some 99950 ∧
    reached (99950 + 50) sW.now = true := by decide

theorem witness_InputsEstablished_due : ({ State.reset with now := 50 } : State).inputs.key.level = none ∧
    reached 50 ({ State.reset with now := 50 } : State).now = true := by decide

theorem witness_InputsEstablished_early : reached 50 ({ State.reset with now := 49 } : State).now = false ∧
    s0.inputs.key.level ≠ none := by decide

/-- The key has read `l` for the filter time, in mode `m`. -/
def sQ (l : Level) (m : Mode) (s : State) : State :=
  { s with ctl := { s.ctl with mode := m }
           inputs := { s.inputs with key := { raw := l, level := some (Level.flip l), run := some 99950 } } }

theorem witness_KeyTurnedOn : ∀ m ∈ [Mode.startup, .uncommissioned, .maintenance, .normal],
    (sQ .made m (sC .hold)).keyEdgeDue .made = true ∧ (sQ .made m (sC .hold)).mode = m ∧
      (sQ .made m (sC .hold)).claimState 0 = some .hold ∧ (sQ .made m sF).claimState 0 = some .firing := by decide

theorem witness_KeyTurnedOff : ∀ m ∈ [Mode.startup, .maintPending, .maintenance],
    (sQ .broken m s0).keyEdgeDue .broken = true ∧ (sQ .broken m s0).mode = m := by decide

theorem witness_KeyTurnedOff_write : ({ s0.store with write := some (.isolate 0) } : Store).write.isSome = true ∧
    s0.store.write = none ∧ validate blankImage ≠ none := by decide

/-- An image that passes every check: no hall commissioned, no cylinder fitted, the vent on channel 72. -/
def validT : Image :=
  { blankImage with
    designTable := designT, ceilingTable := ceilingT, timing := timingT
    thresholds := { low := 950, empty := 200, flowLevel := .made }, roles := blankImage.roles.set 72 .vent }

theorem witness_KeyTurnedOff_valid : validate validT = none := by decide

/-! ### Claims and discharges: the hypotheses met -/

theorem witness_CountdownExpires_waiting :
    let s := heldBy .closing none (sC .countdown (.expired 100000 .countdown))
    s.claim 0 = some (claimT .countdown) ∧ (s.unit 0).raised s.now .countdown = true ∧
      (claimT .countdown).allocation ≠ [] ∧ s.manifold.state ≠ .idle := by decide

theorem witness_CountdownExpires_mismatch :
    let s := (sC .countdown (.expired 100000 .countdown)).putMismatch 7 true
    s.manifold.state = .idle ∧ s.mismatch 7 = true := by decide

theorem witness_CountdownExpires_granted :
    let s := sC .countdown (.expired 100000 .countdown)
    (claimT .countdown).allocation ≠ [] ∧ s.manifold.state = .idle ∧ (∀ j, s.mismatch j = false) ∧
      s.manifold.waitList = [] := by decide

/-- A claim in state `st` that holds nothing and wants `req`; both cylinders are FREE. -/
def claimN (st : ClaimState) (req : Nat) : Claim :=
  { claimT st with
    allocation := [], allocatedSum := 0, shortage := req, figures := { (s0.figures 0) with req := req }
    flags := { noFlags with starved := true } }

/-- Hall 1 has that claim. -/
def sN (st : ClaimState) (req : Nat) (u : CompareUnit := .inhibited) : State :=
  { (s0.setClaim 0 (some (claimN st req))).setUnit 0 u with order := [0] }

theorem witness_servable : s0.takenList .firstAllocation (claimN .countdown 1500) =
    [{ cyl := 0, e := 760 }, { cyl := 1, e := 760 }] ∧
    s0.servable 0 (claimN .countdown 1500) = true ∧ s0.servable 0 (claimN .countdown 4000) = false := by decide

theorem witness_CountdownExpires_served : ∀ r ∈ [1500, 4000],
    let s := sN .countdown r (.expired 100000 .countdown)
    s.claim 0 = some (claimN .countdown r) ∧ (s.unit 0).raised s.now .countdown = true ∧
      (claimN .countdown r).allocation = [] ∧ (heldBy .closing none s).manifold.state ≠ .idle ∧
      s.servable 0 (claimN .countdown r) = decide (r = 1500) ∧
      s.manifold.state = .idle ∧ s.manifold.waitList = [] ∧ (∀ j, s.mismatch j = false) := by decide

theorem witness_HoldLimitExpires :
    let s := sC .hold (.expired 100000 .holdLimit)
    s.claim 0 = some (claimT .hold) ∧ (claimT .hold).remaining = some 7000 ∧
      (s.unit 0).raised s.now .holdLimit = true := by decide

theorem witness_SelectorOpenTimesOut :
    let s := heldBy .opening (some 0) (sC .selecting (.expired 100000 .selectorOpen))
    s.claim 0 = some (claimT .selecting) ∧ s.manifold.lastHall = some 0 ∧
      (s.unit 0).raised s.now .selectorOpen = true := by decide

theorem witness_DischargeBegins :
    let s := (heldBy .opening (some 0) ((sC .selecting).setClaim 0
      (some { claimT .selecting with schedule := some (scheduleT 0) }))).setSelectorCapture 0 (.held 99990)
    s.captures.selectors[(0 : Hall)] = .held 99990 ∧ s.manifold.state = .opening ∧ s.manifold.holder = some 0 ∧
      s.claimState 0 = some .selecting ∧ s.assignedTo 0 0 = true := by decide

/-- Line 1 has lost its cylinder: with a line after it, and the only one. -/
theorem witness_DischargeBegins_empty : ∀ n ∈ [1, 2],
    let s := ((heldBy .opening (some 0) ((sC .selecting).setClaim 0
      (some { claimT .selecting with
        schedule := some { scheduleT 0 with lines := (scheduleT 0).lines.take n } }))).setSelectorCapture 0
          (.held 99990)).setDisposition 0 .isolated
    s.captures.selectors[(0 : Hall)] = .held 99990 ∧ s.manifold.state = .opening ∧ s.manifold.holder = some 0 ∧
      s.claimState 0 = some .selecting ∧ (∀ k ∈ (newLine [0]).cyls, s.assignedTo 0 k = false) ∧
      ((scheduleT 0).lines.take n).head? = some (newLine [0]) := by decide

theorem witness_SwitchCaptureTaken_firing :
    let s := sF.setSwitchCapture (.held 99990)
    s.captures.switch = .held 99990 ∧ s.manifold.holder = some 0 ∧ s.claimState 0 = some .firing := by decide

theorem witness_SwitchCaptureTaken_confirming :
    let s := (heldBy .discharging (some 0) (sC .confirming)).setSwitchCapture (.held 99990)
    s.captures.switch = .held 99990 ∧ s.claimState 0 = some .confirming := by decide

/-- The next line deadline has expired, with cylinder 1 ASSIGNED. -/
def sL : State := (sF (.expired 100000 .nextLine)).setDisposition 1 (.assigned 0)

theorem witness_NextLineExpires_defers : sL.claimState 0 = some .firing ∧ (scheduleT 1).lines[1]? = some (newLine [1]) ∧
    (sL.unit 0).raised sL.now .nextLine = true ∧ sL.selectorReading 0 ≠ some .opened := by decide

theorem witness_NextLineExpires_fires : (sL.setSelectorContact 0 (contactT .made)).selectorReading 0 = some .opened ∧
    sL.assignedTo 0 1 = true := by decide

/-- The next line is empty: with a line after it, and the last, the discharge not seen and seen. -/
theorem witness_NextLineExpires_empty :
    ∀ x ∈ [((2 : Nat), (none : Option Time)), (1, none), (1, some 99950)],
    let s := (sEmpty x.1 x.2 (.expired 100000 .nextLine)).setSelectorContact 0 (contactT .made)
    s.claimState 0 = some .firing ∧ (s.unit 0).raised s.now .nextLine = true ∧
      ((s.claim 0).bind (·.schedule)).map (·.outstanding) = some 0 ∧
      ((s.claim 0).bind (·.schedule)).map (·.lines[1]?) = some (some (newLine [1])) ∧
      (∀ k ∈ (newLine [1]).cyls, s.assignedTo 0 k = false) ∧ s.selectorReading 0 = some .opened := by decide

theorem witness_DeferralExpires_seen :
    let s := sEmpty 1 (some 99950) (.expired 100000 .deferral)
    (s.claim 0).bind (·.dischargeSeenAt) = some 99950 ∧ (s.unit 0).raised s.now .deferral = true := by decide

/-- R120, R124: with the discharge seen, the abandonment ends the claim with CONFIRMED, PARTIAL set. -/
theorem test_deferral_seen :
    let t := next (.deferralExpiry 0) (sEmpty 1 (some 99950) (.expired 100000 .deferral))
    (t.claim 0).map (fun c => (c.state, c.endReason, c.flags.part)) = some (.discharged, some .confirmed, true) := by
  decide

theorem witness_DeferralExpires :
    let s := sF (.expired 100000 .deferral)
    s.claim 0 = some { claimT .firing with schedule := some (scheduleT 1) } ∧ (claimT .firing).dischargeSeenAt = none ∧
      ((scheduleT 1).lines[0]?).bind (·.time) = some 99000 ∧ (s.unit 0).raised s.now .deferral = true := by decide

theorem witness_ConfirmTimesOut :
    let s := heldBy .discharging (some 0) (sC .confirming (.expired 100000 .confirm))
    s.claim 0 = some (claimT .confirming) ∧ (s.unit 0).raised s.now .confirm = true := by decide

theorem witness_PortExpiries_supervision :
    let s := s0.updPort 0 fun p => { p with link := .active, supervision := .expired 100000 .supervision }
    (s.port 0).link = .active ∧ (s.port 0).supervision.raised s.now .supervision = true := by decide

theorem witness_PortExpiries_temperature :
    let s := s0.updPort 7 fun p => { p with freshness := .expired 100000 .freshness }
    (s.port 7).freshness.raised s.now .freshness = true := by decide

/-! ### Requests: the hypotheses met -/

theorem witness_takesRequest (h : Hall) : s0.takesRequest h := by
  revert h
  unfold State.takesRequest
  decide

theorem witness_PollTaken : (sC .countdown).takesRequest 0 ∧ (sC .hold).takesRequest 0 := by
  unfold State.takesRequest
  decide

/-- A value out of its codes, in either field. -/
theorem witness_PollTaken_refused : 1 < (2 : Byte).toNat ∧ 1 < (255 : Byte).toNat := by decide

theorem witness_PollTaken_granted : ∀ st ∈ [ClaimState.waiting, .selecting],
    let s := heldBy .opening (some 0) (sC st)
    s.claim 0 = some (claimT st) ∧ (s.port 0).holdLevel = false ∧ (s.port 0).reArm = false ∧
      s.manifold.lastHall = some 0 := by decide

theorem witness_PollTaken_edge : ((sC .countdown).port 0).holdLevel = false ∧ ((sC .countdown).port 0).reArm = false ∧
    (sC .countdown).claimState 0 = some .countdown ∧ (claimT .hold).remaining = some 7000 := by decide

theorem witness_PollTaken_noEdge : ((s0.updPort 0 fun p => { p with reArm := true }).port 0).reArm = true := by decide

/-- A rise of the hold level with a claim in each state it does not hold, or none; and a level of 0 with no claim in HOLD. -/
theorem witness_PollTaken_ignored :
    (∀ st ∈ [ClaimState.hold, .starved, .firing, .confirming, .discharged, .aborted, .failed],
      (sC st).claimState 0 = some st ∧ ((sC st).port 0).holdLevel = false ∧ ((sC st).port 0).reArm = false) ∧
      s0.claim 0 = none ∧ (sC .countdown).claimState 0 ≠ some .hold := by decide

theorem witness_ReleaseChecks_refused : s0.releaseRefusal 1 0 0 = some .notCommissioned ∧
    s0.releaseRefusal 0 2 0 = some .badField ∧ (sC .firing).releaseRefusal 0 1 0 = some .duplicate ∧
    (s0.setFaulted 0 true).releaseRefusal 0 0 0 = some .selectorFault ∧
    (sQ .made .maintenance s0).releaseRefusal 0 0 0 = some .lockout := by decide

theorem witness_ReleaseChecks_accepted : s0.releaseRefusal 0 0 1 = none ∧ (sC .hold).releaseRefusal 0 1 0 = none ∧
    (sC .countdown).releaseRefusal 0 1 0 = none ∧ (sC .aborted).releaseRefusal 0 0 0 = none := by decide

theorem witness_ReleaseAdmitted : s0.mode = .normal ∧ (s0.hallRec 0).commissioned = true ∧
    s0.selectorFaulted 0 = false ∧ s0.claim 0 = none ∧ (sC .aborted).claimState 0 = some .aborted := by decide

/-- A small hall, whose requirement of 1491 the pool of 1520 in two cylinders holds. -/
theorem witness_ReleaseAdmitted_supplied :
    let s := s0.setImage { s0.image with halls := s0.image.halls.set 0 { hallT with volume := 220 } }
    (s.figures 0).req = 1491 ∧ sumE (s.poolOf .main .full ++ s.poolOf .main .low) = 1520 ∧
      (s.poolOf .main .full ++ s.poolOf .main .low).length ≤ 32 ∧ (s.hallRec 0).minFraction ≤ 100 := by decide

/-- A higher hall admitted in the same millisecond stands behind. -/
theorem witness_ReleaseAdmitted_order :
    let s := { s0.setClaim 5 (some { claimT .countdown with admittedAt := 100000 }) with order := [5] }
    (0 : Hall) < 5 ∧ (s.claim 5).map (·.admittedAt) = some s.now := by decide

/-- R65: a claim short of FIRING, in each of its states, SELECTING with the grant to withdraw. -/
theorem witness_AbortOutcome_states : ∀ st ∈ [ClaimState.countdown, .hold, .starved, .waiting, .selecting],
    let s := heldBy .opening (some 0) (sC st)
    (s.port 0).rx.state ≠ .off ∧ (s.port 0).owed = false ∧ s.claim 0 = some (claimT st) ∧
      s.cyl 0 = some (cylT (.assigned 0)) ∧ s.manifold.lastHall = some 0 := by decide

theorem witness_AbortOutcome : s0.claim 0 = none ∧ (sC .selecting).claimState 0 = some .selecting ∧
    (sC .firing).claimState 0 = some .firing := by decide

theorem witness_AbortOutcome_maintenance : ModeLaw (sQ .made .maintPending s0) ∧
    (sQ .made .maintPending s0).mode = .maintPending := by
  have hn : ∀ h : Hall, (sQ .made .maintPending s0).claim h = none := by decide
  refine ⟨⟨fun h hh => ?_, fun h st hh => ?_⟩, rfl⟩
  · simp [State.nonTerminal, hn h] at hh
  · simp [State.claimState, hn h] at hh

theorem witness_LatchClear : s0.takesRequest 3 := witness_takesRequest 3

theorem witness_QueryAnswered_off : (State.reset.port 0).rx.state = .off := by decide

theorem witness_QueryAnswered : s0.mode ≠ .startup ∧ (s0.hallRec 0).commissioned = true ∧
    (s0.hallRec 1).commissioned = false := by decide

theorem witness_UnknownKindOrLength : requestOf (.poll 0 [1]) = some (.hall 0, { kind := 1, payload := [1] }) ∧
    [(1 : Byte)].length ≠ 4 := by decide

/-- Each site kind with a payload of no byte, and the kinds of two bytes with three. -/
theorem witness_UnknownKindOrLength_site : s0.takesSiteRequest ∧
    (∀ x ∈ [(Instr.sitePoll [], (16 : Byte)), (.cylinderQuery [], 17), (.claimQuery [], 18), (.commissionRead [], 19),
      (.maintIsolate [], 20), (.maintRestore [], 21), (.commissionWrite [], 22)],
      requestOf x.1 = some (.site, { kind := x.2, payload := [] })) ∧
    requestOf (.cylinderQuery [0, 1, 2]) = some (.site, { kind := 17, payload := [0, 1, 2] }) := by
  unfold State.takesSiteRequest
  decide

theorem witness_ArrivalDiscarded :
    let s := { (s0.updPort 0 fun p => { p with owed := true }) with site := { s0.site with owed := true } }
    (s.port 0).rx.state ≠ .off ∧ (s.port 0).owed = true ∧ s.site.rx.state ≠ .off ∧ s.site.owed = true := by decide

theorem witness_LinkEvents_bytes : (s0.port 0).rx.state = .hunting ∧ (s0.port 0).owed = false ∧
    s0.site.rx.state = .hunting ∧ s0.site.owed = false := by decide

theorem witness_LinkEvents_abandon :
    ((s0.updPort 0 fun p => { p with rx := rxT }).port 0).rx.state = .assembling ∧
      (s0.setSite { s0.site with rx := rxT }).site.rx.state = .assembling := by decide

/-- The last byte came 6 ms ago, and 5 ms ago. -/
theorem witness_LinkEvents_gap : ∀ x ∈ [((99994 : Time), 6), (99995, 5)],
    let r : Receiver := { rxT with buffer := [], lastByte := some x.1 }
    s0.now = x.1 + ms x.2 ∧ ((s0.updPort 0 fun p => { p with rx := r }).port 0).rx.lastByte = some x.1 ∧
      ((s0.updPort 0 fun p => { p with rx := r }).port 0).owed = false ∧
      (s0.setSite { s0.site with rx := r }).site.owed = false := by decide

/-- R164: a byte 6 ms after the last finds its frame abandoned. -/
theorem test_byte_gap : ((next (.byteReceived (.hall 0) 9) (s0.updPort 0 fun p =>
    { p with rx := { rxT with lastByte := some 99994 } })).port 0).rx.state = .hunting := by decide

/-- R165: a tick at which the transmission begins ends the frame being assembled. -/
theorem test_held : (((s0.updPort 0 fun p => { p with rx := rxT, owed := true, replyBegins := some 100001 }).tick).port
    0).rx.state = .hunting := by decide

theorem witness_LinkEvents_transmitting :
    let s := (s0.updPort 0 fun p => { p with owed := true, replyBegins := some 100000 }).setSite
      { s0.site with owed := true, replyBegins := some 100000 }
    (s.port 0).rx.state ≠ .assembling ∧ s.site.rx.state ≠ .assembling ∧ (s.port 0).owed = true ∧
      reached 100000 s.now = true := by decide

theorem witness_LinkEvents_sent :
    let r := s0.hallReply 0 5 .accepted (some (s0.liveFigures 0))
    let s := s0.updPort 0 fun p => { p with owed := true, reply := some r, replyBegins := some 99999 }
    (s.port 0).owed = true ∧ (s.port 0).reply = some r ∧ (s.port 0).replyBegins = some 99999 ∧
      reached 99999 s.now = true := by decide

theorem witness_LinkEvents_siteSent :
    let r : SiteReply := { kind := 144, result := .accepted, mode := .normal, now := 99000, content := [1] }
    let s := s0.setSite { s0.site with owed := true, reply := some r, replyBegins := some 99999 }
    s.site.owed = true ∧ s.site.reply = some r ∧ s.site.replyBegins = some 99999 ∧ reached 99999 s.now = true := by
  decide

/-! ### The site port and the Allocator: the hypotheses met -/

theorem witness_SiteReads : s0.takesSiteRequest := by
  unfold State.takesSiteRequest
  decide

/-- The result and the content of a site reply. -/
def siteReply (i : Instr) (s : State) : Option (Result × List Byte) :=
  (next i s).site.reply.map fun r => (r.result, r.content)

/-- R178, R193: a first index of 63 and 64, with counts of 0, 1, 8 and 9. -/
theorem witness_SiteReads_ranges :
    siteReply (.cylinderQuery [63, 0]) s0 = some (.badField, []) ∧
      (siteReply (.cylinderQuery [63, 1]) s0).map (·.1) = some .accepted ∧
      siteReply (.cylinderQuery [63, 2]) s0 = some (.badIndex, []) ∧
      siteReply (.cylinderQuery [64, 0]) s0 = some (.badIndex, []) ∧
      siteReply (.cylinderQuery [64, 1]) s0 = some (.badIndex, []) ∧
      (siteReply (.cylinderQuery [56, 8]) s0).map (·.1) = some .accepted ∧
      siteReply (.cylinderQuery [55, 9]) s0 = some (.badField, []) ∧
      siteReply (.cylinderQuery [56, 9]) s0 = some (.badIndex, []) := by decide

/-- Section 12.3: the record of cylinder 0, FULL and ASSIGNED to hall 1, and an unfitted one. -/
theorem test_cylinder_record :
    siteReply (.cylinderQuery [0, 1]) (sC .hold) =
      some (.accepted, [1, 0x05, 0x04, 1, 0, 3, 0x20, 0x0B, 0xB8, 0x0B, 0x22, 3, 0xB6, 2, 0xF8]) ∧
    siteReply (.cylinderQuery [5, 1]) s0 = some (.accepted, 1 :: List.replicate 14 0) := by decide

/-- Section 12.3: SITE_POLL page 0 of the grant holder's OPENING; the allocation page of its claim. -/
theorem test_site_pages :
    siteReply (.sitePoll [0]) sG = some (.accepted,
      [1, 1, 1, 0, 0, 0, 0, 0xFF, 0xFF, 0, 0x01, 0x05, 0x28, 0x28, 0x28, 0x28, 0x28, 0x28, 0x28, 0x28]) ∧
    siteReply (.claimQuery [1, 2]) sG = some (.accepted, [1, 0, 0, 2, 0xF8] ++ List.replicate 28 0) ∧
    siteReply (.claimQuery [1, 7]) sG = some (.accepted,
      [2, 0, 255, 255, 255, 0, 0, 0, 0, 0, 0, 0, 0, 0, 1, 255, 255, 255, 0, 0, 0, 0, 0, 0, 0, 0, 0] ++
        List.replicate 13 0) := by decide

theorem witness_SiteReads_claims : sG.takesSiteRequest ∧ (sG.claim 0).isSome = true ∧ s0.claim 7 = none := by
  unfold State.takesSiteRequest
  decide

theorem witness_SiteWritesBegin : (sQ .made .maintenance s0).takesSiteRequest ∧
    (sQ .made .maintenance s0).mode = .maintenance ∧ s0.mode ≠ .maintenance := by
  unfold State.takesSiteRequest
  decide

theorem witness_SiteWritesBegin_forms : writeLength 3 = some 5 ∧ recordName 3 64 = none ∧
    parseRecord (.cylinder 0) [2, 3, 0x20, 0x0B, 0xB8] = none ∧
    parseRecord (.cylinder 0) [1, 3, 0x20, 0x0B, 0xB8] = some (.cylinder 0 true 800 3000) ∧
    writeLength 9 ≠ some 5 ∧ (s0.image.cylinders[(0 : CylIdx)]).fitted = true ∧
    (s0.image.cylinders[(2 : CylIdx)]).fitted = false := by decide

/-- MAINTENANCE with a write programming and its reply owed. -/
def sM (w : WriteInProgress) : State :=
  { sQ .made .maintenance s0 with
    store := { s0.store with write := some w }, site := { s0.site with owed := true } }

theorem witness_WriteCompletes : ∀ w ∈ [RecordWrite.cylinder 0 true 800 2900, .cylinder 0 false 800 3000,
      .cylinder 5 true 800 3000, .channel 1 (.cylinder 7), .channel 1 (.cylinder 1)],
    (sM (.commission w)).store.write = some (.commission w) ∧ (sM (.commission w)).ctl.exitPending = false ∧
      (sM (.commission w)).site.owed = true ∧
      ∀ k : CylIdx, ((sM (.commission w)).cyl k).isSome = ((sM (.commission w)).image.cylinders[k]).fitted := by decide

/-- The OPEN level of hall 1 turned so that it reads OPEN, its commissioned field taken away, and the same with an exit
pending. -/
theorem witness_WriteCompletes_hall :
    ∀ r ∈ [{ hallT with openLevel := .broken }, { hallT with commissioned := false }],
    let s := sM (.commission (.hall 0 r))
    s.store.write = some (.commission (.hall 0 r)) ∧ s.manifold.holder = none ∧ s.manifold.waitList = [] ∧
      s.manifold.state ≠ .closing ∧ s.selectorReading 0 = some .closed ∧
      (s.setCtl { s.ctl with exitPending := true }).ctl.exitPending = true := by decide

theorem witness_WriteCompletes_thresholds :
    let th : Thresholds := { low := 950, empty := 200, flowLevel := .broken }
    (sM (.commission (.thresholds th))).store.write = some (.commission (.thresholds th)) ∧
      (sM (.commission (.thresholds th))).switchReading = some false := by decide

theorem witness_MaintenanceCompletions : (sM (.isolate 0)).store.write = some (.isolate 0) ∧
    (sM (.isolate 0)).ctl.exitPending = false ∧ (sM (.restore 0)).site.owed = true ∧
    (sM (.restore 0)).cyl 0 = some (cylT .free) ∧ (∀ h, (cylT .free).disposition ≠ .assigned h) ∧
    ({ s0.store with crcStore := some 7 } : Store).crcStore = some 7 := by decide

theorem witness_MaintenanceCompletions_exit : ∀ w ∈ [WriteInProgress.isolate 0, .restore 0],
    let s := (sM w).setCtl { (sM w).ctl with exitPending := true }
    s.store.write = some w ∧ s.ctl.exitPending = true ∧ s.site.owed = true ∧ s.cyl 0 = some (cylT .free) := by decide

/-- R183: an isolate that completes with an exit pending makes the exit within its event: NORMAL, the image being valid. -/
theorem test_isolate_exits :
    let s := (sM (.isolate 0)).setCtl { (sM (.isolate 0)).ctl with exitPending := true }
    let t := next .maintIsolateCompletion s
    t.mode = .normal ∧ t.ctl.exitPending = false ∧ t.store.crcStore.isSome = true := by decide

theorem witness_StarvedReEvaluation :
    let c := { claimT .starved with allocation := [], flags := { noFlags with starved := true } }
    let s := { heldBy .closing none ((sC .starved).setClaim 0 (some c)) with poolGains := 1 }
    s.poolGains ≠ 0 ∧ s.claim 0 = some c ∧ 0 ∈ s.order ∧ s.order.Nodup ∧ s.manifold.state ≠ .idle := by decide

/-- Hall 1 is the first flagged of the order, in STARVED, COUNTDOWN and HOLD, and the pool serves it or does not. -/
theorem witness_StarvedReEvaluation_first : ∀ st ∈ [ClaimState.starved, .countdown, .hold], ∀ r ∈ [1500, 4000],
    let s := { sN st r with poolGains := 1 }
    s.order = [] ++ 0 :: [] ∧ s.order.Nodup ∧ s.claim 0 = some (claimN st r) ∧ (claimN st r).state.terminal = false ∧
      s.servable 0 (claimN st r) = decide (r = 1500) ∧ s.manifold.state = .idle ∧ s.manifold.waitList = [] ∧
      (∀ j, s.mismatch j = false) ∧ (∀ j : Hall, j ≠ 0 → s.claim j = none) ∧
      (heldBy .closing none s).manifold.state ≠ .idle := by decide

/-- R86: the pool serves the claim in STARVED, and the manifold is granted to it at once (R97). -/
theorem test_starved_served :
    let t := next .starvedReEvaluation { sN .starved 1500 with poolGains := 1 }
    t.claimState 0 = some .selecting ∧ t.assignedTo 0 1 = true ∧ t.manifold.holder = some 0 := by decide

/-- The pool of section 4.3: racks A and B MAIN, C and D RESERVE, and hall 5 with a volume of 1800. -/
def sR : State :=
  let full : Cylinder := cylT .free
  let unread : Cylinder := { cylT .free with condition := .unread, e := 0 }
  let low (e : Nat) : Cylinder := { cylT .free with condition := .low, e := e }
  { s0 with
    store := { s0.store with image := { imageT with
      halls := imageT.halls.set 4 { hallT with volume := 1800 }, racks := #v[.main, .main, .reserve, .reserve] } }
    cyls := tabulate 64 fun k =>
      if k.val < 6 then some full else if k.val < 8 then some unread
      else if 16 ≤ k.val ∧ k.val < 20 then some full else if k.val = 20 then some (low 700)
      else if k.val = 21 then some (low 690) else if 32 ≤ k.val ∧ k.val < 40 then some full
      else if 48 ≤ k.val ∧ k.val < 51 then some full else if 51 ≤ k.val ∧ k.val < 53 then some unread else none }

/-- The claim of hall 5 that asks for reserve, or not, as it is admitted. -/
def claimR (reserve : Bool) : Claim := newClaim .auto reserve 100000 (sR.figures 4)

/-- Section 4.3: what is taken, and in which order; with reserve not permitted classes 1 and 2 leave the target unmet, and the
UNREAD cylinders of rack A follow (R74, R78). -/
theorem test_run_order :
    (sR.takenList .firstAllocation (claimR true)).map (·.cyl) =
      [0, 16, 1, 17, 2, 18, 3, 19, 4, 5, 20, 21, 32, 48, 33, 49, 34] ∧
    (sR.takenList .firstAllocation (claimR false)).map (·.cyl) =
      [0, 16, 1, 17, 2, 18, 3, 19, 4, 5, 20, 21, 6, 7] := by decide +kernel

/-- Section 4.3: the terms that RunTakes is stated in, on that pool. -/
theorem test_run_terms : sR.rackTotal true 1 0 = 4560 ∧ sR.rackTotal true 1 1 = 3040 ∧ sR.rackTotal true 3 2 = 6080 ∧
    sR.rackTotal true 3 3 = 2280 ∧ sR.turnOf true 34 = 2 ∧ sR.classOf true 34 = some 3 ∧ sR.classOf false 34 = none ∧
    sR.classOf true 6 = some 5 ∧ sR.classOf true 52 = some 6 := by decide +kernel

/-- Section 4.3: the flags and the latch of the commit. -/
theorem test_commit_flags :
    let taken := sR.takenList .firstAllocation (claimR true)
    let c := sR.committed (claimR true) taken
    (c.allocatedSum = 12790 ∧ c.shortage = 0 ∧ c.flags = { noFlags with reserveUsed := true }) ∧
      (∀ l ∈ latchOrder, sR.commitAsks (claimR true) taken l = decide (l = .reserveUsed)) ∧
      ((next (.release 4 [0, 1]) sR).claim 4).map (·.flags) = some { noFlags with reserveUsed := true } ∧
      ((next (.release 4 [0, 1]) sR).port 4).reply.map (·.latches.reserveUsed) = some .unreported := by decide +kernel

/-- The limits of a run: 32 cylinders (R77), and, of a replacement, 255 lines (R92). -/
theorem witness_RunLimits_stops :
    let c (lines fired : Nat) : Claim := { claimR true with
      fired := List.replicate fired 63
      schedule := some { lines := List.replicate lines (newLine []), cursor := 0, outstanding := 0 } }
    let drawn (kind : RunKind) (c : Claim) := (sR.takenList kind c).map (·.cyl)
    drawn .topUp (c 0 31) = [0] ∧ drawn .topUp (c 0 32) = [] ∧ drawn (.replacement 0) (c 254 0) = [0] ∧
      drawn (.replacement 9000) (c 254 0) = [0, 16, 1, 17] ∧ drawn (.replacement 9000) (c 255 0) = [] := by
  decide +kernel

theorem witness_RunLimits : (claimT .countdown).allocation.length + (claimT .countdown).fired.length ≤ 32 := by decide

theorem witness_FloodingFactors : ∀ i : Fin 16, 1 ≤ designT[i] ∧ designT[i] ≤ 65535 := by decide

theorem witness_DesignMass : 1 ≤ 65535 ∧ 65535 ≤ 65535 ∧ 1 ≤ 1 ∧ 50 ≤ 50 := by decide

theorem witness_DeadlineReached : 600000 ≤ 600000 ∧ 599999 < 600000 ∧ 600000 < 600000 + 2 ^ 31 := by decide

end Sys2Proof.Tests
end

