-- ==== Sys2Proof/Proofs/Bank.lean ====
section
/-! PROOFS. The law of the cylinder records is kept by every step: only a device reset, a pressure sample and a write of a
CYLINDER record change a reading; every other command changes dispositions at most. -/

namespace Sys2Proof.Machine

/-! ### Readings: the records without their dispositions -/

/-- A record with its disposition left out of account. -/
def Cylinder.reading (c : Cylinder) : Cylinder := { c with disposition := .free }

/-- The records of the bank with their dispositions left out of account. -/
def readings (cyls : Vector (Option Cylinder) 64) : Vector (Option Cylinder) 64 := cyls.map (·.map Cylinder.reading)

/-- The reading of one record. -/
theorem getElem_readings (s : State) (k : CylIdx) : (readings s.cyls)[k] = (s.cyl k).map Cylinder.reading := by
  simp [readings, State.cyl]

/-- Two banks read the same when every record does. -/
theorem readings_eq_iff (s t : State) :
    readings t.cyls = readings s.cyls ↔ ∀ k, (t.cyl k).map Cylinder.reading = (s.cyl k).map Cylinder.reading := by
  constructor
  · intro h k
    rw [← getElem_readings, ← getElem_readings, h]
  · intro h
    ext i hi : 1
    have e := h ⟨i, hi⟩
    rw [← getElem_readings, ← getElem_readings] at e
    exact e

/-- A change of disposition changes no reading (R15). -/
@[simp] theorem readings_setDisposition (s : State) (k : CylIdx) (d : Disposition) :
    readings (s.setDisposition k d).cyls = readings s.cyls := by
  refine (readings_eq_iff _ _).2 fun j => ?_
  rw [State.cyl_setDisposition]
  split
  · rename_i e
    subst e
    cases s.cyl j <;> rfl
  · rfl

/-- Some changes of disposition change no reading. -/
@[simp] theorem readings_foldl_setDisposition (d : Disposition) (es : List Entry) (s : State) :
    readings (es.foldl (fun s e => s.setDisposition e.cyl d) s).cyls = readings s.cyls :=
  foldl_keeps _ (fun s => readings s.cyls) (fun _ _ => readings_setDisposition _ _ _) es s

/-! ### The operations that change dispositions alone -/

@[simp] theorem readings_assign (s : State) (h : Hall) (taken : List Entry) :
    readings (s.assign h taken).cyls = readings s.cyls := readings_foldl_setDisposition _ taken s

@[simp] theorem readings_commit (s : State) (h : Hall) (taken : List Entry) :
    readings (s.commit h taken).cyls = readings s.cyls := by
  unfold State.commit
  dsimp only
  (repeat' split) <;> simp

@[simp] theorem readings_firstAllocation (s : State) (h : Hall) :
    readings (s.firstAllocation h).cyls = readings s.cyls := by
  unfold State.firstAllocation
  dsimp only
  (repeat' split) <;> simp

@[simp] theorem readings_topUp (s : State) (h : Hall) : readings (s.topUp h).cyls = readings s.cyls := by
  unfold State.topUp
  split <;> simp

@[simp] theorem readings_replace (s : State) (h : Hall) (debt : Nat) :
    readings (s.replace h debt).cyls = readings s.cyls := by
  unfold State.replace
  split <;> simp

@[simp] theorem readings_releaseAllocation (s : State) (h : Hall) :
    readings (s.releaseAllocation h).cyls = readings s.cyls := by
  unfold State.releaseAllocation
  split <;> simp

@[simp] theorem readings_endClaim (s : State) (h : Hall) (st : ClaimState) (reason : EndReason) :
    readings (s.endClaim h st reason).cyls = readings s.cyls := by
  unfold State.endClaim
  dsimp only
  (repeat' split) <;> simp

@[simp] theorem readings_answerLoss (s : State) (h : Hall) (before : List Entry) :
    readings (s.answerLoss h before).cyls = readings s.cyls := by
  unfold State.answerLoss
  dsimp only
  (repeat' split) <;> simp

@[simp] theorem readings_removal (s : State) (h : Hall) (k : CylIdx) :
    readings (s.removal h k).cyls = readings s.cyls := by
  unfold State.removal
  split <;> simp

@[simp] theorem readings_handE (s : State) (h : Hall) (k : CylIdx) (old new : Nat) :
    readings (s.handE h k old new).cyls = readings s.cyls := by
  unfold State.handE
  dsimp only
  (repeat' split) <;> simp

@[simp] theorem readings_openClaim (s : State) (h : Hall) (basis : Basis) (asked : Bool) :
    readings (s.openClaim h basis asked).cyls = readings s.cyls := by
  simp [State.openClaim]

@[simp] theorem readings_countdownOver (s : State) (h : Hall) : readings (s.countdownOver h).cyls = readings s.cyls := by
  unfold State.countdownOver
  dsimp only
  (repeat' split) <;> simp

theorem readings_tryStarved (acc : State × List Hall) (h : Hall) :
    readings (State.tryStarved acc h).1.cyls = readings acc.1.cyls := by
  unfold State.tryStarved
  dsimp only
  (repeat' split) <;> simp

@[simp] theorem readings_reEvaluate (s : State) : readings s.reEvaluate.cyls = readings s.cyls := by
  have keep : readings (s.order.foldl State.tryStarved (s, [])).1.cyls = readings s.cyls :=
    foldl_keeps State.tryStarved (fun a => readings a.1.cyls) readings_tryStarved s.order (s, [])
  unfold State.reEvaluate
  dsimp only
  split <;> simpa using keep

/-- What the LOCKOUT does to the claim of one hall (R68). -/
def State.lockHall (s : State) (h : Hall) : State :=
  match s.claim h with
  | some c => if c.state.shortOfFiring then s.endClaim h .aborted .abortedLockout else s
  | none => s

/-- The LOCKOUT takes the halls in turn, and hands one POOL GAIN at most (R24, R68). -/
theorem State.lockout_eq (s : State) : s.lockout =
    { allHalls.foldl State.lockHall s with
      poolGains := min (allHalls.foldl State.lockHall s).poolGains (s.poolGains + 1) } := rfl

@[simp] theorem readings_lockHall (s : State) (h : Hall) : readings (s.lockHall h).cyls = readings s.cyls := by
  unfold State.lockHall
  (repeat' split) <;> simp

@[simp] theorem readings_lockout (s : State) : readings s.lockout.cyls = readings s.cyls := by
  have keep : readings (allHalls.foldl State.lockHall s).cyls = readings s.cyls :=
    foldl_keeps State.lockHall (fun s => readings s.cyls) readings_lockHall allHalls s
  rw [State.lockout_eq]
  dsimp only
  exact keep

@[simp] theorem readings_abandon (s : State) (h : Hall) : readings (s.abandon h).cyls = readings s.cyls := by
  simp [State.abandon]

@[simp] theorem readings_lostToFault (s : State) (h : Hall) (k : CylIdx) :
    readings (s.lostToFault h k).cyls = readings s.cyls := by
  unfold State.lostToFault
  (repeat' split) <;> simp

@[simp] theorem readings_actuatorFaulted (s : State) (k : CylIdx) :
    readings (s.actuatorFaulted k).cyls = readings s.cyls := by
  unfold State.actuatorFaulted
  (repeat' split) <;> simp

@[simp] theorem readings_actuatorGood (s : State) (k : CylIdx) :
    readings (s.actuatorGood k).cyls = readings s.cyls := by
  unfold State.actuatorGood
  (repeat' split) <;> simp

@[simp] theorem readings_restore (s : State) (k : CylIdx) : readings (s.restore k).cyls = readings s.cyls := by
  unfold State.restore
  dsimp only
  (repeat' split) <;> simp

@[simp] theorem readings_markFaulted (s : State) (h : Hall) : readings (s.markFaulted h).cyls = readings s.cyls := by
  unfold State.markFaulted
  dsimp only
  (repeat' split) <;> simp

@[simp] theorem readings_handCheck (s : State) (role : Role) (r : LineState) (third : Bool) :
    readings (s.handCheck role r third).cyls = readings s.cyls := by
  unfold State.handCheck
  (repeat' split) <;> simp

@[simp] theorem readings_superviseChannel (s : State) (c : ChanIdx) (m : LineMeasurement) :
    readings (s.superviseChannel c m).cyls = readings s.cyls := by
  unfold State.superviseChannel
  dsimp only
  split <;> simp

@[simp] theorem readings_handPulse (s : State) (k : CylIdx) (r : LineState) :
    readings (s.handPulse k r).cyls = readings s.cyls := by
  unfold State.handPulse State.pulseNormal State.pulseFailed
  (repeat' split) <;> simp

@[simp] theorem readings_completePulse (s : State) (c : ChanIdx) (msr : List PulseMeasurement) :
    readings (s.completePulse c msr).cyls = readings s.cyls := by
  unfold State.completePulse
  dsimp only
  (repeat' split) <;> simp

@[simp] theorem readings_handOver (s : State) (k : CylIdx) (valid : Bool) (old new : Cylinder) :
    readings (s.handOver k valid old new).cyls = readings s.cyls := by
  unfold State.handOver
  (repeat' split) <;> simp

@[simp] theorem readings_keyTurnedOn (s : State) : readings s.keyTurnedOn.cyls = readings s.cyls := by
  unfold State.keyTurnedOn
  dsimp only
  split <;> simp

@[simp] theorem readings_answerPoolGain (s : State) : readings s.answerPoolGain.cyls = readings s.cyls := by
  unfold State.answerPoolGain
  split <;> simp

/-! ### What keeps the readings and the image -/

/-- Between `s` and `t` no reading has changed, and the image stands. -/
def KeepsReadings (s t : State) : Prop := readings t.cyls = readings s.cyls ∧ t.store.image = s.store.image

theorem KeepsReadings.of_eq {s t : State} (hc : readings t.cyls = readings s.cyls) (hs : t.store = s.store) :
    KeepsReadings s t := ⟨hc, by rw [hs]⟩

theorem keepsReadings_hallArrival (s : State) (h : Hall) (f : Frame) (length : Option Nat) (owner : State → Answer)
    (ho : ∀ s, KeepsReadings s (owner s).state) : KeepsReadings s (s.hallArrival h f length owner) := by
  unfold State.hallArrival
  dsimp only
  (repeat' split) <;> simp [KeepsReadings, (ho _).1, (ho _).2]

theorem keepsReadings_siteArrival (s : State) (f : Frame) (owner : State → SiteOutcome) :
    KeepsReadings s (s.siteArrival f owner) := by
  refine ⟨by simp, ?_⟩
  unfold State.siteArrival
  dsimp only
  (repeat' split) <;> simp

theorem keepsReadings_takeClaimExpiry (s : State) (h : Hall) (k : DeadlineKind) (st : ClaimState)
    (owner : State → State) (ho : ∀ s, KeepsReadings s (owner s)) :
    KeepsReadings s (s.takeClaimExpiry h k st owner) := by
  rcases s.takeClaimExpiry_cases h k st owner with e | e | ⟨-, -, e⟩ <;> rw [e]
  · exact ⟨rfl, rfl⟩
  · exact .of_eq (by simp) (by simp)
  · exact ⟨by simp [(ho _).1], by simp [(ho _).2]⟩

theorem keepsReadings_takeManifoldExpiry (s : State) (k : DeadlineKind) (st : ManifoldState)
    (owner : State → State) (ho : ∀ s, KeepsReadings s (owner s)) :
    KeepsReadings s (s.takeManifoldExpiry k st owner) := by
  rcases s.takeManifoldExpiry_cases k st owner with e | e | ⟨-, -, e⟩ <;> rw [e]
  · exact ⟨rfl, rfl⟩
  · exact .of_eq (by simp) (by simp)
  · exact ⟨by simp [(ho _).1], by simp [(ho _).2]⟩

theorem keepsReadings_keyTurnedOff (s : State) : KeepsReadings s s.keyTurnedOff := by
  refine ⟨by simp, ?_⟩
  unfold State.keyTurnedOff State.maintenanceExit
  dsimp only
  (repeat' split) <;> simp

theorem keepsReadings_crcStored (s : State) : KeepsReadings s s.crcStored := by
  refine ⟨by simp, ?_⟩
  unfold State.crcStored
  split <;> rfl

theorem keepsReadings_pollOwner (h : Hall) (p : Payload) (s : State) : KeepsReadings s (pollOwner h p s).state := by
  unfold pollOwner
  dsimp only
  (repeat' split) <;> simp [KeepsReadings]

theorem keepsReadings_releaseOwner (h : Hall) (p : Payload) (s : State) :
    KeepsReadings s (releaseOwner h p s).state := by
  unfold releaseOwner State.release
  dsimp only
  (repeat' split) <;> simp [KeepsReadings]

theorem keepsReadings_abortOwner (h : Hall) (s : State) : KeepsReadings s (abortOwner h s).state := by
  unfold abortOwner State.abort
  dsimp only
  (repeat' split) <;> simp [KeepsReadings]

theorem keepsReadings_latchClearOwner (h : Hall) (s : State) : KeepsReadings s (latchClearOwner h s).state :=
  .of_eq (by simp [latchClearOwner]) (by simp [latchClearOwner])

theorem keepsReadings_queryOwner (h : Hall) (s : State) : KeepsReadings s (queryOwner h s).state := by
  unfold queryOwner
  (repeat' split) <;> exact ⟨rfl, rfl⟩

theorem keepsReadings_unknownOwner (s : State) : KeepsReadings s (unknownOwner s).state := ⟨rfl, rfl⟩

/-- The commands that may change a reading, or the image: the device reset, a pressure sample, and the completion of a write
that MAINTENANCE has begun. -/
def Instr.rereads : Instr → Bool
  | .deviceReset | .pressureSample _ _ | .commissionWriteCompletion | .maintIsolateCompletion
  | .maintRestoreCompletion => true
  | _ => false

theorem exec_keepsReadings (i : Instr) (s t : State) (hi : Instr.rereads i = false) (ht : exec i s = .next t) :
    KeepsReadings s t := by
  cases i <;> cases ht
  case deviceReset | pressureSample | commissionWriteCompletion | maintIsolateCompletion | maintRestoreCompletion =>
    cases hi
  case inputEstablishment => refine .of_eq ?_ ?_ <;> split <;> simp
  case rackTemperatureSample => exact .of_eq (by simp) (by simp)
  case manifoldPressureSample => exact .of_eq (by simp) (by simp)
  case supervisionCheck => exact .of_eq (by simp) (by simp)
  case pulseCompletion => exact .of_eq (by simp) (by simp)
  case selectorEdge => exact .of_eq (by simp) (by simp)
  case manifoldSwitchEdge => exact .of_eq (by simp) (by simp)
  case keyOn => refine .of_eq ?_ ?_ <;> split <;> simp
  case keyOff =>
    split
    · have k := keepsReadings_keyTurnedOff s.takeKeyEdge
      exact ⟨by simp, by simpa using k.2⟩
    · exact ⟨rfl, rfl⟩
  case selectorCapture => exact .of_eq (by simp) (by simp)
  case manifoldSwitchCapture => exact .of_eq (by simp) (by simp)
  case countdownExpiry => exact keepsReadings_takeClaimExpiry _ _ _ _ _ fun _ => .of_eq (by simp) (by simp)
  case holdLimitExpiry => exact keepsReadings_takeClaimExpiry _ _ _ _ _ fun _ => .of_eq (by simp) (by simp)
  case selectorOpenTimeout => exact keepsReadings_takeClaimExpiry _ _ _ _ _ fun _ => .of_eq (by simp) (by simp)
  case nextLineExpiry =>
    split
    · exact ⟨rfl, rfl⟩
    · exact keepsReadings_takeClaimExpiry _ _ _ _ _ fun _ => .of_eq (by simp) (by simp)
  case deferralExpiry => exact keepsReadings_takeClaimExpiry _ _ _ _ _ fun _ => .of_eq (by simp) (by simp)
  case confirmTimeout => exact keepsReadings_takeClaimExpiry _ _ _ _ _ fun _ => .of_eq (by simp) (by simp)
  case closeTimeout => exact keepsReadings_takeManifoldExpiry _ _ _ _ fun _ => .of_eq (by simp) (by simp)
  case ventTimeout => exact keepsReadings_takeManifoldExpiry _ _ _ _ fun _ => .of_eq (by simp) (by simp)
  case supervisionExpiry => exact .of_eq (by simp) (by simp)
  case temperatureExpiry => exact .of_eq (by simp) (by simp)
  case startupExpiry => exact .of_eq (by simp) (by simp)
  case poll => exact keepsReadings_hallArrival _ _ _ _ _ (keepsReadings_pollOwner _ _)
  case release => exact keepsReadings_hallArrival _ _ _ _ _ (keepsReadings_releaseOwner _ _)
  case abort => exact keepsReadings_hallArrival _ _ _ _ _ (keepsReadings_abortOwner _)
  case latchClear => exact keepsReadings_hallArrival _ _ _ _ _ (keepsReadings_latchClearOwner _)
  case query => exact keepsReadings_hallArrival _ _ _ _ _ (keepsReadings_queryOwner _)
  case hallUnknownKind => exact keepsReadings_hallArrival _ _ _ _ _ keepsReadings_unknownOwner
  case frameAbandoned p _ => cases p <;> exact .of_eq rfl rfl
  case replyTransmitted p => cases p <;> exact .of_eq rfl rfl
  case sitePoll => exact keepsReadings_siteArrival _ _ _
  case cylinderQuery => exact keepsReadings_siteArrival _ _ _
  case claimQuery => exact keepsReadings_siteArrival _ _ _
  case commissionRead => exact keepsReadings_siteArrival _ _ _
  case commissionWrite => exact keepsReadings_siteArrival _ _ _
  case maintIsolate => exact keepsReadings_siteArrival _ _ _
  case maintRestore => exact keepsReadings_siteArrival _ _ _
  case siteUnknownKind => exact keepsReadings_siteArrival _ _ _
  case crcStoreCompletion => exact keepsReadings_crcStored s
  case starvedReEvaluation => exact .of_eq (by simp) (by simp)
  case byteReceived p _ => cases p <;> exact .of_eq rfl rfl
  case rawLevelChange r => exact .of_eq (by simp) (by simp)
  case loopStateChange => exact .of_eq (by simp) (by simp)

/-! ### The law of one record -/

/-- The law of a record does not speak of its disposition. -/
theorem cylinderLaw_reading (q : CylinderRecord) (c : Cylinder) : CylinderLaw q c.reading ↔ CylinderLaw q c :=
  ⟨fun l => ⟨l.unseeded, l.streak, l.average, l.fraction, l.content⟩,
    fun l => ⟨l.unseeded, l.streak, l.average, l.fraction, l.content⟩⟩

/-- The law of a record reads the fitted and in service fields of its CYLINDER record nowhere (R11). -/
theorem CylinderLaw.of_qNom {q q' : CylinderRecord} {c : Cylinder} (hq : q'.qNom = q.qNom) (l : CylinderLaw q c) :
    CylinderLaw q' c := ⟨l.unseeded, l.streak, l.average, l.fraction, by rw [hq]; exact l.content⟩

/-- No entry of a window exceeds the transducer's range (R158). -/
def Window.inRange (w : Window) : Prop := w.w0 ≤ 4000 ∧ w.w1 ≤ 4000 ∧ w.w2 ≤ 4000 ∧ w.w3 ≤ 4000

theorem Window.inRange_fill {p : Nat} (hp : p ≤ 4000) : (Window.fill p).inRange := ⟨hp, hp, hp, hp⟩

theorem Window.inRange_put {w : Window} (hw : w.inRange) (i : Fin 4) {p : Nat} (hp : p ≤ 4000) :
    (w.put i p).inRange := by
  obtain ⟨h0, h1, h2, h3⟩ := hw
  match i with
  | 0 => exact ⟨hp, h1, h2, h3⟩
  | 1 => exact ⟨h0, hp, h2, h3⟩
  | 2 => exact ⟨h0, h1, hp, h3⟩
  | 3 => exact ⟨h0, h1, h2, hp⟩

theorem Window.average_le {w : Window} (hw : w.inRange) : w.average ≤ 4000 := by
  obtain ⟨h0, h1, h2, h3⟩ := hw
  unfold Window.average
  omega

/-- A pressure read lies in the transducer's range (R158). -/
theorem loopPressure_le {i : LoopCurrent} {p : Nat} (hp : loopPressure i = some p) : p ≤ 4000 := by
  unfold loopPressure at hp
  split at hp <;> cases hp
  omega

theorem chargeFraction_le (pAvg pNom : Nat) (tr : Int) : chargeFraction pAvg pNom tr ≤ 1000 := Nat.min_le_left _ _

/-- A record made anew keeps its law, if it is SEEDED or stays UNREAD (R10 to R13). -/
theorem CylinderLaw.recompute {c : Cylinder} (hs : c.seeded = true) (hk : c.streak ≤ 3) (ha : c.pAvg ≤ 4000)
    (q : CylinderRecord) (t : Thresholds) (tr : Int) (seeding : Bool) :
    CylinderLaw q (c.recompute q t tr seeding) :=
  ⟨fun h => absurd (hs.symm.trans h) (by simp), hk, ha, chargeFraction_le _ _ _, rfl⟩

/-- A valid sample leaves a window in range (R4, R5). -/
theorem Cylinder.takePressure_window {c : Cylinder} {p : Nat} (hp : p ≤ 4000)
    (hw : ∀ w, c.window = some w → w.inRange) :
    ∃ w, (c.takePressure p).window = some w ∧ (c.takePressure p).pAvg = w.average ∧ w.inRange := by
  refine ⟨_, rfl, rfl, ?_⟩
  split
  · exact Window.inRange_fill hp
  · refine Window.inRange_put ?_ _ hp
    cases hc : c.window with
    | none => exact Window.inRange_fill hp
    | some w => exact hw w hc

/-- A valid sample leaves a record that keeps its law (R4 to R13). -/
theorem CylinderLaw.validSample {c : Cylinder} {p : Nat} (hp : p ≤ 4000) (hw : ∀ w, c.window = some w → w.inRange)
    (q : CylinderRecord) (t : Thresholds) (tr : Int) : CylinderLaw q (c.validSample p q t tr) := by
  obtain ⟨w, -, ha, hr⟩ := Cylinder.takePressure_window hp hw
  exact CylinderLaw.recompute rfl (Nat.zero_le 3) (ha ▸ Window.average_le hr) q t tr _

/-- An invalid sample leaves a record that keeps its law (R7, R8). -/
theorem CylinderLaw.invalidSample {q : CylinderRecord} {c : Cylinder} (l : CylinderLaw q c) :
    CylinderLaw q c.invalidSample := by
  unfold Cylinder.invalidSample
  split
  · exact ⟨fun _ => rfl, Nat.le_refl 3, l.average, l.fraction, rfl⟩
  · split
    · exact ⟨l.unseeded, by dsimp only; omega, l.average, l.fraction, l.content⟩
    · exact l

theorem Cylinder.invalidSample_window (c : Cylinder) : c.invalidSample.window = c.window := by
  unfold Cylinder.invalidSample
  (repeat' split) <;> rfl

/-! ### The bank law -/

/-- Where the readings stand and no CYLINDER record changes its fitted or Q_nom field, the bank law stands. -/
theorem BankLaw.of_readings {s t : State} (b : BankLaw s) (hr : readings t.cyls = readings s.cyls)
    (hi : ∀ k : CylIdx, (t.image.cylinders[k]).fitted = (s.image.cylinders[k]).fitted ∧
      (t.image.cylinders[k]).qNom = (s.image.cylinders[k]).qNom) : BankLaw t := by
  have he := (readings_eq_iff s t).1 hr
  have back : ∀ k c', t.cyl k = some c' → ∃ c, s.cyl k = some c ∧ c.reading = c'.reading := by
    intro k c' hc'
    have e := he k
    rw [hc', Option.map_some, eq_comm, Option.map_eq_some_iff] at e
    exact e
  refine ⟨fun k => ?_, fun k c' hc' => ?_, fun k c' w hc' hw => ?_⟩
  · rw [(hi k).1, ← b.fitted k, ← Option.isSome_map (f := Cylinder.reading) (x := t.cyl k), he k, Option.isSome_map]
  · obtain ⟨c, hc, e⟩ := back k c' hc'
    rw [← cylinderLaw_reading, ← e, cylinderLaw_reading]
    exact (b.records k c hc).of_qNom (hi k).2
  · obtain ⟨c, hc, e⟩ := back k c' hc'
    exact b.windows k c w hc (by rw [← hw]; exact (congrArg Cylinder.window e : c.reading.window = c'.reading.window))

theorem BankLaw.of_keepsReadings {s t : State} (b : BankLaw s) (k : KeepsReadings s t) : BankLaw t :=
  b.of_readings k.1 fun j => by simp [State.image, k.2]

/-- A record written in place of cylinder `k`'s, with the image it belongs to: the law asks of it alone. -/
theorem BankLaw.of_record {s t : State} (b : BankLaw s) (k : CylIdx)
    (hc : ∀ j, j ≠ k → t.cyl j = s.cyl j)
    (hi : ∀ j : CylIdx, j ≠ k → t.image.cylinders[j] = s.image.cylinders[j])
    (hf : (t.cyl k).isSome = (t.image.cylinders[k]).fitted)
    (hl : ∀ c, t.cyl k = some c → CylinderLaw t.image.cylinders[k] c)
    (hw : ∀ c w, t.cyl k = some c → c.window = some w → w.inRange) : BankLaw t := by
  refine ⟨fun j => ?_, fun j c e => ?_, fun j c w e ew => ?_⟩ <;> by_cases hj : j = k
  · rw [hj, hf]
  · rw [hc j hj, hi j hj, b.fitted j]
  · subst hj
    exact hl c e
  · rw [hi j hj]
    exact b.records j c (by rw [← hc j hj, e])
  · subst hj
    exact hw c w e ew
  · exact b.windows j c w (by rw [← hc j hj, e]) ew

/-! ### The commands that may change a reading -/

theorem bankLaw_afterReset (s : State) : BankLaw s.afterReset := by
  have hc : ∀ k, s.afterReset.cyl k = (s.image.cylinders[k]).running := by
    intro k
    simp [State.cyl, State.afterReset]
  have hi : s.afterReset.image = s.image := rfl
  refine ⟨fun k => ?_, fun k c e => ?_, fun k c w e ew => ?_⟩ <;>
    rw [hc, CylinderRecord.running] at * <;> split at * <;> rename_i hf
  · simpa [hi] using hf
  · simpa [hi] using hf
  · cases e
    exact ⟨fun _ => rfl, Nat.zero_le 3, Nat.zero_le _, Nat.zero_le _, rfl⟩
  · cases e
  · cases e
    cases ew
  · cases e

theorem bankLaw_takeSample {s : State} (b : BankLaw s) (k : CylIdx) (i : LoopCurrent) :
    BankLaw (s.takeSample k (loopPressure i)) := by
  unfold State.takeSample
  split
  · exact b
  · rename_i c hc
    have hwin : ∀ w, c.window = some w → w.inRange := fun w => b.windows k c w hc
    have set : ∀ new : Cylinder, CylinderLaw s.image.cylinders[k] new → (∀ w, new.window = some w → w.inRange) →
        ∀ v, BankLaw ((s.setCyl k (some new)).handOver k v c new) := by
      intro new hl hw v
      have bk : BankLaw (s.setCyl k (some new)) := by
        refine b.of_record k (fun j hj => by simp [State.cyl_setCyl, hj]) (fun j _ => rfl) ?_ ?_ ?_
        · rw [State.cyl_setCyl, if_pos rfl]
          have hf := b.fitted k
          rw [hc] at hf
          exact hf
        · intro c' e
          rw [State.cyl_setCyl, if_pos rfl] at e
          cases e
          exact hl
        · intro c' w e
          rw [State.cyl_setCyl, if_pos rfl] at e
          cases e
          exact hw w
      exact bk.of_keepsReadings (.of_eq (by simp) (by simp))
    cases hp : loopPressure i with
    | none =>
      exact set _ (b.records k c hc).invalidSample (fun w hw => hwin w (c.invalidSample_window ▸ hw)) _
    | some p =>
      have hp4 := loopPressure_le hp
      obtain ⟨w, hw, -, hr⟩ := Cylinder.takePressure_window hp4 hwin
      refine set _ (CylinderLaw.validSample hp4 hwin _ _ _) (fun w' hw' => ?_) _
      have : w = w' := Option.some.inj (hw.symm.trans hw')
      exact this ▸ hr

/-- A write stores its record, and changes nothing else of the store (R185). -/
theorem State.applyWrite_store (s : State) (w : RecordWrite) :
    (s.applyWrite w).store = { s.store with image := s.image.write w } := by
  unfold State.applyWrite
  cases w <;> simp [State.setImage]

/-- The maintenance exit, where it is pending, leaves the image (R189). -/
@[simp] theorem State.exitIfPending_image (s : State) : s.exitIfPending.store.image = s.store.image := by
  unfold State.exitIfPending State.maintenanceExit
  dsimp only
  (repeat' split) <;> simp

/-- A write of a record that is no CYLINDER record leaves the bank (R185). -/
theorem State.applyWrite_cyls (s : State) (w : RecordWrite) (hw : ∀ k f q p, w ≠ .cylinder k f q p) :
    (s.applyWrite w).cyls = s.cyls ∧ (s.image.write w).cylinders = s.image.cylinders := by
  unfold State.applyWrite
  cases w with
  | cylinder k f q p => exact absurd rfl (hw k f q p)
  | _ => simp [Image.write]

/-- The running record of cylinder `k` once its CYLINDER record, `old` before, has become `new` (R2). -/
def State.rewritten (s : State) (k : CylIdx) (old new : CylinderRecord) : Option Cylinder :=
  match s.cyl k with
  | none => if new.fitted then some (resetCylinder true) else none
  | some c =>
    if !new.fitted then none
    else if (new.qNom ≠ old.qNom ∨ new.pNom ≠ old.pNom) ∧ c.seeded ∧ c.condition ≠ .unread then
      some (c.recompute new s.image.thresholds (s.rackTemp (rackOf k)) false)
    else some c

/-- A write of a CYLINDER record reaches the record of that cylinder alone (R2). -/
theorem State.cyl_cylinderWritten (s : State) (k j : CylIdx) (old : CylinderRecord) :
    (s.cylinderWritten k old).cyl j = if j = k then s.rewritten k old s.image.cylinders[k] else s.cyl j := by
  have g : ∀ (x : State) (b : Bool), (x.poolGainIf b).cyl j = x.cyl j := fun x b => by simp [State.cyl]
  unfold State.cylinderWritten
  rw [g, State.cyl_setCyl]
  rfl

/-- A newly fitted cylinder starts as after reset, and one newly unfitted has no record (R2). -/
theorem State.isSome_rewritten (s : State) (k : CylIdx) (old new : CylinderRecord) :
    (s.rewritten k old new).isSome = new.fitted := by
  unfold State.rewritten
  cases new.fitted <;> (repeat' split) <;> simp_all

/-- A rewritten record keeps its law, by the new CYLINDER record: phi, condition and E are made anew where they must, and an
UNREAD record has no content to make anew (R2, R11). -/
theorem CylinderLaw.rewritten {s : State} {k : CylIdx} {old new : CylinderRecord} {c' : Cylinder}
    (hl : ∀ c, s.cyl k = some c → CylinderLaw old c) (e : s.rewritten k old new = some c') : CylinderLaw new c' := by
  unfold State.rewritten at e
  split at e
  · split at e <;> cases e
    exact ⟨fun _ => rfl, Nat.zero_le 3, Nat.zero_le _, Nat.zero_le _, rfl⟩
  · rename_i c hc
    have l := hl c hc
    split at e
    · cases e
    · split at e <;> (have e := Option.some.inj e; subst e)
      · rename_i hx
        exact CylinderLaw.recompute hx.2.1 l.streak l.average _ _ _ _
      · rename_i hx
        by_cases hq : new.qNom = old.qNom
        · exact l.of_qNom hq
        · have hu : c.condition = .unread := by
            cases hs : c.seeded with
            | false => exact l.unseeded hs
            | true => exact Decidable.byContradiction fun hne => hx ⟨.inl hq, hs, hne⟩
          refine ⟨l.unseeded, l.streak, l.average, l.fraction, ?_⟩
          rw [l.content, hu]
          rfl

theorem State.rewritten_window {s : State} {k : CylIdx} {old new : CylinderRecord} {c' : Cylinder} {w : Window}
    (e : s.rewritten k old new = some c') (hw : c'.window = some w) : ∃ c, s.cyl k = some c ∧ c.window = some w := by
  unfold State.rewritten at e
  split at e
  · split at e <;> cases e
    cases hw
  · rename_i c hc
    refine ⟨c, hc, ?_⟩
    (repeat' split at e) <;> cases e <;> exact hw

theorem bankLaw_applyWrite {s : State} (b : BankLaw s) (w : RecordWrite) : BankLaw (s.applyWrite w) := by
  have hi : (s.applyWrite w).image = s.image.write w := by simp [State.image, State.applyWrite_store]
  by_cases hk : ∃ k f q p, w = .cylinder k f q p
  · obtain ⟨k, f, q, p, rfl⟩ := hk
    have hc : ∀ j, (s.applyWrite (.cylinder k f q p)).cyl j =
        if j = k then s.rewritten k s.image.cylinders[k] (s.image.write (.cylinder k f q p)).cylinders[k]
        else s.cyl j := fun j => State.cyl_cylinderWritten _ k j _
    have hk := hc k
    rw [if_pos rfl] at hk
    refine b.of_record k (fun j hj => by rw [hc, if_neg hj]) (fun j hj => ?_) ?_ (fun c e => ?_) fun c w e ew => ?_
    · rw [hi]
      simp [Image.write, Vector.getElem_set, Fin.ext_iff] at hj ⊢
      omega
    · rw [hk, hi, State.isSome_rewritten]
    · rw [hi]
      exact CylinderLaw.rewritten (b.records k) (hk ▸ e)
    · obtain ⟨c0, h0, hw0⟩ := State.rewritten_window (hk ▸ e) ew
      exact b.windows k c0 w h0 hw0
  · obtain ⟨hc, hr⟩ := s.applyWrite_cyls w fun k f q p e => hk ⟨k, f, q, p, e⟩
    exact b.of_readings (by rw [hc]) fun k => by simp [hi, hr]

theorem bankLaw_completeWrite {s : State} (b : BankLaw s) (w : RecordWrite) : BankLaw (s.completeWrite w) := by
  have b1 : BankLaw s.writeEnded := b.of_keepsReadings ⟨by simp, rfl⟩
  exact (bankLaw_applyWrite b1 w).of_keepsReadings ⟨by simp [State.completeWrite], by simp [State.completeWrite]⟩

/-- Isolation and restore write the in service field alone (R186). -/
theorem Image.setInService_cylinder (i : Image) (k j : CylIdx) (b : Bool) :
    ((i.setInService k b).cylinders[j]).fitted = (i.cylinders[j]).fitted ∧
      ((i.setInService k b).cylinders[j]).qNom = (i.cylinders[j]).qNom := by
  simp only [Image.setInService, Fin.getElem_fin, Vector.getElem_set]
  by_cases h : k.val = j.val
  · simp [h]
  · simp [h]

theorem bankLaw_completeIsolate {s : State} (b : BankLaw s) (k : CylIdx) : BankLaw (s.completeIsolate k) := by
  refine b.of_readings (by simp [State.completeIsolate, State.isolate]) fun j => ?_
  have hi : (s.completeIsolate k).image = s.image.setInService k false := by
    simp [State.image, State.completeIsolate, State.setImage, State.writeEnded]
  rw [hi]
  exact Image.setInService_cylinder _ _ _ _

theorem bankLaw_completeRestore {s : State} (b : BankLaw s) (k : CylIdx) : BankLaw (s.completeRestore k) := by
  refine b.of_readings (by simp [State.completeRestore]) fun j => ?_
  have hi : (s.completeRestore k).image = s.image.setInService k true := by
    simp [State.image, State.completeRestore, State.setImage, State.writeEnded]
  rw [hi]
  exact Image.setInService_cylinder _ _ _ _

/-! ### Every step -/

theorem bankLaw_exec {s t : State} (b : BankLaw s) (i : Instr) (ht : exec i s = .next t) : BankLaw t := by
  cases hi : Instr.rereads i with
  | false => exact b.of_keepsReadings (exec_keepsReadings i s t hi ht)
  | true =>
    cases i with
    | deviceReset =>
      cases ht
      exact bankLaw_afterReset s
    | pressureSample k current =>
      cases ht
      exact (bankLaw_takeSample b k current).of_keepsReadings (.of_eq (by simp) (by simp))
    | commissionWriteCompletion =>
      cases ht
      split
      · exact bankLaw_completeWrite b _
      · exact b
    | maintIsolateCompletion =>
      cases ht
      split
      · exact bankLaw_completeIsolate b _
      · exact b
    | maintRestoreCompletion =>
      cases ht
      split
      · exact bankLaw_completeRestore b _
      · exact b
    | _ => cases hi

/-- A step is the command at the front, or the part idles: its events are queued, or a millisecond passes. -/
theorem step_cases {s t : State} (h : step s = .next t) :
    (∃ i rest, s.pending = i :: rest ∧ exec i { s with pending := rest } = .next t) ∨
      t = s.tick ∨ t = { s with pending := s.raised } := by
  unfold step at h
  split at h
  · rename_i i rest hp
    exact .inl ⟨i, rest, hp, h⟩
  · cases h
    unfold State.idle
    split
    · exact .inr (.inl rfl)
    · exact .inr (.inr rfl)

/-- Settles O6: a step changes no reading, or one whose law is kept by the arithmetic of R4 to R13. -/
theorem bankLawKept : Obligations.BankLawKept := by
  intro s t b h
  rcases step_cases h with ⟨i, rest, -, he⟩ | rfl | rfl
  · exact bankLaw_exec (b.of_keepsReadings (t := { s with pending := rest }) ⟨rfl, rfl⟩) i he
  · exact b.of_keepsReadings ⟨rfl, rfl⟩
  · exact b.of_keepsReadings ⟨rfl, rfl⟩

end Sys2Proof.Machine
end


-- ==== Sys2Proof/Proofs/Runs.lean ====
section
/-! PROOFS. What a run takes: eligible cylinders with their present E, each once, within the claim's limit. -/

namespace Sys2Proof.Machine

/-! ### Rotation and the order of the racks (R75, R76) -/

theorem insertByTotal_perm (l : List Entry) (ls : List (List Entry)) : (insertByTotal l ls).Perm (l :: ls) := by
  induction ls with
  | nil => exact .refl _
  | cons m rest ih =>
    unfold insertByTotal
    split
    · exact .refl _
    · exact (ih.cons m).trans (.swap l m rest)

theorem orderByTotal_perm (ls : List (List Entry)) : (orderByTotal ls).Perm ls := by
  induction ls with
  | nil => exact .refl _
  | cons l ls ih => exact (insertByTotal_perm l _).trans (ih.cons l)

/-- The rotation takes from the lists rotated over. -/
theorem mem_rotation {ls : List (List Entry)} {e : Entry} (he : e ∈ rotation ls) : ∃ l ∈ ls, e ∈ l := by
  obtain ⟨j, -, hj⟩ := List.mem_flatMap.1 he
  obtain ⟨l, hl, hx⟩ := List.mem_filterMap.1 hj
  exact ⟨l, hl, List.mem_of_getElem? hx⟩

/-- In one turn of the rotation every list gives one entry at most. -/
theorem nodup_turn (j : Nat) {ls : List (List Entry)} (hd : ls.Pairwise List.Disjoint) :
    (ls.filterMap fun l => l[j]?).Nodup := by
  refine (List.pairwise_filterMap).2 (hd.imp fun {a b} hab x hx y hy e => ?_)
  subst e
  exact hab (List.mem_of_getElem? hx) (List.mem_of_getElem? hy)

/-- The rotation over lists with no entry in common takes each entry once (R76). -/
theorem nodup_rotation {ls : List (List Entry)} (hn : ls.flatten.Nodup) : (rotation ls).Nodup := by
  obtain ⟨hl, hd⟩ := List.nodup_flatten.1 hn
  refine List.nodup_flatMap.2 ⟨fun j _ => nodup_turn j hd, ?_⟩
  refine (List.nodup_range (n := 16)).imp fun {i j} hij => ?_
  intro e hi hj
  obtain ⟨l, hl1, e1⟩ := List.mem_filterMap.1 hi
  obtain ⟨m, hm1, e2⟩ := List.mem_filterMap.1 hj
  by_cases hlm : l = m
  · subst hlm
    obtain ⟨a, ha⟩ := List.getElem?_eq_some_iff.1 e1
    obtain ⟨b, hb⟩ := List.getElem?_eq_some_iff.1 e2
    exact hij ((hl l hl1).getElem_inj_iff.1 (ha.trans hb.symm))
  · have : Std.Symm (List.Disjoint (α := Entry)) := ⟨fun _ _ h => h.symm⟩
    exact hd.forall hl1 hm1 hlm (List.mem_of_getElem? e1) (List.mem_of_getElem? e2)

/-! ### Candidates (R74) -/

/-- The candidates of a class are its eligible cylinders with their present E, in racks of its role (R74). -/
theorem State.mem_classOrder {s : State} {role : RackRole} {cond : Condition} {e : Entry}
    (he : e ∈ s.classOrder role cond) : s.candidate cond e.cyl = some e ∧ s.rackRole e.cyl = role := by
  obtain ⟨l, hl, hel⟩ := mem_rotation he
  obtain ⟨hl, -⟩ := List.mem_filter.1 ((orderByTotal_perm _).mem_iff.1 hl)
  obtain ⟨r, hr, rfl⟩ := List.mem_map.1 hl
  obtain ⟨k, hk, hc⟩ := List.mem_filterMap.1 hel
  obtain rfl := (s.candidate_spec cond k e hc).1
  refine ⟨hc, ?_⟩
  obtain rfl := rackOf_rackCylinders r _ hk
  exact of_decide_eq_true (List.mem_filter.1 hr).2

/-- Each candidate of a rack stands once among them. -/
theorem State.nodup_rackCandidates (s : State) (cond : Condition) (r : Rack) : (s.rackCandidates cond r).Nodup := by
  have hk : (rackCylinders r).Nodup := by
    refine (List.nodup_finRange 16).map fun i j h => ?_
    simp only [Fin.mk.injEq] at h
    exact Fin.ext (by omega)
  refine (List.pairwise_filterMap).2 (hk.imp fun {a b} hab x hx y hy e => ?_)
  subst e
  exact hab ((s.candidate_spec cond a x hx).1.symm.trans (s.candidate_spec cond b x hy).1)

/-- Each candidate of a class is reached once (R76). -/
theorem State.nodup_classOrder (s : State) (role : RackRole) (cond : Condition) : (s.classOrder role cond).Nodup := by
  refine nodup_rotation ((orderByTotal_perm _).flatten.nodup_iff.2 (List.nodup_flatten.2 ⟨?_, ?_⟩))
  · intro l hl
    obtain ⟨r, -, rfl⟩ := List.mem_map.1 (List.mem_filter.1 hl).1
    exact s.nodup_rackCandidates cond r
  · refine List.Pairwise.filter _ (List.pairwise_map.2 ?_)
    refine (List.Pairwise.filter _ (by decide : allRacks.Nodup)).imp fun {a b} hab e ha hb => ?_
    obtain ⟨j, hj, cj⟩ := List.mem_filterMap.1 ha
    obtain ⟨k, hk, ck⟩ := List.mem_filterMap.1 hb
    obtain rfl := (s.candidate_spec cond j e cj).1
    obtain rfl := (s.candidate_spec cond k e ck).1
    exact hab ((rackOf_rackCylinders a _ hj).symm.trans (rackOf_rackCylinders b _ hk))

/-- An entry is a candidate of one class at most: its rack has one role, its cylinder one condition. -/
theorem State.disjoint_classOrder (s : State) {r1 r2 : RackRole} {c1 c2 : Condition} (hne : r1 ≠ r2 ∨ c1 ≠ c2) :
    List.Disjoint (s.classOrder r1 c1) (s.classOrder r2 c2) := by
  intro e h1 h2
  obtain ⟨k1, q1⟩ := State.mem_classOrder h1
  obtain ⟨k2, q2⟩ := State.mem_classOrder h2
  obtain ⟨-, -, y1, hy1, hc1, -⟩ := s.candidate_spec c1 _ e k1
  obtain ⟨-, -, y2, hy2, hc2, -⟩ := s.candidate_spec c2 _ e k2
  obtain rfl := Option.some.inj (hy1.symm.trans hy2)
  rcases hne with h | h
  · exact h (q1.symm.trans q2)
  · exact h (hc1.symm.trans hc2)

/-- All that a run draws from, in its order (R74, R78). -/
def State.wholeOrder (s : State) (reserve : Bool) : List Entry := s.creditedOrder reserve ++ s.lastResortOrder reserve

/-- A run draws from the classes of the MAIN racks, and from those of the RESERVE racks with reserve permitted (R74). -/
theorem State.mem_wholeOrder {s : State} {reserve : Bool} {e : Entry} (he : e ∈ s.wholeOrder reserve) :
    ∃ role cond, e ∈ s.classOrder role cond ∧ (role = .reserve → reserve = true) := by
  simp only [State.wholeOrder, State.creditedOrder, State.lastResortOrder, List.mem_append] at he
  rcases he with ((h | h) | h) | h | h
  · exact ⟨_, _, h, fun e => by cases e⟩
  · exact ⟨_, _, h, fun e => by cases e⟩
  · split at h
    · rcases List.mem_append.1 h with h | h <;> exact ⟨_, _, h, fun _ => ‹_›⟩
    · cases h
  · exact ⟨_, _, h, fun e => by cases e⟩
  · split at h
    · exact ⟨_, _, h, fun _ => ‹_›⟩
    · cases h

theorem State.nodup_wholeOrder (s : State) (reserve : Bool) : (s.wholeOrder reserve).Nodup := by
  have n := s.nodup_classOrder
  have d {r1 r2 : RackRole} {c1 c2 : Condition} (h : r1 ≠ r2 ∨ c1 ≠ c2) := s.disjoint_classOrder h
  cases reserve <;>
    simp [State.wholeOrder, State.creditedOrder, State.lastResortOrder, List.nodup_append', n, d]

/-! ### What a run takes -/

/-- A run takes a part of what it draws from, in order (R74, R78). -/
theorem State.takenList_sublist (s : State) (kind : RunKind) (c : Claim) :
    (s.takenList kind c).Sublist (s.wholeOrder c.reservePermitted) := by
  have credited : (s.takeCredited kind c).1.Sublist (s.creditedOrder c.reservePermitted) := by
    obtain ⟨n, hn⟩ := takeInOrder_prefix (targetMet kind c) (runBlocked kind c) (s.creditedOrder c.reservePermitted) []
    rw [State.takeCredited, hn]
    exact List.take_sublist _ _
  unfold State.takenList State.takeLastResort
  split
  · exact credited.trans (List.sublist_append_left _ _)
  · obtain ⟨n, hn⟩ := takeInOrder_prefix (lastResortMet kind c) (runBlocked kind c)
      (s.lastResortOrder c.reservePermitted) (s.takeCredited kind c).1
    rw [hn]
    exact credited.append (List.take_sublist _ _)

/-- What is taken is an eligible cylinder with its present E, of a rack the claim may draw from (R74, R85). -/
theorem State.mem_takenList {s : State} {kind : RunKind} {c : Claim} {e : Entry} (he : e ∈ s.takenList kind c) :
    s.eligible e.cyl = true ∧ (∃ y, s.cyl e.cyl = some y ∧ y.e = e.e) ∧
      (s.rackRole e.cyl = .reserve → c.reservePermitted = true) := by
  obtain ⟨role, cond, hm, hr⟩ := State.mem_wholeOrder ((s.takenList_sublist kind c).mem he)
  obtain ⟨hc, hrole⟩ := State.mem_classOrder hm
  obtain ⟨-, hel, y, hy, -, hye⟩ := s.candidate_spec cond _ e hc
  exact ⟨hel, ⟨y, hy, hye.symm⟩, fun h => hr (hrole.symm.trans h)⟩

/-- Each cylinder is taken once (R76). -/
theorem State.nodup_takenList (s : State) (kind : RunKind) (c : Claim) : ((s.takenList kind c).map (·.cyl)).Nodup := by
  refine List.Nodup.map_on ?_ ((s.takenList_sublist kind c).nodup (s.nodup_wholeOrder _))
  rintro ⟨j, a⟩ hx ⟨k, b⟩ hy (rfl : j = k)
  obtain ⟨-, ⟨y, hy1, rfl⟩, -⟩ := State.mem_takenList hx
  obtain ⟨-, ⟨z, hz1, rfl⟩, -⟩ := State.mem_takenList hy
  obtain rfl := Option.some.inj (hy1.symm.trans hz1)
  rfl

/-- Taking in order stays within a limit that blocks it. -/
theorem length_takeInOrder_le (met : List Entry → Bool) (blocked : List Entry → Entry → Bool) (m : Nat)
    (hb : ∀ taken e, blocked taken e = false → taken.length < m) (cands taken : List Entry) (ht : taken.length ≤ m) :
    (takeInOrder met blocked taken cands).1.length ≤ m := by
  induction cands generalizing taken with
  | nil => exact ht
  | cons e rest ih =>
    unfold takeInOrder
    split
    · exact ht
    · split
      · exact ht
      · rename_i hn
        have := hb taken e (by simpa using hn)
        exact ih _ (by simpa using this)

/-- Allocated, fired and taken cylinders are at most 32 together (R77). -/
theorem State.length_takenList_le (s : State) (kind : RunKind) (c : Claim)
    (hl : c.allocation.length + c.fired.length ≤ Config.claimLimit) :
    c.allocation.length + c.fired.length + (s.takenList kind c).length ≤ Config.claimLimit := by
  have hb : ∀ taken e, runBlocked kind c taken e = false →
      taken.length < Config.claimLimit - (c.allocation.length + c.fired.length) := by
    intro taken e h
    simp only [runBlocked, Bool.or_eq_false_iff, decide_eq_false_iff_not] at h
    omega
  have h1 : (s.takeCredited kind c).1.length ≤ Config.claimLimit - (c.allocation.length + c.fired.length) :=
    length_takeInOrder_le _ _ _ hb _ _ (Nat.zero_le _)
  suffices (s.takenList kind c).length ≤ Config.claimLimit - (c.allocation.length + c.fired.length) by omega
  unfold State.takenList State.takeLastResort
  split
  · exact h1
  · exact length_takeInOrder_le _ _ _ hb _ _ h1

/-- A cylinder that is not eligible is not taken (R74). -/
theorem State.not_mem_takenList {s : State} {kind : RunKind} {c : Claim} {k : CylIdx} (hk : s.eligible k = false) :
    ∀ e ∈ s.takenList kind c, e.cyl ≠ k := by
  rintro e he rfl
  exact absurd (State.mem_takenList he).1 (by simp [hk])

end Sys2Proof.Machine
end


-- ==== Sys2Proof/Proofs/Rules.lean ====
section
/-! PROOFS. The rules of the shared operations: what each leaves of the claim, the cylinders and the port it acts for. -/

namespace Sys2Proof.Machine

/-! ### States field by field -/

/-- Two states are one when every field agrees. -/
theorem State.eq_of_fields {s t : State} (h1 : t.pending = s.pending) (h2 : t.now = s.now) (h3 : t.choices = s.choices)
    (h4 : t.store = s.store) (h5 : t.ctl = s.ctl) (h6 : t.cyls = s.cyls) (h7 : t.rackTemps = s.rackTemps)
    (h8 : t.claims = s.claims) (h9 : t.units = s.units) (h10 : t.order = s.order) (h11 : t.poolGains = s.poolGains)
    (h12 : t.manifold = s.manifold) (h13 : t.circuits = s.circuits) (h14 : t.inputs = s.inputs)
    (h15 : t.captures = s.captures) (h16 : t.ports = s.ports) (h17 : t.site = s.site) : t = s := by
  cases s
  cases t
  simp_all

/-! ### Ports of which only the latches change -/

/-- Between `s` and `t` nothing of hall `h`'s port has changed but its latches. -/
def LatchesOnly (s t : State) (h : Hall) : Prop := t.port h = { s.port h with latches := (t.port h).latches }

theorem LatchesOnly.of_eq {s t : State} {h : Hall} (e : t.port h = s.port h) : LatchesOnly s t h := by
  unfold LatchesOnly
  rw [e]

theorem LatchesOnly.trans {s t u : State} {h : Hall} (a : LatchesOnly s t h) (b : LatchesOnly t u h) :
    LatchesOnly s u h := by
  unfold LatchesOnly at *
  rw [b, a]

theorem latchesOnly_setLatch (s : State) (h : Hall) (l : Latch) : LatchesOnly s (s.setLatch h l) h := by
  unfold LatchesOnly
  rw [State.port_setLatch, if_pos rfl]

/-- Asking for a latch twice is asking for it once (R171). -/
theorem LatchAsked.trans {s t u : State} {h : Hall} {l : Latch} {a b : Bool} (x : LatchAsked s t h l a)
    (y : LatchAsked t u h l b) : LatchAsked s u h l (a || b) := by
  unfold LatchAsked at *
  rw [y, x]
  cases a <;> cases b <;> cases (s.port h).latches.get l <;> rfl

theorem LatchAsked.of_eq {s t : State} {h : Hall} (l : Latch) (e : t.port h = s.port h) : LatchAsked s t h l false := by
  unfold LatchAsked
  rw [e]
  rfl

/-- The latches of a port that stands on either side of a change. -/
theorem LatchAsked.congr {s s' t t' : State} {h : Hall} {l : Latch} {a : Bool} (x : LatchAsked s t h l a)
    (es : s'.port h = s.port h) (et : t'.port h = t.port h) : LatchAsked s' t' h l a := by
  unfold LatchAsked at *
  rw [es, et, x]

/-! ### Runs that read the same pool -/

/-- `s` and `t` have the same candidates and the same image: the Allocator's runs read nothing else of the state. -/
structure SamePool (s t : State) : Prop where
  candidates : ∀ cond k, t.candidate cond k = s.candidate cond k
  image : t.store.image = s.store.image

theorem SamePool.of_eq {s t : State} (hc : t.cyls = s.cyls) (hi : t.store = s.store) : SamePool s t := by
  refine ⟨fun cond k => ?_, by rw [hi]⟩
  have e : t.cyl k = s.cyl k := by simp [State.cyl, hc]
  have e' : t.eligible k = s.eligible k := by rw [State.eligible, State.eligible, e]
  simp only [State.candidate, e, e']

theorem SamePool.trans {s t u : State} (a : SamePool s t) (b : SamePool t u) : SamePool s u :=
  ⟨fun cond k => (b.candidates cond k).trans (a.candidates cond k), b.image.trans a.image⟩

theorem SamePool.setCyl {s : State} {k : CylIdx} {c : Option Cylinder} (h : s.eligible k = false)
    (h' : eligibleRecord c = false) : SamePool s (s.setCyl k c) :=
  ⟨fun cond j => s.candidate_setCyl_of_ineligible k c cond j h h', rfl⟩

theorem SamePool.takenList {s t : State} (p : SamePool s t) (kind : RunKind) (c : Claim) :
    t.takenList kind c = s.takenList kind c :=
  s.takenList_congr t p.candidates (by simp only [State.image, p.image]) kind c

theorem SamePool.toppedUpWith {s t : State} (p : SamePool s t) (c : Claim) : t.toppedUpWith c = s.toppedUpWith c := by
  unfold State.toppedUpWith
  rw [p.takenList]

/-- An entry that a run takes is a candidate of some condition (R74). -/
theorem State.candidate_of_mem_takenList {s : State} {kind : RunKind} {c : Claim} {e : Entry}
    (he : e ∈ s.takenList kind c) : ∃ cond, s.candidate cond e.cyl = some e := by
  obtain ⟨role, cond, hm, -⟩ := State.mem_wholeOrder ((s.takenList_sublist kind c).mem he)
  exact ⟨cond, (State.mem_classOrder hm).1⟩

theorem State.mem_toppedUpWith {s : State} {c : Claim} {e : Entry} (he : e ∈ s.toppedUpWith c) :
    e ∈ s.takenList .topUp c := by
  unfold State.toppedUpWith at he
  split at he
  · cases he
  · exact he

/-- The taken entries are drawn from the same racks, in the same conditions, in states of one pool. -/
theorem SamePool.draws {s t : State} (p : SamePool s t) {taken : List Entry}
    (ht : ∀ e ∈ taken, ∃ cond, s.candidate cond e.cyl = some e) :
    t.drawsReserve taken = s.drawsReserve taken ∧ t.drawsUnread taken = s.drawsUnread taken := by
  constructor
  · have e : ∀ k, t.rackRole k = s.rackRole k := fun k => by simp [State.rackRole, p.image]
    simp only [State.drawsReserve, e]
  · unfold State.drawsUnread
    rw [Bool.eq_iff_iff, List.any_eq_true, List.any_eq_true]
    refine exists_congr fun e => and_congr_right fun he => ?_
    obtain ⟨cond, hc⟩ := ht e he
    obtain ⟨-, -, y, hy, hyc, -⟩ := s.candidate_spec _ _ _ hc
    obtain ⟨-, -, z, hz, hzc, -⟩ := t.candidate_spec _ _ _ ((p.candidates cond e.cyl).trans hc)
    simp [hy, hz, hyc, hzc]

theorem SamePool.committed {s t : State} (p : SamePool s t) (cl : Claim) {taken : List Entry}
    (ht : ∀ e ∈ taken, ∃ cond, s.candidate cond e.cyl = some e) : t.committed cl taken = s.committed cl taken := by
  unfold State.committed
  rw [(p.draws ht).1, (p.draws ht).2]

theorem SamePool.commitAsks {s t : State} (p : SamePool s t) (cl : Claim) {taken : List Entry}
    (ht : ∀ e ∈ taken, ∃ cond, s.candidate cond e.cyl = some e) (l : Latch) :
    t.commitAsks cl taken l = s.commitAsks cl taken l := by
  unfold State.commitAsks
  rw [(p.draws ht).1]

/-- A run reads of the claim its target, its limits and the reserve it is permitted (R73 to R79, R91). -/
theorem State.takenList_congr_claim (s : State) {kind : RunKind} {c c' : Claim}
    (hm : targetMet kind c' = targetMet kind c) (hb : runBlocked kind c' = runBlocked kind c)
    (hr : c'.reservePermitted = c.reservePermitted) : s.takenList kind c' = s.takenList kind c := by
  have hl : lastResortMet kind c' = lastResortMet kind c := by
    cases kind with
    | replacement debt => exact hm
    | firstAllocation => rfl
    | topUp => rfl
  simp [State.takenList, State.takeLastResort, State.takeCredited, hm, hb, hr, hl]

/-- A top-up reads nothing of the claim's flags (R82, R83). -/
theorem State.toppedUpWith_changedTo (s : State) (c : Claim) (commit : Bool) (alloc : List Entry) :
    s.toppedUpWith (c.changedTo commit alloc) = s.toppedUpWith (c.holding alloc) := by
  unfold State.toppedUpWith
  rw [s.takenList_congr_claim (c := c.holding alloc) (c' := c.changedTo commit alloc) rfl rfl rfl]
  rfl

/-! ### Reallocation and commit -/

@[simp] theorem State.cyl_reallocate (s : State) (h : Hall) (commit : Bool) (alloc : List Entry) (k : CylIdx) :
    (s.reallocate h commit alloc).cyl k = s.cyl k := by simp [State.cyl]

theorem latchesOnly_reallocate (s : State) (h : Hall) (commit : Bool) (alloc : List Entry) :
    LatchesOnly s (s.reallocate h commit alloc) h := by
  unfold State.reallocate
  split
  · exact .of_eq rfl
  · dsimp only
    (repeat' split)
    · exact (latchesOnly_setLatch _ h .overCeiling).trans (latchesOnly_setLatch _ h .short)
    · exact latchesOnly_setLatch _ h .short
    · exact latchesOnly_setLatch _ h .overCeiling
    · exact .of_eq rfl

/-- A commit makes the cylinders taken ASSIGNED, and changes no other record (R16, R73). -/
theorem State.cyl_commit (s : State) (h : Hall) (taken : List Entry) (c : Claim) (hc : s.claim h = some c)
    (k : CylIdx) : (s.commit h taken).cyl k =
      if k ∈ taken.map (·.cyl) then (s.cyl k).map fun c => { c with disposition := .assigned h } else s.cyl k := by
  have e : (s.commit h taken).cyls = (s.assign h taken).cyls := by
    unfold State.commit
    rw [hc]
    cases taken with
    | nil => rfl
    | cons x xs =>
      simp only [List.isEmpty_cons, Bool.false_eq_true, if_false]
      split <;> simp
  rw [← State.cyl_assign, State.cyl, State.cyl, e]

/-- A cylinder that a run takes is ASSIGNED once the run is committed (R16). -/
theorem State.assignedTo_commit {s : State} {h : Hall} {taken : List Entry} {c : Claim} (hc : s.claim h = some c)
    {e : Entry} (he : e ∈ taken) (hy : ∃ y, s.cyl e.cyl = some y) : (s.commit h taken).assignedTo h e.cyl = true := by
  obtain ⟨y, hy⟩ := hy
  have hm : e.cyl ∈ taken.map (·.cyl) := List.mem_map_of_mem he
  simp [State.assignedTo, State.cyl_commit s h taken c hc, hm, hy]

theorem latchesOnly_commit (s : State) (h : Hall) (taken : List Entry) : LatchesOnly s (s.commit h taken) h := by
  have ha : LatchesOnly s (s.assign h taken) h := .of_eq (by simp [State.port])
  unfold State.commit
  split
  · exact .of_eq rfl
  · split
    · exact .of_eq rfl
    · rename_i c _ _
      have hr := ha.trans (latchesOnly_reallocate (s.assign h taken) h true (c.allocation ++ taken))
      dsimp only
      split
      · exact (hr.trans (.of_eq rfl)).trans (latchesOnly_setLatch _ h .reserveUsed)
      · exact hr.trans (.of_eq rfl)

/-- A commit leaves the state of the claim, and its allocation with the taken list at its tail (R73). -/
theorem State.committed_fields (s : State) (c : Claim) (taken : List Entry) :
    (s.committed c taken).allocation = c.allocation ++ taken ∧ (s.committed c taken).state = c.state ∧
      (s.committed c taken).schedule = c.schedule ∧ (s.committed c taken).fired = c.fired ∧
      (s.committed c taken).figures = c.figures ∧ (s.committed c taken).flags.starved = c.flags.starved := by
  unfold State.committed
  split
  · rename_i e
    simp [e]
  · exact ⟨rfl, rfl, rfl, rfl, rfl, rfl⟩

/-- The sums of a claim whose sums follow its allocation follow it still after a commit (R40, R41). -/
theorem State.committed_sums (s : State) (c : Claim) (taken : List Entry) (ha : c.allocatedSum = sumE c.allocation)
    (hs : c.shortage = c.figures.req - c.allocatedSum) :
    (s.committed c taken).allocatedSum = sumE (c.allocation ++ taken) ∧
      (s.committed c taken).shortage = c.figures.req - sumE (c.allocation ++ taken) := by
  unfold State.committed
  split
  · rename_i e
    simp [e, ha, hs]
  · exact ⟨rfl, rfl⟩

/-! ### Entries dropped and handed -/

theorem State.dropEntry_eq {s : State} {h : Hall} {c : Claim} (hc : s.claim h = some c) (k : CylIdx) :
    s.dropEntry h k = s.reallocate h false (c.allocation.filter fun e => e.cyl ≠ k) := by
  simp only [State.dropEntry, hc]

theorem State.removal_eq {s : State} {h : Hall} {c : Claim} (hc : s.claim h = some c) (k : CylIdx) :
    s.removal h k = (s.reallocate h false (c.allocation.filter fun e => e.cyl ≠ k)).answerLoss h c.allocation := by
  simp only [State.removal, hc, State.dropEntry_eq hc]

/-- The entry of cylinder `k` with the E `new` in its place (R85). -/
def newE (k : CylIdx) (new : Nat) (alloc : List Entry) : List Entry :=
  alloc.map fun e => if e.cyl = k then { e with e := new } else e

theorem map_cyl_newE (k : CylIdx) (new : Nat) (alloc : List Entry) :
    (newE k new alloc).map (·.cyl) = alloc.map (·.cyl) := by
  simp only [newE, List.map_map]
  refine List.map_congr_left fun e _ => ?_
  simp only [Function.comp]
  split <;> rfl

theorem State.handE_eq {s : State} {h : Hall} {c : Claim} (hc : s.claim h = some c) (k : CylIdx) (old new : Nat) :
    s.handE h k old new =
      if new < old then (s.reallocate h false (newE k new c.allocation)).answerLoss h c.allocation
      else s.reallocate h false (newE k new c.allocation) := by
  simp only [State.handE, hc]
  rfl

/-- Away from COUNTDOWN, HOLD, WAITING and SELECTING a loss is answered by nothing (R82). -/
theorem State.answerLoss_of_not_toppedUp {s : State} {h : Hall} {c : Claim} (hc : s.claim h = some c)
    (hs : c.state.toppedUp = false) (before : List Entry) : s.answerLoss h before = s := by
  simp [State.answerLoss, hc, hs]

theorem ClaimState.terminal_of_toppedUp {st : ClaimState} (h : st.toppedUp = true) : st.terminal = false := by
  cases st <;> simp_all [ClaimState.toppedUp, ClaimState.terminal]

/-- The top-up that a loss calls for, whether a shortage stands or not (R82, R83). -/
theorem State.topUp_toppedUpWith {s : State} {h : Hall} {c : Claim} (hc : s.claim h = some c) :
    (if c.shortage ≠ 0 then s.topUp h else s) = s.commit h (s.toppedUpWith c) := by
  unfold State.toppedUpWith
  by_cases e : c.shortage = 0
  · rw [if_pos e, if_neg (not_not.2 e), s.commit_nil]
  · rw [if_neg e, if_pos e, s.topUp_eq h c hc]

/-- A loss that leaves cylinders, or is topped up, goes on with its allocation (R82, R83, R89). -/
theorem State.answerLoss_supplied {s : State} {h : Hall} {c : Claim} (hc : s.claim h = some c)
    (hs : c.state.toppedUp = true) (before : List Entry) (hne : c.allocation ++ s.toppedUpWith c ≠ []) :
    s.answerLoss h before = (s.commit h (s.toppedUpWith c)).rebuild h before := by
  have e := s.claim_commit h (s.toppedUpWith c) c hc (ClaimState.terminal_of_toppedUp hs)
  simp only [State.answerLoss, hc, hs, if_true, State.topUp_toppedUpWith hc, e]
  rw [if_neg]
  rw [(s.committed_fields c _).1]
  simpa using hne

/-- A loss that leaves nothing, and finds nothing, starves the claim (R57). -/
theorem State.answerLoss_empty {s : State} {h : Hall} {c : Claim} (hc : s.claim h = some c)
    (hs : c.state.toppedUp = true) (before : List Entry) (he : c.allocation ++ s.toppedUpWith c = []) :
    s.answerLoss h before = s.starve h := by
  obtain ⟨ha, ht⟩ := List.append_eq_nil_iff.1 he
  simp only [State.answerLoss, hc, hs, if_true, State.topUp_toppedUpWith hc, ht, s.commit_nil, ha]
  simp

/-- The claim `c` with its schedule built again, in SELECTING, when its list of cylinders is no longer `before`'s (R89). -/
def Claim.rescheduled (c : Claim) (before : List Entry) : Claim :=
  if c.state = .selecting ∧ c.allocation.map (·.cyl) ≠ before.map (·.cyl) then
    { c with schedule := some (buildSchedule c.allocation) }
  else c

theorem State.claim_rebuild {s : State} {h : Hall} {c : Claim} (hc : s.claim h = some c) (before : List Entry) :
    (s.rebuild h before).claim h = some (c.rescheduled before) := by
  simp only [State.rebuild, State.claim_updClaim_self, hc, Option.map_some]
  rfl

/-- A cylinder that is not eligible keeps its record when a loss is answered: no run takes it (R74). -/
theorem State.cyl_answerLoss_of_ineligible (s : State) (h : Hall) (before : List Entry) (k : CylIdx)
    (hk : s.eligible k = false) : (s.answerLoss h before).cyl k = s.cyl k := by
  cases hc : s.claim h with
  | none => simp [State.answerLoss, hc]
  | some c =>
    cases hs : c.state.toppedUp with
    | false => rw [State.answerLoss_of_not_toppedUp hc hs]
    | true =>
      have hn : k ∉ (s.toppedUpWith c).map (·.cyl) := by
        intro hm
        obtain ⟨e, he, rfl⟩ := List.mem_map.1 hm
        exact State.not_mem_takenList hk e (State.mem_toppedUpWith he) rfl
      have hcm := s.cyl_commit h (s.toppedUpWith c) c hc k
      rw [if_neg hn] at hcm
      by_cases he : c.allocation ++ s.toppedUpWith c = []
      · simp [State.answerLoss_empty hc hs before he, State.cyl]
      · rw [State.answerLoss_supplied hc hs before he, ← hcm]
        simp [State.cyl]

/-! ### The end of a grant (R101, R103, R104) -/

/-- The manifold once a grant has ended: no holder, CLOSING while the last hall's selector reads OPEN and VENTING otherwise,
the wait list and the mismatch flags standing (R103, R104). -/
theorem State.endGrant_manifold (s : State) (h : Hall) :
    (s.endGrant h).manifold.holder = none ∧
      (s.endGrant h).manifold.state =
        (if s.manifold.lastHall.bind s.selectorReading = some .opened then .closing else .venting) ∧
      (s.endGrant h).manifold.waitList = s.manifold.waitList ∧
      (s.endGrant h).manifold.lastHall = s.manifold.lastHall ∧
      (s.endGrant h).manifold.mismatch = s.manifold.mismatch := by
  have hr : ∀ o : Option Hall, o.bind ((s.setManifold { s.manifold with holder := none }).commandSelector h
      .closed).selectorReading = o.bind s.selectorReading := fun o => rfl
  unfold State.endGrant
  rw [State.enterClosing_eq]
  simp only [State.commandSelector_frame, State.setManifold_manifold, hr]
  split <;> exact ⟨rfl, rfl, rfl, rfl, rfl⟩

theorem State.endGrant_selectorCmd (s : State) (h j : Hall) :
    (s.endGrant h).selectorCmd j = if j = h then .closed else s.selectorCmd j := by
  have hv : ∀ x : State, x.enterVenting.selectorCmd j = x.selectorCmd j := fun _ => rfl
  have e : (s.endGrant h).selectorCmd j =
      ((s.setManifold { s.manifold with holder := none }).commandSelector h .closed).selectorCmd j := by
    unfold State.endGrant
    rw [State.enterClosing_eq]
    split
    · rfl
    · rw [hv]
      rfl
  rw [e, State.selectorCmd_commandSelector]
  rfl

/-- A grant withdrawn from the hall that last had it (R101, R104). -/
theorem grantWithdrawn_withdrawGrant {s : State} {h : Hall} (hl : s.manifold.lastHall = some h) :
    GrantWithdrawn s (s.withdrawGrant h) h := by
  obtain ⟨h1, h2, -⟩ := (s.setSelectorCapture h .disarmed).endGrant_manifold h
  refine ⟨⟨h1, ?_⟩, ?_, ?_⟩
  · rw [State.withdrawGrant, h2]
    simp only [State.setSelectorCapture_frame, hl, Option.bind_some]
    rfl
  · rw [State.withdrawGrant, State.endGrant_selectorCmd, if_pos rfl]
  · simp [State.withdrawGrant, State.setSelectorCapture]

/-- Between states that read the selector alike. -/
theorem GrantWithdrawn.congr {s s' t : State} {h : Hall} (g : GrantWithdrawn s t h)
    (hr : s'.selectorReading h = s.selectorReading h) : GrantWithdrawn s' t h :=
  ⟨by rw [hr]; exact g.manifold, g.selector, g.capture⟩

/-! ### Starvation (R54, R57) -/

/-- A claim in COUNTDOWN or HOLD that has lost everything is STARVED-flagged, and no more (R54). -/
theorem State.starve_of_waitless {s : State} {h : Hall} {c : Claim} (hc : s.claim h = some c)
    (hw : c.state ≠ .waiting) (hs : c.state ≠ .selecting) :
    s.starve h = s.updClaim h fun c => { c with flags := { c.flags with starved := true } } := by
  unfold State.starve
  rw [hc]
  cases hst : c.state <;> simp_all

/-- The claim `c` STARVED, once it has left WAITING or SELECTING with nothing (R57). -/
def Claim.outOfWait (c : Claim) : Claim :=
  { c with flags := { c.flags with starved := true }, state := .starved, readyAt := none }

/-- A claim in WAITING that has lost everything is STARVED, and off the wait list (R57). -/
theorem State.starve_of_waiting {s : State} {h : Hall} {c : Claim} (hc : s.claim h = some c) (hw : c.state = .waiting) :
    (s.starve h).claim h = some c.outOfWait ∧ (s.starve h).units = s.units ∧
      (s.starve h).manifold = { s.manifold with waitList := s.manifold.waitList.filter fun w => w.hall ≠ h } ∧
      (s.starve h).circuits = s.circuits ∧ (s.starve h).captures = s.captures := by
  have hl : ∀ x : State, (x.leaveWaitList h).claim h = x.claim h := fun _ => rfl
  simp only [State.starve, hc, hw]
  refine ⟨?_, by simp, rfl, by simp, by simp⟩
  rw [State.claim_updClaim_self, hl, State.claim_updClaim_self, hc]
  rfl

/-- A claim in SELECTING that has lost everything is STARVED, and its grant withdrawn (R57, R101). -/
theorem State.starve_of_selecting {s : State} {h : Hall} {c : Claim} (hc : s.claim h = some c)
    (hw : c.state = .selecting) :
    (s.starve h).claim h = some { c.outOfWait with schedule := none } ∧ (s.starve h).unit h = .inhibited ∧
      (s.manifold.lastHall = some h → GrantWithdrawn s (s.starve h) h) := by
  have hl : ∀ x : State, (x.withdrawGrant h).claim h = x.claim h := fun x => by simp [State.claim]
  have hr : ∀ x : State, (x.removeUnit h).claim h = x.claim h := fun _ => rfl
  have hu : ∀ x : State, (x.withdrawGrant h).unit h = x.unit h := fun x => by simp [State.unit]
  simp only [State.starve, hc, hw]
  refine ⟨?_, ?_, fun hlast => ?_⟩
  · rw [hl, hr, State.claim_updClaim_self, State.claim_updClaim_self, hc]
    rfl
  · rw [hu, State.unit_removeUnit_self]
  · refine (grantWithdrawn_withdrawGrant ?_).congr ?_
    · simpa using hlast
    · rfl

end Sys2Proof.Machine
end


-- ==== Sys2Proof/Proofs/Samples.lean ====
section
/-! PROOFS. Pressure and rack temperature samples: the record, and what is handed to the owner of the cylinder. -/

namespace Sys2Proof.Machine

/-! ### A changed allocation, and the loss answered -/

/-- Between `s` and `t` hall `h`'s claim `cl`, short of FIRING, has had its allocation changed to `left`, and the loss has
been answered: what a top-up takes is committed, and with nothing held after it the claim starves. `s1` is the state in which
the change began, with the pool of `s` (R40 to R42, R57, R78, R80 to R83, R89). -/
structure Answered (s s1 t : State) (h : Hall) (cl : Claim) (left : List Entry) : Prop where
  latches : ∀ l, LatchAsked s t h l (cl.changeAsks false left l ||
    s.commitAsks (cl.changedTo false left) (s.toppedUpWith (cl.holding left)) l)
  port : LatchesOnly s t h
  assigned : ∀ e ∈ s.toppedUpWith (cl.holding left), t.assignedTo h e.cyl = true
  others : ∀ j, (∀ e ∈ s.toppedUpWith (cl.holding left), e.cyl ≠ j) → t.cyl j = s1.cyl j
  supplied : left ++ s.toppedUpWith (cl.holding left) ≠ [] →
    t.claim h = some ((s.committed (cl.changedTo false left) (s.toppedUpWith (cl.holding left))).rescheduled
      cl.allocation) ∧ t.units = s1.units ∧ t.manifold = s1.manifold ∧ t.circuits = s1.circuits ∧
      t.captures = s1.captures
  starved : left ++ s.toppedUpWith (cl.holding left) = [] → t = (s1.reallocate h false left).starve h

/-- A change of the allocation short of FIRING, and its answer. -/
theorem answered_answerLoss {s s1 : State} {h : Hall} {cl : Claim} (p : SamePool s s1) (hp : s1.port h = s.port h)
    (hc : s1.claim h = some cl) (hs : cl.state.toppedUp = true) (left : List Entry) :
    Answered s s1 ((s1.reallocate h false left).answerLoss h cl.allocation) h cl left := by
  have ht := ClaimState.terminal_of_toppedUp hs
  have hc2 : (s1.reallocate h false left).claim h = some (cl.changedTo false left) := by
    rw [State.claim_reallocate _ _ _ _ _ hc, Claim.reflag_eq_changedTo _ _ _ ht]
  have p2 : SamePool s (s1.reallocate h false left) := p.trans (.of_eq (by simp) (by simp))
  have htk : (s1.reallocate h false left).toppedUpWith (cl.changedTo false left) = s.toppedUpWith (cl.holding left) := by
    rw [p2.toppedUpWith, State.toppedUpWith_changedTo]
  have hcand : ∀ e ∈ s.toppedUpWith (cl.holding left), ∃ cond, s.candidate cond e.cyl = some e := fun e he =>
    State.candidate_of_mem_takenList (State.mem_toppedUpWith he)
  have hsup := State.answerLoss_supplied hc2 (by exact hs) cl.allocation
  have hemp := State.answerLoss_empty hc2 (by exact hs) cl.allocation
  rw [htk] at hsup hemp
  -- the state once the top-up is committed, and what stands of it in the end
  have hcm := State.claim_commit _ h (s.toppedUpWith (cl.holding left)) _ hc2 ht
  rw [p2.committed _ hcand] at hcm
  have hlat : ∀ l, LatchAsked s ((s1.reallocate h false left).commit h (s.toppedUpWith (cl.holding left))) h l
      (cl.changeAsks false left l ||
        s.commitAsks (cl.changedTo false left) (s.toppedUpWith (cl.holding left)) l) := by
    intro l
    have a := (s1.latchAsked_reallocate h false left cl hc ht l).congr hp.symm rfl
    have b := State.latchAsked_commit _ h (s.toppedUpWith (cl.holding left)) _ hc2 ht l
    rw [p2.commitAsks _ hcand] at b
    exact a.trans b
  have hlo : LatchesOnly s ((s1.reallocate h false left).commit h (s.toppedUpWith (cl.holding left))) h :=
    ((LatchesOnly.of_eq hp).trans (latchesOnly_reallocate s1 h false left)).trans (latchesOnly_commit _ h _)
  have hcyl := State.cyl_commit _ h (s.toppedUpWith (cl.holding left)) _ hc2
  have hasg : ∀ e ∈ s.toppedUpWith (cl.holding left),
      ((s1.reallocate h false left).commit h (s.toppedUpWith (cl.holding left))).assignedTo h e.cyl = true := by
    intro e he
    obtain ⟨cond, hcd⟩ := hcand e he
    obtain ⟨-, -, y, hy, -⟩ := State.candidate_spec _ _ _ _ ((p2.candidates cond e.cyl).trans hcd)
    exact State.assignedTo_commit hc2 he ⟨y, hy⟩
  have hoth : ∀ j, (∀ e ∈ s.toppedUpWith (cl.holding left), e.cyl ≠ j) →
      ((s1.reallocate h false left).commit h (s.toppedUpWith (cl.holding left))).cyl j = s1.cyl j := by
    intro j hj
    rw [hcyl, if_neg (by simpa using hj), State.cyl_reallocate]
  by_cases hne : left ++ s.toppedUpWith (cl.holding left) = []
  · have e := hemp hne
    have htn : s.toppedUpWith (cl.holding left) = [] := (List.append_eq_nil_iff.1 hne).2
    have hp' : ((s1.reallocate h false left).starve h).port h = (s1.reallocate h false left).port h := by
      simp [State.port]
    have hc' : ∀ j, ((s1.reallocate h false left).starve h).cyl j = (s1.reallocate h false left).cyl j := by
      intro j
      simp [State.cyl]
    rw [htn, State.commit_nil] at hlat hlo hoth
    rw [e]
    refine ⟨fun l => ?_, hlo.trans (.of_eq hp'), fun e he => ?_, fun j _ => ?_, fun h => absurd hne h, fun _ => rfl⟩
    · rw [htn]
      exact (hlat l).congr rfl hp'
    · rw [htn] at he
      cases he
    · rw [hc', hoth j (by simp)]
  · have e := hsup hne
    have hp' : ∀ x : State, (x.rebuild h cl.allocation).port h = x.port h := fun x => by simp [State.port]
    have hc' : ∀ (x : State) j, (x.rebuild h cl.allocation).cyl j = x.cyl j := fun x j => by simp [State.cyl]
    rw [e]
    refine ⟨fun l => (hlat l).congr rfl (hp' _), hlo.trans (.of_eq (hp' _)), fun e he => ?_, fun j hj => ?_,
      fun _ => ⟨?_, by simp, by simp, by simp, by simp⟩, fun h => absurd h hne⟩
    · rw [State.assignedTo, hc']
      exact hasg e he
    · rw [hc', hoth j hj]
    · rw [State.claim_rebuild hcm]

/-! ### A changed E handed to the owner (R14, R84, R130) -/

/-- The record of a cylinder ASSIGNED to a hall is not eligible (R24). -/
theorem eligibleRecord_assigned {c : Cylinder} {h : Hall} (hd : c.disposition = .assigned h) :
    eligibleRecord (some c) = false := by simp [eligibleRecord, hd]

theorem State.eligible_of_cyl {s : State} {k : CylIdx} {c : Option Cylinder} (hk : s.cyl k = c) :
    s.eligible k = eligibleRecord c := by rw [State.eligible, hk]

/-- The schedule that rescheduling leaves, and the fields it leaves alone (R89). -/
theorem Claim.rescheduled_fields (c : Claim) (before : List Entry) :
    (c.rescheduled before).allocation = c.allocation ∧ (c.rescheduled before).allocatedSum = c.allocatedSum ∧
      (c.rescheduled before).shortage = c.shortage ∧ (c.rescheduled before).flags = c.flags ∧
      (c.rescheduled before).state = c.state ∧ (c.rescheduled before).fired = c.fired ∧
      (c.rescheduled before).schedule =
        if c.state = .selecting ∧ c.allocation.map (·.cyl) ≠ before.map (·.cyl) then
          some (buildSchedule c.allocation)
        else c.schedule := by
  unfold Claim.rescheduled
  split <;> exact ⟨rfl, rfl, rfl, rfl, rfl, rfl, rfl⟩

/-- What a claim is once its allocation has become `left`, its loss has been topped up with `taken`, and its schedule follows
the list of its cylinders, which `before` gave. -/
theorem State.answered_fields (s : State) (cl : Claim) (left taken before : List Entry) :
    let c := (s.committed (cl.changedTo false left) taken).rescheduled before
    c.allocation = left ++ taken ∧ c.allocatedSum = sumE (left ++ taken) ∧
      c.shortage = cl.figures.req - sumE (left ++ taken) ∧
      c.flags = (s.committed (cl.changedTo false left) taken).flags ∧ c.state = cl.state ∧ c.fired = cl.fired ∧
      c.schedule = if cl.state = .selecting ∧ (left ++ taken).map (·.cyl) ≠ before.map (·.cyl) then
          some (buildSchedule (left ++ taken))
        else cl.schedule := by
  intro c
  obtain ⟨ha, hst, hsc, hf, -, -⟩ := s.committed_fields (cl.changedTo false left) taken
  obtain ⟨hs1, hs2⟩ := s.committed_sums (cl.changedTo false left) taken rfl rfl
  obtain ⟨h1, h2, h3, h4, h5, h6, h7⟩ := (s.committed (cl.changedTo false left) taken).rescheduled_fields before
  refine ⟨h1.trans ha, h2.trans hs1, h3.trans hs2, h4, h5.trans hst, h6.trans hf, h7.trans ?_⟩
  rw [ha, hst, hsc]
  rfl

theorem State.unit_of_units {s t : State} (e : t.units = s.units) (h : Hall) : t.unit h = s.unit h := by
  rw [State.unit, State.unit, e]

@[simp] theorem State.committed_nil (s : State) (cl : Claim) : s.committed cl [] = cl := rfl

@[simp] theorem State.commitAsks_nil (s : State) (cl : Claim) (l : Latch) : s.commitAsks cl [] l = false := rfl

/-- What handing an E leaves alone, of the halls and of the state (R14). -/
theorem State.handE_others (s : State) (h : Hall) (k : CylIdx) (old new : Nat) :
    (∀ j, j ≠ h → (s.handE h k old new).claim j = s.claim j ∧ (s.handE h k old new).port j = s.port j) ∧
      ((s.handE h k old new).units = s.units → (s.handE h k old new).manifold = s.manifold →
        (s.handE h k old new).circuits = s.circuits → (s.handE h k old new).captures = s.captures →
        s.handE h k old new = { s with
          cyls := (s.handE h k old new).cyls, claims := (s.handE h k old new).claims
          ports := (s.handE h k old new).ports }) := by
  refine ⟨fun j hj => ⟨by simp [State.claim, hj], by simp [State.port, hj]⟩, fun hu hm hci hca => ?_⟩
  refine State.eq_of_fields ?_ ?_ ?_ ?_ ?_ rfl ?_ rfl hu ?_ ?_ hm hci ?_ hca rfl ?_ <;> simp

/-- A changed E handed to a claim short of FIRING that holds cylinders (R14, R42, R78, R80 to R84, R89). -/
theorem handed_handE {s : State} {h : Hall} {k : CylIdx} {c new : Cylinder} {cl : Claim} (hk : s.cyl k = some c)
    (hd : c.disposition = .assigned h) (hn : new.disposition = .assigned h) (hc : s.claim h = some cl)
    (hs : cl.state.toppedUp = true) (hne : cl.allocation ≠ []) :
    ∃ cl', ((s.setCyl k (some new)).handE h k c.e new.e).claim h = some cl' ∧
      Handed s ((s.setCyl k (some new)).handE h k c.e new.e) h k c.e new.e cl cl' := by
  have hc1 : (s.setCyl k (some new)).claim h = some cl := hc
  have hcy : ∀ j, j ≠ k → (s.setCyl k (some new)).cyl j = s.cyl j := fun j hj => by
    rw [State.cyl_setCyl, if_neg hj]
  obtain ⟨hoth, hst⟩ := (s.setCyl k (some new)).handE_others h k c.e new.e
  have hE := State.handE_eq hc1 k c.e new.e
  have hm := map_cyl_newE k new.e cl.allocation
  by_cases hlt : new.e < c.e
  · rw [if_pos hlt] at hE
    have p : SamePool s (s.setCyl k (some new)) :=
      .setCyl ((State.eligible_of_cyl hk).trans (eligibleRecord_assigned hd)) (eligibleRecord_assigned hn)
    have a := answered_answerLoss p rfl hc1 hs (newE k new.e cl.allocation)
    rw [← hE] at a
    have hsup : newE k new.e cl.allocation ++ s.toppedUpWith (cl.holding (newE k new.e cl.allocation)) ≠ [] := by
      intro e
      rw [(List.append_eq_nil_iff.1 e).1] at hm
      exact hne (List.map_eq_nil_iff.1 hm.symm)
    obtain ⟨hcl', hu, hmf, hci, hca⟩ := a.supplied hsup
    obtain ⟨f1, f2, f3, f4, f5, -, f7⟩ := s.answered_fields cl (newE k new.e cl.allocation)
      (s.toppedUpWith (cl.holding (newE k new.e cl.allocation))) cl.allocation
    refine ⟨_, hcl', ⟨?_, ?_, ⟨f5, State.unit_of_units hu h⟩, ⟨hoth, a.port, hst hu hmf hci hca⟩⟩⟩
    · intro handed taken
      have htk : taken = s.toppedUpWith (cl.holding (newE k new.e cl.allocation)) := if_pos hlt
      rw [htk]
      refine ⟨f1, f2.trans (by rw [f1]), f3.trans (by rw [f2]), a.assigned, f7.trans ?_, fun j hj hjt => ?_⟩
      · rw [f1]
        exact if_congr (and_congr_right' (by simp [hm])) rfl rfl
      · rw [a.others j hjt, hcy j hj]
    · intro alloc taken changed
      have htk : taken = s.toppedUpWith (cl.holding (newE k new.e cl.allocation)) := if_pos hlt
      rw [htk]
      exact ⟨f4, a.latches⟩
  · rw [if_neg hlt] at hE
    have ht := ClaimState.terminal_of_toppedUp hs
    have hcl' := State.claim_reallocate _ h false (newE k new.e cl.allocation) _ hc1
    rw [Claim.reflag_eq_changedTo _ _ _ ht] at hcl'
    have hlat := State.latchAsked_reallocate _ h false (newE k new.e cl.allocation) _ hc1 ht
    have hlo := latchesOnly_reallocate (s.setCyl k (some new)) h false (newE k new.e cl.allocation)
    have hcyl := State.cyl_reallocate (s.setCyl k (some new)) h false (newE k new.e cl.allocation)
    have hfr := State.reallocate_frame (s.setCyl k (some new)) h false (newE k new.e cl.allocation)
    rw [← hE] at hcl' hlat hlo hcyl hfr
    obtain ⟨-, -, -, -, -, -, -, hu, -, -, hmf, hci, -, hca, -⟩ := hfr
    refine ⟨_, hcl', ⟨?_, ?_, ⟨rfl, State.unit_of_units hu h⟩, ⟨hoth, hlo, hst hu hmf hci hca⟩⟩⟩
    · intro handed taken
      have htk : taken = [] := if_neg hlt
      rw [htk]
      exact ⟨(List.append_nil _).symm, rfl, rfl, by simp, by simp [Claim.changedTo], fun j hj _ => (hcyl j).trans (hcy j hj)⟩
    · intro alloc taken changed
      have htk : taken = [] := if_neg hlt
      rw [htk]
      refine ⟨rfl, fun l => ?_⟩
      rw [State.commitAsks_nil, Bool.or_false]
      exact hlat l

/-- A changed E handed to a claim in FIRING (R14, R40 to R42, R130). -/
theorem handedFiring_handE {s : State} {h : Hall} {k : CylIdx} {new : Cylinder} {cl : Claim} {old : Nat}
    (hc : s.claim h = some cl) (hs : cl.state = .firing) (hne : new.e ≠ old) :
    ∃ cl', ((s.setCyl k (some new)).handE h k old new.e).claim h = some cl' ∧
      HandedFiring s ((s.setCyl k (some new)).handE h k old new.e) h k old new.e cl cl' := by
  have hc1 : (s.setCyl k (some new)).claim h = some cl := hc
  have ht : cl.state.terminal = false := by rw [hs]; rfl
  have hcl' := State.claim_reallocate _ h false (newE k new.e cl.allocation) _ hc1
  rw [Claim.reflag_eq_changedTo _ _ _ ht] at hcl'
  have hE : (s.setCyl k (some new)).handE h k old new.e =
      (s.setCyl k (some new)).reallocate h false (newE k new.e cl.allocation) := by
    rw [State.handE_eq hc1, State.answerLoss_of_not_toppedUp hcl' (by simp [Claim.changedTo, hs, ClaimState.toppedUp]),
      ite_self]
  obtain ⟨hoth, hst⟩ := (s.setCyl k (some new)).handE_others h k old new.e
  have hlat := State.latchAsked_reallocate _ h false (newE k new.e cl.allocation) _ hc1 ht
  have hlo := latchesOnly_reallocate (s.setCyl k (some new)) h false (newE k new.e cl.allocation)
  have hcyl := State.cyl_reallocate (s.setCyl k (some new)) h false (newE k new.e cl.allocation)
  have hfr := State.reallocate_frame (s.setCyl k (some new)) h false (newE k new.e cl.allocation)
  rw [← hE] at hcl' hlat hlo hcyl hfr
  obtain ⟨-, -, -, -, -, -, -, hu, -, -, hmf, hci, -, hca, -⟩ := hfr
  refine ⟨_, hcl', ⟨⟨hs, rfl, ?_, map_cyl_newE _ _ _⟩, fun _ e he hek => ?_, fun _ => ⟨rfl, hlat⟩,
    fun e => absurd e hne, ⟨fun j hj => ?_, hoth, hlo, hst hu hmf hci hca⟩⟩⟩
  · simp [Claim.changedTo, hs, ClaimState.shortOfFiring]
  · obtain ⟨x, -, rfl⟩ := List.mem_map.1 he
    split at hek
    · rename_i hx
      simp [hx]
    · rename_i hx
      exact absurd hek hx
  · rw [hcyl, State.cyl_setCyl, if_neg hj]

/-- An E that stands is handed to nobody, and the claim in FIRING stands with it. -/
theorem handedFiring_setCyl (s : State) (h : Hall) (k : CylIdx) (new : Cylinder) {cl : Claim} (e : Nat)
    (hs : cl.state = .firing) : HandedFiring s (s.setCyl k (some new)) h k e e cl cl :=
  ⟨⟨hs, rfl, rfl, rfl⟩, fun hne => absurd rfl hne, fun hne => absurd rfl hne, fun _ => ⟨rfl, rfl⟩,
    ⟨fun j hj => by rw [State.cyl_setCyl, if_neg hj], fun _ _ => ⟨rfl, rfl⟩, rfl, rfl⟩⟩

/-! ### The hand-over of a sample (R14, R18, R24) -/

/-- Nothing is handed over of a cylinder that no hall owns but a POOL GAIN (R24). -/
theorem State.handOver_unassigned {s : State} {new : Cylinder} (hd : ∀ h, new.disposition ≠ .assigned h) (k : CylIdx)
    (valid : Bool) (old : Cylinder) :
    s.handOver k valid old new = s.poolGainIf (gains (some old) (some new)) := by
  unfold State.handOver
  split
  · rename_i h hh
    exact absurd hh (hd h)
  · rfl

/-- What is handed to the owner's claim (R14, R18). -/
theorem State.handOver_assigned {s : State} {new : Cylinder} {h : Hall} {cl : Claim} (hd : new.disposition = .assigned h)
    (hc : s.claim h = some cl) (k : CylIdx) (valid : Bool) (old : Cylinder) :
    s.handOver k valid old new =
      if valid = true ∧ new.condition = .empty ∧ cl.state.toppedUp = true then
        (s.setDisposition k .free).removal h k
      else if new.e ≠ old.e then s.handE h k old.e new.e else s := by
  unfold State.handOver
  rw [hd]
  simp only [hc, Bool.and_eq_true, decide_eq_true_eq, and_assoc]

/-- An owner without a claim is handed nothing. -/
theorem State.handOver_unclaimed {s : State} {new : Cylinder} {h : Hall} (hd : new.disposition = .assigned h)
    (hc : s.claim h = none) (k : CylIdx) (valid : Bool) (old : Cylinder) : s.handOver k valid old new = s := by
  unfold State.handOver
  rw [hd]
  simp only [hc]

/-- After start-up a first sample is a sample like any other (R179). -/
theorem State.firstSample_of_running {s : State} (hm : s.mode ≠ .startup) (src : SampleSource) : s.firstSample src = s := by
  unfold State.firstSample
  rw [if_neg fun e => hm e.1]

theorem State.cyl_firstSample (s : State) (src : SampleSource) (k : CylIdx) : (s.firstSample src).cyl k = s.cyl k := by
  simp [State.cyl]

@[simp] theorem State.cyl_poolGainIf (s : State) (b : Bool) (k : CylIdx) : (s.poolGainIf b).cyl k = s.cyl k := by
  simp [State.cyl]

/-- A removal from a claim, and an E handed to it, reach no record of a cylinder that is not eligible. -/
theorem State.cyl_removal_of_ineligible (s : State) (h : Hall) (j k : CylIdx) (hk : s.eligible k = false) :
    (s.removal h j).cyl k = s.cyl k := by
  cases hc : s.claim h with
  | none => simp [State.removal, hc]
  | some c =>
    rw [State.removal_eq hc, State.cyl_answerLoss_of_ineligible, State.cyl_reallocate]
    rw [State.eligible, State.cyl_reallocate]
    exact hk

theorem State.cyl_handE_of_ineligible (s : State) (h : Hall) (j k : CylIdx) (old new : Nat)
    (hk : s.eligible k = false) : (s.handE h j old new).cyl k = s.cyl k := by
  cases hc : s.claim h with
  | none => simp [State.handE, hc]
  | some c =>
    rw [State.handE_eq hc]
    split
    · rw [State.cyl_answerLoss_of_ineligible, State.cyl_reallocate]
      rw [State.eligible, State.cyl_reallocate]
      exact hk
    · rw [State.cyl_reallocate]

/-- The record that the hand-over of a sample leaves: the new one, FREE when its owner has lost it as EMPTY (R18). -/
theorem State.cyl_handOver {s : State} {k : CylIdx} {new : Cylinder} (hk : s.cyl k = some new) (valid : Bool)
    (old : Cylinder) : ∃ d, (s.handOver k valid old new).cyl k = some { new with disposition := d } ∧
      (d = new.disposition ∨ valid = true ∧ new.condition = .empty ∧ d = .free) := by
  by_cases hd : ∃ h, new.disposition = .assigned h
  · obtain ⟨h, hh⟩ := hd
    have hin : s.eligible k = false := (State.eligible_of_cyl hk).trans (eligibleRecord_assigned hh)
    cases hc : s.claim h with
    | none => exact ⟨_, by rw [State.handOver_unclaimed hh hc, hk], .inl rfl⟩
    | some cl =>
      rw [State.handOver_assigned hh hc]
      split
      · rename_i hx
        have hk2 : (s.setDisposition k .free).cyl k = some { new with disposition := .free } := by
          rw [State.cyl_setDisposition, if_pos rfl, hk]
          rfl
        refine ⟨.free, ?_, .inr ⟨hx.1, hx.2.1, rfl⟩⟩
        rw [State.cyl_removal_of_ineligible, hk2]
        simp [State.eligible_of_cyl hk2, eligibleRecord, hx.2.1]
      · refine ⟨_, ?_, .inl rfl⟩
        split
        · rw [State.cyl_handE_of_ineligible _ _ _ _ _ _ hin, hk]
        · rw [hk]
  · refine ⟨_, ?_, .inl rfl⟩
    rw [State.handOver_unassigned fun h e => hd ⟨h, e⟩, State.cyl_poolGainIf, hk]

/-! ### Loop currents -/

theorem loopPressure_valid {i : LoopCurrent} (h1 : 3600 ≤ i) (h2 : i ≤ 21000) :
    loopPressure i = some (min 4000 ((i - 4000 + 2) / 4)) := by
  have hv : loopValid i = true := by simp [loopValid, h1, h2]
  have hd : ∀ x : Nat, (x * 4000 * 2 + 16000) / (2 * 16000) = (x + 2) / 4 := fun x => by omega
  rw [loopPressure, if_pos hv]
  exact congrArg (fun x => some (min 4000 x)) (hd (i - 4000))

theorem loopPressure_invalid {i : LoopCurrent} (h : i < 3600 ∨ 21000 < i) : loopPressure i = none := by
  have hv : ¬ (3600 ≤ i ∧ i ≤ 21000) := fun ⟨h1, h2⟩ => h.elim (Nat.not_lt.2 h1) (Nat.not_lt.2 h2)
  rw [loopPressure, if_neg (by simpa [loopValid] using hv)]

/-! ### Invalid samples (R7, R8) -/

/-- An invalid sample of a record: the streak, the condition and E, and nothing else (R7, R8). -/
theorem Cylinder.invalidSample_fields (c : Cylinder) (hs : c.streak ≤ 3) :
    c.invalidSample.streak = min 3 (c.streak + 1) ∧ c.invalidSample.disposition = c.disposition ∧
      c.invalidSample.window = c.window ∧ c.invalidSample.pos = c.pos ∧ c.invalidSample.seeded = c.seeded ∧
      c.invalidSample.pAvg = c.pAvg ∧ c.invalidSample.phi = c.phi ∧
      (c.streak = 2 → c.invalidSample.condition = .unread ∧ c.invalidSample.e = 0) ∧
      (c.streak ≠ 2 → c.invalidSample.condition = c.condition ∧ c.invalidSample.e = c.e) := by
  unfold Cylinder.invalidSample
  split
  · rename_i h
    simp [h]
  · split
    · rename_i h2 h
      refine ⟨by dsimp only; omega, rfl, rfl, rfl, rfl, rfl, rfl, fun e => absurd e h2, fun _ => ⟨rfl, rfl⟩⟩
    · rename_i h2 h
      refine ⟨by omega, rfl, rfl, rfl, rfl, rfl, rfl, fun e => absurd e h2, fun _ => ⟨rfl, rfl⟩⟩

/-- An invalid sample gives the pool nothing, unless it makes an EMPTY cylinder UNREAD (R24; assumption entry 10). -/
theorem gains_invalidSample {c : Cylinder} (hs : c.streak ≤ 3) (he : c.streak ≠ 2 ∨ c.condition ≠ .empty) :
    gains (some c) (some c.invalidSample) = false := by
  obtain ⟨-, hd, -, -, -, -, -, h2, hn⟩ := c.invalidSample_fields hs
  by_cases h : c.streak = 2
  · simp [gains, eligibleRecord, unreadRecord, hd, (h2 h).1, he.resolve_left (not_not.2 h)]
  · simp only [gains, eligibleRecord, unreadRecord, hd, (hn h).1]
    cases decide (c.disposition = .free) <;> cases decide (c.condition ≠ .empty) <;> cases decide (c.condition = .unread) <;>
      rfl

theorem exec_pressureSample_invalid {k : CylIdx} {i : LoopCurrent} {s : State} {c : Cylinder} (hk : s.cyl k = some c)
    (hi : i < 3600 ∨ 21000 < i) : exec (.pressureSample k i) s =
      .next (((s.setCyl k (some c.invalidSample)).handOver k false c c.invalidSample).firstSample (.cylinder k)) := by
  simp [exec, execPressureSample, loopPressure_invalid hi, State.takeSample, hk]

/-- The hand-over of an invalid sample, to whom it may concern (R8, R14, R24). -/
theorem State.handOver_invalidSample {s : State} {k : CylIdx} {c : Cylinder} (hs : c.streak ≤ 3)
    {t : State} (ht : t = (s.setCyl k (some c.invalidSample)).handOver k false c c.invalidSample) :
    (c.streak ≠ 2 → t = s.setCyl k (some c.invalidSample)) ∧
    ((∀ h, c.disposition ≠ .assigned h) →
      t = (s.setCyl k (some c.invalidSample)).poolGainIf (gains (some c) (some c.invalidSample))) ∧
    (∀ h cl, c.disposition = .assigned h → s.claim h = some cl →
      t = if c.invalidSample.e ≠ c.e then (s.setCyl k (some c.invalidSample)).handE h k c.e c.invalidSample.e
        else s.setCyl k (some c.invalidSample)) := by
  obtain ⟨-, hd, -, -, -, -, -, -, hn⟩ := c.invalidSample_fields hs
  have ho : ∀ h cl, c.disposition = .assigned h → s.claim h = some cl →
      t = if c.invalidSample.e ≠ c.e then (s.setCyl k (some c.invalidSample)).handE h k c.e c.invalidSample.e
        else s.setCyl k (some c.invalidSample) := by
    intro h cl hh hc
    have hc' : (s.setCyl k (some c.invalidSample)).claim h = some cl := hc
    rw [ht, State.handOver_assigned (hd.trans hh) hc', if_neg (by simp)]
  have hu : (∀ h, c.disposition ≠ .assigned h) →
      t = (s.setCyl k (some c.invalidSample)).poolGainIf (gains (some c) (some c.invalidSample)) := by
    intro hx
    rw [ht, State.handOver_unassigned (hd.symm ▸ hx)]
  refine ⟨fun h2 => ?_, hu, ho⟩
  by_cases ha : ∃ h, c.disposition = .assigned h
  · obtain ⟨h, hh⟩ := ha
    cases hc : s.claim h with
    | none =>
      have hc' : (s.setCyl k (some c.invalidSample)).claim h = none := hc
      rw [ht, State.handOver_unclaimed (hd.trans hh) hc']
    | some cl => rw [ho h cl hh hc, if_neg (not_not.2 (hn h2).2)]
  · rw [hu fun h e => ha ⟨h, e⟩, gains_invalidSample hs (.inl h2)]
    rfl

theorem State.cyl_setCyl_of_ne (s : State) {j k : CylIdx} (hj : j ≠ k) (c : Option Cylinder) :
    (s.setCyl k c).cyl j = s.cyl j := by rw [State.cyl_setCyl, if_neg hj]

theorem ClaimState.toppedUp_iff {st : ClaimState} :
    st.toppedUp = true ↔ st = .countdown ∨ st = .hold ∨ st = .waiting ∨ st = .selecting := by
  cases st <;> simp [ClaimState.toppedUp]

/-- Settles O15: the record by the arithmetic of R7 and R8, the hand-over by the owner's state. -/
theorem invalidPressureSample : Obligations.InvalidPressureSample := by
  intro k i s
  refine ⟨fun c hk hs hi => ?_, fun hk hm => ?_⟩
  · obtain ⟨t, ht⟩ : ∃ t, t = (s.setCyl k (some c.invalidSample)).handOver k false c c.invalidSample := ⟨_, rfl⟩
    have hex := exec_pressureSample_invalid hk hi
    rw [← ht] at hex
    obtain ⟨hst, hd, hw, hp, hse, hav, hph, h2, hn2⟩ := c.invalidSample_fields hs
    obtain ⟨hquiet, hfree, howned⟩ := State.handOver_invalidSample (s := s) (k := k) hs ht
    have hcyl : t.cyl k = some c.invalidSample := by
      obtain ⟨d, h1, h3⟩ := State.cyl_handOver (s := s.setCyl k (some c.invalidSample)) (k := k)
        (by rw [State.cyl_setCyl, if_pos rfl]) false c
      rw [ht, h1, h3.resolve_right (by simp)]
    have hmode : t.mode = s.mode := by
      rw [ht]
      simp [State.mode]
    refine ⟨_, c.invalidSample, hex, by rw [State.cyl_firstSample, hcyl], hw, hp, hse, hav, hph, hst, h2, hn2, hd,
      fun hm => ?_⟩
    rw [State.firstSample_of_running (hmode.symm ▸ hm)]
    refine ⟨fun j hj hx => ?_, fun h => ?_, fun hu => ⟨?_, fun he => ?_⟩, fun h cl hs2 hh hc hne hst' => ⟨fun he => ?_, fun he => ?_⟩,
      fun h cl hs2 hh hc hst' => ?_⟩
    · rcases hx with hx | hx
      · rw [hquiet hx, State.cyl_setCyl_of_ne _ hj]
      · rw [hfree hx, State.cyl_poolGainIf, State.cyl_setCyl_of_ne _ hj]
    · rw [hquiet h]
      rfl
    · rw [hfree hu]
      unfold State.poolGainIf
      split <;> rfl
    · rw [hfree hu, gains_invalidSample hs (.inr he)]
      rfl
    · rw [howned h cl hh hc, if_neg (not_not.2 ((h2 hs2).2.trans he.symm))]
      rfl
    · rw [howned h cl hh hc, (h2 hs2).2, if_pos (Ne.symm he)]
      simpa [(h2 hs2).2] using handed_handE (new := c.invalidSample) hk hh (hd.trans hh) hc (ClaimState.toppedUp_iff.2 hst') hne
    · by_cases he : c.e = 0
      · rw [howned h cl hh hc, if_neg (not_not.2 ((h2 hs2).2.trans he.symm))]
        refine ⟨cl, hc, ?_⟩
        rw [he]
        exact handedFiring_setCyl s h k _ 0 hst'
      · rw [howned h cl hh hc, (h2 hs2).2, if_pos (Ne.symm he)]
        have := handedFiring_handE (k := k) (new := c.invalidSample) (old := c.e) hc hst' (by rw [(h2 hs2).2]; exact Ne.symm he)
        rwa [(h2 hs2).2] at this
  · have e : s.takeSample k (loopPressure i) = s := by simp [State.takeSample, hk]
    simp [exec, execPressureSample, e, State.firstSample_of_running hm]

/-! ### Valid samples (R4 to R6, R10 to R14) -/

/-- A valid sample of a record leaves its disposition (R14). -/
theorem Cylinder.disposition_validSample (c : Cylinder) (p : Nat) (q : CylinderRecord) (th : Thresholds) (tr : Int) :
    (c.validSample p q th tr).disposition = c.disposition := rfl

theorem Cylinder.seeds_iff (c : Cylinder) : c.seeds = true ↔ c.seeded = false ∨ c.streak = 3 := by
  simp [Cylinder.seeds]

/-- The window that a pressure leaves: filled with it where it seeds (R4), and the oldest entry replaced elsewhere (R5). -/
theorem Cylinder.takePressure_seeding {c : Cylinder} (p : Nat) (h : c.seeds = true) :
    (c.takePressure p).window = some { w0 := p, w1 := p, w2 := p, w3 := p } ∧ (c.takePressure p).pos = 0 := by
  simp [Cylinder.takePressure, h, Window.fill]

theorem Cylinder.takePressure_sliding {c : Cylinder} (p : Nat) (h : c.seeds = false) {v : Window} (hv : c.window = some v) :
    (c.takePressure p).window = some (v.put c.pos p) ∧ (c.takePressure p).pos.val = (c.pos.val + 1) % 4 := by
  simp [Cylinder.takePressure, h, hv, Fin.val_add]

theorem effective_eq (qNom phi : Nat) (cond : Condition) :
    effective qNom phi cond = if cond = .full ∨ cond = .low then qNom * phi / 1000 else 0 := by
  cases cond <;> rfl

theorem exec_pressureSample_valid {k : CylIdx} {i : LoopCurrent} {s : State} {c : Cylinder} (hk : s.cyl k = some c)
    (h1 : 3600 ≤ i) (h2 : i ≤ 21000) {new : Cylinder}
    (hn : new = c.validSample (min 4000 ((i - 4000 + 2) / 4)) s.image.cylinders[k] s.image.thresholds
      (s.rackTemp (rackOf k))) :
    exec (.pressureSample k i) s =
      .next (((s.setCyl k (some new)).handOver k true c new).firstSample (.cylinder k)) := by
  simp [exec, execPressureSample, loopPressure_valid h1 h2, State.takeSample, hk, hn]

/-- Settles O14: the stages of R14 in their order, the hand-over leaving what they made. -/
theorem validPressureSample : Obligations.ValidPressureSample := by
  intro k i s c hk h1 h2
  obtain ⟨new, hn⟩ : ∃ new, new = c.validSample (min 4000 ((i - 4000 + 2) / 4)) s.image.cylinders[k] s.image.thresholds
    (s.rackTemp (rackOf k)) := ⟨_, rfl⟩
  obtain ⟨d, hcyl, -⟩ := State.cyl_handOver (s := s.setCyl k (some new)) (k := k) (by rw [State.cyl_setCyl, if_pos rfl])
    true c
  obtain ⟨w, hw, hav⟩ : ∃ w, (c.takePressure (min 4000 ((i - 4000 + 2) / 4))).window = some w ∧
    (c.takePressure (min 4000 ((i - 4000 + 2) / 4))).pAvg = (w.w0 + w.w1 + w.w2 + w.w3) / 4 := ⟨_, rfl, rfl⟩
  refine ⟨_, { new with disposition := d }, w, exec_pressureSample_valid hk h1 h2 hn,
    by rw [State.cyl_firstSample, hcyl], ?_⟩
  dsimp only
  rw [← c.seeds_iff, Bool.not_eq_true, hn]
  refine ⟨hw, fun hs => ?_, fun hs v hv => ?_, rfl, rfl, hav, rfl, fun hx => ?_, fun hs hc => ?_, fun hs hc => ?_,
    effective_eq _ _ _⟩
  · obtain ⟨hw', hp⟩ := c.takePressure_seeding (min 4000 ((i - 4000 + 2) / 4)) hs
    exact ⟨Option.some.inj (hw.symm.trans hw'), hp⟩
  · obtain ⟨hw', hp⟩ := c.takePressure_sliding (min 4000 ((i - 4000 + 2) / 4)) hs hv
    exact ⟨Option.some.inj (hw.symm.trans hw'), hp⟩
  · cases hs : c.seeds with
    | true => simp [Cylinder.validSample, Cylinder.recompute, hs, classify]
    | false =>
      have hf : (c.takePressure (min 4000 ((i - 4000 + 2) / 4))).condition = .full :=
        hx.resolve_left (by simp [hs])
      simp only [Cylinder.validSample, Cylinder.recompute, hs, hf, classifyFrom]
      rfl
  · have hl : (c.takePressure (min 4000 ((i - 4000 + 2) / 4))).condition = .low := hc
    simp only [Cylinder.validSample, Cylinder.recompute, hs, hl, classifyFrom]
    rfl
  · have he : (c.takePressure (min 4000 ((i - 4000 + 2) / 4))).condition = .empty := hc
    simp only [Cylinder.validSample, Cylinder.recompute, hs, he, classifyFrom]
    rfl

/-! ### Rack temperature samples (R9) -/

theorem loopTemperature_valid {i : LoopCurrent} (h1 : 3600 ≤ i) (h2 : i ≤ 21000) :
    loopTemperature i = some (min 850 (((((i - 4000 : Nat) * 1250 + 8000) / 16000 : Nat) : Int) - 400)) := by
  have hv : loopValid i = true := by simp [loopValid, h1, h2]
  have hc : ∀ x : Nat, clampInt (-400) 850 (-400 + ((x * 1250 * 2 + 16000) / (2 * 16000) : Nat)) =
      min 850 ((((x * 1250 + 8000) / 16000 : Nat) : Int) - 400) := fun x => by
    unfold clampInt
    split
    · omega
    · split <;> omega
  rw [loopTemperature, if_pos hv]
  exact congrArg some (hc (i - 4000))

theorem loopTemperature_invalid {i : LoopCurrent} (h : i < 3600 ∨ 21000 < i) : loopTemperature i = none := by
  have hv : ¬ (3600 ≤ i ∧ i ≤ 21000) := fun ⟨h1, h2⟩ => h.elim (Nat.not_lt.2 h1) (Nat.not_lt.2 h2)
  rw [loopTemperature, if_neg (by simpa [loopValid] using hv)]

/-- A rack's stored reading is the Tr used for it, and the readings of the other racks stand (R9). -/
theorem State.takeRackSample_readings (s : State) (r : Rack) (x : Int) :
    (s.takeRackSample r (some x)).rackTemps[r] = some (clampInt (-400) 850 x) ∧
      ∀ q : Rack, q ≠ r → (s.takeRackSample r (some x)).rackTemps[q] = s.rackTemps[q] := by
  refine ⟨?_, fun q hq => ?_⟩
  · simp [State.takeRackSample]
  · have hne : (r : Nat) ≠ q := fun e => hq (Fin.ext e.symm)
    simp [State.takeRackSample, Vector.getElem_set_ne, hne]

/-- Settles O17: a valid reading is in the range that a stored Tr is limited to, and nothing else of the state is written. -/
theorem rackTemperatureSample : Obligations.RackTemperatureSample := by
  intro r i s hm
  have hmt : ∀ x, (s.takeRackSample r x).mode = s.mode := fun x => by simp [State.mode]
  refine ⟨_, rfl, ?_⟩
  rw [State.firstSample_of_running ((hmt _).symm ▸ hm)]
  by_cases hv : 3600 ≤ i ∧ i ≤ 21000
  · obtain ⟨h1, h2⟩ := hv
    rw [loopTemperature_valid h1 h2]
    have hc : ∀ x : Nat, clampInt (-400) 850 (min 850 ((x : Int) - 400)) = min 850 ((x : Int) - 400) := fun x => by
      unfold clampInt
      split
      · omega
      · split <;> omega
    obtain ⟨hr, hq⟩ := s.takeRackSample_readings r
      (min 850 (((((i - 4000 : Nat) * 1250 + 8000) / 16000 : Nat) : Int) - 400))
    rw [hc] at hr
    exact ⟨fun _ _ => ⟨hr, _, hr, by rw [State.rackTemp, hr]; rfl⟩,
      fun h => (h.elim (Nat.not_lt.2 h1) (Nat.not_lt.2 h2)).elim, hq, rfl⟩
  · have hi : i < 3600 ∨ 21000 < i := by
      by_contra hn
      exact hv ⟨Nat.not_lt.1 fun h => hn (.inl h), Nat.not_lt.1 fun h => hn (.inr h)⟩
    rw [loopTemperature_invalid hi]
    exact ⟨fun h1 h2 => absurd ⟨h1, h2⟩ hv, fun _ => rfl, fun _ _ => rfl, rfl⟩


/-! ### A cylinder lost short of FIRING (R18, R20, R57) -/

theorem State.setDisposition_eq {s : State} {k : CylIdx} {c : Cylinder} (hk : s.cyl k = some c) (d : Disposition) :
    s.setDisposition k d = s.setCyl k (some { c with disposition := d }) := by
  simp only [State.setDisposition, State.updCyl, hk, Option.map_some]

/-- The schedule of the lines that a list of cylinders is laid into (R88, R89). -/
theorem buildSchedule_eq (alloc : List Entry) : buildSchedule alloc =
    { lines := (lay (alloc.map (·.cyl))).map newLine, cursor := 0, outstanding := 0 } := rfl

theorem Claim.rescheduled_eq (c : Claim) (before : List Entry) : c.rescheduled before =
    { c with
      schedule := if c.state = .selecting ∧ c.allocation.map (·.cyl) ≠ before.map (·.cyl)
        then some (buildSchedule c.allocation)
        else c.schedule } := by
  unfold Claim.rescheduled
  split <;> rfl

theorem State.selectorReading_congr {s t : State} (h : Hall) (hi : t.inputs = s.inputs) (hs : t.store = s.store) :
    t.selectorReading h = s.selectorReading h := by
  unfold State.selectorReading State.hallRec
  rw [hi, hs]

/-- What a removal leaves alone, of the halls and of the state (R18, R20). -/
theorem State.removal_others (s : State) (h : Hall) (k : CylIdx) :
    (∀ j, j ≠ h → (s.removal h k).claim j = s.claim j ∧ (s.removal h k).port j = s.port j ∧
      (s.removal h k).unit j = s.unit j) ∧
      s.removal h k = { s with
        cyls := (s.removal h k).cyls, claims := (s.removal h k).claims, units := (s.removal h k).units
        ports := (s.removal h k).ports, manifold := (s.removal h k).manifold
        captures := (s.removal h k).captures, circuits := (s.removal h k).circuits } := by
  refine ⟨fun j hj => ⟨by simp [State.claim, hj], by simp [State.port, hj], by simp [State.unit, hj]⟩, ?_⟩
  refine State.eq_of_fields ?_ ?_ ?_ ?_ ?_ rfl ?_ rfl rfl ?_ ?_ rfl rfl ?_ rfl rfl ?_ <;> simp

/-- Starvation, by the state that the claim is in (R54, R57). -/
theorem State.starve_cases {s : State} {h : Hall} {c : Claim} (hc : s.claim h = some c) :
    ∃ c', (s.starve h).claim h = some c' ∧
      (c.state = .countdown ∨ c.state = .hold → c' = { c with flags := { c.flags with starved := true } } ∧
        (s.starve h).unit h = s.unit h ∧ (s.starve h).manifold = s.manifold) ∧
      (c.state = .waiting → c' = c.outOfWait ∧ (s.starve h).unit h = s.unit h ∧ (s.starve h).manifold =
        { s.manifold with waitList := s.manifold.waitList.filter fun w => w.hall ≠ h }) ∧
      (c.state = .selecting → c' = { c.outOfWait with schedule := none } ∧ (s.starve h).unit h = .inhibited ∧
        (s.manifold.lastHall = some h → GrantWithdrawn s (s.starve h) h)) := by
  by_cases hw : c.state = .waiting
  · obtain ⟨h1, h2, h3, -⟩ := State.starve_of_waiting hc hw
    exact ⟨_, h1, fun e => by simp [hw] at e, fun _ => ⟨rfl, State.unit_of_units h2 h, h3⟩, fun e => by simp [hw] at e⟩
  by_cases he : c.state = .selecting
  · obtain ⟨h1, h2, h3⟩ := State.starve_of_selecting hc he
    exact ⟨_, h1, fun e => by simp [he] at e, fun e => absurd e hw, fun _ => ⟨rfl, h2, h3⟩⟩
  rw [State.starve_of_waitless hc hw he]
  exact ⟨_, by rw [State.claim_updClaim_self, hc]; rfl, fun _ => ⟨rfl, rfl, rfl⟩, fun e => absurd e hw,
    fun e => absurd e he⟩

/-- Cylinder `k` lost by a claim short of FIRING, from a state `s1` that is `s` with that cylinder put out of the pool (R42,
R57, R78, R80 to R83, R89). -/
theorem removed_removal {s s1 : State} {h : Hall} {k : CylIdx} {cl : Claim} (p : SamePool s s1)
    (hs1 : s1 = { s with cyls := s1.cyls, circuits := s1.circuits }) (hcyl : ∀ j, j ≠ k → s1.cyl j = s.cyl j)
    (hc : s.claim h = some cl) (hs : cl.state.toppedUp = true) :
    ∃ cl', (s1.removal h k).claim h = some cl' ∧ Removed s (s1.removal h k) h k cl cl' ∧
      (cl.state = .selecting →
        (cl.allocation.filter fun e => e.cyl ≠ k) ++
          s.toppedUpWith (cl.holding (cl.allocation.filter fun e => e.cyl ≠ k)) = [] →
        cl' = { (cl.changedTo false (cl.allocation.filter fun e => e.cyl ≠ k)).outOfWait with schedule := none }) := by
  have hc1 : s1.claim h = some cl := by rw [hs1]; exact hc
  have hport : s1.ports = s.ports := by rw [hs1]
  have hunits : s1.units = s.units := by rw [hs1]
  have hmf : s1.manifold = s.manifold := by rw [hs1]
  have hinp : s1.inputs = s.inputs := by rw [hs1]
  have hsto : s1.store = s.store := by rw [hs1]
  have a := answered_answerLoss (h := h) p (by rw [State.port, State.port, hport]) hc1 hs
    (cl.allocation.filter fun e => e.cyl ≠ k)
  rw [← State.removal_eq hc1] at a
  obtain ⟨hoth, hst⟩ := s1.removal_others h k
  have others : (∀ j, j ≠ h → (s1.removal h k).claim j = s.claim j ∧ (s1.removal h k).port j = s.port j ∧
      (s1.removal h k).unit j = s.unit j) ∧
      (s1.removal h k).port h = { s.port h with latches := ((s1.removal h k).port h).latches } ∧
      s1.removal h k = { s with
        cyls := (s1.removal h k).cyls, claims := (s1.removal h k).claims, units := (s1.removal h k).units
        ports := (s1.removal h k).ports, manifold := (s1.removal h k).manifold
        captures := (s1.removal h k).captures, circuits := (s1.removal h k).circuits } := by
    refine ⟨fun j hj => ?_, a.port, ?_⟩
    · obtain ⟨h1, h2, h3⟩ := hoth j hj
      exact ⟨by rw [h1, hs1]; rfl, by rw [h2, hs1]; rfl, by rw [h3, hs1]; rfl⟩
    · rw [hs1] at hst ⊢
      exact hst
  obtain ⟨hlat, -, hasg, hcyls, hsup, hsta⟩ := a
  have hcl : ∀ j, j ≠ k → (∀ e ∈ s.toppedUpWith (cl.holding (cl.allocation.filter fun e => e.cyl ≠ k)), e.cyl ≠ j) →
      (s1.removal h k).cyl j = s.cyl j := fun j hj hjt => (hcyls j hjt).trans (hcyl j hj)
  by_cases hne : (cl.allocation.filter fun e => e.cyl ≠ k) ++
      s.toppedUpWith (cl.holding (cl.allocation.filter fun e => e.cyl ≠ k)) = []
  · have hst2 := hsta hne
    have ht := ClaimState.terminal_of_toppedUp hs
    have htn := (List.append_eq_nil_iff.1 hne).2
    have hc2 : (s1.reallocate h false (cl.allocation.filter fun e => e.cyl ≠ k)).claim h =
        some (cl.changedTo false (cl.allocation.filter fun e => e.cyl ≠ k)) := by
      rw [State.claim_reallocate _ _ _ _ _ hc1, Claim.reflag_eq_changedTo _ _ _ ht]
    rw [htn] at hlat hasg hcl hne
    have key : ∃ cl', (s1.removal h k).claim h = some cl' ∧
        (cl.state = .countdown ∨ cl.state = .hold →
          cl' = { cl.changedTo false (cl.allocation.filter fun e => e.cyl ≠ k) with
            flags := { (cl.changedTo false (cl.allocation.filter fun e => e.cyl ≠ k)).flags with starved := true } } ∧
          (s1.removal h k).unit h = s.unit h ∧ (s1.removal h k).manifold = s.manifold) ∧
        (cl.state = .waiting →
          cl' = (cl.changedTo false (cl.allocation.filter fun e => e.cyl ≠ k)).outOfWait ∧
          (s1.removal h k).unit h = s.unit h ∧ (s1.removal h k).manifold =
            { s.manifold with waitList := s.manifold.waitList.filter fun w => w.hall ≠ h }) ∧
        (cl.state = .selecting →
          cl' = { (cl.changedTo false (cl.allocation.filter fun e => e.cyl ≠ k)).outOfWait with schedule := none } ∧
          (s1.removal h k).unit h = .inhibited ∧
          (s.manifold.lastHall = some h → GrantWithdrawn s (s1.removal h k) h)) := by
      obtain ⟨cl', h1, h2, h3, h4⟩ := State.starve_cases hc2
      have hu : (s1.reallocate h false (cl.allocation.filter fun e => e.cyl ≠ k)).unit h = s.unit h :=
        State.unit_of_units (by simpa using hunits) h
      have hm2 : (s1.reallocate h false (cl.allocation.filter fun e => e.cyl ≠ k)).manifold = s.manifold := by
        simpa using hmf
      rw [hst2]
      rw [hu, hm2] at h2
      rw [hu, hm2] at h3
      rw [hm2] at h4
      refine ⟨cl', h1, h2, h3, fun hse => ?_⟩
      obtain ⟨e, hi, g⟩ := h4 hse
      exact ⟨e, hi, fun hl => (g hl).congr (State.selectorReading_congr h (by simpa using hinp.symm) (by simpa using hsto.symm))⟩
    obtain ⟨cl', hcl', hcd, hw, hse⟩ := key
    refine ⟨cl', hcl', ⟨?_, others⟩, fun e _ => (hse e).1⟩
    dsimp only
    rw [htn]
    refine ⟨hlat, hasg, hcl, fun e => absurd hne e, fun _ => ⟨hcd, hw, fun e hl => ?_⟩⟩
    obtain ⟨he, hi, hg⟩ := hse e
    exact ⟨he, hi, hg hl⟩
  · obtain ⟨hcl', hu, hm, -, -⟩ := hsup hne
    obtain ⟨f1, f2, f3, -⟩ := s.committed_fields (cl.changedTo false (cl.allocation.filter fun e => e.cyl ≠ k))
      (s.toppedUpWith (cl.holding (cl.allocation.filter fun e => e.cyl ≠ k)))
    refine ⟨_, hcl', ⟨⟨hlat, hasg, hcl, fun _ => ⟨?_, hm.trans hmf, ?_⟩, fun e => absurd e hne⟩, others⟩,
      fun _ e => absurd e hne⟩
    · rw [State.unit_of_units hu, State.unit_of_units hunits]
    · rw [Claim.rescheduled_eq, f1, f2, f3, buildSchedule_eq]
      rfl


/-! ### A valid sample handed over (R14, R18, R24) -/

/-- A valid sample never makes an EMPTY cylinder UNREAD (R4, R13). -/
theorem Cylinder.condition_validSample (c : Cylinder) (p : Nat) (q : CylinderRecord) (th : Thresholds) (tr : Int)
    (h : c.condition = .empty) : (c.validSample p q th tr).condition ≠ .unread := by
  have hf : (c.takePressure p).condition = .empty := h
  simp only [Cylinder.validSample, Cylinder.recompute, hf, classify, classifyFrom]
  (repeat' split) <;> simp

/-- The POOL GAIN that a sample of a FREE cylinder calls for (R24). -/
theorem gains_of_free {c new : Cylinder} (hc : c.disposition = .free) (hn : new.disposition = .free)
    (he : c.condition = .empty → new.condition ≠ .unread) :
    gains (some c) (some new) =
      decide ((c.condition = .empty ∨ c.condition = .unread) ∧ (new.condition = .low ∨ new.condition = .full)) := by
  cases h1 : c.condition <;> cases h2 : new.condition <;> simp_all [gains, eligibleRecord, unreadRecord]

/-- A cylinder of a claim that a sample makes EMPTY is out of the pool while it is ASSIGNED and once it is FREE (R18, R24). -/
theorem samePool_becomesEmpty {s : State} {k : CylIdx} {c new : Cylinder} {h : Hall} (hk : s.cyl k = some c)
    (hc : c.disposition = .assigned h) (hn : new.disposition = .assigned h) (he : new.condition = .empty) :
    SamePool s ((s.setCyl k (some new)).setDisposition k .free) ∧
      ((s.setCyl k (some new)).setDisposition k .free).cyl k = some { new with disposition := .free } := by
  have hk1 : (s.setCyl k (some new)).cyl k = some new := by rw [State.cyl_setCyl, if_pos rfl]
  have h1 : SamePool s (s.setCyl k (some new)) :=
    .setCyl ((State.eligible_of_cyl hk).trans (eligibleRecord_assigned hc)) (eligibleRecord_assigned hn)
  rw [State.setDisposition_eq hk1]
  refine ⟨h1.trans (.setCyl ((State.eligible_of_cyl hk1).trans (eligibleRecord_assigned hn)) ?_), ?_⟩
  · simp [eligibleRecord, he]
  · rw [State.cyl_setCyl, if_pos rfl]

/-- A claim that has lost cylinder `k` does not take it back, while it is not eligible (R74). -/
theorem kept_ne_of_ineligible {s : State} {k : CylIdx} {cl : Claim} (hk : s.eligible k = false) :
    ∀ e ∈ (cl.allocation.filter fun e => e.cyl ≠ k) ++
      s.toppedUpWith (cl.holding (cl.allocation.filter fun e => e.cyl ≠ k)), e.cyl ≠ k := by
  intro e he
  rcases List.mem_append.1 he with h | h
  · simpa using (List.mem_filter.1 h).2
  · exact State.not_mem_takenList hk e (State.mem_toppedUpWith h)

/-- Settles O16: by the disposition of the cylinder, then by the state of its owner's claim. -/
theorem sampleHandedOver : Obligations.SampleHandedOver := by
  intro k i s c hk h1 h2 hm
  obtain ⟨new, hn⟩ : ∃ new, new = c.validSample (min 4000 ((i - 4000 + 2) / 4)) s.image.cylinders[k] s.image.thresholds
    (s.rackTemp (rackOf k)) := ⟨_, rfl⟩
  obtain ⟨t, ht⟩ : ∃ t, t = (s.setCyl k (some new)).handOver k true c new := ⟨_, rfl⟩
  have hd : new.disposition = c.disposition := by rw [hn]; rfl
  have hex := exec_pressureSample_valid hk h1 h2 hn
  have hmode : t.mode = s.mode := by
    rw [ht]
    simp [State.mode]
  have hk1 : (s.setCyl k (some new)).cyl k = some new := by rw [State.cyl_setCyl, if_pos rfl]
  obtain ⟨d, hcyl, hdd⟩ := State.cyl_handOver hk1 true c
  rw [← ht] at hex hcyl
  rw [State.firstSample_of_running (hmode.symm ▸ hm)] at hex
  have hown : ∀ h cl, c.disposition = .assigned h → s.claim h = some cl →
      t = if new.condition = .empty ∧ cl.state.toppedUp = true then
          ((s.setCyl k (some new)).setDisposition k .free).removal h k
        else if new.e ≠ c.e then (s.setCyl k (some new)).handE h k c.e new.e else s.setCyl k (some new) := by
    intro h cl hh hc
    have hc' : (s.setCyl k (some new)).claim h = some cl := hc
    rw [ht, State.handOver_assigned (hd.trans hh) hc']
    simp
  refine ⟨t, { new with disposition := d }, hex, hcyl, fun hf => ?_, fun h cl hh hc hst he => ?_,
    fun h cl hh hc hst he hne => ?_, fun h cl hh hc hst => ?_⟩
  · have hg := gains_of_free hf (hd.trans hf) (fun e => hn ▸ c.condition_validSample _ _ _ _ e)
    have ht' := ht.trans (State.handOver_unassigned (by simp [hd, hf]) k true c)
    refine ⟨?_, ?_, fun j hj => by rw [ht', State.cyl_poolGainIf, State.cyl_setCyl_of_ne _ hj], ?_⟩
    · exact hdd.elim (fun e => e.trans (hd.trans hf)) fun e => e.2.2
    · rw [ht', hg]
      unfold State.poolGainIf
      split <;> simp_all
    · rw [ht']
      unfold State.poolGainIf
      split <;> rfl
  · have htp := ClaimState.toppedUp_iff.2 hst
    have ht' := hown h cl hh hc
    rw [if_pos ⟨he, htp⟩] at ht'
    obtain ⟨hp, hk2⟩ := samePool_becomesEmpty hk hh (hd.trans hh) he
    obtain ⟨cl', hcl', hr, hsel⟩ := removed_removal (h := h) hp (by rw [State.setDisposition_eq hk1]; rfl) (fun j hj => by
      rw [State.cyl_setDisposition, if_neg hj, State.cyl_setCyl_of_ne _ hj]) hc htp
    have hk3 := State.cyl_removal_of_ineligible _ h k k
      ((State.eligible_of_cyl hk2).trans (by simp [eligibleRecord, show new.condition = .empty from he]))
    rw [← ht'] at hr hcl' hk3
    rw [hk2, hcyl] at hk3
    have hdf : d = .free := congrArg Cylinder.disposition (Option.some.inj hk3)
    refine ⟨hdf, cl', hcl', ?_⟩
    obtain ⟨⟨hlat, hasg, -, hsup, hsta⟩, -⟩ := hr
    -- what a claim keeps of the change and of its top-up, whether it goes on or starves
    obtain ⟨f1, f2, f3, -, -, -⟩ := s.committed_fields (cl.changedTo false (cl.allocation.filter fun e => e.cyl ≠ k))
      (s.toppedUpWith (cl.holding (cl.allocation.filter fun e => e.cyl ≠ k)))
    obtain ⟨g1, g2⟩ := s.committed_sums (cl.changedTo false (cl.allocation.filter fun e => e.cyl ≠ k))
      (s.toppedUpWith (cl.holding (cl.allocation.filter fun e => e.cyl ≠ k))) rfl rfl
    by_cases hne : (cl.allocation.filter fun e => e.cyl ≠ k) ++
        s.toppedUpWith (cl.holding (cl.allocation.filter fun e => e.cyl ≠ k)) = []
    · have htn := (List.append_eq_nil_iff.1 hne).2
      obtain ⟨hcd, hw, hse⟩ := hsta hne
      have hsel := fun e => hsel e hne
      have hln := (List.append_eq_nil_iff.1 hne).1
      rw [htn, State.committed_nil] at hcd hw hse
      have hcl : cl'.allocation = [] ∧ cl'.allocatedSum = sumE [] ∧ cl'.shortage = cl.figures.req - sumE [] ∧
          cl'.flags = { (cl.changedTo false (cl.allocation.filter fun e => e.cyl ≠ k)).flags with starved := true } := by
        rw [hln] at hcd hw hsel ⊢
        rcases hst with h | h | h | h
        · rw [(hcd (.inl h)).1]
          exact ⟨rfl, rfl, rfl, rfl⟩
        · rw [(hcd (.inr h)).1]
          exact ⟨rfl, rfl, rfl, rfl⟩
        · rw [(hw h).1]
          exact ⟨rfl, rfl, rfl, rfl⟩
        · rw [hsel h]
          exact ⟨rfl, rfl, rfl, rfl⟩
      obtain ⟨f1, f2, f3, f4⟩ := hcl
      have f5 : cl'.flags.starved = true := by rw [f4]
      refine ⟨by simp [f1], ?_, by rw [f1, f2], by rw [f2, f3], hasg, ⟨?_, hlat⟩, fun e => absurd f1 e, fun _ => ⟨f5, ?_, ?_, ?_⟩⟩
      · rw [f1]
        exact hne.symm
      · rw [if_pos f1, htn, f4]
        rfl
      · intro e
        obtain ⟨rfl, hu, -⟩ := hcd e
        exact ⟨rfl, hu⟩
      · intro e
        obtain ⟨rfl, -, hm⟩ := hw e
        refine ⟨rfl, rfl, fun w hw => ?_⟩
        rw [hm] at hw
        simpa using (List.mem_filter.1 hw).2
      · intro e hl
        obtain ⟨rfl, hi, hg⟩ := hse e hl
        exact ⟨rfl, rfl, rfl, hi, hg⟩
    · obtain ⟨hu, -, rfl⟩ := hsup hne
      have hka := kept_ne_of_ineligible (s := s) (cl := cl)
        ((State.eligible_of_cyl hk).trans (eligibleRecord_assigned hh))
      refine ⟨fun e he => hka e (f1 ▸ he), f1, g1.trans (by rw [f1]), g2.trans (by rw [g1]; rfl), hasg,
        ⟨(if_neg (by rw [f1]; exact hne)).symm, hlat⟩, fun _ => ⟨f2, fun hs he => ?_⟩, fun h => absurd (f1.symm.trans h) hne⟩
      have hlist : ((cl.allocation.filter fun e => e.cyl ≠ k) ++
          s.toppedUpWith (cl.holding (cl.allocation.filter fun e => e.cyl ≠ k))).map (·.cyl) ≠
            cl.allocation.map (·.cyl) := by
        obtain ⟨e, hem, rfl⟩ := he
        intro hmap
        obtain ⟨x, hx, hxe⟩ := List.mem_map.1 (hmap ▸ List.mem_map_of_mem hem : e.cyl ∈ _)
        exact hka x hx hxe
      dsimp only
      rw [if_pos ⟨hs, hlist⟩, f1]
      rfl
  · have ht' := hown h cl hh hc
    rw [if_neg fun x => he x.1] at ht'
    have hd2 : d = .assigned h := by
      rcases hdd with e | e
      · exact e.trans (hd.trans hh)
      · exact absurd e.2.1 he
    refine ⟨hd2, fun e => ?_, fun e => ?_⟩
    · rw [ht', if_neg (not_not.2 e)]
      rfl
    · rw [ht', if_pos e]
      exact handed_handE hk hh (hd.trans hh) hc (ClaimState.toppedUp_iff.2 hst) hne
  · have ht' := hown h cl hh hc
    rw [if_neg (by simp [hst, ClaimState.toppedUp])] at ht'
    have hd4 : d = .assigned h := by
      have hin := (State.eligible_of_cyl hk1).trans (eligibleRecord_assigned (hd.trans hh))
      have hk3 : t.cyl k = some new := by
        rw [ht']
        split
        · rw [State.cyl_handE_of_ineligible _ _ _ _ _ _ hin, hk1]
        · exact hk1
      exact (congrArg Cylinder.disposition (Option.some.inj (hcyl.symm.trans hk3))).trans (hd.trans hh)
    refine ⟨hd4, ?_⟩
    by_cases e : new.e = c.e
    · rw [if_neg (not_not.2 e)] at ht'
      rw [ht']
      dsimp only
      rw [e]
      exact ⟨cl, hc, handedFiring_setCyl s h k new c.e hst⟩
    · rw [if_pos e] at ht'
      rw [ht']
      exact handedFiring_handE hc hst e


end Sys2Proof.Machine
end


-- ==== Sys2Proof/Proofs/Supervision.lean ====
section
/-! PROOFS. Supervision checks of CYLINDER channels: the fault at the cylinder, and the loss at its owner. -/

namespace Sys2Proof.Machine

/-! ### The replacement run (R80, R91, R92) -/

/-- What the replacement run takes for the loss of cylinder `k` (R91). -/
def State.replacedWith (s : State) (h : Hall) (k : CylIdx) (cl : Claim) : List Entry :=
  s.takenList (.replacement (s.entryE h k)) { cl with allocation := cl.allocation.filter fun e => e.cyl ≠ k }

/-- A replacement run reads nothing of the flags and the sums (R91). -/
theorem State.takenList_replacement_changedTo (s : State) (debt : Nat) (c : Claim) (left : List Entry) :
    s.takenList (.replacement debt) (c.changedTo false left) =
      s.takenList (.replacement debt) { c with allocation := left } := s.takenList_congr_claim rfl rfl rfl

/-- A replacement run, its taken list committed and laid into new lines at the end of the schedule (R91, R92). -/
theorem State.claim_replace {s : State} {h : Hall} {c : Claim} (hc : s.claim h = some c)
    (ht : c.state.terminal = false) (debt : Nat) :
    (s.replace h debt).claim h = some { s.committed c (s.takenList (.replacement debt) c) with
      schedule := c.schedule.map fun sc => { sc with
        lines := sc.lines ++ (lay ((s.takenList (.replacement debt) c).map (·.cyl))).map newLine } } := by
  have h1 := (s.committed_fields c (s.takenList (.replacement debt) c)).2.2.1
  simp only [State.replace, hc, State.claim_updClaim_self, s.claim_commit h _ c hc ht, Option.map_some, h1]

/-- A replacement run reaches the port and the cylinders by its commit alone (R91). -/
theorem State.replace_fields {s : State} {h : Hall} {c : Claim} (hc : s.claim h = some c) (debt : Nat) :
    (s.replace h debt).ports = (s.commit h (s.takenList (.replacement debt) c)).ports ∧
      (s.replace h debt).cyls = (s.commit h (s.takenList (.replacement debt) c)).cyls := by
  simp only [State.replace, hc]
  exact ⟨rfl, rfl⟩

/-- What a replacement leaves alone, of the halls and of the state (R91). -/
theorem State.replaced_others (s : State) (h : Hall) (k : CylIdx) (debt : Nat) :
    (∀ j, j ≠ h → ((s.dropEntry h k).replace h debt).claim j = s.claim j ∧
      ((s.dropEntry h k).replace h debt).port j = s.port j) ∧
      (s.dropEntry h k).replace h debt = { s with
        cyls := ((s.dropEntry h k).replace h debt).cyls, claims := ((s.dropEntry h k).replace h debt).claims
        ports := ((s.dropEntry h k).replace h debt).ports
        circuits := ((s.dropEntry h k).replace h debt).circuits } := by
  refine ⟨fun j hj => ⟨by simp [State.claim, hj], by simp [State.port, hj]⟩, ?_⟩
  refine State.eq_of_fields ?_ ?_ ?_ ?_ ?_ rfl ?_ rfl ?_ ?_ ?_ ?_ rfl ?_ ?_ rfl ?_ <;> simp

/-- Cylinder `k` lost by a claim in FIRING, from a state `s1` that is `s` with that cylinder put out of the pool (R20, R21,
R42, R91, R92). -/
theorem replaced_replace {s s1 : State} {h : Hall} {k : CylIdx} {cl : Claim} (p : SamePool s s1)
    (hs1 : s1 = { s with cyls := s1.cyls, circuits := s1.circuits }) (hcyl : ∀ j, j ≠ k → s1.cyl j = s.cyl j)
    (hc : s.claim h = some cl) (hs : cl.state = .firing) :
    ∃ cl', ((s1.dropEntry h k).replace h (s.entryE h k)).claim h = some cl' ∧
      Replaced s ((s1.dropEntry h k).replace h (s.entryE h k)) h k cl cl' := by
  have ht : cl.state.terminal = false := by rw [hs]; rfl
  have hc1 : s1.claim h = some cl := by rw [hs1]; exact hc
  have hp1 : s1.port h = s.port h := by rw [hs1]; rfl
  have hd := State.dropEntry_eq hc1 k
  have hc2 : (s1.dropEntry h k).claim h = some (cl.changedTo false (cl.allocation.filter fun e => e.cyl ≠ k)) := by
    rw [hd, State.claim_reallocate _ _ _ _ _ hc1, Claim.reflag_eq_changedTo _ _ _ ht]
  have p2 : SamePool s (s1.dropEntry h k) := by
    rw [hd]
    exact p.trans (.of_eq (by simp) (by simp))
  have htk : (s1.dropEntry h k).takenList (.replacement (s.entryE h k))
      (cl.changedTo false (cl.allocation.filter fun e => e.cyl ≠ k)) = s.replacedWith h k cl := by
    rw [p2.takenList, State.takenList_replacement_changedTo, State.replacedWith]
  have hcand : ∀ e ∈ s.replacedWith h k cl, ∃ cond, s.candidate cond e.cyl = some e := fun e he =>
    State.candidate_of_mem_takenList he
  have hcl := State.claim_replace hc2 ht (s.entryE h k)
  obtain ⟨hrp, hrc⟩ := State.replace_fields hc2 (s.entryE h k)
  rw [htk] at hcl hrp hrc
  rw [p2.committed _ hcand] at hcl
  have hpr : ((s1.dropEntry h k).replace h (s.entryE h k)).port h =
      ((s1.dropEntry h k).commit h (s.replacedWith h k cl)).port h := by rw [State.port, State.port, hrp]
  have hcy : ∀ j, ((s1.dropEntry h k).replace h (s.entryE h k)).cyl j =
      ((s1.dropEntry h k).commit h (s.replacedWith h k cl)).cyl j := fun j => by
    rw [State.cyl, State.cyl, hrc]
  have hdp : LatchesOnly s (s1.dropEntry h k) h := by
    rw [hd]
    exact (LatchesOnly.of_eq hp1).trans (latchesOnly_reallocate s1 h false _)
  have hdc : ∀ j, (s1.dropEntry h k).cyl j = s1.cyl j := fun j => by rw [hd, State.cyl_reallocate]
  obtain ⟨hoth, hst⟩ := s1.replaced_others h k (s.entryE h k)
  refine ⟨_, hcl, ⟨⟨rfl, fun l => ?_, fun e he => ?_, fun j hj hjt => ?_⟩, fun j hj => ?_, ?_, ?_⟩⟩
  · have a := (s1.latchAsked_reallocate h false (cl.allocation.filter fun e => e.cyl ≠ k) cl hc1 ht l).congr hp1.symm rfl
    rw [← hd] at a
    have b := State.latchAsked_commit _ h (s.replacedWith h k cl) _ hc2 ht l
    rw [p2.commitAsks _ hcand] at b
    exact (a.trans b).congr rfl hpr
  · obtain ⟨cond, hcd⟩ := hcand e he
    obtain ⟨-, -, y, hy, -⟩ := State.candidate_spec _ _ _ _ ((p2.candidates cond e.cyl).trans hcd)
    have hx := State.assignedTo_commit hc2 he ⟨y, hy⟩
    rw [State.assignedTo] at hx ⊢
    rwa [hcy]
  · have hn : ∀ e ∈ s.replacedWith h k cl, e.cyl ≠ j := hjt
    rw [hcy, State.cyl_commit _ h _ _ hc2, if_neg (by simpa using hn), hdc, hcyl j hj]
  · obtain ⟨h1, h2⟩ := hoth j hj
    exact ⟨by rw [h1, hs1]; rfl, by rw [h2, hs1]; rfl⟩
  · exact (hdp.trans (latchesOnly_commit _ h _)).trans (.of_eq hpr)
  · rw [hs1] at hst ⊢
    exact hst

/-! ### Checks of CYLINDER channels (R20, R22, R153) -/

/-- A check of a de-energised channel classes the quiescent resistance of its line (R153). -/
theorem checkResult_quiescent {ch : Channel} (he : ch.energised = false) (m : LineMeasurement) :
    checkResult ch m = classifyQuiescent m := by simp [checkResult, he]

theorem classifyQuiescent_bad {m : LineMeasurement} (h : m.resistance < 250 ∨ 4000 < m.resistance) :
    classifyQuiescent m = .opened ∨ classifyQuiescent m = .shorted := by
  unfold classifyQuiescent
  split
  · exact .inr rfl
  · rename_i hl
    exact .inl (if_pos (h.resolve_left hl))

theorem classifyQuiescent_good {m : LineMeasurement} (h1 : 250 ≤ m.resistance) (h2 : m.resistance ≤ 4000) :
    classifyQuiescent m = .normal := by
  rw [classifyQuiescent, if_neg (Nat.not_lt.2 h1), if_neg (Nat.not_lt.2 h2)]

/-- A check of a CYLINDER channel with no pulse in progress: the channel's record, then the cylinder's (R20, R22, R153). -/
theorem State.superviseChannel_cylinder {s : State} {c : ChanIdx} {k : CylIdx} (hr : s.role c = .cylinder k)
    (hp : (s.channel c).pulse = none) (he : (s.channel c).energised = false) (m : LineMeasurement) :
    (m.resistance < 250 ∨ 4000 < m.resistance →
      ∃ ch, s.superviseChannel c m = (s.setChannel c ch).actuatorFaulted k) ∧
    (250 ≤ m.resistance → m.resistance ≤ 4000 → (s.channel c).goodChecks = 2 →
      ∃ ch, s.superviseChannel c m = (s.setChannel c ch).actuatorGood k) := by
  have e : s.superviseChannel c m = (s.setChannel c ((s.channel c).checked (classifyQuiescent m))).handCheck
      (.cylinder k) (classifyQuiescent m) (thirdGoodCheck (s.channel c) (classifyQuiescent m)) := by
    simp [State.superviseChannel, hr, hp, checkResult_quiescent he]
  rw [e]
  refine ⟨fun hb => ⟨(s.channel c).checked (classifyQuiescent m), ?_⟩,
    fun h1 h2 hg => ⟨(s.channel c).checked (classifyQuiescent m), ?_⟩⟩
  · simp only [State.handCheck]
    rw [if_pos (classifyQuiescent_bad hb)]
  · simp [State.handCheck, classifyQuiescent_good h1 h2, thirdGoodCheck, hg]

theorem State.cyl_setChannel (s : State) (c : ChanIdx) (ch : Channel) (k : CylIdx) :
    (s.setChannel c ch).cyl k = s.cyl k := rfl

/-- A cylinder ASSIGNED that becomes faulty is out of the pool before and after (R20, R24). -/
theorem samePool_actuatorFault {s : State} {k : CylIdx} {y : Cylinder} {h : Hall} (hk : s.cyl k = some y)
    (hy : y.disposition = .assigned h) (cause : FaultCause) :
    SamePool s (s.setDisposition k (.actuatorFault cause)) := by
  rw [State.setDisposition_eq hk]
  exact .setCyl ((State.eligible_of_cyl hk).trans (eligibleRecord_assigned hy)) (by simp [eligibleRecord])


/-- The fault at a cylinder that no hall owns: a FREE one is in ACTUATOR_FAULT, any other stays as it is (R20). -/
theorem State.actuatorFaulted_unowned {s : State} {k : CylIdx} {y : Cylinder} (hk : s.cyl k = some y)
    (hu : ∀ h, y.disposition ≠ .assigned h) :
    s.actuatorFaulted k =
      if y.disposition = .free then s.setDisposition k (.actuatorFault .supervision) else s := by
  cases hd : y.disposition with
  | assigned h => exact absurd hd (hu h)
  | free => simp [State.actuatorFaulted, hk, hd]
  | fired => simp [State.actuatorFaulted, hk, hd]
  | actuatorFault x => simp [State.actuatorFaulted, hk, hd]
  | isolated => simp [State.actuatorFaulted, hk, hd]

/-- The fault at a cylinder with an owner (R20). -/
theorem State.actuatorFaulted_owned {s : State} {k : CylIdx} {y : Cylinder} {h : Hall} {cl : Claim}
    (hk : s.cyl k = some y) (hy : y.disposition = .assigned h) (hc : s.claim h = some cl) :
    s.actuatorFaulted k =
      if cl.state = .firing then
        ((s.setDisposition k (.actuatorFault .supervision)).dropEntry h k).replace h (s.entryE h k)
      else (s.setDisposition k (.actuatorFault .supervision)).removal h k := by
  have hc2 : (s.setDisposition k (.actuatorFault .supervision)).claim h = some cl := by
    simpa [State.claim] using hc
  have hE : (s.setDisposition k (.actuatorFault .supervision)).entryE h k = s.entryE h k := by
    simp only [State.entryE, hc, hc2]
  simp only [State.actuatorFaulted, hk, hy, State.lostToFault, hc2, hE]

/-- Away from the four states a removal drops the entry, and no more (R82). -/
theorem State.removal_of_not_toppedUp {s : State} {h : Hall} {cl : Claim} (hc : s.claim h = some cl)
    (hs : cl.state.toppedUp = false) (k : CylIdx) :
    s.removal h k = s.reallocate h false (cl.allocation.filter fun e => e.cyl ≠ k) := by
  have hc2 := State.claim_reallocate s h false (cl.allocation.filter fun e => e.cyl ≠ k) cl hc
  rw [State.removal_eq hc, State.answerLoss_of_not_toppedUp hc2 (by exact hs)]

/-- What a claim that has lost a cylinder keeps of its entries and its fired list (R20, R57, R83). -/
theorem Removed.entries {s t : State} {h : Hall} {k : CylIdx} {cl cl' : Claim} (r : Removed s t h k cl cl')
    (hsel : cl.state = .selecting → (cl.allocation.filter fun e => e.cyl ≠ k) ++
      s.toppedUpWith (cl.holding (cl.allocation.filter fun e => e.cyl ≠ k)) = [] →
      cl' = { (cl.changedTo false (cl.allocation.filter fun e => e.cyl ≠ k)).outOfWait with schedule := none })
    (hk : s.eligible k = false)
    (hst : cl.state = .countdown ∨ cl.state = .hold ∨ cl.state = .waiting ∨ cl.state = .selecting) :
    (∀ e ∈ cl'.allocation, e.cyl ≠ k) ∧ cl'.fired = cl.fired := by
  obtain ⟨⟨-, -, -, hsup, hsta⟩, -⟩ := r
  obtain ⟨f1, -, -, f4, -, -⟩ := s.committed_fields (cl.changedTo false (cl.allocation.filter fun e => e.cyl ≠ k))
    (s.toppedUpWith (cl.holding (cl.allocation.filter fun e => e.cyl ≠ k)))
  have hka : ∀ e ∈ (s.committed (cl.changedTo false (cl.allocation.filter fun e => e.cyl ≠ k))
      (s.toppedUpWith (cl.holding (cl.allocation.filter fun e => e.cyl ≠ k)))).allocation, e.cyl ≠ k := fun e he =>
    kept_ne_of_ineligible hk e (f1 ▸ he)
  by_cases hne : (cl.allocation.filter fun e => e.cyl ≠ k) ++
      s.toppedUpWith (cl.holding (cl.allocation.filter fun e => e.cyl ≠ k)) = []
  · obtain ⟨hcd, hw, -⟩ := hsta hne
    rcases hst with h | h | h | h
    · rw [(hcd (.inl h)).1]
      exact ⟨hka, f4⟩
    · rw [(hcd (.inr h)).1]
      exact ⟨hka, f4⟩
    · rw [(hw h).1]
      exact ⟨hka, f4⟩
    · rw [hsel h hne]
      have hl : (cl.allocation.filter fun e => e.cyl ≠ k) = [] := (List.append_eq_nil_iff.1 hne).1
      refine ⟨fun e he => ?_, rfl⟩
      have hem : e ∈ (cl.allocation.filter fun e => e.cyl ≠ k) := he
      rw [hl] at hem
      cases hem
  · rw [(hsup hne).2.2]
    exact ⟨hka, f4⟩

theorem Replaced.entries {s t : State} {h : Hall} {k : CylIdx} {cl cl' : Claim} (r : Replaced s t h k cl cl')
    (hk : s.eligible k = false) : (∀ e ∈ cl'.allocation, e.cyl ≠ k) ∧ cl'.fired = cl.fired := by
  obtain ⟨⟨rfl, -⟩, -⟩ := r
  obtain ⟨f1, -, -, f4, -, -⟩ := s.committed_fields (cl.changedTo false (cl.allocation.filter fun e => e.cyl ≠ k))
    (s.replacedWith h k cl)
  refine ⟨fun e he => ?_, f4⟩
  have hem : e ∈ (cl.allocation.filter fun e => e.cyl ≠ k) ++ s.replacedWith h k cl := f1 ▸ he
  rcases List.mem_append.1 hem with h | h
  · simpa using (List.mem_filter.1 h).2
  · exact State.not_mem_takenList hk e h

/-- A faulty cylinder stays out of the pool, and keeps its record while its owner answers the loss (R20, R74). -/
theorem State.cyl_lost (s : State) (h : Hall) (k : CylIdx) (debt : Nat) (hk : s.eligible k = false) :
    ((s.dropEntry h k).replace h debt).cyl k = s.cyl k := by
  cases hc : s.claim h with
  | none =>
    have hd : s.dropEntry h k = s := by simp only [State.dropEntry, hc]
    simp only [hd, State.replace, hc]
  | some cl =>
    have hd := State.dropEntry_eq hc k
    have hc2 := State.claim_reallocate s h false (cl.allocation.filter fun e => e.cyl ≠ k) cl hc
    have he : (s.dropEntry h k).eligible k = false := by rw [State.eligible, hd, State.cyl_reallocate]; exact hk
    rw [← hd] at hc2
    obtain ⟨-, hrc⟩ := State.replace_fields hc2 debt
    rw [State.cyl, hrc, ← State.cyl, State.cyl_commit _ h _ _ hc2, if_neg, hd, State.cyl_reallocate]
    intro hm
    obtain ⟨e, hem, rfl⟩ := List.mem_map.1 hm
    exact State.not_mem_takenList he e hem rfl

/-- Settles O24: by the cylinder's disposition, then by the state of its owner's claim. -/
theorem actuatorSupervision : Obligations.ActuatorSupervision := by
  intro c m s k y hr hp he hk
  obtain ⟨hbad, hgood⟩ := State.superviseChannel_cylinder hr hp he m
  refine ⟨fun hb hu => ?_, fun h cl hb hy hc => ?_, fun h1 h2 hg hy => ?_⟩
  · obtain ⟨ch, e⟩ := hbad hb
    have hx : exec (.supervisionCheck c m) s = .next ((s.setChannel c ch).actuatorFaulted k) := congrArg Host.Outcome.next e
    have hk1 : (s.setChannel c ch).cyl k = some y := hk
    rw [State.actuatorFaulted_unowned hk1 hu] at hx
    refine ⟨_, hx, ?_⟩
    by_cases hf : y.disposition = .free
    · rw [if_pos hf, if_pos hf, State.cyl_setDisposition, if_pos rfl, hk1]
      refine ⟨rfl, fun j hj => ?_, ?_⟩
      · rw [State.cyl_setDisposition, if_neg hj, State.cyl_setChannel]
      · rw [State.setDisposition_eq hk1]
        rfl
    · rw [if_neg hf, if_neg hf]
      exact ⟨hk, fun _ _ => rfl, rfl⟩
  · obtain ⟨ch, e⟩ := hbad hb
    have hx : exec (.supervisionCheck c m) s = .next ((s.setChannel c ch).actuatorFaulted k) := congrArg Host.Outcome.next e
    have hk1 : (s.setChannel c ch).cyl k = some y := hk
    have hc1 : (s.setChannel c ch).claim h = some cl := hc
    have hk2 : ((s.setChannel c ch).setDisposition k (.actuatorFault .supervision)).cyl k =
        some { y with disposition := .actuatorFault .supervision } := by
      rw [State.cyl_setDisposition, if_pos rfl, hk1]
      rfl
    have hin : ((s.setChannel c ch).setDisposition k (.actuatorFault .supervision)).eligible k = false := by
      rw [State.eligible_of_cyl hk2]
      simp [eligibleRecord]
    have hin0 : s.eligible k = false := (State.eligible_of_cyl hk).trans (eligibleRecord_assigned hy)
    have p : SamePool s ((s.setChannel c ch).setDisposition k (.actuatorFault .supervision)) :=
      SamePool.trans (t := s.setChannel c ch) (.of_eq rfl rfl) (samePool_actuatorFault hk1 hy _)
    have hs1 : (s.setChannel c ch).setDisposition k (.actuatorFault .supervision) = { s with
        cyls := ((s.setChannel c ch).setDisposition k (.actuatorFault .supervision)).cyls
        circuits := ((s.setChannel c ch).setDisposition k (.actuatorFault .supervision)).circuits } := by
      rw [State.setDisposition_eq hk1]
      rfl
    have hcy : ∀ j, j ≠ k → ((s.setChannel c ch).setDisposition k (.actuatorFault .supervision)).cyl j = s.cyl j :=
      fun j hj => by rw [State.cyl_setDisposition, if_neg hj, State.cyl_setChannel]
    have hoc : ∀ j, j ≠ h →
        ((s.setChannel c ch).setDisposition k (.actuatorFault .supervision)).claim j = s.claim j := fun j _ => by
      simp [State.claim, State.setChannel]
    rw [State.actuatorFaulted_owned hk1 hy hc1] at hx
    by_cases hf : cl.state = .firing
    · rw [if_pos hf] at hx
      obtain ⟨cl', hcl', hrep⟩ := replaced_replace (h := h) p hs1 hcy hc hf
      obtain ⟨h1, h2⟩ := hrep.entries hin0
      exact ⟨_, cl', hx, (State.cyl_lost _ h k _ hin).trans hk2, hcl', h1, h2, fun j hj => (hrep.others.1 j hj).1,
        fun e => by simp [hf] at e, fun _ => hrep⟩
    rw [if_neg hf] at hx
    have hcyk := (State.cyl_removal_of_ineligible _ h k k hin).trans hk2
    cases htp : cl.state.toppedUp with
    | true =>
      obtain ⟨cl', hcl', hrem, hsel⟩ := removed_removal (h := h) p hs1 hcy hc htp
      obtain ⟨h1, h2⟩ := hrem.entries hsel hin0 (ClaimState.toppedUp_iff.1 htp)
      exact ⟨_, cl', hx, hcyk, hcl', h1, h2, fun j hj => (hrem.others.1 j hj).1, fun _ => hrem, fun e => absurd e hf⟩
    | false =>
      have hc2 : ((s.setChannel c ch).setDisposition k (.actuatorFault .supervision)).claim h = some cl := by
        rw [hs1]
        exact hc
      have hre := State.removal_of_not_toppedUp hc2 htp k
      have hcl' := State.claim_reallocate _ h false (cl.allocation.filter fun e => e.cyl ≠ k) cl hc2
      rw [← hre] at hcl'
      refine ⟨_, _, hx, hcyk, hcl', fun e hem => by simpa using (List.mem_filter.1 hem).2, rfl, fun j hj => ?_,
        fun e => ?_, fun e => absurd e hf⟩
      · rw [((State.removal_others _ h k).1 j hj).1, hoc j hj]
      · rw [ClaimState.toppedUp_iff.2 e] at htp
        cases htp
  · obtain ⟨ch, e⟩ := hgood h1 h2 hg
    have hx : exec (.supervisionCheck c m) s = .next ((s.setChannel c ch).actuatorGood k) := congrArg Host.Outcome.next e
    have hk1 : (s.setChannel c ch).cyl k = some y := hk
    have hk2 : ((s.setChannel c ch).setDisposition k .free).cyl k = some { y with disposition := .free } := by
      rw [State.cyl_setDisposition, if_pos rfl, hk1]
      rfl
    have hg2 : (s.setChannel c ch).actuatorGood k =
        ((s.setChannel c ch).setDisposition k .free).poolGainIf (eligibleRecord (some { y with disposition := .free })) := by
      simp only [State.actuatorGood, hk1, hy, if_true, State.eligible_of_cyl hk2]
    rw [hg2] at hx
    refine ⟨_, hx, by rw [State.cyl_poolGainIf, hk2], ?_, fun j hj => ?_, ?_⟩
    · by_cases hz : y.condition = .empty
      · simp [State.poolGainIf, eligibleRecord, hz]
      · simp [State.poolGainIf, State.poolGain, eligibleRecord, hz]
    · rw [State.cyl_poolGainIf, State.cyl_setDisposition, if_neg hj, State.cyl_setChannel]
    · rw [State.setDisposition_eq hk1]
      unfold State.poolGainIf
      split <;> rfl


end Sys2Proof.Machine
end


-- ==== Sys2Proof/Proofs/Completions.lean ====
section
/-! PROOFS. Pulse completions, line completion, confirmation, and the deferral that expires. -/

namespace Sys2Proof.Machine

/-! ### The end DISCHARGED (R127) -/

/-- A latch that a raise of another leaves (R171). -/
theorem latchAsked_setLatch_of_ne (s : State) (h : Hall) {l m : Latch} (hlm : l ≠ m) :
    LatchAsked s (s.setLatch h m) h l false := by
  unfold LatchAsked
  rw [State.get_setLatch, if_neg hlm]
  rfl

/-- The end of a grant leaves the manifold CLOSING or VENTING, so that MAINT_PENDING does not end with it (R104, R182). -/
theorem State.endGrant_not_idle (s : State) (h : Hall) :
    (s.endGrant h).manifold.state = .closing ∨ (s.endGrant h).manifold.state = .venting := by
  rw [(s.endGrant_manifold h).2.1]
  split
  · exact .inl rfl
  · exact .inr rfl

theorem State.maintPendingEnd_endGrant (s : State) (h : Hall) : (s.endGrant h).maintPendingEnd = s.endGrant h := by
  rcases State.maintPendingEnd_cases (s.endGrant h) with e | ⟨-, hi, -⟩
  · exact e
  · rcases s.endGrant_not_idle h with e | e <;> simp [e] at hi

/-- The state in which a discharge that is confirmed ends its grant (R127). -/
def State.confirmedClaim (s : State) (h : Hall) : State :=
  ((((s.updClaim h fun c => { c with state := .discharged, endReason := some .confirmed, endedAt := some s.now }).removeUnit
    h).setSwitchCapture .disarmed).setLatch h .discharged).setOrder (s.order.filter fun j => j ≠ h)

theorem State.discharge_confirmed_eq (s : State) (h : Hall) :
    s.discharge h .confirmed = (s.confirmedClaim h).endGrant h := State.maintPendingEnd_endGrant _ h

/-- A discharge confirmed: the claim, its deadline and its capture, the latch, the order and the grant (R127). -/
theorem State.discharge_confirmed {s : State} {h : Hall} {c : Claim} (hc : s.claim h = some c) :
    (s.discharge h .confirmed).claim h =
        some { c with state := .discharged, endReason := some .confirmed, endedAt := some s.now } ∧
      Confirmed s (s.discharge h .confirmed) h
        { c with state := .discharged, endReason := some .confirmed, endedAt := some s.now } ∧
      ∀ l, l ≠ .discharged → LatchAsked s (s.discharge h .confirmed) h l false := by
  have hu := s.discharge_confirmed_eq h
  have hcl : (s.confirmedClaim h).claim h =
      some { c with state := .discharged, endReason := some .confirmed, endedAt := some s.now } := by
    have e : (s.confirmedClaim h).claim h = (s.updClaim h fun c =>
      { c with state := .discharged, endReason := some .confirmed, endedAt := some s.now }).claim h := rfl
    rw [e, State.claim_updClaim_self, hc]
    rfl
  have hun : (s.confirmedClaim h).unit h = .inhibited := State.unit_removeUnit_self _ h
  have hport : (s.discharge h .confirmed).port h = (s.setLatch h .discharged).port h := by
    have e : (s.confirmedClaim h).port h = (s.setLatch h .discharged).port h := rfl
    rw [hu, ← e]
    simp [State.port]
  obtain ⟨hh, -⟩ := (s.confirmedClaim h).endGrant_manifold h
  refine ⟨?_, ⟨⟨rfl, rfl, rfl⟩, ⟨?_, ?_⟩, ?_, ?_, ⟨?_, ?_, ?_⟩⟩, fun l hl => ?_⟩
  · rw [hu, ← hcl]
    simp [State.claim]
  · rw [hu, ← hun]
    simp [State.unit]
  · rw [hu]
    simp [State.confirmedClaim, State.setSwitchCapture]
  · rw [hport]
    exact s.setLatch_set h .discharged
  · rw [hu]
    simp [State.confirmedClaim]
  · rw [hu, hh]
  · rw [hu, State.endGrant_selectorCmd, if_pos rfl]
  · rw [hu]
    exact State.endGrant_not_idle _ h
  · exact (latchAsked_setLatch_of_ne s h hl).congr rfl hport

/-! ### Line completion and CONFIRMING (R121, R124) -/

/-- Entry to CONFIRMING with no discharge seen: the confirm deadline is measured from the last line fired (R124). -/
theorem State.enterConfirming_unseen {s : State} {h : Hall} {c : Claim} (hc : s.claim h = some c)
    (hd : c.dischargeSeenAt = none) :
    s.enterConfirming h = (s.updClaim h fun c => { c with state := .confirming }).loadUnit h
      ((c.schedule.bind (·.lastLineTime)).getD s.now + ms s.timing.confirmTimeout) .confirm := by
  simp only [State.enterConfirming, hc, hd, Option.isSome_none, Bool.false_eq_true, if_false]

/-- Entry to CONFIRMING with the discharge seen: DISCHARGED at once (R124). -/
theorem State.enterConfirming_seen {s : State} {h : Hall} {c : Claim} (hc : s.claim h = some c)
    (hd : c.dischargeSeenAt ≠ none) :
    s.enterConfirming h = (s.updClaim h fun c => { c with state := .confirming }).discharge h .confirmed := by
  have hs : c.dischargeSeenAt.isSome = true := Option.isSome_iff_ne_none.2 hd
  simp only [State.enterConfirming, hc, hs, if_true]

/-- Between states that differ in nothing a confirmation speaks of. -/
theorem Confirmed.congr {s s' t : State} {h : Hall} {cl : Claim} (c : Confirmed s t h cl) (hn : s'.now = s.now)
    (ho : s'.order = s.order) : Confirmed s' t h cl :=
  ⟨by rw [hn]; exact c.claim, c.deadline, c.latch, by rw [ho]; exact c.order, c.grant⟩


/-- `c'` holds what `c` holds: the allocation and its sums, the flags and the fired list. -/
structure SameHolding (c c' : Claim) : Prop where
  allocation : c'.allocation = c.allocation
  allocatedSum : c'.allocatedSum = c.allocatedSum
  shortage : c'.shortage = c.shortage
  flags : c'.flags = c.flags
  fired : c'.fired = c.fired

theorem SameHolding.trans {a b c : Claim} (x : SameHolding a b) (y : SameHolding b c) : SameHolding a c :=
  ⟨y.1.trans x.1, y.2.trans x.2, y.3.trans x.3, y.4.trans x.4, y.5.trans x.5⟩

/-- Entry to CONFIRMING, or through it to DISCHARGED, changes nothing of what the claim holds (R124, R127). -/
theorem State.enterConfirming_holding {s : State} {h : Hall} {c : Claim} (hc : s.claim h = some c) :
    ∃ c', (s.enterConfirming h).claim h = some c' ∧ SameHolding c c' ∧ c'.dischargeSeenAt = c.dischargeSeenAt ∧
      c'.schedule = c.schedule ∧
      (∀ l, l ≠ .discharged → LatchAsked s (s.enterConfirming h) h l false) ∧
      (c.dischargeSeenAt ≠ none → Confirmed s (s.enterConfirming h) h c') ∧
      (c.dischargeSeenAt = none → c'.state = .confirming) := by
  have hc1 : (s.updClaim h fun c => { c with state := .confirming }).claim h = some { c with state := .confirming } := by
    rw [State.claim_updClaim_self, hc]
    rfl
  by_cases hd : c.dischargeSeenAt = none
  · rw [State.enterConfirming_unseen hc hd]
    exact ⟨_, hc1, ⟨rfl, rfl, rfl, rfl, rfl⟩, rfl, rfl, fun l _ => .of_eq l rfl, fun e => absurd hd e, fun _ => rfl⟩
  · rw [State.enterConfirming_seen hc hd]
    obtain ⟨h1, h2, h3⟩ := State.discharge_confirmed hc1
    exact ⟨_, h1, ⟨rfl, rfl, rfl, rfl, rfl⟩, rfl, rfl, h3, fun _ => h2.congr rfl rfl, fun e => absurd e hd⟩

/-- The claim once its schedule has been changed. -/
theorem State.claim_updSchedule {s : State} {h : Hall} {c : Claim} (hc : s.claim h = some c) (f : Schedule → Schedule) :
    (s.updSchedule h f).claim h = some { c with schedule := c.schedule.map f } := by
  rw [State.updSchedule, State.claim_updClaim_self, hc]
  rfl

/-- The schedule with one pulse fewer outstanding (R121). -/
def Schedule.counted (sc : Schedule) : Schedule := { sc with outstanding := sc.outstanding - 1 }

/-- The schedule with its line in hand DONE (R121). -/
def Schedule.handDone (sc : Schedule) : Schedule := sc.updLine (sc.cursor - 1) fun l => { l with status := .done }

/-- The state that a completed pulse leaves, before its line's completion is taken (R121). -/
def State.pulseCounted (s : State) (h : Hall) : State :=
  s.updSchedule h Schedule.counted

/-- The state in which a line whose last pulse has completed is DONE (R121). -/
def State.lineDone (s : State) (h : Hall) : State :=
  (s.pulseCounted h).updSchedule h Schedule.handDone

/-- A completed pulse: more are outstanding, or a line remains, or the claim enters CONFIRMING (R121 to R124). -/
theorem State.finishPulse_cases {s : State} {h : Hall} {c : Claim} (hc : s.claim h = some c) :
    (c.schedule = none → s.finishPulse h = s.pulseCounted h) ∧
    ∀ sc, c.schedule = some sc → s.finishPulse h =
      if 1 < sc.outstanding then s.pulseCounted h
      else if sc.cursor < sc.lines.length then s.lineDone h else (s.lineDone h).enterConfirming h := by
  have h1 : (s.pulseCounted h).claim h = some { c with schedule := c.schedule.map Schedule.counted } :=
    State.claim_updSchedule hc _
  have h2 : (s.lineDone h).claim h =
      some { c with schedule := (c.schedule.map Schedule.counted).map Schedule.handDone } := State.claim_updSchedule h1 _
  have h0 : s.finishPulse h = match ((s.pulseCounted h).claim h).bind (·.schedule) with
    | none => s.pulseCounted h
    | some sc => if sc.outstanding = 0 then (s.lineDone h).lineCompletion h else s.pulseCounted h := rfl
  refine ⟨fun hn => ?_, fun sc hsc => ?_⟩
  · simp only [h0, h1, hn, Option.map_none, Option.bind_some]
  · have e : s.finishPulse h = if sc.outstanding - 1 = 0 then (s.lineDone h).lineCompletion h else s.pulseCounted h := by
      simp only [h0, h1, hsc, Option.map_some, Option.bind_some]
      rfl
    have e2 : (s.lineDone h).lineCompletion h =
        if sc.cursor < sc.lines.length then s.lineDone h else (s.lineDone h).enterConfirming h := by
      simp only [State.lineCompletion, h2, hsc, Option.map_some, Option.bind_some, Schedule.handDone, Schedule.counted,
        Schedule.updLine, List.length_modify]
    rw [e, e2]
    by_cases ho : 1 < sc.outstanding
    · rw [if_pos ho, if_neg (by omega)]
    · rw [if_neg ho, if_pos (by omega)]


theorem State.claim_pulseCounted {s : State} {h : Hall} {c : Claim} (hc : s.claim h = some c) :
    (s.pulseCounted h).claim h = some { c with schedule := c.schedule.map Schedule.counted } :=
  State.claim_updSchedule hc _

theorem State.claim_lineDone {s : State} {h : Hall} {c : Claim} (hc : s.claim h = some c) :
    (s.lineDone h).claim h = some { c with schedule := (c.schedule.map Schedule.counted).map Schedule.handDone } :=
  State.claim_updSchedule (State.claim_pulseCounted hc) _

/-- The line in hand, made DONE, keeps its line time (R114, R121). -/
theorem Schedule.lastLineTime_handDone (sc : Schedule) {line : Line} {t : Time} (hl : sc.lines[sc.cursor - 1]? = some line)
    (ht : line.time = some t) : sc.counted.handDone.lastLineTime = some t := by
  simp [Schedule.lastLineTime, Schedule.handDone, Schedule.counted, Schedule.updLine, hl, ht]

/-- A completed pulse of a claim in FIRING: what it holds stands, and its schedule and its state follow (R121 to R124). -/
theorem State.pulseTaken_finishPulse {s : State} {h : Hall} {c : Claim} (hc : s.claim h = some c)
    (hs : c.state = .firing) :
    ∃ c', (s.finishPulse h).claim h = some c' ∧ SameHolding c c' ∧
      (∀ l, l ≠ .discharged → LatchAsked s (s.finishPulse h) h l false) ∧
      ∀ sc, c.schedule = some sc → PulseTaken s (s.finishPulse h) h c c' sc [] := by
  obtain ⟨hnone, hsome⟩ := State.finishPulse_cases hc
  have h1 := State.claim_pulseCounted hc
  have h2 := State.claim_lineDone hc
  cases hsch : c.schedule with
  | none =>
    rw [hnone hsch]
    exact ⟨_, h1, ⟨rfl, rfl, rfl, rfl, rfl⟩, fun l _ => .of_eq l rfl, fun sc e => by cases e⟩
  | some sc =>
    rw [hsome sc hsch]
    rw [hsch] at h1 h2
    by_cases ho : 1 < sc.outstanding
    · rw [if_pos ho]
      refine ⟨_, h1, ⟨rfl, rfl, rfl, rfl, rfl⟩, fun l _ => .of_eq l rfl, fun sc' e => ?_⟩
      cases e
      refine ⟨fun _ => ⟨?_, hs, rfl, rfl⟩, fun x => absurd ho (by omega), fun x => absurd ho (by omega),
        fun x => absurd ho (by omega), fun x => absurd ho (by omega)⟩
      rw [List.append_nil]
      rfl
    · rw [if_neg ho]
      have hz : sc.outstanding - 1 = 0 := by omega
      have hdone : (Option.map Schedule.counted (some sc)).map Schedule.handDone = some { sc with
          lines := (sc.lines ++ []).modify (sc.cursor - 1) fun l => { l with status := .done }, outstanding := 0 } := by
        rw [List.append_nil]
        simp only [Option.map_some, Schedule.counted, Schedule.handDone, Schedule.updLine, hz]
      by_cases hl : sc.cursor < sc.lines.length
      · rw [if_pos hl]
        refine ⟨_, h2, ⟨rfl, rfl, rfl, rfl, rfl⟩, fun l _ => .of_eq l rfl, fun sc' e => ?_⟩
        cases e
        exact ⟨fun x => absurd x ho, fun _ => hdone, fun _ _ => ⟨hs, rfl, rfl⟩, fun _ x => absurd hl (by simpa using x),
          fun _ x => absurd hl (by simpa using x)⟩
      · rw [if_neg hl]
        obtain ⟨c', h3, h4, h5, h6, h7, h8, h9⟩ := State.enterConfirming_holding h2
        refine ⟨c', h3, ⟨h4.1, h4.2, h4.3, h4.4, h4.5⟩, fun l hx => (h7 l hx).congr rfl rfl, fun sc' e => ?_⟩
        cases e
        refine ⟨fun x => absurd x ho, fun _ => h6.trans hdone, fun _ x => absurd x (by simpa using hl),
          fun _ _ hd line t0 hline ht => ⟨h9 hd, ?_⟩, fun _ _ hd => (h8 hd).congr rfl rfl⟩
        rw [State.enterConfirming_unseen h2 hd]
        have hlast := sc.lastLineTime_handDone hline ht
        refine ⟨?_, rfl⟩
        rw [State.unit_loadUnit, if_pos rfl]
        simp only [Option.map_some, Option.bind_some, hlast, Option.getD_some]
        rfl


/-! ### A fire channel at rest (R150) -/

/-- Channel `c` fires a cylinder, and no pulse of it is in progress: nothing drives it. -/
structure State.AtRest (s : State) (c : ChanIdx) : Prop where
  role : ∃ k, s.role c = .cylinder k
  pulse : (s.channel c).pulse = none
  energised : (s.channel c).energised = false

/-- Driving the channels leaves one at rest as it is (R150). -/
theorem State.AtRest.redrive {s : State} {c : ChanIdx} (h : s.AtRest c) : s.redrive.channel c = s.channel c := by
  obtain ⟨⟨k, hk⟩, hp, he⟩ := h
  have hd : s.driven c = false := by simp [State.driven, State.commanded, hk, hp]
  rw [State.channel_redrive, hd, ← he]

/-- In a state that has the image and the channels of `s`. -/
theorem State.AtRest.congr {s t : State} {c : ChanIdx} (h : s.AtRest c) (hs : t.store = s.store)
    (hc : t.circuits.channels = s.circuits.channels) : t.AtRest c ∧ t.channel c = s.channel c := by
  have e : t.channel c = s.channel c := by rw [State.channel, State.channel, hc]
  refine ⟨⟨?_, by rw [e]; exact h.pulse, by rw [e]; exact h.energised⟩, e⟩
  obtain ⟨k, hk⟩ := h.role
  exact ⟨k, by rw [← hk, State.role, State.role, hs]⟩

/-- Driving the channels of such a state. -/
theorem State.AtRest.redrive_of {s t : State} {c : ChanIdx} (h : s.AtRest c) (hs : t.store = s.store)
    (hc : t.circuits.channels = s.circuits.channels) : t.redrive.channel c = s.channel c :=
  (h.congr hs hc).1.redrive.trans (h.congr hs hc).2

theorem State.AtRest.enterVenting {s : State} {c : ChanIdx} (h : s.AtRest c) : s.enterVenting.channel c = s.channel c := by
  unfold State.enterVenting State.commandVent
  exact h.redrive_of rfl rfl

theorem State.AtRest.enterClosing {s : State} {c : ChanIdx} (h : s.AtRest c) : s.enterClosing.channel c = s.channel c := by
  rw [State.enterClosing_eq]
  split
  · rfl
  · obtain ⟨h1, h2⟩ := h.congr (t := s.setManifold { s.manifold with state := .closing, unit := .inhibited }) rfl rfl
    exact h1.enterVenting.trans h2

theorem State.AtRest.endGrant {s : State} {c : ChanIdx} (h : s.AtRest c) (j : Hall) :
    (s.endGrant j).channel c = s.channel c := by
  have e : ((s.setManifold { s.manifold with holder := none }).commandSelector j .closed).channel c = s.channel c := by
    unfold State.commandSelector
    exact h.redrive_of rfl rfl
  have h1 : ((s.setManifold { s.manifold with holder := none }).commandSelector j .closed).AtRest c :=
    ⟨h.role, by rw [e]; exact h.pulse, by rw [e]; exact h.energised⟩
  exact h1.enterClosing.trans e

theorem State.AtRest.enterConfirming {s : State} {c : ChanIdx} (h : s.AtRest c) (j : Hall) :
    (s.enterConfirming j).channel c = s.channel c := by
  cases hc : s.claim j with
  | none => simp only [State.enterConfirming, hc]
  | some cl =>
    by_cases hd : cl.dischargeSeenAt = none
    · rw [State.enterConfirming_unseen hc hd]
      rfl
    · rw [State.enterConfirming_seen hc hd, State.discharge_confirmed_eq]
      obtain ⟨h1, h2⟩ := h.congr (t := (s.updClaim j fun c => { c with state := .confirming }).confirmedClaim j)
        (by simp [State.confirmedClaim]) (by simp [State.confirmedClaim])
      exact (h1.endGrant j).trans h2

theorem State.AtRest.finishPulse {s : State} {c : ChanIdx} (h : s.AtRest c) {j : Hall} {cl : Claim}
    (hc : s.claim j = some cl) : (s.finishPulse j).channel c = s.channel c := by
  obtain ⟨hnone, hsome⟩ := State.finishPulse_cases hc
  cases hsch : cl.schedule with
  | none => rw [hnone hsch]; rfl
  | some sc =>
    rw [hsome sc hsch]
    split
    · rfl
    · split
      · rfl
      · obtain ⟨h1, h2⟩ := h.congr (t := s.lineDone j) rfl rfl
        exact (h1.enterConfirming j).trans h2

/-! ### Pulse completions (R19, R21, R151) -/

/-- A pulse taken in a state whose schedule has the appended lines already, as seen from the state before them. -/
theorem PulseTaken.appending {s u t : State} {h : Hall} {c cl c' : Claim} {sc sc1 : Schedule} {appended : List Line}
    (p : PulseTaken u t h c c' sc1 []) (hsc : sc1 = { sc with lines := sc.lines ++ appended }) (hcur : 0 < sc.cursor)
    (hle : appended = [] ∨ sc.cursor ≤ sc.lines.length) (hu : u.unit h = s.unit h) (hm : u.manifold = s.manifold)
    (hn : u.now = s.now) (hs : u.store = s.store) (ho : u.order = s.order)
    (hd : c.dischargeSeenAt = cl.dischargeSeenAt) : PulseTaken s t h cl c' sc appended := by
  subst hsc
  obtain ⟨hmore, hdone, hstays, hconfirming, hconfirmed⟩ := p
  have ht : u.timing = s.timing := by simp only [State.timing, hs]
  rw [hu, hm] at hmore hstays
  rw [hm, hn, ht, hd] at hconfirming
  rw [hd] at hconfirmed
  simp only [List.append_nil] at hmore hdone
  simp only [List.length_append, List.length_nil, Nat.add_zero] at hstays hconfirming hconfirmed
  refine ⟨hmore, hdone, hstays, fun h1 h2 h3 line t0 h4 h5 => hconfirming h1 h2 h3 line t0 ?_ h5,
    fun h1 h2 h3 => (hconfirmed h1 h2 h3).congr hn.symm ho.symm⟩
  rcases hle with rfl | hle
  · simpa using h4
  · rw [List.getElem?_append_left (by omega), h4]

/-- A measurement is NORMAL when it is not held by the limit and reaches 0.8 A (R151). -/
theorem classifyPulse_normal (m : PulseMeasurement) :
    classifyPulse m = .normal ↔ m.limited = false ∧ 800 ≤ m.current := by
  unfold classifyPulse
  cases m.limited
  · simp
  · simp

/-- The completion of a pulse that has run its length, of a cylinder ASSIGNED to a claim in FIRING (R19, R21, R151). -/
theorem exec_pulseCompletion {c : ChanIdx} {l : List PulseMeasurement} {s : State} {k : CylIdx} {h : Hall} {y : Cylinder}
    {cl : Claim} (hr : s.role c = .cylinder k) (hp : s.pulseOver c = true) (hk : s.cyl k = some y)
    (hy : y.disposition = .assigned h) (hc : s.claim h = some cl) (hs : cl.state = .firing) :
    ∃ s1 : State, s1 = (s.setChannel c ((s.channel c).pulsed (pulseReading l))).redrive ∧
      exec (.pulseCompletion c l) s =
        .next (if pulseReading l = .normal then s1.pulseNormal h k else s1.pulseFailed h k) := by
  refine ⟨_, rfl, ?_⟩
  have hk1 : (s.setChannel c ((s.channel c).pulsed (pulseReading l))).redrive.cyl k = some y := hk
  have hc1 : (s.setChannel c ((s.channel c).pulsed (pulseReading l))).redrive.claimState h = some .firing := by
    have e : (s.setChannel c ((s.channel c).pulsed (pulseReading l))).redrive.claim h = some cl := hc
    simp [State.claimState, e, hs]
  simp [exec, execPulseCompletion, State.completePulse, hp, hr, State.handPulse, hk1, hy, hc1]


/-- The state in which a channel's pulse is over: only the channels differ, and the channel is at rest (R150, R151). -/
theorem State.pulsed_channel {s s1 : State} {c : ChanIdx} {k : CylIdx} {r : LineState} (hr : s.role c = .cylinder k)
    (hs1 : s1 = (s.setChannel c ((s.channel c).pulsed r)).redrive) :
    s1 = { s with circuits := s1.circuits } ∧ s1.AtRest c ∧ (s1.channel c).pulse = none ∧ (s1.channel c).measured = r ∧
      (s1.channel c).energised = false ∧ (s1.channel c).goodChecks = (s.channel c).goodChecks ∧
      (s1.channel c).failedPulse = ((s.channel c).failedPulse || r ≠ .normal) := by
  have hch : (s.setChannel c ((s.channel c).pulsed r)).channel c = (s.channel c).pulsed r := by
    rw [State.channel_setChannel, if_pos rfl]
  have hr1 : (s.setChannel c ((s.channel c).pulsed r)).role c = .cylinder k := hr
  have hd : (s.setChannel c ((s.channel c).pulsed r)).driven c = false := by
    have hp : ((s.setChannel c ((s.channel c).pulsed r)).channel c).pulse = none := by rw [hch]; rfl
    simp [State.driven, State.commanded, hr1, hp]
  have e : s1.channel c = { (s.channel c).pulsed r with energised := false } := by
    rw [hs1, State.channel_redrive, hd, hch]
  refine ⟨by rw [hs1]; rfl, ⟨⟨k, ?_⟩, by rw [e]; rfl, by rw [e]⟩, by rw [e]; rfl, by rw [e]; rfl, by rw [e], by rw [e]; rfl,
    by rw [e]; rfl⟩
  rw [hs1]
  exact hr

/-- Settles O25: the entry moves to the fired list, and the pulse is counted. -/
theorem pulseReadsNormal : Obligations.PulseReadsNormal := by
  intro c l s k h y cl hr hp hk hy hc hs hl
  have hn : pulseReading l = .normal := (pulseReading_normal l).2 fun m hm => (classifyPulse_normal m).2 (hl m hm)
  obtain ⟨s1, hs1, hx⟩ := exec_pulseCompletion (l := l) hr hp hk hy hc hs
  rw [if_pos hn] at hx
  rw [hn] at hs1
  obtain ⟨hst, hrest, hpu, hme, hen, hgo, hfa⟩ := State.pulsed_channel hr hs1
  obtain ⟨u, hu⟩ : ∃ u, u = (s1.setDisposition k .fired).creditFired h k := ⟨_, rfl⟩
  have hk1 : s1.cyl k = some y := by rw [hst]; exact hk
  have hcu : u.claim h = some (Claim.resum { cl with
      allocation := cl.allocation.filter fun e => e.cyl ≠ k, fired := cl.fired ++ [k] }) := by
    have e : (s1.setDisposition k .fired).claim h = some cl := by rw [hst]; exact hc
    rw [hu, State.creditFired, State.claim_updClaim_self, e]
    rfl
  have hust : u = { s with cyls := u.cyls, claims := u.claims, circuits := u.circuits } := by
    rw [hu, State.setDisposition_eq hk1, hst]
    rfl
  have hucy : ∀ j, u.cyl j = (s1.setDisposition k .fired).cyl j := fun j => by rw [hu]; rfl
  have huc : u.circuits = s1.circuits := by rw [hu]; rfl
  obtain ⟨hur, hue⟩ := hrest.congr (t := u) (by rw [hust, hst]) (by rw [huc])
  obtain ⟨cl', hcl', hold, hlat, htaken⟩ := State.pulseTaken_finishPulse hcu (by exact hs)
  have hch := (hur.finishPulse hcu).trans hue
  have htc : ∀ j, (u.finishPulse h).cyl j = u.cyl j := fun j => by simp [State.cyl]
  have hx2 : exec (.pulseCompletion c l) s = .next (u.finishPulse h) := by rw [hx, hu]; rfl
  refine ⟨_, cl', hx2, ?_, hcl', hold.fired, hold.allocation, ?_, ?_, hold.flags, fun l hl => (hlat l hl).congr ?_ rfl, ?_,
    ?_, ?_, ?_, ?_, fun sc hsc hcur => ?_, fun j hj => ?_, fun j hj => ?_⟩
  · rw [htc, hucy, State.cyl_setDisposition, if_pos rfl, hk1]
    rfl
  · rw [hold.allocation, hold.allocatedSum]
    rfl
  · rw [hold.allocatedSum, hold.shortage]
    rfl
  · rw [hust]
    rfl
  · rw [hch, hpu]
  · rw [hch, hme]
  · rw [hch, hen]
  · rw [hch, hgo]
  · rw [hch, hfa]
    simp
  · exact (htaken sc hsc).appending (by rw [List.append_nil]) hcur (.inl rfl) (by rw [hust]; rfl) (by rw [hust])
      (by rw [hust]) (by rw [hust]) (by rw [hust]) rfl
  · rw [htc, hucy, State.cyl_setDisposition, if_neg hj, hst]
    rfl
  · have e : u.claim j = s.claim j := by
      rw [hu, State.creditFired, State.claim_updClaim, if_neg hj, hst]
      rfl
    rw [← e]
    simp [State.claim, hj]


theorem State.committed_dischargeSeenAt (s : State) (c : Claim) (taken : List Entry) :
    (s.committed c taken).dischargeSeenAt = c.dischargeSeenAt := by
  unfold State.committed
  split <;> rfl

/-- In FIRING, SHORT is not evaluated: it stands through a change and a commit (R81). -/
theorem State.committed_short_of_firing (s : State) {cl : Claim} (hs : cl.state = .firing) (left taken : List Entry) :
    (s.committed (cl.changedTo false left) taken).flags.short = cl.flags.short := by
  unfold State.committed
  split <;> simp [Claim.changedTo, hs, ClaimState.shortOfFiring]

/-- What a claim that has made a replacement run is (R40, R41, R91, R92). -/
theorem Replaced.claim_fields {s t : State} {h : Hall} {k : CylIdx} {cl c : Claim} (r : Replaced s t h k cl c) :
    c.allocation = (cl.allocation.filter fun e => e.cyl ≠ k) ++ s.replacedWith h k cl ∧
      c.allocatedSum = sumE ((cl.allocation.filter fun e => e.cyl ≠ k) ++ s.replacedWith h k cl) ∧
      c.shortage = cl.figures.req - sumE ((cl.allocation.filter fun e => e.cyl ≠ k) ++ s.replacedWith h k cl) ∧
      c.flags = (s.committed (cl.changedTo false (cl.allocation.filter fun e => e.cyl ≠ k)) (s.replacedWith h k cl)).flags ∧
      c.state = cl.state ∧ c.fired = cl.fired ∧ c.dischargeSeenAt = cl.dischargeSeenAt ∧
      ∀ sc, cl.schedule = some sc → c.schedule =
        some { sc with lines := sc.lines ++ (lay ((s.replacedWith h k cl).map Entry.cyl)).map newLine } := by
  have he : c = { s.committed (cl.changedTo false (cl.allocation.filter fun e => e.cyl ≠ k)) (s.replacedWith h k cl) with
      schedule := cl.schedule.map fun sc =>
        { sc with lines := sc.lines ++ (lay ((s.replacedWith h k cl).map Entry.cyl)).map newLine } } := r.claim.1
  generalize s.replacedWith h k cl = taken at he ⊢
  obtain ⟨f1, f2, -, f4, -, -⟩ := s.committed_fields (cl.changedTo false (cl.allocation.filter fun e => e.cyl ≠ k)) taken
  obtain ⟨g1, g2⟩ := s.committed_sums (cl.changedTo false (cl.allocation.filter fun e => e.cyl ≠ k)) taken rfl rfl
  have f7 := s.committed_dischargeSeenAt (cl.changedTo false (cl.allocation.filter fun e => e.cyl ≠ k)) taken
  rw [he]
  refine ⟨f1, g1, g2, rfl, f2, f4, f7, fun sc e => ?_⟩
  rw [e]
  rfl

/-- Settles O26: the loss is answered by the replacement run, and the pulse is counted. -/
theorem pulseFails : Obligations.PulseFails := by
  intro c l s k h y cl hr hp hk hy hc hs ⟨m, hm, hmb⟩
  have hn : pulseReading l ≠ .normal := fun e => by
    obtain ⟨h1, h2⟩ := (classifyPulse_normal m).1 ((pulseReading_normal l).1 e m hm)
    rcases hmb with hb | hb
    · simp [h1] at hb
    · exact absurd hb (Nat.not_lt.2 h2)
  obtain ⟨s1, hs1, hx⟩ := exec_pulseCompletion (l := l) hr hp hk hy hc hs
  rw [if_neg hn] at hx
  obtain ⟨hst, hrest, hpu, -, hen, -, hfa⟩ := State.pulsed_channel hr hs1
  have hk1 : s1.cyl k = some y := by rw [hst]; exact hk
  have hin0 : s.eligible k = false := (State.eligible_of_cyl hk).trans (eligibleRecord_assigned hy)
  have hk2 : (s1.setDisposition k (.actuatorFault .pulse)).cyl k =
      some { y with disposition := .actuatorFault .pulse } := by
    rw [State.cyl_setDisposition, if_pos rfl, hk1]
    rfl
  have hin : (s1.setDisposition k (.actuatorFault .pulse)).eligible k = false := by
    rw [State.eligible_of_cyl hk2]
    simp [eligibleRecord]
  have hp2 : SamePool s (s1.setDisposition k (.actuatorFault .pulse)) :=
    SamePool.trans (t := s1) (.of_eq (by rw [hst]) (by rw [hst])) (samePool_actuatorFault hk1 hy _)
  have hst2 : s1.setDisposition k (.actuatorFault .pulse) = { s with
      cyls := (s1.setDisposition k (.actuatorFault .pulse)).cyls
      circuits := (s1.setDisposition k (.actuatorFault .pulse)).circuits } := by
    rw [State.setDisposition_eq hk1, hst]
    rfl
  obtain ⟨c2, hc2, hrep⟩ := replaced_replace (h := h) hp2 hst2 (fun j hj => by
    rw [State.cyl_setDisposition, if_neg hj, hst]
    rfl) hc hs
  have hlost := (State.cyl_lost _ h k (s.entryE h k) hin).trans hk2
  obtain ⟨hne, hfd⟩ := hrep.entries hin0
  obtain ⟨u, hu⟩ : ∃ u, u = ((s1.setDisposition k (.actuatorFault .pulse)).dropEntry h k).replace h (s.entryE h k) :=
    ⟨_, rfl⟩
  have hx2 : exec (.pulseCompletion c l) s = .next (u.finishPulse h) := by
    have hE : s1.entryE h k = s.entryE h k := by rw [hst]; rfl
    rw [hx, hu, State.pulseFailed, hE]
  have huc : u.circuits = s1.circuits := by rw [hu]; simp
  rw [← hu] at hc2 hrep hlost
  obtain ⟨f1, f2, f3, f4, f5, f6, f7, f8⟩ := hrep.claim_fields
  obtain ⟨⟨-, hrl, hra, hrc⟩, hro, -, hrs⟩ := hrep
  have hsto : u.store = s.store := by rw [hrs]
  obtain ⟨hur, hue⟩ := hrest.congr (t := u) (by rw [hsto, hst]) (by rw [huc])
  obtain ⟨cl', hcl', hold, hlat, htaken⟩ := State.pulseTaken_finishPulse hc2 (f5.trans hs)
  have hch := (hur.finishPulse hc2).trans hue
  have htc : ∀ j, (u.finishPulse h).cyl j = u.cyl j := fun j => by simp [State.cyl]
  have hal : cl'.allocation = (cl.allocation.filter fun e => e.cyl ≠ k) ++ s.replacedWith h k cl :=
    hold.allocation.trans f1
  have hsum : cl'.allocatedSum = sumE cl'.allocation := by
    rw [hal]
    exact hold.allocatedSum.trans f2
  refine ⟨_, cl', hx2, (htc k).trans hlost, hcl', hold.fired.trans f6, ⟨hal, hsum, ?_, ?_, hold.flags.trans f4,
    fun l hl => ?_, fun e he => ⟨?_, ?_, ?_, (State.mem_takenList he).2.2⟩,
    fun j hj hjt => (htc j).trans (hrc j hj hjt), fun sc hsc hcur hle => ?_⟩,
    by rw [hch, hpu], by rw [hch, hfa]; simp [hn], by rw [hch, hen], fun j hj => ?_⟩
  · rw [hsum, hal]
    exact hold.shortage.trans f3
  · rw [hold.flags, f4]
    exact s.committed_short_of_firing hs _ _
  · have a := (hrl l).trans (hlat l hl)
    rwa [Bool.or_false] at a
  · exact fun e' => State.not_mem_takenList hin0 e he e'
  · exact (State.mem_takenList he).1
  · rw [State.assignedTo, htc]
    exact hra e he
  · have hun : u.units = s.units := by rw [hrs]
    exact (htaken _ (f8 sc hsc)).appending rfl hcur (.inr hle) (State.unit_of_units hun h) (by rw [hrs]) (by rw [hrs])
      hsto (by rw [hrs]) f7
  · rw [← (hro j hj).1]
    simp [State.claim, hj]


end Sys2Proof.Machine
end


-- ==== Sys2Proof/Proofs/Deferral.lean ====
section
/-! PROOFS. The release of an allocation, and the deferral that expires. -/

namespace Sys2Proof.Machine

/-! ### Releasing an allocation (R17) -/

/-- The entries of hall `h`'s claim `c` whose cylinders are ASSIGNED to it (R17). -/
def State.heldEntries (s : State) (h : Hall) (c : Claim) : List Entry := c.allocation.filter fun e => s.assignedTo h e.cyl

theorem State.releaseAllocation_eq {s : State} {h : Hall} {c : Claim} (hc : s.claim h = some c) :
    ∃ b, s.releaseAllocation h = (((s.heldEntries h c).foldl (fun s e => s.setDisposition e.cyl .free) s).reallocate h
      false []).poolGainIf b := by
  unfold State.releaseAllocation
  rw [hc]
  exact ⟨_, rfl⟩

/-- The claim whose allocation is released (R17). -/
theorem State.claim_releaseAllocation_of_live {s : State} {h : Hall} {c : Claim} (hc : s.claim h = some c)
    (ht : c.state.terminal = false) : (s.releaseAllocation h).claim h = some (c.changedTo false []) := by
  obtain ⟨b, e⟩ := State.releaseAllocation_eq hc
  have h1 : ((s.heldEntries h c).foldl (fun s e => s.setDisposition e.cyl .free) s).claim h = some c := by
    simpa [State.claim] using hc
  rw [e, ← Claim.reflag_eq_changedTo _ _ _ ht, ← State.claim_reallocate _ h false [] c h1]
  simp [State.claim]

/-- The cylinders of an allocation released are FREE, those ASSIGNED to its hall, and every other record stands (R17). -/
theorem State.cyl_releaseAllocation {s : State} {h : Hall} {c : Claim} (hc : s.claim h = some c) (k : CylIdx) :
    (s.releaseAllocation h).cyl k =
      if (∃ e ∈ c.allocation, e.cyl = k) ∧ s.assignedTo h k = true then
        (s.cyl k).map fun y => { y with disposition := .free }
      else s.cyl k := by
  obtain ⟨b, e⟩ := State.releaseAllocation_eq hc
  rw [e, State.cyl_poolGainIf, State.cyl_reallocate, State.cyl_foldl_setDisposition]
  refine if_congr ?_ rfl rfl
  simp only [State.heldEntries, List.mem_map, List.mem_filter]
  constructor
  · rintro ⟨e, ⟨he, ha⟩, rfl⟩
    exact ⟨⟨e, he, rfl⟩, ha⟩
  · rintro ⟨⟨e, he, rfl⟩, ha⟩
    exact ⟨e, ⟨he, ha⟩, rfl⟩

/-! ### The deferral that expires (R120) -/

/-- The schedule whose unfired lines are ABANDONED (R120). -/
def Schedule.abandoned (sc : Schedule) : Schedule :=
  { sc with lines := sc.lines.take sc.cursor ++ (sc.lines.drop sc.cursor).map fun l => { l with status := .abandoned } }

/-- The claim whose unfired lines are ABANDONED, before it enters CONFIRMING (R120). -/
def Claim.abandoned (c : Claim) (sc : Schedule) : Claim :=
  let c1 := { c with schedule := some sc.abandoned }.changedTo false []
  { c1 with flags := { c1.flags with part := true } }

/-- The state in which the deferral that has expired enters CONFIRMING (R120). -/
def State.abandonedClaim (s : State) (h : Hall) : State :=
  (((s.updSchedule h Schedule.abandoned).releaseAllocation h).updClaim h fun c =>
    { c with flags := { c.flags with part := true } }).setLatch h .part

theorem State.abandon_eq (s : State) (h : Hall) : s.abandon h = (s.abandonedClaim h).enterConfirming h := rfl

/-- What the expiry leaves before CONFIRMING: the claim, the cylinders, the port (R17, R120). -/
theorem State.abandonedClaim_rule {s : State} {h : Hall} {c : Claim} {sc : Schedule} (hc : s.claim h = some c)
    (ht : c.state.terminal = false) (hsc : c.schedule = some sc) :
    (s.abandonedClaim h).claim h = some (c.abandoned sc) ∧
      (∀ e ∈ c.allocation, s.assignedTo h e.cyl = true →
        ∃ y, (s.abandonedClaim h).cyl e.cyl = some y ∧ y.disposition = .free) ∧
      ((s.abandonedClaim h).port h).latches.get .part ≠ .clear ∧
      s.abandonedClaim h = { s with
        claims := (s.abandonedClaim h).claims, cyls := (s.abandonedClaim h).cyls
        ports := (s.abandonedClaim h).ports, poolGains := (s.abandonedClaim h).poolGains } ∧
      ∀ j, j ≠ h → (s.abandonedClaim h).claim j = s.claim j ∧ (s.abandonedClaim h).port j = s.port j := by
  have h1 := State.claim_updSchedule hc Schedule.abandoned
  rw [hsc] at h1
  have h2 := State.claim_releaseAllocation_of_live h1 (by exact ht)
  refine ⟨?_, fun e he ha => ?_, State.setLatch_set _ h .part, ?_, fun j hj => ?_⟩
  · have e : (s.abandonedClaim h).claim h = (((s.updSchedule h Schedule.abandoned).releaseAllocation h).updClaim h fun c =>
      { c with flags := { c.flags with part := true } }).claim h := rfl
    rw [e, State.claim_updClaim_self, h2]
    rfl
  · have e1 : (s.abandonedClaim h).cyl e.cyl = ((s.updSchedule h Schedule.abandoned).releaseAllocation h).cyl e.cyl := rfl
    have ha' : (s.updSchedule h Schedule.abandoned).assignedTo h e.cyl = true := ha
    rw [e1, State.cyl_releaseAllocation h1, if_pos ⟨⟨e, he, rfl⟩, ha'⟩]
    have hk : (s.updSchedule h Schedule.abandoned).cyl e.cyl = s.cyl e.cyl := rfl
    rw [hk]
    cases hy : s.cyl e.cyl with
    | none => simp [State.assignedTo, hy] at ha
    | some y => exact ⟨_, rfl, rfl⟩
  · unfold State.abandonedClaim
    refine State.eq_of_fields ?_ ?_ ?_ ?_ ?_ rfl ?_ rfl ?_ ?_ rfl ?_ ?_ ?_ ?_ rfl ?_ <;> simp
  · unfold State.abandonedClaim
    exact ⟨by simp [State.claim, hj], by simp [State.port, hj]⟩

/-- The lines before the cursor stand, and those after it are ABANDONED (R120). -/
theorem Schedule.abandoned_lines (sc : Schedule) :
    sc.abandoned.lines.length = sc.lines.length ∧ (∀ i, i < sc.cursor → sc.abandoned.lines[i]? = sc.lines[i]?) ∧
      ∀ i l, sc.cursor ≤ i → sc.lines[i]? = some l → sc.abandoned.lines[i]? = some { l with status := .abandoned } := by
  unfold Schedule.abandoned
  dsimp only
  refine ⟨by simp; omega, fun i hi => ?_, fun i l hi hl => ?_⟩
  · by_cases hlt : i < sc.lines.length
    · rw [List.getElem?_append_left (by simp; omega), List.getElem?_take, if_pos hi]
    · rw [List.getElem?_eq_none (by simp; omega), List.getElem?_eq_none (by omega)]
  · have hlt : i < sc.lines.length := (List.getElem?_eq_some_iff.1 hl).1
    rw [List.getElem?_append_right (by simp; omega), List.getElem?_map, List.getElem?_drop, List.length_take,
      Nat.min_eq_left (by omega), Nat.add_sub_cancel' hi, hl]
    rfl

theorem exec_deferralExpiry {s : State} {h : Hall} {cl : Claim} (hc : s.claim h = some cl) (hs : cl.state = .firing)
    (hr : (s.unit h).raised s.now .deferral = true) :
    exec (.deferralExpiry h) s = .next (((s.removeUnit h).abandonedClaim h).enterConfirming h) := by
  have hst : s.claimState h = some .firing := by simp [State.claimState, hc, hs]
  simp [exec, execDeferralExpiry, State.takeClaimExpiry, hr, hst, State.abandon_eq]

/-- Settles O39: what the expiry leaves, then the entry to CONFIRMING. -/
theorem deferralExpires : Obligations.DeferralExpires := by
  intro s h cl sc last t0 hc hs hsc hcur hlast ht0 hr
  have hc0 : (s.removeUnit h).claim h = some cl := hc
  obtain ⟨hc1, hcy, hla, hst, hoth⟩ := State.abandonedClaim_rule hc0 (by rw [hs]; rfl) hsc
  obtain ⟨hlen, hbefore, hafter⟩ := sc.abandoned_lines
  obtain ⟨cl', hcl', hold, hd, hsch, hlat, hseen, hunseen⟩ := State.enterConfirming_holding hc1
  refine ⟨_, cl', sc.abandoned, exec_deferralExpiry hc hs hr, hcl', by rw [hold.flags]; rfl, hold.allocation,
    hold.fired, hsch, hlen, rfl, hbefore, hafter, fun e he ha => ?_, ?_, fun j hj => ⟨?_, ?_⟩, fun hn => ?_, fun hn => ?_⟩
  · obtain ⟨y, hy, hf⟩ := hcy e he ha
    exact ⟨y, by rw [← hy]; simp [State.cyl], hf⟩
  · have hp := hlat .part (by decide)
    have hp' : ((((s.removeUnit h).abandonedClaim h).enterConfirming h).port h).latches.get .part =
        (((s.removeUnit h).abandonedClaim h).port h).latches.get .part := hp
    rw [← hp'] at hla
    exact hla
  · have hcj : ((s.removeUnit h).abandonedClaim h).claim j = s.claim j := (hoth j hj).1
    rw [← hcj]
    simp [State.claim, hj]
  · have hu : ((s.removeUnit h).abandonedClaim h).unit j = s.unit j := by
      rw [hst]
      exact (State.unit_removeUnit s h j).trans (if_neg hj)
    rw [← hu]
    simp [State.unit, hj]
  · have hl : sc.abandoned.lastLineTime = some t0 := by
      rw [Schedule.lastLineTime, show sc.abandoned.cursor = sc.cursor from rfl, hbefore _ (by omega), hlast]
      exact ht0
    have hnow : ((s.removeUnit h).abandonedClaim h).now = s.now := by rw [hst]; rfl
    have htim : ((s.removeUnit h).abandonedClaim h).timing = s.timing := by rw [hst]; rfl
    have he := State.enterConfirming_unseen hc1 hn
    have hlc : ((cl.abandoned sc).schedule.bind (·.lastLineTime)) = some t0 := hl
    rw [hlc, Option.getD_some, htim] at he
    refine ⟨hunseen hn, ?_, fun j hj => ?_, ?_⟩
    · rw [he, State.unit_loadUnit, if_pos rfl, ← hnow]
      rfl
    · rw [he, ← (show (s.removeUnit h).port j = s.port j from rfl), ← (hoth j hj).2]
      rfl
    · rw [he]
      have e1 : ∀ u : State, u = { s.removeUnit h with
          claims := u.claims, cyls := u.cyls, ports := u.ports, poolGains := u.poolGains } → ∀ d k f,
          (u.updClaim h f).loadUnit h d k = { s with
            claims := ((u.updClaim h f).loadUnit h d k).claims, units := ((u.updClaim h f).loadUnit h d k).units
            cyls := ((u.updClaim h f).loadUnit h d k).cyls, ports := ((u.updClaim h f).loadUnit h d k).ports
            poolGains := ((u.updClaim h f).loadUnit h d k).poolGains } := by
        intro u hu d k f
        rw [hu]
        rfl
      exact e1 _ hst _ _ _
  · exact ⟨hd, (hseen hn).congr (by rw [hst]; rfl) (by rw [hst]; rfl)⟩


end Sys2Proof.Machine
end


-- ==== Sys2Proof/Proofs/Bytes.lean ====
section
/-! PROOFS. Where a number stands in the bytes of a reply, and where a field stands in a number. -/

namespace Sys2Proof.Machine

/-! ### Words in a list of bytes -/

theorem wordAt_append_left {a : List Byte} {i n : Nat} (h : i + n ≤ a.length) (b : List Byte) :
    wordAt (a ++ b) i n = wordAt a i n := by
  rw [wordAt, wordAt, List.drop_append_of_le_length (by omega), List.take_append_of_le_length (by simp; omega)]

theorem wordAt_append_right {a : List Byte} {i : Nat} (h : a.length ≤ i) (b : List Byte) (n : Nat) :
    wordAt (a ++ b) i n = wordAt b (i - a.length) n := by
  rw [wordAt, wordAt, List.drop_append, List.drop_eq_nil_of_le h, List.nil_append]

/-- A word past the bytes of a number. -/
@[simp] theorem wordAt_bytesOf_skip {m i : Nat} (h : m ≤ i) (x : Nat) (b : List Byte) (n : Nat) :
    wordAt (bytesOf m x ++ b) i n = wordAt b (i - m) n := by
  rw [wordAt_append_right (by simpa using h), length_bytesOf]

/-- The word that a number's own bytes spell. -/
@[simp] theorem wordAt_bytesOf_head (n x : Nat) (b : List Byte) : wordAt (bytesOf n x ++ b) 0 n = x % 256 ^ n :=
  wordAt_bytesOf [] b n x

@[simp] theorem wordAt_bytesOf_self (n x : Nat) : wordAt (bytesOf n x) 0 n = x % 256 ^ n := by
  rw [← wordAt_bytesOf_head n x [], List.append_nil]

/-- Bytes of 0 spell 0. -/
@[simp] theorem wordAt_replicate_zero (k i n : Nat) : wordAt (List.replicate k 0) i n = 0 := by
  have h : ∀ m, number (List.replicate m 0) = 0 := by
    intro m
    induction m with
    | zero => rfl
    | succ m ih => rw [List.replicate_succ', number_append, ih]; rfl
  rw [wordAt, List.drop_replicate, List.take_replicate, h]

/-- A word of the bytes of the element at place `i`, where every element has `m` bytes. -/
theorem wordAt_flatMap {α : Type} {f : α → List Byte} {m : Nat} (hf : ∀ x, (f x).length = m) {o n : Nat} (ho : o + n ≤ m)
    (l : List α) {i : Nat} {x : α} (hx : l[i]? = some x) (rest : List Byte) :
    wordAt (l.flatMap f ++ rest) (m * i + o) n = wordAt (f x) o n := by
  induction l generalizing i with
  | nil => simp at hx
  | cons y l ih =>
    rw [List.flatMap_cons, List.append_assoc]
    cases i with
    | zero =>
      have e : y = x := by simpa using hx
      rw [Nat.mul_zero, Nat.zero_add, wordAt_append_left (by rw [hf]; exact ho), e]
    | succ i =>
      rw [wordAt_append_right (by rw [hf, Nat.mul_succ]; omega), hf, ← ih (i := i) (by simpa using hx)]
      congr 1
      rw [Nat.mul_succ]
      omega

/-- The bytes of the element at place `i`, where every element has `m` bytes. -/
theorem take_drop_flatMap {α : Type} {f : α → List Byte} {m : Nat} (hf : ∀ x, (f x).length = m) (l : List α) {i : Nat}
    {x : α} (hx : l[i]? = some x) : ((l.flatMap f).drop (m * i)).take m = f x := by
  induction l generalizing i with
  | nil => simp at hx
  | cons y l ih =>
    rw [List.flatMap_cons]
    cases i with
    | zero =>
      have e : y = x := by simpa using hx
      rw [Nat.mul_zero, List.drop_zero, e, List.take_left' (hf x)]
    | succ i =>
      have e : m * (i + 1) = (f y).length + m * i := by rw [hf, Nat.mul_succ, Nat.add_comm]
      rw [e, List.drop_append, List.drop_eq_nil_of_le (by omega), Nat.add_sub_cancel_left, List.nil_append]
      exact ih (by simpa using hx)

/-- A word past the bytes of every element. -/
theorem wordAt_flatMap_end {α : Type} {f : α → List Byte} {m : Nat} (hf : ∀ x, (f x).length = m) (l : List α) {i : Nat}
    (hi : l.length ≤ i) (rest : List Byte) (o n : Nat) :
    wordAt (l.flatMap f ++ rest) (m * i + o) n = wordAt rest (m * (i - l.length) + o) n := by
  have hl : (l.flatMap f).length = m * l.length := by
    rw [List.length_flatMap, List.map_congr_left (g := fun _ => m) fun x _ => hf x]
    simp [Nat.mul_comm]
  have hm : m * l.length ≤ m * i := Nat.mul_le_mul_left m hi
  rw [wordAt_append_right (by omega), hl, Nat.mul_sub]
  congr 1
  omega

/-! ### Fields of a number -/

/-- A number cut to some bits keeps the fields within them. -/
theorem fieldOf_mod {m lo w : Nat} (h : lo + w ≤ m) (x : Nat) : fieldOf (x % 2 ^ m) lo w = fieldOf x lo w := by
  obtain ⟨d, rfl⟩ := Nat.exists_eq_add_of_le h
  rw [fieldOf, fieldOf, Nat.add_assoc, Nat.pow_add, Nat.mod_mul_right_div_self, Nat.pow_add, Nat.mod_mul_right_mod]

@[simp] theorem fieldOf_mod_byte {lo w : Nat} (h : lo + w ≤ 8) (x : Nat) : fieldOf (x % 256) lo w = fieldOf x lo w :=
  fieldOf_mod (m := 8) h x

@[simp] theorem fieldOf_mod_word {lo w : Nat} (h : lo + w ≤ 16) (x : Nat) : fieldOf (x % 65536) lo w = fieldOf x lo w :=
  fieldOf_mod (m := 16) h x

@[simp] theorem fieldOf_mod_three {lo w : Nat} (h : lo + w ≤ 24) (x : Nat) : fieldOf (x % 16777216) lo w = fieldOf x lo w :=
  fieldOf_mod (m := 24) h x

@[simp] theorem fieldOf_pack_skip {w lo : Nat} (h : w ≤ lo) (x n : Nat) (rest : List (Nat × Nat)) :
    fieldOf (pack ((w, x) :: rest)) lo n = fieldOf (pack rest) (lo - w) n := by
  obtain ⟨d, rfl⟩ := Nat.exists_eq_add_of_le h
  rw [fieldOf_pack_tail, Nat.add_sub_cancel_left]

theorem bit_eq_toNat (b : Bool) : bit b = b.toNat := by cases b <;> rfl

/-! ### Codes -/

/-- The channel found for a function is the lowest-numbered whose role names it (R162). -/
theorem State.channelOf_of_lowest {s : State} {r : Role} {c : ChanIdx} (hc : s.role c = r)
    (hl : ∀ d, s.role d = r → c ≤ d) : s.channelOf r = some (s.channel c) := by
  have hf : allChannels.find? (fun c => s.role c = r) = some c := by
    rw [List.find?_eq_some_iff_getElem]
    refine ⟨by simpa using hc, c.val, by simp [allChannels], by simp [allChannels], fun j hj => ?_⟩
    have hlt : j < 80 := by omega
    have hn : s.role ⟨j, hlt⟩ ≠ r := fun e => absurd (hl _ e) (by simpa [Fin.le_def] using hj)
    simpa [allChannels] using hn
  rw [State.channelOf, hf]
  rfl

/-- No channel is found for a function that no role names (R162). -/
theorem State.channelOf_of_none {s : State} {r : Role} (h : ∀ c, s.role c ≠ r) : s.channelOf r = none := by
  have hf : allChannels.find? (fun c => s.role c = r) = none := List.find?_eq_none.2 fun c _ => by simpa using h c
  rw [State.channelOf, hf]
  rfl

theorem lineStateCode_lt (l : LineState) : lineStateCode l < 4 := by cases l <;> decide

/-- The measured state shown for a function is that of its lowest-numbered channel, UNKNOWN without one (R162). -/
theorem State.shows_functionState (s : State) (r : Role) {code : Nat} (hcode : code = lineStateCode (s.functionState r)) :
    s.shows r code := by
  refine ⟨fun h => ?_, fun c hc hl => ?_⟩
  · rw [hcode, State.functionState, State.channelOf_of_none h]
    rfl
  · rw [hcode, State.functionState, State.channelOf_of_lowest hc hl]
    dsimp only
    cases (s.channel c).measured <;> rfl

/-- A field of the first value of a pack. -/
theorem fieldOf_pack_within {w lo n : Nat} (h : lo + n ≤ w) (x : Nat) (rest : List (Nat × Nat)) :
    fieldOf (pack ((w, x) :: rest)) lo n = fieldOf x lo n := by
  rw [← fieldOf_mod h (pack ((w, x) :: rest)), ← fieldOf_mod h x]
  congr 1
  simp [pack]

/-- A bit of a pack of bits. -/
theorem fieldOf_pack_bits {α : Type} (f : α → Bool) (l : List α) {i : Nat} {x : α} (hx : l[i]? = some x) :
    fieldOf (pack (l.map fun y => (1, bit (f y)))) i 1 = (f x).toNat := by
  induction l generalizing i with
  | nil => simp at hx
  | cons y l ih =>
    cases i with
    | zero =>
      have e : y = x := by simpa using hx
      rw [List.map_cons, fieldOf_pack_head, e, bit_eq_toNat]
      cases f x <;> rfl
    | succ i =>
      rw [List.map_cons, fieldOf_pack_skip (by omega)]
      exact ih (by simpa using hx)

@[simp] theorem bit_mod_two (b : Bool) : bit b % 2 = b.toNat := by cases b <;> rfl

/-- Some entries of `m` bytes each, and zeros after them: the word of entry `i`, 0 where there is none. -/
theorem wordAt_entries {α : Type} {f : α → List Byte} {m : Nat} (hf : ∀ x, (f x).length = m) {o n : Nat}
    (ho : o + n ≤ m) (l : List α) (i k : Nat) :
    wordAt (l.flatMap f ++ List.replicate k 0) (m * i + o) n = (l[i]?.map fun x => wordAt (f x) o n).getD 0 := by
  cases hx : l[i]? with
  | some x => exact wordAt_flatMap hf ho l hx _
  | none => rw [wordAt_flatMap_end hf l (List.getElem?_eq_none_iff.1 hx), wordAt_replicate_zero]; rfl

theorem length_flatMap_of_const {α : Type} {f : α → List Byte} {m : Nat} (hf : ∀ x, (f x).length = m) (l : List α) :
    (l.flatMap f).length = m * l.length := by
  rw [List.length_flatMap, List.map_congr_left (g := fun _ => m) fun x _ => hf x]
  simp [Nat.mul_comm]

theorem length_padTo {n : Nat} {bs : List Byte} (h : bs.length ≤ n) : (padTo n bs).length = n := by
  rw [padTo, List.length_append, List.length_replicate]
  omega

theorem padTo_self {n : Nat} {bs : List Byte} (h : bs.length = n) : padTo n bs = bs := by
  rw [padTo, h, Nat.sub_self, List.replicate_zero, List.append_nil]

@[simp] theorem allHalls_getElem? (h : Hall) : allHalls[h.val]? = some h := by
  revert h
  decide

end Sys2Proof.Machine
end


-- ==== Sys2Proof/Proofs/Pages.lean ====
section
/-! PROOFS. The pages of the site replies carry the state field by field. -/

namespace Sys2Proof.Machine

/-! ### Codes: each value stands at its code in the list of its codes -/

theorem readingCode_decodes (x : Option Bool) : [none, some false, some true][readingCode x % 4]? = some x := by
  rcases x with _ | _ | _ <;> rfl

theorem loopStateCode_decodes (x : Option LoopState) :
    [none, some LoopState.normal, some .fault][loopStateCode x % 4]? = some x := by
  rcases x with _ | _ | _ <;> rfl

theorem selectorReadingCode_decodes (x : Option Valve) :
    [none, some Valve.closed, some .opened][selectorReadingCode x % 4]? = some x := by
  rcases x with _ | _ | _ <;> rfl

theorem manifoldStateCode_decodes (x : ManifoldState) :
    [ManifoldState.idle, .opening, .discharging, .closing, .venting][manifoldStateCode x % 256]? = some x := by
  cases x <;> rfl

theorem ventResultCode_decodes (x : VentResult) :
    [VentResult.none, .ok, .timeout][ventResultCode x % 256]? = some x := by
  cases x <;> rfl

theorem hallCode_eq (o : Option Hall) : hallCode o % 256 = (o.map (·.val + 1)).getD 0 := by
  cases o with
  | none => rfl
  | some h => exact Nat.mod_eq_of_lt (show h.val + 1 < 256 by omega)

/-! ### SITE_POLL (R111, R162, R175) -/

theorem length_pollHallByte (s : State) (h : Hall) : (s.pollHallByte h).length = 1 := by simp [State.pollHallByte]

theorem pollPage0_shown (s : State) : PollPage0 s s.pollPage0 := by
  have hhall : ∀ h : Hall, wordAt s.pollPage0 (12 + h.val) 1 = wordAt (s.pollHallByte h) 0 1 := fun h => by
    have e := wordAt_flatMap (length_pollHallByte s) (o := 0) (n := 1) (by omega) allHalls (allHalls_getElem? h) []
    simp only [List.append_nil, Nat.one_mul, Nat.add_zero] at e
    rw [State.pollPage0, wordAt_append_right (by simp), ← e]
    simp
  refine ⟨?_, ?_, ?_, ?_, ?_, ?_, ?_, fun h => ?_, ⟨?_, ?_, ?_⟩, ⟨?_, ?_⟩, fun h => ?_⟩
  · simp only [State.pollPage0, List.length_append, length_bytesOf, length_flatMap_of_const (length_pollHallByte s)]
    rfl
  · simp [State.pollPage0, manifoldStateCode_decodes]
  · simp [State.pollPage0, hallCode_eq]
  · simp [State.pollPage0, hallCode_eq]
  · simp [State.pollPage0]
  · simp [State.pollPage0, ventResultCode_decodes]
  · have e : wordAt s.pollPage0 7 2 = pressureCode s.manifold.pressure % 65536 := by simp [State.pollPage0]
    rw [e]
    cases s.manifold.pressure with
    | none => rfl
    | some x => cases x <;> rfl
  · have e : wordAt s.pollPage0 9 1 = pack (allHalls.map fun h => (1, bit (s.mismatch h))) % 256 := by
      simp [State.pollPage0]
    rw [e, fieldOf_mod_byte (by omega)]
    exact fieldOf_pack_bits s.mismatch allHalls (allHalls_getElem? h)
  · simp [State.pollPage0, fieldOf_pack_head, readingCode_decodes]
  · simp [State.pollPage0, fieldOf_pack_head]
  · refine s.shows_functionState .vent ?_
    simp [State.pollPage0, fieldOf_pack_head, Nat.mod_eq_of_lt (lineStateCode_lt _)]
  · simp [State.pollPage0, fieldOf_pack_head, readingCode_decodes]
  · simp [State.pollPage0, fieldOf_pack_head, loopStateCode_decodes]
  · rw [hhall]
    refine ⟨s.shows_functionState (.selector h) ?_, ?_, ?_, ?_⟩
    · simp [State.pollHallByte, fieldOf_pack_head, Nat.mod_eq_of_lt (lineStateCode_lt _)]
    · simp [State.pollHallByte, fieldOf_pack_head]
    · simp [State.pollHallByte, fieldOf_pack_head, selectorReadingCode_decodes]
    · simp [State.pollHallByte, fieldOf_pack_head, loopStateCode_decodes]

/-- The bytes of an entry of the wait list: its hall, and its ready at (R111). -/
def waitEntryBytes (w : WaitEntry) : List Byte := bytesOf 1 (w.hall.val + 1) ++ bytesOf 4 w.readyAt.toNat

theorem length_waitEntryBytes (w : WaitEntry) : (waitEntryBytes w).length = 5 := by simp [waitEntryBytes]

theorem pollPage1_eq (s : State) : ∃ n, s.pollPage1 = bytesOf 1 s.manifold.waitList.length ++
    ((s.manifold.waitList.take 8).flatMap waitEntryBytes ++ List.replicate n 0) :=
  ⟨_, List.append_assoc _ _ _⟩

theorem pollPage1_shown (s : State) : PollPage1 s s.pollPage1 := by
  obtain ⟨n, e⟩ := pollPage1_eq s
  refine ⟨?_, ?_, fun i hi => ?_⟩
  · have hl : (bytesOf 1 s.manifold.waitList.length ++
        (s.manifold.waitList.take 8).flatMap waitEntryBytes).length ≤ 41 := by
      rw [List.length_append, length_bytesOf, length_flatMap_of_const length_waitEntryBytes, List.length_take]
      omega
    exact length_padTo hl
  · rw [e, wordAt_bytesOf_head]
    rfl
  · have ht : (s.manifold.waitList.take 8)[i]? = s.manifold.waitList[i]? := by rw [List.getElem?_take, if_pos hi]
    have h1 := wordAt_entries length_waitEntryBytes (o := 0) (n := 1) (by omega) (s.manifold.waitList.take 8) i n
    have h2 := wordAt_entries length_waitEntryBytes (o := 1) (n := 4) (by omega) (s.manifold.waitList.take 8) i n
    rw [ht] at h1 h2
    rw [e, wordAt_bytesOf_skip (by omega), wordAt_bytesOf_skip (by omega), show 1 + 5 * i - 1 = 5 * i + 0 by omega,
      show 2 + 5 * i - 1 = 5 * i + 1 by omega, h1, h2]
    cases s.manifold.waitList[i]? with
    | none => simp
    | some w =>
      have hh : (w.hall.val + 1) % 256 = w.hall.val + 1 := Nat.mod_eq_of_lt (by omega)
      have hr : w.readyAt.toNat % 4294967296 = w.readyAt.toNat := Nat.mod_eq_of_lt (by
        have := w.readyAt.isLt
        omega)
      simp [waitEntryBytes, hh, hr]

theorem latchBits_field (p : LatchState → Bool) (ls : Latches) {i : Nat} {l : Latch} (hl : latchOrder[i]? = some l) :
    fieldOf (latchBits p ls) i 1 = (p (ls.get l)).toNat :=
  fieldOf_pack_bits (fun l => p (ls.get l)) latchOrder hl

theorem linkStateCode_decodes (x : LinkState) : [LinkState.unarmed, .active, .lost][linkStateCode x % 4]? = some x := by
  cases x <;> rfl

/-- The bytes of one port (R175). -/
def State.portBytes (s : State) (h : Hall) : List Byte :=
  bytesOf 3 (pack [(9, latchSetBits (s.port h).latches), (9, latchReportedBits (s.port h).latches),
    (2, linkStateCode (s.port h).link)])

theorem length_portBytes (s : State) (h : Hall) : (s.portBytes h).length = 3 := by simp [State.portBytes]

theorem pollPage2_shown (s : State) : PollPage2 s s.pollPage2 := by
  have hword : ∀ h : Hall, wordAt s.pollPage2 (3 * h.val) 3 = pack [(9, latchSetBits (s.port h).latches),
      (9, latchReportedBits (s.port h).latches), (2, linkStateCode (s.port h).link)] % 16777216 := fun h => by
    have e := wordAt_flatMap (length_portBytes s) (o := 0) (n := 3) (by omega) allHalls (allHalls_getElem? h) []
    rw [List.append_nil, Nat.add_zero] at e
    exact e.trans (wordAt_bytesOf_self 3 _)
  refine ⟨?_, fun h i l hl => ?_, fun h => ?_⟩
  · exact length_flatMap_of_const (length_portBytes s) allHalls
  · have hi : i < 9 := (List.getElem?_eq_some_iff.1 hl).1
    rw [hword, fieldOf_mod_three (by omega), fieldOf_mod_three (by omega), fieldOf_pack_within (by omega),
      fieldOf_pack_tail, fieldOf_pack_within (by omega)]
    exact ⟨latchBits_field (fun x => decide (x ≠ .clear)) _ hl, latchBits_field (fun x => decide (x = .reported)) _ hl⟩
  · rw [hword]
    simp [fieldOf_pack_head, linkStateCode_decodes]

/-! ### CYLINDER_QUERY (R26, R162) -/

theorem conditionCode_decodes (x : Condition) :
    [Condition.full, .low, .empty, .unread][conditionCode x % 4]? = some x := by
  cases x <;> rfl

theorem cylinderRecord_fitted {s : State} {k : CylIdx} {c : Cylinder} (hc : s.cyl k = some c) :
    ∃ failed, s.cylinderRecord k =
      bytesOf 1 (pack [(1, 1), (1, bit (s.rackRole k = .reserve)), (1, bit (s.image.cylinders[k]).inService), (2, c.streak),
        (1, bit failed)]) ++ (bytesOf 1 (pack [(2, conditionCode c.condition), (3, dispositionCode c.disposition),
        (2, causeCode c.disposition)]) ++ (bytesOf 1 (ownerCode c.disposition) ++
        (bytesOf 1 (lineStateCode (s.functionState (.cylinder k))) ++ (bytesOf 2 (s.image.cylinders[k]).qNom ++
        (bytesOf 2 (s.image.cylinders[k]).pNom ++ (bytesOf 2 c.pAvg ++ (bytesOf 2 c.phi ++ bytesOf 2 c.e))))))) ∧
      ∀ d, s.role d = .cylinder k → (∀ x, s.role x = .cylinder k → d ≤ x) → failed = (s.channel d).failedPulse := by
  cases hch : s.channelOf (.cylinder k) with
  | none =>
    refine ⟨false, by simp only [State.cylinderRecord, hc, hch, List.append_assoc], fun d hd hl => ?_⟩
    rw [State.channelOf_of_lowest hd hl] at hch
    cases hch
  | some ch =>
    refine ⟨ch.failedPulse, by simp only [State.cylinderRecord, hc, hch, List.append_assoc], fun d hd hl => ?_⟩
    rw [State.channelOf_of_lowest hd hl] at hch
    rw [Option.some.inj hch]

theorem cylinderRecord_unfitted {s : State} {k : CylIdx} (hc : s.cyl k = none) : s.cylinderRecord k =
      bytesOf 1 (pack [(1, 0), (1, bit (s.rackRole k = .reserve))]) ++ (bytesOf 3 0 ++ (bytesOf 2 (s.image.cylinders[k]).qNom ++
        (bytesOf 2 (s.image.cylinders[k]).pNom ++ bytesOf 6 0))) := by
  simp only [State.cylinderRecord, hc, List.append_assoc]

/-- The fault cause and the owner that a record carries (R26). -/
theorem causeCode_lt (d : Disposition) : causeCode d < 4 := by
  unfold causeCode
  split <;> decide

theorem ownerCode_lt (d : Disposition) : ownerCode d < 256 := by
  unfold ownerCode
  split
  · omega
  · decide

theorem cylinderRecord_shown (s : State) (k : CylIdx) : CylinderShown s k (s.cylinderRecord k) := by
  cases hc : s.cyl k with
  | none =>
    have e := cylinderRecord_unfitted hc
    refine ⟨?_, ?_, ⟨?_, ?_, ?_⟩, fun _ => ?_, fun c h => ?_, fun c h => ?_, fun hs => ?_⟩
    · simp [e]
    · simp [e, fieldOf_pack_head, hc]
    · simp [e, fieldOf_pack_head]
    · simp [e]
    · simp [e]
    · simp [e]
    · rw [hc] at h; cases h
    · rw [hc] at h; cases h
    · rw [hc] at hs; cases hs
  | some c =>
    obtain ⟨failed, e, hf⟩ := cylinderRecord_fitted hc
    refine ⟨?_, ?_, ⟨?_, ?_, ?_⟩, fun h => ?_, fun c' h => ?_, fun c' h => ?_, fun _ => ⟨?_, fun d hd hl => ?_⟩⟩
    · simp [e]
    · simp [e, fieldOf_pack_head, hc]
    · simp [e, fieldOf_pack_head]
    · simp [e]
    · simp [e]
    · rw [hc] at h; cases h
    · obtain rfl : c = c' := Option.some.inj (hc.symm.trans h)
      simp [e, fieldOf_pack_head, conditionCode_decodes]
    · obtain rfl : c = c' := Option.some.inj (hc.symm.trans h)
      have h1 : fieldOf (wordAt (s.cylinderRecord k) 1 1) 5 2 = causeCode c.disposition := by
        simp [e, fieldOf_pack_head, Nat.mod_eq_of_lt (causeCode_lt _)]
      have h2 : wordAt (s.cylinderRecord k) 2 1 = ownerCode c.disposition := by
        simp [e, Nat.mod_eq_of_lt (ownerCode_lt _)]
      have h3 : fieldOf (wordAt (s.cylinderRecord k) 1 1) 2 3 = dispositionCode c.disposition % 8 := by
        simp [e, fieldOf_pack_head]
      dsimp only
      rw [h1, h2, h3]
      cases hd : c.disposition with
      | actuatorFault x => cases x <;> simp [dispositionCode, ownerCode, causeCode]
      | free => simp [dispositionCode, ownerCode, causeCode]
      | assigned h => simp [dispositionCode, ownerCode, causeCode]
      | fired => simp [dispositionCode, ownerCode, causeCode]
      | isolated => simp [dispositionCode, ownerCode, causeCode]
    · refine s.shows_functionState (.cylinder k) ?_
      simp [e, Nat.mod_eq_of_lt (Nat.lt_trans (lineStateCode_lt _) (by decide : 4 < 256))]
    · rw [← hf d hd hl]
      simp [e, fieldOf_pack_head]

end Sys2Proof.Machine
end


-- ==== Sys2Proof/Proofs/ClaimPages.lean ====
section
/-! PROOFS. The pages of CLAIM_QUERY carry the claim field by field. -/

namespace Sys2Proof.Machine

/-! ### Times and codes -/

@[simp] theorem time_mod (t : Time) : t.toNat % 4294967296 = t.toNat := by
  have := t.isLt
  omega

theorem toNat_getD_time (t : Option Time) : (t.getD 0#32).toNat = (t.map (·.toNat)).getD 0 := by cases t <;> rfl

theorem time_getD_lt (t : Option Time) : (t.map (·.toNat)).getD 0 < 4294967296 := by
  cases t with
  | none => decide
  | some t => exact t.isLt

theorem claimStateCode_decodes (x : ClaimState) :
    [none, some ClaimState.countdown, some .hold, some .starved, some .waiting, some .selecting, some .firing,
      some .confirming, some .discharged, some .aborted, some .failed][claimStateCode x % 16]? = some (some x) := by
  cases x <;> rfl

theorem basisCode_decodes (x : Basis) : [Basis.auto, .manual][basisCode x % 2]? = some x := by cases x <;> rfl

theorem delaySourceCode_decodes (x : DelaySource) :
    [DelaySource.autoDelay, .manualDelay, .resumeMin, .remaining][delaySourceCode x % 4]? = some x := by cases x <;> rfl

theorem endReasonCode_decodes (x : Option EndReason) :
    [none, some EndReason.confirmed, some .unconfirmed, some .abortedByPanel, some .abortedLockout,
      some .failedSelectorOpen, some .failedSelectorFault][endReasonCode x % 8]? = some x := by
  rcases x with _ | x
  · rfl
  · cases x <;> rfl

theorem lineStatusCode_decodes (x : LineStatus) :
    [LineStatus.pending, .deferred, .pulsing, .done, .abandoned][lineStatusCode x % 8]? = some x := by cases x <;> rfl

/-- A unit holds its kind and its deadline when its deadline is reached (R138). -/
theorem settle_holds (now : Time) (u : CompareUnit) :
    (u.settle now).kind? = u.kind? ∧ (u.settle now).deadline? = u.deadline? := by
  cases u with
  | inhibited => exact ⟨rfl, rfl⟩
  | expired d k => exact ⟨rfl, rfl⟩
  | watching d k =>
    by_cases h : reached d now = true <;> simp [CompareUnit.settle, h, CompareUnit.kind?, CompareUnit.deadline?]

theorem unitKindCode_decodes {k : Option DeadlineKind} {i : Nat}
    (h : [none, some DeadlineKind.countdown, some .holdLimit, some .selectorOpen, some .nextLine, some .deferral,
      some .confirm][i]? = some k) : unitKindCode k = i := by
  have hi : i < 7 := (List.getElem?_eq_some_iff.1 h).1
  rcases i with _ | _ | _ | _ | _ | _ | _ | i
  case succ.succ.succ.succ.succ.succ.succ => omega
  all_goals
    obtain rfl := Option.some.inj h
    rfl

theorem unitKindCode_lt (k : Option DeadlineKind) : unitKindCode k < 128 := by
  unfold unitKindCode
  split <;> decide

/-! ### Page 0 (R47, R132, R140) -/

theorem flagBits_field (f : Flags) {i : Nat} {b : Bool}
    (h : [f.short, f.overCeiling, f.reserveUsed, f.unreadIncluded, f.starved, f.part][i]? = some b) :
    fieldOf (flagBits f) i 1 = b.toNat :=
  fieldOf_pack_bits id [f.short, f.overCeiling, f.reserveUsed, f.unreadIncluded, f.starved, f.part] h

theorem length_claimPage0 (s : State) (h : Hall) (c : Claim) : (s.claimPage0 h c).length = 36 := by
  simp [State.claimPage0, timeBytes]

theorem claimPage0_shown (s : State) (h : Hall) (c : Claim) : ClaimPage0 s h c (s.claimPage0 h c) := by
  refine ⟨length_claimPage0 s h c, ?_, ⟨?_, ?_⟩, ⟨?_, ?_⟩, fun i b hb => ?_, ?_, fun i t ht => ?_, ⟨fun i hi => ?_, ?_, ?_⟩, ?_⟩
  · simp [State.claimPage0, fieldOf_pack_head, claimStateCode_decodes]
  · simp [State.claimPage0, fieldOf_pack_head, basisCode_decodes]
  · simp [State.claimPage0, fieldOf_pack_head]
  · simp [State.claimPage0, fieldOf_pack_head, delaySourceCode_decodes]
  · simp [State.claimPage0, fieldOf_pack_head, endReasonCode_decodes]
  · have hi : i < 6 := (List.getElem?_eq_some_iff.1 hb).1
    have e : wordAt (s.claimPage0 h c) 2 1 = flagBits c.flags % 256 := by simp [State.claimPage0]
    rw [e, fieldOf_mod_byte (by omega)]
    exact flagBits_field c.flags hb
  · simp [State.claimPage0, timeBytes]
  · have hi : i < 5 := (List.getElem?_eq_some_iff.1 ht).1
    have hcase : i = 0 ∧ t = c.readyAt ∨ i = 1 ∧ t = c.holdStartedAt ∨ i = 2 ∧ t = c.selectorOpenAt ∨
        i = 3 ∧ t = c.dischargeSeenAt ∨ i = 4 ∧ t = c.endedAt := by
      rcases i with _ | _ | _ | _ | _ | i
      · exact .inl ⟨rfl, (Option.some.inj ht).symm⟩
      · exact .inr (.inl ⟨rfl, (Option.some.inj ht).symm⟩)
      · exact .inr (.inr (.inl ⟨rfl, (Option.some.inj ht).symm⟩))
      · exact .inr (.inr (.inr (.inl ⟨rfl, (Option.some.inj ht).symm⟩)))
      · exact .inr (.inr (.inr (.inr ⟨rfl, (Option.some.inj ht).symm⟩)))
      · omega
    rcases hcase with ⟨rfl, rfl⟩ | ⟨rfl, rfl⟩ | ⟨rfl, rfl⟩ | ⟨rfl, rfl⟩ | ⟨rfl, rfl⟩ <;>
      simp [State.claimPage0, timeBytes, fieldOf_pack_head, toNat_getD_time, time_getD_lt]
  · have e : fieldOf (wordAt (s.claimPage0 h c) 28 1) 0 7 = unitKindCode (s.unit h).kind? := by
      simp [State.claimPage0, timeBytes, fieldOf_pack_head, (settle_holds s.now (s.unit h)).1,
        Nat.mod_eq_of_lt (unitKindCode_lt _)]
    rw [e, unitKindCode_decodes hi]
  · simp [State.claimPage0, timeBytes, fieldOf_pack_head]
    cases (s.unit h).settle s.now <;> rfl
  · simp [State.claimPage0, timeBytes, (settle_holds s.now (s.unit h)).2, toNat_getD_time, time_getD_lt]
  · simp [State.claimPage0, timeBytes]

/-! ### Page 1 (R47, R132, R175) -/

theorem twos_eq (x : Int) : twos 12 x % 4096 = (x % 2 ^ 12).toNat := by
  unfold twos
  rw [BitVec.toNat_ofInt]
  omega

theorem length_claimPage1 (s : State) (h : Hall) (c : Claim) : (s.claimPage1 h c).length = 33 := by
  simp [State.claimPage1, timeBytes]

theorem portTemperatureWord_eq (r : ReportedTemp) : portTemperatureWord (some r) =
    pack [(12, twos 12 r.temperature), (1, 0), (1, bit r.clamped), (1, 1)] := rfl

theorem claimPage1_shown (s : State) (h : Hall) (c : Claim) : ClaimPage1 s h c (s.claimPage1 h c) := by
  refine ⟨length_claimPage1 s h c, ⟨?_, ?_, ?_⟩, ⟨?_, ?_, ?_, ?_, ?_, ?_⟩, ⟨?_, ?_, ?_, ?_, ?_⟩, fun r hr => ⟨?_, ?_, ?_, ?_, ?_⟩,
    fun hn => ⟨?_, ?_⟩, ⟨?_, ?_⟩⟩
  · simp [State.claimPage1, temperatureWord, fieldOf_pack_head, twos_eq]
  · simp [State.claimPage1, temperatureWord, fieldOf_pack_head]
  · simp [State.claimPage1, temperatureWord, fieldOf_pack_head]
  · simp [State.claimPage1]
  · simp [State.claimPage1]
  · simp [State.claimPage1]
  · simp [State.claimPage1]
  · simp [State.claimPage1]
  · simp [State.claimPage1]
  · simp [State.claimPage1]
  · simp [State.claimPage1]
  · simp [State.claimPage1, Claim.lineCount]
    cases c.schedule <;> rfl
  · simp [State.claimPage1]
    cases c.schedule <;> rfl
  · simp [State.claimPage1]
    cases c.schedule <;> rfl
  · simp [State.claimPage1, hr, portTemperatureWord_eq, fieldOf_pack_head, twos_eq]
  · simp [State.claimPage1, hr, portTemperatureWord_eq, fieldOf_pack_head]
  · simp [State.claimPage1, hr, portTemperatureWord_eq, fieldOf_pack_head]
  · have e : fieldOf (pack [(1, 1)]) 0 2 = 1 := rfl
    simp [State.claimPage1, hr, portTemperatureWord_eq, e]
  · simp [State.claimPage1, hr, timeBytes]
  · simp [State.claimPage1, hn, portTemperatureWord]
  · simp [State.claimPage1, hn, timeBytes]
  · simp [State.claimPage1, timeBytes, fieldOf_pack_head]
  · simp [State.claimPage1, timeBytes, fieldOf_pack_head]

/-! ### Pages 2 to 255 (R132) -/

/-- The bytes of an entry: its cylinder, and its E (R132). -/
def entryBytes (e : Entry) : List Byte := bytesOf 1 e.cyl.val ++ bytesOf 3 e.e

theorem length_entryBytes (e : Entry) : (entryBytes e).length = 4 := by simp [entryBytes]

/-- A count and some elements of `m` bytes each, padded with zeros. -/
theorem padTo_entries (n x : Nat) (bs : List Byte) :
    ∃ k, padTo n (bytesOf 1 x ++ bs) = bytesOf 1 x ++ (bs ++ List.replicate k 0) := ⟨_, List.append_assoc _ _ _⟩

/-- The entry at place `i` of a page of `m` that begins at place `first`. -/
theorem getElem?_page {α : Type} (l : List α) (first m : Nat) {i : Nat} (hi : i < m) :
    ((l.drop first).take m)[i]? = l[first + i]? := by
  rw [List.getElem?_take, if_pos hi, List.getElem?_drop]

theorem allocationPage_shown (c : Claim) (page : Nat) :
    ClaimAllocationPage c page (padTo 33 (c.allocationPage page)) := by
  have e : c.allocationPage page = bytesOf 1 ((c.allocation.drop (8 * (page - 2))).take 8).length ++
    ((c.allocation.drop (8 * (page - 2))).take 8).flatMap entryBytes := rfl
  rw [e]
  have hlen : ((c.allocation.drop (8 * (page - 2))).take 8).length = min 8 (c.allocation.length - 8 * (page - 2)) := by
    simp
  refine ⟨?_, ?_, fun i hi => ?_⟩
  · refine length_padTo ?_
    rw [List.length_append, length_bytesOf, length_flatMap_of_const length_entryBytes, hlen]
    omega
  · obtain ⟨k, ek⟩ := padTo_entries 33 ((c.allocation.drop (8 * (page - 2))).take 8).length
      (((c.allocation.drop (8 * (page - 2))).take 8).flatMap entryBytes)
    rw [ek, wordAt_bytesOf_head, hlen]
    omega
  · obtain ⟨k, ek⟩ := padTo_entries 33 ((c.allocation.drop (8 * (page - 2))).take 8).length
      (((c.allocation.drop (8 * (page - 2))).take 8).flatMap entryBytes)
    have h1 := wordAt_entries length_entryBytes (o := 0) (n := 1) (by omega)
      ((c.allocation.drop (8 * (page - 2))).take 8) i k
    have h2 := wordAt_entries length_entryBytes (o := 1) (n := 3) (by omega)
      ((c.allocation.drop (8 * (page - 2))).take 8) i k
    rw [getElem?_page _ _ _ hi] at h1 h2
    rw [ek, wordAt_bytesOf_skip (by omega), wordAt_bytesOf_skip (by omega), show 1 + 4 * i - 1 = 4 * i + 0 by omega,
      show 2 + 4 * i - 1 = 4 * i + 1 by omega, h1, h2]
    cases c.allocation[8 * (page - 2) + i]? with
    | none => simp
    | some e =>
      have he : e.cyl.val % 256 = e.cyl.val := Nat.mod_eq_of_lt (by omega)
      simp [entryBytes, he]

theorem firedPage_shown (c : Claim) : ClaimFiredPage c (padTo 33 c.firedPage) := by
  have hf : ∀ k : CylIdx, (bytesOf 1 k.val).length = 1 := fun k => length_bytesOf 1 _
  obtain ⟨n, en⟩ := padTo_entries 33 c.fired.length ((c.fired.take 32).flatMap fun k => bytesOf 1 k.val)
  have e : c.firedPage = bytesOf 1 c.fired.length ++ (c.fired.take 32).flatMap fun k => bytesOf 1 k.val := rfl
  rw [e]
  refine ⟨?_, ?_, fun i hi => ?_⟩
  · refine length_padTo ?_
    rw [List.length_append, length_bytesOf, length_flatMap_of_const hf, List.length_take]
    omega
  · rw [en, wordAt_bytesOf_head]
    rfl
  · have h1 := wordAt_entries hf (o := 0) (n := 1) (by omega) (c.fired.take 32) i n
    rw [List.getElem?_take, if_pos hi] at h1
    rw [en, wordAt_bytesOf_skip (by omega), show 1 + i - 1 = 1 * i + 0 by omega, h1]
    cases c.fired[i]? with
    | none => simp
    | some k =>
      have hk : k.val % 256 = k.val := Nat.mod_eq_of_lt (by omega)
      simp [hk]

/-- The cylinder bytes of a line, with 255 for none (R132). -/
def lineCylBytes (l : Line) : List Byte :=
  (l.cyls.take 4).map (fun k => BitVec.ofNat 8 k.val) ++ List.replicate (4 - (l.cyls.take 4).length) (255 : Byte)

/-- The cylinder at place `j` of a line has been pulsed (R132). -/
def pulsedAt (l : Line) (j : Nat) : Bool :=
  match l.cyls[j]? with
  | some k => k ∈ l.pulsed
  | none => false

/-- The byte of a line's status and bits (R132). -/
def lineFields (l : Line) : List (Nat × Nat) :=
  [(3, lineStatusCode l.status), (1, bit (pulsedAt l 0)), (1, bit (pulsedAt l 1)), (1, bit (pulsedAt l 2)),
    (1, bit (pulsedAt l 3)), (1, bit l.deferredAt.isSome)]

theorem lineBytes_eq (l : Line) : lineBytes l =
    lineCylBytes l ++ (bytesOf 1 (pack (lineFields l)) ++ (timeBytes l.time ++ timeBytes l.deferredAt)) := by
  have hl : ((l.cyls.take 4).map fun k => BitVec.ofNat 8 k.val).length = (l.cyls.take 4).length := List.length_map _
  unfold lineBytes lineCylBytes
  dsimp only
  rw [hl, List.append_assoc, List.append_assoc]
  rfl

theorem length_lineCylBytes (l : Line) : (lineCylBytes l).length = 4 := by
  simp [lineCylBytes]

theorem length_lineBytes (l : Line) : (lineBytes l).length = 13 := by
  rw [lineBytes_eq]
  simp [length_lineCylBytes, timeBytes]

theorem wordAt_one {bs : List Byte} {j : Nat} {b : Byte} (h : bs[j]? = some b) : wordAt bs j 1 = b.toNat := by
  obtain ⟨hj, rfl⟩ := List.getElem?_eq_some_iff.1 h
  rw [wordAt, List.drop_eq_getElem_cons hj]
  exact Nat.zero_add _

theorem lineCylBytes_word (l : Line) {j : Nat} (hj : j < 4) :
    wordAt (lineCylBytes l) j 1 = (l.cyls[j]?.map (·.val)).getD 255 := by
  cases hk : l.cyls[j]? with
  | some k =>
    have h : (lineCylBytes l)[j]? = some (BitVec.ofNat 8 k.val) := by
      have hl : j < l.cyls.length := (List.getElem?_eq_some_iff.1 hk).1
      rw [lineCylBytes, List.getElem?_append_left (by simp; omega), List.getElem?_map, List.getElem?_take, if_pos hj, hk]
      rfl
    rw [wordAt_one h]
    simp
    omega
  | none =>
    have h : (lineCylBytes l)[j]? = some 255 := by
      have hl : l.cyls.length ≤ j := List.getElem?_eq_none_iff.1 hk
      rw [lineCylBytes, List.getElem?_append_right (by simp; omega), List.getElem?_replicate]
      simp
      omega
    rw [wordAt_one h]
    rfl

/-- A line's own bytes carry it (R132). -/
theorem lineBytes_word (l : Line) :
    (∀ j, j < 4 → wordAt (lineBytes l) j 1 = (l.cyls[j]?.map (·.val)).getD 255) ∧
      wordAt (lineBytes l) 4 1 = pack (lineFields l) % 256 ∧
      wordAt (lineBytes l) 5 4 = (l.time.map (·.toNat)).getD 0 ∧
      wordAt (lineBytes l) 9 4 = (l.deferredAt.map (·.toNat)).getD 0 := by
  rw [lineBytes_eq]
  refine ⟨fun j hj => ?_, ?_, ?_, ?_⟩
  · rw [wordAt_append_left (by rw [length_lineCylBytes]; omega), lineCylBytes_word l hj]
  · rw [wordAt_append_right (by rw [length_lineCylBytes]), length_lineCylBytes]
    exact wordAt_bytesOf_head 1 _ _
  · rw [wordAt_append_right (by rw [length_lineCylBytes]; omega), length_lineCylBytes]
    simp [timeBytes, toNat_getD_time, time_getD_lt]
  · rw [wordAt_append_right (by rw [length_lineCylBytes]; omega), length_lineCylBytes]
    simp [timeBytes, toNat_getD_time, time_getD_lt]

theorem pulsedAt_iff (l : Line) (j : Nat) : pulsedAt l j = decide (∃ k ∈ l.cyls[j]?, k ∈ l.pulsed) := by
  unfold pulsedAt
  cases l.cyls[j]? <;> simp

/-- The fields of a line's byte (R132). -/
theorem lineFields_field (l : Line) :
    fieldOf (pack (lineFields l) % 256) 0 3 = lineStatusCode l.status % 8 ∧
      (∀ j, j < 4 → fieldOf (pack (lineFields l) % 256) (3 + j) 1 = (pulsedAt l j).toNat) ∧
      fieldOf (pack (lineFields l) % 256) 7 1 = l.deferredAt.isSome.toNat := by
  refine ⟨by simp [lineFields, fieldOf_pack_head], fun j hj => ?_, by simp [lineFields, fieldOf_pack_head]⟩
  rcases j with _ | _ | _ | _ | j
  · simp [lineFields, fieldOf_pack_head]
  · simp [lineFields, fieldOf_pack_head]
  · simp [lineFields, fieldOf_pack_head]
  · simp [lineFields, fieldOf_pack_head]
  · omega

theorem linePage_shown (c : Claim) (page : Nat) : ClaimLinesPage c page (padTo 40 (c.linePage page)) := by
  obtain ⟨lines, hl⟩ : ∃ lines, lines = (match c.schedule with | some sc => sc.lines | none => []) := ⟨_, rfl⟩
  have e : c.linePage page = bytesOf 1 ((lines.drop (3 * (page - 7))).take 3).length ++
      ((lines.drop (3 * (page - 7))).take 3).flatMap lineBytes := by rw [hl]; rfl
  have hcount : c.lineCount = lines.length := by
    rw [hl, Claim.lineCount]
    cases c.schedule <;> rfl
  have hlen : ((lines.drop (3 * (page - 7))).take 3).length = min 3 (c.lineCount - 3 * (page - 7)) := by
    rw [hcount]
    simp
  obtain ⟨n, en⟩ := padTo_entries 40 ((lines.drop (3 * (page - 7))).take 3).length
    (((lines.drop (3 * (page - 7))).take 3).flatMap lineBytes)
  rw [e]
  refine ⟨?_, ?_, fun i sc l hi hsc hli => ?_⟩
  · refine length_padTo ?_
    rw [List.length_append, length_bytesOf, length_flatMap_of_const length_lineBytes, hlen]
    omega
  · rw [en, wordAt_bytesOf_head, hlen]
    omega
  · have hx : ((lines.drop (3 * (page - 7))).take 3)[i]? = some l := by
      rw [getElem?_page _ _ _ hi, hl, hsc]
      exact hli
    have hw : ∀ o m, o + m ≤ 13 → wordAt (padTo 40 (bytesOf 1 ((lines.drop (3 * (page - 7))).take 3).length ++
        ((lines.drop (3 * (page - 7))).take 3).flatMap lineBytes)) (1 + 13 * i + o) m = wordAt (lineBytes l) o m := by
      intro o m ho
      rw [en, wordAt_bytesOf_skip (by omega), show 1 + 13 * i + o - 1 = 13 * i + o by omega]
      exact wordAt_flatMap length_lineBytes ho _ hx _
    obtain ⟨h1, h2, h3, h4⟩ := lineBytes_word l
    obtain ⟨g1, g2, g3⟩ := lineFields_field l
    dsimp only
    rw [hw 4 1 (by omega), hw 5 4 (by omega), hw 9 4 (by omega), h2, h3, h4, g1, g3]
    refine ⟨fun j hj => ⟨?_, ?_⟩, lineStatusCode_decodes _, rfl, rfl, rfl⟩
    · rw [hw j 1 (by omega), h1 j hj]
    · rw [g2 j hj, pulsedAt_iff]

/-! ### The page of a hall (R194) -/

theorem claimPage_shown {s : State} {h : Hall} {c : Claim} (hc : s.claim h = some c) (page : Nat) :
    ClaimShown s h c page (s.claimPage h page) := by
  unfold ClaimShown State.claimPage
  rw [hc]
  dsimp only
  by_cases h0 : page = 0
  · rw [if_pos h0, if_pos h0, claimPageLength, if_pos h0, padTo_self (length_claimPage0 s h c)]
    exact claimPage0_shown s h c
  have hlen : page ≤ 6 → claimPageLength page = 33 := fun h6 => by rw [claimPageLength, if_neg h0, if_pos h6]
  rw [if_neg h0, if_neg h0]
  by_cases h1 : page = 1
  · rw [if_pos h1, if_pos h1, hlen (by omega), padTo_self (length_claimPage1 s h c)]
    exact claimPage1_shown s h c
  rw [if_neg h1, if_neg h1]
  by_cases h5 : page ≤ 5
  · rw [if_pos h5, if_pos h5, hlen (by omega)]
    exact allocationPage_shown c page
  rw [if_neg h5, if_neg h5]
  by_cases h6 : page = 6
  · rw [if_pos h6, if_pos h6, hlen (by omega)]
    exact firedPage_shown c
  rw [if_neg h6, if_neg h6, claimPageLength, if_neg h0, if_neg (by omega)]
  exact linePage_shown c page

theorem claimPage_none {s : State} {h : Hall} (hc : s.claim h = none) (page : Nat) :
    s.claimPage h page = List.replicate (claimPageLength page) 0 := by
  simp [State.claimPage, hc, padTo]

theorem length_claimPage (s : State) (h : Hall) (page : Nat) : (s.claimPage h page).length = claimPageLength page := by
  cases hc : s.claim h with
  | none => rw [claimPage_none hc, List.length_replicate]
  | some c =>
    have hs := claimPage_shown hc page
    unfold ClaimShown at hs
    unfold claimPageLength
    split at hs
    · rename_i h0
      rw [if_pos h0, hs.length]
    rename_i h0
    rw [if_neg h0]
    split at hs
    · rw [if_pos (by omega), hs.length]
    split at hs
    · rw [if_pos (by omega), hs.length]
    split at hs
    · rw [if_pos (by omega), hs.length]
    · rw [if_neg (by omega), hs.length]

end Sys2Proof.Machine
end


-- ==== Sys2Proof/Proofs/SiteReads.lean ====
section
/-! PROOFS. The site requests that read: what answers them, and what they leave alone. -/

namespace Sys2Proof.Machine

/-! ### Replies (R165, R177) -/

/-- A site reply that is formed where one is owed answers the request, an accepted one with its content (R165, R177). -/
theorem siteAnswered_answerSite {s t : State} (ho : s.site.owed = true) (kind : Byte) (result : Result) (content : List Byte)
    (hn : t.now = s.now) : SiteAnswered t (s.answerSite kind result content) kind result
      (if result = .accepted then content else []) := by
  refine ⟨ho, ?_, ?_⟩
  · refine ⟨1 + Config.replyTiming s.choices % 5, by omega, by omega, ?_⟩
    rw [hn]
    rfl
  · rw [hn]
    rfl

/-- The state in which a site request of frame `f` is checked: the frame is taken and a reply is owed (R177). -/
def State.requestTaken (s : State) (f : Frame) : State :=
  s.setSite { s.site with rx := s.site.rx.release f, owed := true }

/-- A site request that is taken is given to its owner (R177). -/
theorem State.siteArrival_taken {s : State} (hs : s.takesSiteRequest) (f : Frame) (owner : State → SiteOutcome) :
    s.siteArrival f owner = match owner (s.requestTaken f) with
      | .refuse r => (s.requestTaken f).answerSite f.kind r []
      | .accept content => (s.requestTaken f).answerSite f.kind .accepted content
      | .begins w => (s.requestTaken f).setStore { s.store with write := some w } := by
  obtain ⟨hoff, howed⟩ := hs
  have ho : (s.setSite { s.site with rx := s.site.rx.release f }).site.owed = false := howed
  unfold State.siteArrival
  rw [if_neg hoff]
  dsimp only
  rw [ho]
  rfl

/-- A request that its owner refuses (R177). -/
theorem siteRefused {s : State} (hs : s.takesSiteRequest) {f : Frame} {owner : State → SiteOutcome} {r : Result}
    (h : owner (s.requestTaken f) = .refuse r) (hr : r ≠ .accepted) :
    SiteAnswered s (s.siteArrival f owner) f.kind r [] ∧ s.siteArrival f owner = { s with
      site := (s.siteArrival f owner).site, choices := (s.siteArrival f owner).choices } := by
  have e : s.siteArrival f owner = (s.requestTaken f).answerSite f.kind r [] := by rw [State.siteArrival_taken hs, h]
  have a := siteAnswered_answerSite (s := s.requestTaken f) (t := s) rfl f.kind r [] rfl
  rw [if_neg hr] at a
  rw [e]
  exact ⟨a, rfl⟩

/-- A request that its owner answers (R177). -/
theorem siteAccepted {s : State} (hs : s.takesSiteRequest) {f : Frame} {owner : State → SiteOutcome} {content : List Byte}
    (h : owner (s.requestTaken f) = .accept content) :
    SiteAnswered s (s.siteArrival f owner) f.kind .accepted content ∧ s.siteArrival f owner = { s with
      site := (s.siteArrival f owner).site, choices := (s.siteArrival f owner).choices } := by
  have e : s.siteArrival f owner = (s.requestTaken f).answerSite f.kind .accepted content := by
    rw [State.siteArrival_taken hs, h]
  have a := siteAnswered_answerSite (s := s.requestTaken f) (t := s) rfl f.kind .accepted content rfl
  rw [if_pos rfl] at a
  rw [e]
  exact ⟨a, rfl⟩

/-! ### The requests -/

theorem sitePoll_answered {s : State} (hs : s.takesSiteRequest) (page : Byte) :
    ∃ t, exec (.sitePoll [page]) s = .next t ∧ t = { s with site := t.site, choices := t.choices } ∧
      (page.toNat ≤ 2 → ∃ content, SiteAnswered s t 16 .accepted content ∧
        (page = 0 → PollPage0 s content) ∧ (page = 1 → PollPage1 s content) ∧ (page = 2 → PollPage2 s content)) ∧
      (2 < page.toNat → SiteAnswered s t 16 .badField []) := by
  have hx : exec (.sitePoll [page]) s = .next (s.siteArrival { kind := 16, payload := [page] } (sitePollOwner [page])) := rfl
  have ho : sitePollOwner [page] (s.requestTaken { kind := 16, payload := [page] }) =
      match s.pollPage page.toNat with
      | some content => .accept content
      | none => .refuse .badField := rfl
  refine ⟨_, hx, ?_⟩
  by_cases hp : page.toNat ≤ 2
  · obtain ⟨content, hc, h0, h1, h2⟩ : ∃ content, s.pollPage page.toNat = some content ∧
        (page = 0 → PollPage0 s content) ∧ (page = 1 → PollPage1 s content) ∧ (page = 2 → PollPage2 s content) := by
      have hcases : page = 0 ∨ page = 1 ∨ page = 2 := by bv_omega
      rcases hcases with rfl | rfl | rfl
      · exact ⟨_, rfl, fun _ => pollPage0_shown s, fun h => absurd h (by decide), fun h => absurd h (by decide)⟩
      · exact ⟨_, rfl, fun h => absurd h (by decide), fun _ => pollPage1_shown s, fun h => absurd h (by decide)⟩
      · exact ⟨_, rfl, fun h => absurd h (by decide), fun h => absurd h (by decide), fun _ => pollPage2_shown s⟩
    rw [hc] at ho
    obtain ⟨ha, hst⟩ := siteAccepted hs ho
    exact ⟨hst, fun _ => ⟨content, ha, h0, h1, h2⟩, fun h => absurd hp (Nat.not_le.2 h)⟩
  · have hc : s.pollPage page.toNat = none := by
      unfold State.pollPage
      split
      · omega
      · omega
      · omega
      · rfl
    rw [hc] at ho
    obtain ⟨ha, hst⟩ := siteRefused hs ho (by decide)
    exact ⟨hst, fun h => absurd h hp, fun _ => ha⟩

/-- The records that a CYLINDER_QUERY carries, each at its place (R26, R194). -/
theorem cylinderRecords_shown (s : State) (first count : Nat) :
    ∃ rest, s.cylinderRecords first count = BitVec.ofNat 8 (min count 3) :: rest ∧
      (first + count ≤ 64 → rest.length = 14 * min count 3) ∧
      ∀ (j : Nat) (k : CylIdx), j < min count 3 → k.val = first + j →
        CylinderShown s k ((rest.drop (14 * j)).take 14) := by
  have hlen : ∀ k, (s.cylinderRecord k).length = 14 := fun k => (cylinderRecord_shown s k).length
  refine ⟨((allCylinders.drop first).take (min count 3)).flatMap s.cylinderRecord, rfl, fun h => ?_, fun j k hj hk => ?_⟩
  · rw [length_flatMap_of_const hlen, List.length_take, List.length_drop, allCylinders, List.length_finRange]
    omega
  · have hx : ((allCylinders.drop first).take (min count 3))[j]? = some k := by
      rw [getElem?_page _ _ _ hj, ← hk, allCylinders, List.getElem?_eq_getElem (by simp), List.getElem_finRange]
      rfl
    rw [take_drop_flatMap hlen _ hx]
    exact cylinderRecord_shown s k

theorem cylinderQuery_answered {s : State} (hs : s.takesSiteRequest) (first count : Byte) :
    ∃ t, exec (.cylinderQuery [first, count]) s = .next t ∧ t = { s with site := t.site, choices := t.choices } ∧
      (63 < first.toNat ∨ 64 < first.toNat + count.toNat → SiteAnswered s t 17 .badIndex []) ∧
      (first.toNat ≤ 63 → count = 0 → SiteAnswered s t 17 .badField []) ∧
      (first.toNat + count.toNat ≤ 64 → 8 < count.toNat → SiteAnswered s t 17 .badField []) ∧
      (first.toNat + count.toNat ≤ 64 → 1 ≤ count.toNat → count.toNat ≤ 8 →
        ∃ rest, SiteAnswered s t 17 .accepted (BitVec.ofNat 8 (min count.toNat 3) :: rest) ∧
          rest.length = 14 * min count.toNat 3 ∧
          ∀ (j : Nat) (k : CylIdx), j < min count.toNat 3 → k.val = first.toNat + j →
            CylinderShown s k ((rest.drop (14 * j)).take 14)) := by
  have hx : exec (.cylinderQuery [first, count]) s =
    .next (s.siteArrival { kind := 17, payload := [first, count] } (cylinderQueryOwner [first, count])) := rfl
  have ho : cylinderQueryOwner [first, count] (s.requestTaken { kind := 17, payload := [first, count] }) =
      if 63 < first.toNat ∨ 64 < first.toNat + count.toNat then .refuse .badIndex
      else if count.toNat < 1 ∨ 8 < count.toNat then .refuse .badField
      else .accept (s.cylinderRecords first.toNat count.toNat) := rfl
  refine ⟨_, hx, ?_⟩
  by_cases h1 : 63 < first.toNat ∨ 64 < first.toNat + count.toNat
  · rw [if_pos h1] at ho
    obtain ⟨ha, hst⟩ := siteRefused hs ho (by decide)
    refine ⟨hst, fun _ => ha, fun hf hc => ?_, fun h => ?_, fun h => ?_⟩
    · have hc0 : count.toNat = 0 := by rw [hc]; rfl
      omega
    · omega
    · omega
  rw [if_neg h1] at ho
  by_cases h2 : count.toNat < 1 ∨ 8 < count.toNat
  · rw [if_pos h2] at ho
    obtain ⟨ha, hst⟩ := siteRefused hs ho (by decide)
    exact ⟨hst, fun h => absurd h h1, fun _ _ => ha, fun _ _ => ha, fun _ _ _ => by omega⟩
  rw [if_neg h2] at ho
  obtain ⟨ha, hst⟩ := siteAccepted hs ho
  obtain ⟨rest, hr, hl, hsh⟩ := cylinderRecords_shown s first.toNat count.toNat
  rw [hr] at ha
  refine ⟨hst, fun h => absurd h h1, fun _ hc => ?_, fun _ h => ?_, fun h _ _ => ⟨rest, ha, hl h, hsh⟩⟩
  · have hc0 : count.toNat = 0 := by rw [hc]; rfl
    omega
  · omega

theorem claimQuery_answered {s : State} (hs : s.takesSiteRequest) (hall page : Byte) :
    ∃ t, exec (.claimQuery [hall, page]) s = .next t ∧ t = { s with site := t.site, choices := t.choices } ∧
      (hall.toNat = 0 ∨ 8 < hall.toNat → SiteAnswered s t 18 .badIndex []) ∧
      (∀ h : Hall, hall.toNat = h.val + 1 → ∃ content, SiteAnswered s t 18 .accepted content ∧
        content.length = (if page = 0 then 36 else if page.toNat ≤ 6 then 33 else 40) ∧
        (∀ c, s.claim h = some c → ClaimShown s h c page.toNat content) ∧
        (s.claim h = none → content = List.replicate content.length 0)) := by
  have hx : exec (.claimQuery [hall, page]) s =
    .next (s.siteArrival { kind := 18, payload := [hall, page] } (claimQueryOwner [hall, page])) := rfl
  have ho : claimQueryOwner [hall, page] (s.requestTaken { kind := 18, payload := [hall, page] }) =
      match hallField hall with
      | some h => .accept (s.claimPage h page.toNat)
      | none => .refuse .badIndex := rfl
  refine ⟨_, hx, ?_⟩
  by_cases hr : 1 ≤ hall.toNat ∧ hall.toNat ≤ 8
  · obtain ⟨h, hh⟩ : ∃ h, hallField hall = some h := ⟨_, dif_pos hr⟩
    have hv : hall.toNat = h.val + 1 := by
      have e : (⟨hall.toNat - 1, by omega⟩ : Hall) = h := Option.some.inj ((dif_pos hr).symm.trans hh)
      rw [← e]
      exact (Nat.sub_add_cancel hr.1).symm
    rw [hh] at ho
    obtain ⟨ha, hst⟩ := siteAccepted hs ho
    refine ⟨hst, fun h => by omega, fun j hj => ?_⟩
    obtain rfl : h = j := Fin.ext (by omega)
    refine ⟨_, ha, ?_, fun c hc => claimPage_shown hc _, fun hn => ?_⟩
    · rw [length_claimPage, claimPageLength]
      exact if_congr (by bv_omega) rfl rfl
    · rw [length_claimPage, claimPage_none hn]
  · rw [show hallField hall = none from dif_neg hr] at ho
    obtain ⟨ha, hst⟩ := siteRefused hs ho (by decide)
    exact ⟨hst, fun _ => ha, fun h hh => by omega⟩

theorem recordName_kind {kind index : Byte} {name : RecordName} (h : recordName kind index = some name) :
    1 ≤ kind.toNat ∧ kind.toNat ≤ 9 := by
  unfold recordName at h
  split at h
  rotate_right
  · cases h
  all_goals omega

theorem commissionRead_answered {s : State} (hs : s.takesSiteRequest) (kind index : Byte) :
    ∃ t, exec (.commissionRead [kind, index]) s = .next t ∧ t = { s with site := t.site, choices := t.choices } ∧
      (kind = 0 ∨ 9 < kind.toNat → SiteAnswered s t 19 .badField []) ∧
      (kind ≠ 0 → kind.toNat ≤ 9 → recordName kind index = none → SiteAnswered s t 19 .badIndex []) ∧
      (∀ name, recordName kind index = some name →
        SiteAnswered s t 19 .accepted (kind :: index :: s.store.readRecord name)) := by
  have hx : exec (.commissionRead [kind, index]) s =
    .next (s.siteArrival { kind := 19, payload := [kind, index] } (commissionReadOwner [kind, index])) := rfl
  have ho : commissionReadOwner [kind, index] (s.requestTaken { kind := 19, payload := [kind, index] }) =
      if kind.toNat < 1 ∨ 9 < kind.toNat then .refuse .badField
      else match recordName kind index with
        | some name => .accept (kind :: index :: s.store.readRecord name)
        | none => .refuse .badIndex := rfl
  refine ⟨_, hx, ?_⟩
  by_cases hk : kind.toNat < 1 ∨ 9 < kind.toNat
  · rw [if_pos hk] at ho
    obtain ⟨ha, hst⟩ := siteRefused hs ho (by decide)
    refine ⟨hst, fun _ => ha, fun h0 h9 => ?_, fun name hn => ?_⟩
    · exact absurd (by bv_omega : kind = 0) h0
    · exact absurd (recordName_kind hn) (by omega)
  rw [if_neg hk] at ho
  have h0 : kind ≠ 0 := fun h => hk (.inl (by rw [h]; decide))
  cases hn : recordName kind index with
  | none =>
    rw [hn] at ho
    obtain ⟨ha, hst⟩ := siteRefused hs ho (by decide)
    exact ⟨hst, fun h => h.elim (absurd · h0) fun h => absurd (.inr h) hk, fun _ _ _ => ha, fun name h => by cases h⟩
  | some name =>
    rw [hn] at ho
    obtain ⟨ha, hst⟩ := siteAccepted hs ho
    refine ⟨hst, fun h => h.elim (absurd · h0) fun h => absurd (.inr h) hk, fun _ _ h => (by cases h), fun name' h => ?_⟩
    obtain rfl := Option.some.inj h
    exact ha

/-- Settles O51: request by request. -/
theorem siteReads : Obligations.SiteReads := fun _ hs =>
  ⟨sitePoll_answered hs, cylinderQuery_answered hs, claimQuery_answered hs, commissionRead_answered hs⟩

end Sys2Proof.Machine
end


-- ==== Sys2Proof/Proofs/Programming.lean ====
section
/-! PROOFS. The completions of what the site programs: isolation, restore and commissioning writes. -/

namespace Sys2Proof.Machine

/-! ### The maintenance exit (R183, R189) -/

/-- What the maintenance exit leaves of Mode Control. -/
def exitCtl (c : ModeControl) (i : Image) : ModeControl :=
  { c with
    mode := if validate i = none then .normal else .uncommissioned
    imageValid := decide (validate i = none), exitPending := false }

/-- What it leaves of the store: the CRC of a valid image is to be stored (R189). -/
def exitStore (st : Store) : Store :=
  { st with crcStore := if validate st.image = none then some (imageCrc st.image) else st.crcStore }

/-- The maintenance exit: Mode Control, the store, and every channel driven again. -/
theorem State.maintenanceExit_eq (s : State) :
    s.maintenanceExit = ((s.setCtl (exitCtl s.ctl s.image)).setStore (exitStore s.store)).redrive := by
  by_cases hv : validate s.image = none
  · have h1 : (validate s.image).isNone = true := by rw [hv]; rfl
    have h2 : exitCtl s.ctl s.image = { s.ctl with mode := .normal, imageValid := true, exitPending := false } := by
      simp [exitCtl, hv]
    have h3 : exitStore s.store = { s.store with crcStore := some (imageCrc s.image) } :=
      congrArg (fun x => { s.store with crcStore := x }) (if_pos hv)
    rw [h2, h3]
    unfold State.maintenanceExit
    rw [h1]
    rfl
  · have h1 : (validate s.image).isNone = false := by
      cases h : validate s.image with
      | none => exact absurd h hv
      | some x => rfl
    have h2 : exitCtl s.ctl s.image = { s.ctl with mode := .uncommissioned, imageValid := false, exitPending := false } := by
      simp [exitCtl, hv]
    have h3 : exitStore s.store = s.store := congrArg (fun x => { s.store with crcStore := x }) (if_neg hv)
    rw [h2, h3]
    unfold State.maintenanceExit
    rw [h1]
    rfl

/-- The maintenance exit made from a state `u` that has the Mode Control and the CRCs of `s`, as the reply that follows it
leaves the state (R183, R186, R189). -/
theorem exitMade_answerSite {s u : State} (hctl : u.ctl = s.ctl) (hcrc : u.store.crc = s.store.crc)
    (hcs : u.store.crcStore = s.store.crcStore) (kind : Byte) (content : List Byte) :
    ExitMade s (u.maintenanceExit.answerSite kind .accepted content) := by
  have e := u.maintenanceExit_eq
  have hi : (u.maintenanceExit.answerSite kind .accepted content).image = u.image := by rw [e]; rfl
  refine ⟨?_, ⟨?_, ?_⟩, fun c => ?_⟩
  · rw [hi, e]
    exact congrArg (exitCtl · u.image) hctl
  · rw [e]
    exact hcrc
  · rw [hi, e, ← hcs]
    rfl
  · have h1 : (u.maintenanceExit.answerSite kind .accepted content).channel c = u.maintenanceExit.channel c := rfl
    have h2 : (u.maintenanceExit.answerSite kind .accepted content).driven c = u.maintenanceExit.driven c := rfl
    rw [h1, h2, e, State.channel_redrive, State.driven_redrive]

/-! ### Isolation and restore (R23, R157, R186) -/

/-- The content of the reply to an isolation or a restore: one record (section 12.3). -/
theorem cylinderRecords_one (s : State) (k : CylIdx) : s.cylinderRecords k.val 1 = 1 :: s.cylinderRecord k := by
  have h : (allCylinders.drop k.val).take (min 1 3) = [k] := by
    rw [allCylinders, List.drop_eq_getElem_cons (by simp)]
    simp
  rw [State.cylinderRecords, h]
  simp [bytesOf]

/-- The record that an isolation or a restore answers with, as the state stands once the reply is formed. -/
theorem answerMaint_shown {s t : State} (u : State) (k : CylIdx) (kind : Byte) (ho : u.site.owed = true)
    (hn : s.now = u.now) (ht : t = u.answerMaint kind k) :
    SiteAnswered s t kind .accepted (1 :: u.cylinderRecord k) ∧ CylinderShown t k (u.cylinderRecord k) ∧
      (1 :: u.cylinderRecord k).length = 15 := by
  have e : t = u.answerSite kind .accepted (1 :: u.cylinderRecord k) := by
    rw [ht, State.answerMaint, cylinderRecords_one]
  have hs : CylinderShown t k (t.cylinderRecord k) := cylinderRecord_shown t k
  have hr : t.cylinderRecord k = u.cylinderRecord k := by rw [e]; rfl
  rw [hr] at hs
  refine ⟨?_, hs, by rw [List.length_cons, hs.length]⟩
  rw [e]
  exact siteAnswered_answerSite ho kind .accepted _ hn

/-- The state in which cylinder `k` has been isolated (R23, R186). -/
def State.isolated (s : State) (k : CylIdx) : State :=
  (s.writeEnded.setImage (s.image.setInService k false)).isolate k

theorem exec_maintIsolateCompletion {s : State} {k : CylIdx} (hw : s.store.write = some (.isolate k)) :
    exec .maintIsolateCompletion s = .next ((s.isolated k).exitIfPending.answerMaint 20 k) := by
  simp only [exec, execMaintIsolateCompletion, hw]
  rfl

theorem State.isolated_rule {s : State} {k : CylIdx} {c : Cylinder} (hk : s.cyl k = some c) :
    (s.isolated k).cyl k = some { c with disposition := .isolated } ∧ (∀ j, j ≠ k → (s.isolated k).cyl j = s.cyl j) ∧
      (s.isolated k).store = { s.store with write := none, image := s.image.setInService k false } ∧
      s.isolated k = { s with store := (s.isolated k).store, cyls := (s.isolated k).cyls } := by
  have hk1 : (s.writeEnded.setImage (s.image.setInService k false)).cyl k = some c := hk
  unfold State.isolated State.isolate
  refine ⟨?_, fun j hj => ?_, ?_, ?_⟩
  · rw [State.cyl_setDisposition, if_pos rfl, hk1]
    rfl
  · rw [State.cyl_setDisposition, if_neg hj]
    rfl
  · rw [State.setDisposition_eq hk1]
    rfl
  · rw [State.setDisposition_eq hk1]
    rfl

/-- The state in which cylinder `k` has been restored (R23, R157, R186). -/
def State.restored (s : State) (k : CylIdx) : State :=
  ((s.writeEnded.setImage (s.image.setInService k true)).clearFailedPulse k).restore k

theorem exec_maintRestoreCompletion {s : State} {k : CylIdx} (hw : s.store.write = some (.restore k)) :
    exec .maintRestoreCompletion s = .next ((s.restored k).exitIfPending.answerMaint 21 k) := by
  simp only [exec, execMaintRestoreCompletion, hw]
  rfl

theorem State.setCyl_self {s : State} {k : CylIdx} {c : Option Cylinder} (hk : s.cyl k = c) : s.setCyl k c = s := by
  have e : s.cyls.set k.val s.cyls[k] = s.cyls := Vector.set_getElem_self k.isLt
  rw [← hk]
  exact congrArg (fun v => { s with cyls := v }) e

/-- A restore of a cylinder that no hall owns makes it FREE, with a POOL GAIN when it is then eligible (R23, R24). -/
theorem State.restore_unowned {s : State} {k : CylIdx} {c : Cylinder} (hk : s.cyl k = some c)
    (hu : ∀ h, c.disposition ≠ .assigned h) :
    s.restore k = (s.setCyl k (some { c with disposition := .free })).poolGainIf (c.condition ≠ .empty) := by
  have hfree : (match c.disposition with
      | .isolated | .fired | .actuatorFault _ => s.setDisposition k .free
      | _ => s) = s.setCyl k (some { c with disposition := .free }) := by
    cases hd : c.disposition with
    | assigned h => exact absurd hd (hu h)
    | free =>
      have hc : { c with disposition := .free } = c := by rw [← hd]
      rw [hc]
      exact (State.setCyl_self hk).symm
    | fired => exact State.setDisposition_eq hk .free
    | isolated => exact State.setDisposition_eq hk .free
    | actuatorFault x => exact State.setDisposition_eq hk .free
  have hel : (s.setCyl k (some { c with disposition := .free })).eligible k = decide (c.condition ≠ .empty) := by
    rw [State.eligible, State.cyl_setCyl, if_pos rfl]
    simp [eligibleRecord]
  unfold State.restore
  rw [hk]
  exact (congrArg (fun x : State => x.poolGainIf (x.eligible k)) hfree).trans (by rw [hel])

/-- The failed-pulse flags that a restore clears (R157). -/
theorem State.channel_clearFailedPulse (s : State) (k : CylIdx) (ch : ChanIdx) : (s.clearFailedPulse k).channel ch =
    if s.role ch = .cylinder k then { s.channel ch with failedPulse := false } else s.channel ch := by
  simp [State.channel, State.clearFailedPulse]

theorem State.restored_rule {s : State} {k : CylIdx} {c : Cylinder} (hk : s.cyl k = some c)
    (hu : ∀ h, c.disposition ≠ .assigned h) :
    (s.restored k).cyl k = some { c with disposition := .free } ∧ (∀ j, j ≠ k → (s.restored k).cyl j = s.cyl j) ∧
      (s.restored k).store = { s.store with write := none, image := s.image.setInService k true } ∧
      (s.restored k).poolGains = s.poolGains + (if c.condition = .empty then 0 else 1) ∧
      (∀ ch, (s.restored k).channel ch =
        if s.role ch = .cylinder k then { s.channel ch with failedPulse := false } else s.channel ch) ∧
      (s.restored k).circuits = { s.circuits with channels := (s.restored k).circuits.channels } ∧
      s.restored k = { s with
        store := (s.restored k).store, cyls := (s.restored k).cyls, circuits := (s.restored k).circuits
        poolGains := (s.restored k).poolGains } := by
  obtain ⟨u, hueq⟩ : ∃ u, u = (s.writeEnded.setImage (s.image.setInService k true)).clearFailedPulse k := ⟨_, rfl⟩
  have hk1 : u.cyl k = some c := by rw [hueq]; exact hk
  have e : s.restored k = (u.setCyl k (some { c with disposition := .free })).poolGainIf (c.condition ≠ .empty) := by
    rw [State.restored, ← hueq, State.restore_unowned hk1 hu]
  rw [e]
  refine ⟨?_, fun j hj => ?_, ?_, ?_, fun ch => ?_, ?_, ?_⟩
  · rw [State.cyl_poolGainIf, State.cyl_setCyl, if_pos rfl]
  · rw [State.cyl_poolGainIf, State.cyl_setCyl_of_ne _ hj, hueq]
    rfl
  · have h1 : ((u.setCyl k (some { c with disposition := .free })).poolGainIf (c.condition ≠ .empty)).store = u.store := by
      simp
    rw [h1, hueq]
    rfl
  · by_cases hz : c.condition = .empty <;> simp [State.poolGainIf, hz, hueq]
  · have h1 : ((u.setCyl k (some { c with disposition := .free })).poolGainIf (c.condition ≠ .empty)).circuits = u.circuits := by
      simp
    have h2 : u.channel ch =
        if s.role ch = .cylinder k then { s.channel ch with failedPulse := false } else s.channel ch := by
      rw [hueq, State.channel_clearFailedPulse]
      rfl
    rw [← h2, State.channel, h1]
    rfl
  · have h1 : ((u.setCyl k (some { c with disposition := .free })).poolGainIf (c.condition ≠ .empty)).circuits = u.circuits := by
      simp
    rw [h1, hueq]
    rfl
  · rw [hueq]
    unfold State.poolGainIf
    split <;> rfl

/-- What the maintenance exit and the reply after it leave of a state `u`. -/
theorem State.exitAnswered_rule (u : State) (kind : Byte) (content : List Byte) {t : State}
    (ht : t = u.maintenanceExit.answerSite kind .accepted content) :
    t.cyls = u.cyls ∧ t.image = u.image ∧ t.store.write = u.store.write ∧ t.poolGains = u.poolGains ∧
      (∀ ch, t.channel ch = { u.channel ch with energised := t.driven ch }) ∧
      t.circuits = { u.circuits with channels := t.circuits.channels } ∧
      t = { u with
        store := t.store, site := t.site, choices := t.choices, ctl := t.ctl, circuits := t.circuits } := by
  subst ht
  rw [u.maintenanceExit_eq]
  obtain ⟨v, hv⟩ : ∃ v, v = (u.setCtl (exitCtl u.ctl u.image)).setStore (exitStore u.store) := ⟨_, rfl⟩
  have hc : ∀ ch, v.channel ch = u.channel ch := fun ch => by rw [hv]; rfl
  rw [← hv]
  refine ⟨?_, ?_, ?_, ?_, fun ch => ?_, ?_, ?_⟩
  · rw [hv]; rfl
  · rw [hv]; rfl
  · rw [hv]; rfl
  · rw [hv]; rfl
  · have h1 : (v.redrive.answerSite kind .accepted content).driven ch = v.redrive.driven ch := rfl
    have h2 : (v.redrive.answerSite kind .accepted content).channel ch = v.redrive.channel ch := rfl
    rw [h1, h2, State.driven_redrive, State.channel_redrive, hc]
  · rw [hv]; rfl
  · rw [hv]; rfl

theorem State.exitIfPending_of_not {s : State} (h : s.ctl.exitPending = false) : s.exitIfPending = s := by
  rw [State.exitIfPending, h]
  rfl

theorem State.exitIfPending_of_pending {s : State} (h : s.ctl.exitPending = true) :
    s.exitIfPending = s.maintenanceExit := by
  rw [State.exitIfPending, h]
  rfl

/-- The record of the cylinder whose in service field has been stored. -/
theorem Image.inService_setInService (i : Image) (k : CylIdx) (b : Bool) :
    ((i.setInService k b).cylinders[k]).inService = b := by
  simp [Image.setInService]

theorem isolateCompletion_rests {s : State} {k : CylIdx} {c : Cylinder} (hw : s.store.write = some (.isolate k))
    (hx : s.ctl.exitPending = false) (ho : s.site.owed = true) (hk : s.cyl k = some c) :
    ∃ t content, exec .maintIsolateCompletion s = .next t ∧ t.cyl k = some { c with disposition := .isolated } ∧
      (t.image.cylinders[k]).inService = false ∧ t.store.write = none ∧ t.poolGains = s.poolGains ∧
      SiteAnswered s t 20 .accepted content ∧ content.length = 15 ∧ t.mode = s.mode ∧
      (∀ j, j ≠ k → t.cyl j = s.cyl j) ∧
      t = { s with store := t.store, cyls := t.cyls, site := t.site, choices := t.choices } := by
  obtain ⟨hck, hcj, hstore, hrest⟩ := State.isolated_rule hk
  obtain ⟨u, hu⟩ : ∃ u, u = s.isolated k := ⟨_, rfl⟩
  rw [← hu] at hck hcj hstore hrest
  have hsite : u.site = s.site := by rw [hrest]
  have hnow : u.now = s.now := by rw [hrest]
  have hpool : u.poolGains = s.poolGains := by rw [hrest]
  have hctl : u.ctl = s.ctl := by rw [hrest]
  have hrun : exec .maintIsolateCompletion s = .next (u.answerMaint 20 k) := by
    rw [exec_maintIsolateCompletion hw, ← hu, State.exitIfPending_of_not (by rw [hctl, hx])]
  obtain ⟨hans, -, hlen⟩ := answerMaint_shown u k 20 (by rw [hsite, ho]) hnow.symm rfl
  refine ⟨u.answerMaint 20 k, _, hrun, hck, ?_, ?_, hpool, hans, hlen, ?_, hcj, ?_⟩
  · have himg : (u.answerMaint 20 k).image = s.image.setInService k false := congrArg Store.image hstore
    rw [himg, Image.inService_setInService]
  · exact congrArg Store.write hstore
  · exact congrArg ModeControl.mode hctl
  · rw [hrest]
    rfl

theorem restoreCompletion_rests {s : State} {k : CylIdx} {c : Cylinder} (hw : s.store.write = some (.restore k))
    (hx : s.ctl.exitPending = false) (ho : s.site.owed = true) (hk : s.cyl k = some c)
    (hfree : ∀ h, c.disposition ≠ .assigned h) :
    ∃ t content, exec .maintRestoreCompletion s = .next t ∧ t.cyl k = some { c with disposition := .free } ∧
      (t.image.cylinders[k]).inService = true ∧ t.store.write = none ∧
      t.poolGains = s.poolGains + (if c.condition = .empty then 0 else 1) ∧
      (∀ ch, s.role ch = .cylinder k → t.channel ch = { s.channel ch with failedPulse := false }) ∧
      (∀ ch, s.role ch ≠ .cylinder k → t.channel ch = s.channel ch) ∧
      SiteAnswered s t 21 .accepted content ∧ content.length = 15 ∧
      (∀ j, j ≠ k → t.cyl j = s.cyl j) ∧
      t = { s with store := t.store, cyls := t.cyls, site := t.site, choices := t.choices, circuits := t.circuits,
                   poolGains := t.poolGains } := by
  obtain ⟨hck, hcj, hstore, hpool, hchan, -, hrest⟩ := State.restored_rule hk hfree
  obtain ⟨u, hu⟩ : ∃ u, u = s.restored k := ⟨_, rfl⟩
  rw [← hu] at hck hcj hstore hpool hchan hrest
  have hsite : u.site = s.site := by rw [hrest]
  have hnow : u.now = s.now := by rw [hrest]
  have hctl : u.ctl = s.ctl := by rw [hrest]
  have hrun : exec .maintRestoreCompletion s = .next (u.answerMaint 21 k) := by
    rw [exec_maintRestoreCompletion hw, ← hu, State.exitIfPending_of_not (by rw [hctl, hx])]
  obtain ⟨hans, -, hlen⟩ := answerMaint_shown u k 21 (by rw [hsite, ho]) hnow.symm rfl
  refine ⟨u.answerMaint 21 k, _, hrun, hck, ?_, ?_, hpool, fun ch hr => ?_, fun ch hr => ?_, hans, hlen, hcj, ?_⟩
  · have himg : (u.answerMaint 21 k).image = s.image.setInService k true := congrArg Store.image hstore
    rw [himg, Image.inService_setInService]
  · exact congrArg Store.write hstore
  · exact (hchan ch).trans (if_pos hr)
  · exact (hchan ch).trans (if_neg hr)
  · rw [hrest]
    rfl

/-- The answer that follows the maintenance exit: it shows the cylinder's record as the exit leaves it. -/
theorem exitAnswered_shown {s u : State} (k : CylIdx) (kind : Byte) (ho : u.site.owed = true) (hn : u.now = s.now)
    (hctl : u.ctl = s.ctl) (hcrc : u.store.crc = s.store.crc) (hcs : u.store.crcStore = s.store.crcStore) :
    ∃ record, u.maintenanceExit.answerMaint kind k = u.maintenanceExit.answerSite kind .accepted (1 :: record) ∧
      ExitMade s (u.maintenanceExit.answerMaint kind k) ∧
      SiteAnswered s (u.maintenanceExit.answerMaint kind k) kind .accepted (1 :: record) ∧
      CylinderShown (u.maintenanceExit.answerMaint kind k) k record := by
  have e : u.maintenanceExit.answerMaint kind k =
      u.maintenanceExit.answerSite kind .accepted (1 :: u.maintenanceExit.cylinderRecord k) := by
    rw [State.answerMaint, cylinderRecords_one]
  have ho' : u.maintenanceExit.site.owed = true := by rw [u.maintenanceExit_eq]; exact ho
  have hn' : s.now = u.maintenanceExit.now := by rw [u.maintenanceExit_eq]; exact hn.symm
  obtain ⟨hans, hshown, -⟩ := answerMaint_shown u.maintenanceExit k kind ho' hn' rfl
  exact ⟨_, e, e ▸ exitMade_answerSite hctl hcrc hcs kind _, hans, hshown⟩

theorem isolateCompletion_exits {s : State} {k : CylIdx} {c : Cylinder} (hw : s.store.write = some (.isolate k))
    (hx : s.ctl.exitPending = true) (ho : s.site.owed = true) (hk : s.cyl k = some c) :
    ∃ t record, exec .maintIsolateCompletion s = .next t ∧ t.cyl k = some { c with disposition := .isolated } ∧
      t.image = { s.image with
        cylinders := s.image.cylinders.set k { s.image.cylinders[k] with inService := false } } ∧
      t.store.write = none ∧ ExitMade s t ∧ SiteAnswered s t 20 .accepted (1 :: record) ∧ CylinderShown t k record ∧
      (∀ j, j ≠ k → t.cyl j = s.cyl j) ∧
      (∀ ch, t.channel ch = { s.channel ch with energised := t.driven ch }) ∧
      t.circuits = { s.circuits with channels := t.circuits.channels } ∧
      t = { s with store := t.store, cyls := t.cyls, site := t.site, choices := t.choices, ctl := t.ctl
                   circuits := t.circuits } := by
  obtain ⟨hck, hcj, hstore, hrest⟩ := State.isolated_rule hk
  obtain ⟨u, hu⟩ : ∃ u, u = s.isolated k := ⟨_, rfl⟩
  rw [← hu] at hck hcj hstore hrest
  have hctl : u.ctl = s.ctl := by rw [hrest]
  have hcirc : u.circuits = s.circuits := by rw [hrest]
  have hrun : exec .maintIsolateCompletion s = .next (u.maintenanceExit.answerMaint 20 k) := by
    rw [exec_maintIsolateCompletion hw, ← hu, State.exitIfPending_of_pending (by rw [hctl, hx])]
  obtain ⟨record, ht, hexit, hans, hshown⟩ := exitAnswered_shown (s := s) (u := u) k 20
    (by rw [hrest]; exact ho) (by rw [hrest]) hctl (by rw [hstore]) (by rw [hstore])
  generalize u.maintenanceExit.answerMaint 20 k = t at *
  obtain ⟨hcyls, himage, hwrite, -, hchans, hcircs, heq⟩ := u.exitAnswered_rule 20 (1 :: record) ht
  have hcyl : ∀ j, t.cyl j = u.cyl j := fun j => by rw [State.cyl, hcyls, State.cyl]
  refine ⟨t, record, hrun, (hcyl k).trans hck, himage.trans (congrArg Store.image hstore),
    hwrite.trans (congrArg Store.write hstore), hexit, hans, hshown, fun j hj => (hcyl j).trans (hcj j hj),
    fun ch => (hchans ch).trans ?_, hcircs.trans ?_, heq.trans ?_⟩
  · rw [State.channel, hcirc, State.channel]
  · rw [hcirc]
  · rw [hcyls, hrest]

theorem restoreCompletion_exits {s : State} {k : CylIdx} {c : Cylinder} (hw : s.store.write = some (.restore k))
    (hx : s.ctl.exitPending = true) (ho : s.site.owed = true) (hk : s.cyl k = some c)
    (hfree : ∀ h, c.disposition ≠ .assigned h) :
    ∃ t record, exec .maintRestoreCompletion s = .next t ∧ t.cyl k = some { c with disposition := .free } ∧
      t.image = { s.image with
        cylinders := s.image.cylinders.set k { s.image.cylinders[k] with inService := true } } ∧
      t.store.write = none ∧ ExitMade s t ∧ SiteAnswered s t 21 .accepted (1 :: record) ∧ CylinderShown t k record ∧
      t.poolGains = s.poolGains + (if c.condition = .empty then 0 else 1) ∧
      (∀ j, j ≠ k → t.cyl j = s.cyl j) ∧
      (∀ ch, t.channel ch = { s.channel ch with
        energised := t.driven ch
        failedPulse := if s.role ch = .cylinder k then false else (s.channel ch).failedPulse }) ∧
      t.circuits = { s.circuits with channels := t.circuits.channels } ∧
      t = { s with store := t.store, cyls := t.cyls, site := t.site, choices := t.choices, ctl := t.ctl
                   circuits := t.circuits, poolGains := t.poolGains } := by
  obtain ⟨hck, hcj, hstore, hpool, hchan, hcirc, hrest⟩ := State.restored_rule hk hfree
  obtain ⟨u, hu⟩ : ∃ u, u = s.restored k := ⟨_, rfl⟩
  rw [← hu] at hck hcj hstore hpool hchan hcirc hrest
  have hctl : u.ctl = s.ctl := by rw [hrest]
  have hrun : exec .maintRestoreCompletion s = .next (u.maintenanceExit.answerMaint 21 k) := by
    rw [exec_maintRestoreCompletion hw, ← hu, State.exitIfPending_of_pending (by rw [hctl, hx])]
  obtain ⟨record, ht, hexit, hans, hshown⟩ := exitAnswered_shown (s := s) (u := u) k 21
    (by rw [hrest]; exact ho) (by rw [hrest]) hctl (by rw [hstore]) (by rw [hstore])
  generalize u.maintenanceExit.answerMaint 21 k = t at *
  obtain ⟨hcyls, himage, hwrite, hgains, hchans, hcircs, heq⟩ := u.exitAnswered_rule 21 (1 :: record) ht
  have hcyl : ∀ j, t.cyl j = u.cyl j := fun j => by rw [State.cyl, hcyls, State.cyl]
  refine ⟨t, record, hrun, (hcyl k).trans hck, himage.trans (congrArg Store.image hstore),
    hwrite.trans (congrArg Store.write hstore), hexit, hans, hshown, hgains.trans hpool,
    fun j hj => (hcyl j).trans (hcj j hj), fun ch => (hchans ch).trans ?_, hcircs.trans ?_, heq.trans ?_⟩
  · rw [hchan]
    split <;> rfl
  · rw [hcirc]
  · rw [hcyls, hgains, hrest]

theorem exec_crcStoreCompletion {s : State} {crc : BitVec 16} (h : s.store.crcStore = some crc) :
    exec .crcStoreCompletion s = .next { s with store := { s.store with crc := crc, crcStore := none } } := by
  simp only [exec, execCrcStoreCompletion, State.crcStored, h]
  rfl

/-- Settles O54: each completion ends in one state, whose reply is then formed with or without the maintenance exit. -/
theorem maintenanceCompletions : Obligations.MaintenanceCompletions := by
  unfold Obligations.MaintenanceCompletions
  exact ⟨fun _ _ _ hw hx ho hk => isolateCompletion_rests hw hx ho hk,
    fun _ _ _ hw hx ho hk hfree => restoreCompletion_rests hw hx ho hk hfree,
    fun _ _ _ hw hx ho hk => isolateCompletion_exits hw hx ho hk,
    fun _ _ _ hw hx ho hk hfree => restoreCompletion_exits hw hx ho hk hfree,
    fun _ _ h => exec_crcStoreCompletion h⟩

end Sys2Proof.Machine
end


-- ==== Sys2Proof/Proofs/CommissionWrites.lean ====
section
/-! PROOFS. The completion of a commissioning write (R185): what each record's write reaches. -/

namespace Sys2Proof.Machine

/-! ### A write leaves Mode Control -/

theorem State.endGrant_ctl (s : State) (h : Hall) : (s.endGrant h).ctl = s.ctl := by
  simp

theorem State.enterConfirming_ctl (s : State) (h : Hall) : (s.enterConfirming h).ctl = s.ctl := by
  cases hc : s.claim h with
  | none => simp only [State.enterConfirming, hc]
  | some cl =>
    by_cases hd : cl.dischargeSeenAt = none
    · rw [State.enterConfirming_unseen hc hd]
      rfl
    · rw [State.enterConfirming_seen hc hd, State.discharge_confirmed_eq, State.endGrant_ctl]
      rfl

theorem State.lineCompletion_ctl (s : State) (h : Hall) : (s.lineCompletion h).ctl = s.ctl := by
  unfold State.lineCompletion
  split
  · rfl
  · split
    · rfl
    · exact s.enterConfirming_ctl h

theorem State.fireLine_ctl (s : State) (h : Hall) : (s.fireLine h).ctl = s.ctl := by
  unfold State.fireLine
  split
  · rfl
  · split
    · rfl
    · dsimp only
      split <;> simp [State.lineCompletion_ctl]

theorem State.handSelector_ctl (s : State) (h : Hall) (v : Valve) (t : Time) : (s.handSelector h v t).ctl = s.ctl := by
  unfold State.handSelector State.sequencerEdge
  dsimp only
  (repeat' split) <;> simp [State.fireLine_ctl]

/-- A write, whatever its record, leaves the mode, the pending exit and image valid (R185). -/
theorem State.applyWrite_ctl (s : State) (w : RecordWrite) : (s.applyWrite w).ctl = s.ctl := by
  unfold State.applyWrite State.openLevelWritten
  dsimp only
  (repeat' split) <;> simp [State.handSelector_ctl]

/-! ### The completion -/

/-- The state in which the write of `w` has been stored and handed over, before a pending exit (R185). -/
def State.written (s : State) (w : RecordWrite) : State := s.writeEnded.applyWrite w

theorem State.written_store (s : State) (w : RecordWrite) :
    (s.written w).store = { s.store with write := none, image := s.image.write w } :=
  State.applyWrite_store s.writeEnded w

/-- The content of the reply to a write: the record as it stands in the store (R187). -/
def State.writtenContent (s : State) (w : RecordWrite) : List Byte :=
  w.name.kindByte :: w.name.indexByte :: s.store.readRecord w.name

theorem exec_commissionWriteCompletion {s : State} {w : RecordWrite} (hw : s.store.write = some (.commission w)) :
    exec .commissionWriteCompletion s =
      .next ((s.written w).exitIfPending.answerSite 22 .accepted ((s.written w).exitIfPending.writtenContent w)) := by
  simp only [exec, execCommissionWriteCompletion, hw]
  rfl

theorem State.written_ctl (s : State) (w : RecordWrite) : (s.written w).ctl = s.ctl := s.writeEnded.applyWrite_ctl w

theorem State.written_site (s : State) (w : RecordWrite) : (s.written w).site = s.site ∧ (s.written w).now = s.now := by
  simp [State.written, State.writeEnded]

/-- The reply to a write whose exit, pending or not, has left `u`. -/
theorem siteAnswered_written {s u : State} (w : RecordWrite) (ho : s.site.owed = true) (hs : u.site = s.site)
    (hn : u.now = s.now) : SiteAnswered s (u.answerSite 22 .accepted (u.writtenContent w)) 22 .accepted
      (w.name.kindByte :: w.name.indexByte ::
        (u.answerSite 22 .accepted (u.writtenContent w)).store.readRecord w.name) :=
  siteAnswered_answerSite (s := u) (t := s) (by rw [hs, ho]) 22 .accepted (u.writtenContent w) hn.symm

theorem commissionWriteCompletion_exits {s : State} {w : RecordWrite} (hw : s.store.write = some (.commission w))
    (ho : s.site.owed = true) (hx : s.ctl.exitPending = true) :
    ∃ t, exec .commissionWriteCompletion s = .next t ∧ t.image = s.image.write w ∧ t.store.write = none ∧
      t.store.crc = s.store.crc ∧ t.ctl.exitPending = false ∧
      t.ctl.imageValid = (validate (s.image.write w)).isNone ∧
      (validate (s.image.write w) = none →
        t.mode = .normal ∧ t.store.crcStore = some (imageCrc (s.image.write w))) ∧
      (validate (s.image.write w) ≠ none → t.mode = .uncommissioned ∧ t.store.crcStore = s.store.crcStore) ∧
      SiteAnswered s t 22 .accepted (w.name.kindByte :: w.name.indexByte :: t.store.readRecord w.name) := by
  obtain ⟨v, hv⟩ : ∃ v, v = s.written w := ⟨_, rfl⟩
  have hctl : v.ctl = s.ctl := by rw [hv]; exact s.written_ctl w
  have hstore := s.written_store w
  obtain ⟨hsite, hnow⟩ := s.written_site w
  have hrun := exec_commissionWriteCompletion hw
  rw [← hv] at hstore hsite hnow hrun
  rw [State.exitIfPending_of_pending (by rw [hctl, hx])] at hrun
  have hans : SiteAnswered s (v.maintenanceExit.answerSite 22 .accepted (v.maintenanceExit.writtenContent w)) 22 .accepted
      (w.name.kindByte :: w.name.indexByte ::
        (v.maintenanceExit.answerSite 22 .accepted (v.maintenanceExit.writtenContent w)).store.readRecord w.name) :=
    siteAnswered_written w ho (by rw [v.maintenanceExit_eq]; exact hsite) (by rw [v.maintenanceExit_eq]; exact hnow)
  have hexit : ExitMade s (v.maintenanceExit.answerSite 22 .accepted (v.maintenanceExit.writtenContent w)) :=
    exitMade_answerSite hctl (by rw [hstore]) (by rw [hstore]) 22 _
  obtain ⟨-, himage, hwrite, -⟩ := v.exitAnswered_rule 22 (v.maintenanceExit.writtenContent w) rfl
  generalize v.maintenanceExit.answerSite 22 .accepted (v.maintenanceExit.writtenContent w) = t at *
  have himg : t.image = s.image.write w := himage.trans (congrArg Store.image hstore)
  obtain ⟨hc, ⟨hcrc, hcs⟩, -⟩ := hexit
  rw [himg] at hc hcs
  refine ⟨t, hrun, himg, hwrite.trans (congrArg Store.write hstore), hcrc, by rw [hc], ?_, fun hval => ⟨?_, ?_⟩,
    fun hval => ⟨?_, ?_⟩, hans⟩
  · rw [hc]
    cases validate (s.image.write w) <;> rfl
  · rw [State.mode, hc, hval]
    rfl
  · rw [hcs, if_pos hval]
  · rw [State.mode, hc]
    exact if_neg hval
  · rw [hcs, if_neg hval]

/-! ### The image written, and the inputs presented again (R145, R185) -/

/-- A contact presented again keeps its filtered value (R143). -/
theorem InputFilter.level_feed {α : Type} [DecidableEq α] (now : Time) (raw : α) (f : InputFilter α) :
    (f.feed now raw).level = f.level := by
  unfold InputFilter.feed
  split
  · rfl
  · split
    · rfl
    · split <;> rfl

/-- The state in which the image has taken `w`, and the inputs have been presented again by its levels. -/
def State.imageWritten (s : State) (w : RecordWrite) : State :=
  (s.writeEnded.setImage (s.image.write w)).represent

/-- No filtered value changes, and nothing but the store and the inputs. -/
theorem State.imageWritten_rule (s : State) (w : RecordWrite) :
    (∀ h : Hall, ((s.imageWritten w).inputs.selectors[h]).level.level = (s.inputs.selectors[h]).level.level) ∧
      (s.imageWritten w).inputs.switch.level.level = s.inputs.switch.level.level ∧
      (s.imageWritten w).store = { s.store with write := none, image := s.image.write w } ∧
      s.imageWritten w = { s with store := (s.imageWritten w).store, inputs := (s.imageWritten w).inputs } := by
  refine ⟨fun h => ?_, ?_, by simp [State.imageWritten, State.writeEnded, State.setImage, State.setStore], rfl⟩
  · have e : (s.imageWritten w).inputs.selectors[h] =
        if (s.inputs.selectors[h]).measured = .loopFault then
          { s.inputs.selectors[h] with
            level := (s.inputs.selectors[h]).level.feed s.now
              (presented ((s.image.write w).halls[h]).openLevel (s.inputs.selectors[h]).measured) }
        else s.inputs.selectors[h] := by
      simp only [State.imageWritten, State.represent, State.setInputs, Fin.getElem_fin, getElem_tabulate]
      rfl
    rw [e]
    split
    · exact InputFilter.level_feed _ _ _
    · rfl
  · have e : (s.imageWritten w).inputs.switch =
        if s.inputs.switch.measured = .loopFault then
          { s.inputs.switch with
            level := s.inputs.switch.level.feed s.now
              (presented (s.image.write w).thresholds.flowLevel s.inputs.switch.measured) }
        else s.inputs.switch := rfl
    rw [e]
    split
    · exact InputFilter.level_feed _ _ _
    · rfl

/-! ### The mismatch flag of one hall (R109) -/

/-- Between `s` and `t` nothing has changed but hall `h`'s mismatch flag, now `b`, and its port, where the latch
SELECTOR_FAIL is set with a flag that rises. -/
structure Flagged (s t : State) (h : Hall) (b : Bool) : Prop where
  flag : t.mismatch h = b
  latch : b = true → s.mismatch h = true ∨ (t.port h).latches.selectorFail ≠ .clear
  keeps : (s.port h).latches.selectorFail ≠ .clear → (t.port h).latches.selectorFail ≠ .clear
  others : ∀ j, j ≠ h → t.mismatch j = s.mismatch j ∧ t.port j = s.port j
  frame : t = { s with manifold := { s.manifold with mismatch := t.manifold.mismatch }, ports := t.ports }

theorem Flagged.refl (s : State) (h : Hall) : Flagged s s h (s.mismatch h) :=
  ⟨rfl, .inl, id, fun _ _ => ⟨rfl, rfl⟩, rfl⟩

theorem Flagged.trans {s t u : State} {h : Hall} {b c : Bool} (x : Flagged s t h b) (y : Flagged t u h c) :
    Flagged s u h c := by
  refine ⟨y.flag, fun hc => ?_, fun hl => y.keeps (x.keeps hl), fun j hj => ?_, ?_⟩
  · rcases y.latch hc with ht | hl
    · rw [x.flag] at ht
      exact (x.latch ht).imp_right y.keeps
    · exact .inr hl
  · obtain ⟨h1, h2⟩ := x.others j hj
    obtain ⟨h3, h4⟩ := y.others j hj
    exact ⟨h3.trans h1, h4.trans h2⟩
  · have e := y.frame
    rw [x.frame] at e
    exact e

theorem State.mismatch_putMismatch (s : State) (h j : Hall) (b : Bool) :
    (s.putMismatch h b).mismatch j = if j = h then b else s.mismatch j := by
  simp only [State.mismatch, State.putMismatch, State.setManifold, Fin.getElem_fin, Vector.getElem_set, Fin.ext_iff]
  simp only [eq_comm]

theorem flagged_putMismatch (s : State) (h : Hall) : Flagged s (s.putMismatch h false) h false := by
  refine ⟨by rw [State.mismatch_putMismatch, if_pos rfl], nofun, id, fun j hj => ⟨?_, rfl⟩, rfl⟩
  rw [State.mismatch_putMismatch, if_neg hj]

theorem flagged_setMismatch (s : State) (h : Hall) : Flagged s (s.setMismatch h) h true := by
  unfold State.setMismatch
  split
  · rename_i hm
    exact hm ▸ Flagged.refl s h
  · have hm : ∀ j, ((s.putMismatch h true).setLatch h .selectorFail).mismatch j = (s.putMismatch h true).mismatch j :=
      fun j => by simp [State.mismatch]
    refine ⟨by rw [hm, State.mismatch_putMismatch, if_pos rfl], fun _ => .inr ?_, fun _ => ?_, fun j hj => ⟨?_, ?_⟩, ?_⟩
    · exact (s.putMismatch h true).setLatch_set h .selectorFail
    · exact (s.putMismatch h true).setLatch_set h .selectorFail
    · rw [hm, State.mismatch_putMismatch, if_neg hj]
    · rw [State.port_setLatch, if_neg hj]
      rfl
    · rfl

/-- The test for a mismatch, where hall `h` is not closing (R109). -/
theorem flagged_testMismatch {s : State} {h : Hall} (hcl : s.manifold.state ≠ .closing) :
    Flagged s (s.testMismatch h) h (s.mismatch h || ((s.hallRec h).commissioned &&
      (decide (s.selectorReading h = some .opened) && !decide (s.selectorCmd h = .opened)))) := by
  have he : s.expectedOpen h = decide (s.selectorCmd h = .opened) := by simp [State.expectedOpen, hcl]
  unfold State.testMismatch
  rw [he]
  split
  · rename_i hc
    obtain ⟨h1, h2, h3⟩ := hc
    have hb : (s.mismatch h || ((s.hallRec h).commissioned &&
        (decide (s.selectorReading h = some .opened) && !decide (s.selectorCmd h = .opened)))) = true := by
      simp_all
    rw [hb]
    exact flagged_setMismatch s h
  · rename_i hc
    have hb : (s.mismatch h || ((s.hallRec h).commissioned &&
        (decide (s.selectorReading h = some .opened) && !decide (s.selectorCmd h = .opened)))) = s.mismatch h := by
      simp_all
    rw [hb]
    exact Flagged.refl s h

/-- The clearing of a flag, where no hall waits for a grant (R98, R109). -/
theorem flagged_clearMismatch {s : State} {h : Hall} (hw : s.manifold.waitList = []) :
    Flagged s (s.clearMismatch h) h false := by
  unfold State.clearMismatch
  split
  · have hg : (s.putMismatch h false).tryGrant = s.putMismatch h false := by
      have hn : (s.putMismatch h false).mayGrant = false := by
        simp [State.mayGrant, State.putMismatch, State.setManifold, hw]
      simp only [State.tryGrant, hn, Bool.false_eq_true, if_false]
    rw [hg]
    exact flagged_putMismatch s h
  · rename_i hm
    have hf : s.mismatch h = false := by simpa using hm
    exact hf ▸ Flagged.refl s h

/-! ### A HALL record (R109, R145) -/

/-- The manifold serves no hall and none waits, as in MAINTENANCE. -/
structure State.Unserved (s : State) : Prop where
  holder : s.manifold.holder = none
  waitList : s.manifold.waitList = []
  state : s.manifold.state ≠ .closing

theorem State.Unserved.of_flagged {s t : State} {h : Hall} {b : Bool} (x : s.Unserved) (f : Flagged s t h b) :
    t.Unserved := by
  obtain ⟨h1, h2, h3⟩ := x
  rw [f.frame]
  exact ⟨h1, h2, h3⟩

/-- The mismatch flag after an edge of hall `h`'s reading to `after`, which was `before` (R109). -/
def State.edgeFlag (s : State) (h : Hall) (before after : Option Valve) : Bool :=
  if before = after then s.mismatch h
  else if after = some .opened then
    s.mismatch h || ((s.hallRec h).commissioned && !decide (s.selectorCmd h = .opened))
  else false

/-- The selector capture of hall `h` after such an edge at now (R147). -/
def State.edgeCapture (s : State) (h : Hall) (before after : Option Valve) : CaptureUnit :=
  if before ≠ after ∧ after = some .opened ∧ s.captures.selectors[h] = .armed then .held s.now
  else s.captures.selectors[h]

theorem State.setSelectorCapture_self (s : State) (h : Hall) : s.setSelectorCapture h s.captures.selectors[h] = s := by
  have e : s.captures.selectors.set h.val s.captures.selectors[h] = s.captures.selectors := Vector.set_getElem_self h.isLt
  exact congrArg (fun v => { s with captures := { s.captures with selectors := v } }) e

theorem State.handSelector_unserved {s : State} {h : Hall} {v : Valve} {t : Time} (x : s.Unserved) :
    s.handSelector h v t =
      (if v = .opened then s.setSelectorCapture h ((s.captures.selectors[h]).record t) else s).arbiterEdge h v := by
  obtain ⟨u, hu⟩ : ∃ u, u = if v = .opened then s.setSelectorCapture h ((s.captures.selectors[h]).record t) else s := ⟨_, rfl⟩
  have hx : u.Unserved := by
    rw [hu]
    split
    · exact ⟨x.holder, x.waitList, x.state⟩
    · exact x
  have hh : (u.arbiterEdge h v).manifold.holder = none := by
    cases v with
    | opened => exact (hx.of_flagged (flagged_testMismatch hx.state)).holder
    | closed =>
      have e : u.arbiterEdge h .closed = u.clearMismatch h := by simp [State.arbiterEdge, hx.state]
      rw [e]
      exact (hx.of_flagged (flagged_clearMismatch hx.waitList)).holder
  have e : s.handSelector h v t = (u.arbiterEdge h v).sequencerEdge h v := by rw [hu]; rfl
  rw [e, ← hu]
  simp [State.sequencerEdge, hh]

/-- The edge that a write of the OPEN level hands over, with no hall served: the capture takes it, and the flag follows. -/
theorem flagged_openLevelWritten {s : State} {h : Hall} {before : Option Valve} (x : s.Unserved)
    (hb : before = none ↔ s.selectorReading h = none) :
    Flagged (s.setSelectorCapture h (s.edgeCapture h before (s.selectorReading h))) (s.openLevelWritten h before) h
      (s.edgeFlag h before (s.selectorReading h)) := by
  by_cases he : before = s.selectorReading h
  · have e1 : s.openLevelWritten h before = s := by
      unfold State.openLevelWritten
      split
      · rename_i v hv
        rw [if_pos (he.trans hv)]
      · rfl
    have e2 : s.edgeCapture h before (s.selectorReading h) = s.captures.selectors[h] := if_neg fun hc => hc.1 he
    have e3 : s.edgeFlag h before (s.selectorReading h) = s.mismatch h := if_pos he
    rw [e1, e2, e3, State.setSelectorCapture_self]
    exact Flagged.refl s h
  · cases hr : s.selectorReading h with
    | none => exact absurd ((hb.2 hr).trans hr.symm) he
    | some v =>
      have hne : before ≠ some v := fun e => he (e.trans hr.symm)
      have e1 : s.openLevelWritten h before = s.handSelector h v s.now := by
        simp only [State.openLevelWritten, hr, if_neg hne]
      rw [e1, State.handSelector_unserved x]
      cases v with
      | opened =>
        have e2 : s.edgeCapture h before (some .opened) = (s.captures.selectors[h]).record s.now := by
          unfold State.edgeCapture CaptureUnit.record
          cases hcap : s.captures.selectors[h] <;> simp [hne]
        obtain ⟨u, hu⟩ : ∃ u, u = s.setSelectorCapture h ((s.captures.selectors[h]).record s.now) := ⟨_, rfl⟩
        have hur : u.selectorReading h = some .opened := by rw [hu]; exact hr
        have e3 : s.edgeFlag h before (some .opened) = (u.mismatch h || ((u.hallRec h).commissioned &&
            (decide (u.selectorReading h = some .opened) && !decide (u.selectorCmd h = .opened)))) := by
          have hq : (u.mismatch h || ((u.hallRec h).commissioned && !decide (u.selectorCmd h = .opened))) =
              s.edgeFlag h before (some .opened) := by
            rw [State.edgeFlag, if_neg hne, if_pos rfl, hu]
            rfl
          rw [← hq, hur]
          simp
        rw [e2, e3, if_pos rfl, ← hu]
        exact flagged_testMismatch (by rw [hu]; exact x.state)
      | closed =>
        have e2 : s.edgeCapture h before (some .closed) = s.captures.selectors[h] := if_neg fun hc => nomatch hc.2.1
        have e3 : s.edgeFlag h before (some .closed) = false := by
          rw [State.edgeFlag, if_neg hne, if_neg (by simp)]
        have e4 : s.arbiterEdge h .closed = s.clearMismatch h := by simp [State.arbiterEdge, x.state]
        rw [e2, e3, State.setSelectorCapture_self, if_neg (by simp), e4]
        exact flagged_clearMismatch x.waitList

/-- The mismatch flag after a change of commissioned from `before` (R109, R185). -/
def State.commissionedFlag (s : State) (h : Hall) (before : Bool) : Bool :=
  if before = true ∧ (s.hallRec h).commissioned = false then false
  else if before = false ∧ (s.hallRec h).commissioned = true then
    s.mismatch h || (decide (s.selectorReading h = some .opened) && !decide (s.selectorCmd h = .opened))
  else s.mismatch h

theorem flagged_commissionedWritten {s : State} {h : Hall} {before : Bool} (x : s.Unserved) :
    Flagged s (s.commissionedWritten h before) h (s.commissionedFlag h before) := by
  unfold State.commissionedWritten State.commissionedFlag
  cases before <;> cases hc : (s.hallRec h).commissioned
  · exact Flagged.refl s h
  · have f := flagged_testMismatch (h := h) x.state
    rw [hc, Bool.true_and] at f
    exact f
  · exact flagged_clearMismatch x.waitList
  · exact Flagged.refl s h

/-- A HALL record written, with no hall served: the reading by the new level, the capture, the flag and its latch. -/
theorem hall_written {s : State} {h : Hall} {r : HallRecord} (x : s.Unserved) :
    let before := s.selectorReading h
    let after : Option Valve := (s.inputs.selectors[h]).level.level.map fun l =>
      if l = r.openLevel then .opened else .closed
    let expected := decide (s.selectorCmd h = .opened)
    let edge := if before = after then s.mismatch h
      else if after = some .opened then s.mismatch h || (r.commissioned && !expected) else false
    let v := s.written (.hall h r)
    v.hallRec h = r ∧ (∀ j, j ≠ h → v.hallRec j = s.hallRec j) ∧ v.selectorReading h = after ∧
      v.captures.selectors[h] =
        (if before ≠ after ∧ after = some .opened ∧ s.captures.selectors[h] = .armed then .held s.now
          else s.captures.selectors[h]) ∧
      v.mismatch h =
        (if (s.hallRec h).commissioned = true ∧ r.commissioned = false then false
          else if (s.hallRec h).commissioned = false ∧ r.commissioned = true then
            edge || (decide (after = some .opened) && !expected)
          else edge) ∧
      (s.mismatch h = false → v.mismatch h = true → (v.port h).latches.selectorFail ≠ .clear) ∧
      (∀ j, j ≠ h → v.mismatch j = s.mismatch j ∧ v.port j = s.port j ∧ v.selectorReading j = s.selectorReading j) ∧
      v.manifold = { s.manifold with mismatch := v.manifold.mismatch } ∧
      v = { s with store := v.store, inputs := v.inputs, captures := v.captures, manifold := v.manifold
                   ports := v.ports } := by
  intro before after expected edge v
  obtain ⟨hlevels, -, hstore, hrest⟩ := s.imageWritten_rule (.hall h r)
  obtain ⟨u, hu⟩ : ∃ u, u = s.imageWritten (.hall h r) := ⟨_, rfl⟩
  have hv : v = (u.openLevelWritten h before).commissionedWritten h (s.hallRec h).commissioned := by rw [hu]; rfl
  rw [← hu] at hlevels hstore hrest
  have hxu : u.Unserved := by
    rw [hrest]
    exact ⟨x.holder, x.waitList, x.state⟩
  have hhalls : ∀ j, u.hallRec j = if j = h then r else s.hallRec j := fun j => by
    rw [State.hallRec, hstore]
    simp only [Image.write, Fin.getElem_fin, Vector.getElem_set, State.hallRec, State.image, Fin.ext_iff]
    simp only [eq_comm]
  have hrec : u.hallRec h = r := (hhalls h).trans (if_pos rfl)
  have hread : u.selectorReading h = after := by rw [State.selectorReading, hlevels, hrec]
  have hmm : ∀ j, u.mismatch j = s.mismatch j := fun j => by rw [hrest]; rfl
  have hcmd : u.selectorCmd h = s.selectorCmd h := by rw [hrest]; rfl
  have hcaps : u.captures = s.captures := by rw [hrest]
  have hnow : u.now = s.now := by rw [hrest]
  have hisome : before = none ↔ u.selectorReading h = none := by
    rw [hread]
    simp [before, after, State.selectorReading]
  have f1 := flagged_openLevelWritten hxu hisome
  have hx1 : (u.setSelectorCapture h (u.edgeCapture h before (u.selectorReading h))).Unserved :=
    ⟨hxu.holder, hxu.waitList, hxu.state⟩
  have f2 := flagged_commissionedWritten (h := h) (before := (s.hallRec h).commissioned) (hx1.of_flagged f1)
  rw [← hv] at f2
  have hf1 := f1.frame
  have hflag1 := f1.flag
  have f := f1.trans f2
  have hfc := f.frame
  have hcap : u.edgeCapture h before (u.selectorReading h) =
      if before ≠ after ∧ after = some .opened ∧ s.captures.selectors[h] = .armed then .held s.now
        else s.captures.selectors[h] := by
    rw [State.edgeCapture, hread, hcaps, hnow]
  have hedge : u.edgeFlag h before (u.selectorReading h) = edge := by
    rw [State.edgeFlag, hread, hrec, hmm, hcmd]
  rw [hedge] at hflag1
  have hvread : ∀ j, v.selectorReading j = u.selectorReading j := fun j => by rw [hfc]; rfl
  refine ⟨?_, fun j hj => ?_, (hvread h).trans hread, ?_, ?_, fun h1 h2 => ?_, fun j hj => ⟨?_, ?_, ?_⟩, ?_, ?_⟩
  · rw [hfc]
    exact hrec
  · rw [hfc]
    exact (hhalls j).trans (if_neg hj)
  · rw [hfc, ← hcap]
    exact Vector.getElem_set_self h.isLt
  · have c1 : (u.openLevelWritten h before).hallRec h = r := by rw [hf1]; exact hrec
    have c2 : (u.openLevelWritten h before).selectorReading h = after := by rw [hf1]; exact hread
    have c3 : (u.openLevelWritten h before).selectorCmd h = s.selectorCmd h := by rw [hf1]; exact hcmd
    rw [f.flag, State.commissionedFlag, c1, c2, c3, hflag1]
  · rw [f.flag] at h2
    rcases f.latch h2 with hm | hl
    · exact absurd ((hmm h).symm.trans hm) (by rw [h1]; simp)
    · exact hl
  · exact (f.others j hj).1.trans (hmm j)
  · refine (f.others j hj).2.trans ?_
    rw [hrest]
    rfl
  · rw [hvread, State.selectorReading, hlevels, hhalls, if_neg hj]
    rfl
  · rw [hfc, hrest]
    rfl
  · rw [hfc, hrest]
    rfl

/-! ### The THRESHOLDS record (R145) -/

theorem thresholds_written {s : State} {th : Thresholds} :
    let before := s.switchReading
    let after := s.inputs.switch.level.level.map fun l => decide (l = th.flowLevel)
    let v := s.written (.thresholds th)
    v.image.thresholds = th ∧ v.switchReading = after ∧
      v.captures.switch =
        (if before ≠ after ∧ after = some true ∧ s.captures.switch = .armed then .held s.now
          else s.captures.switch) ∧
      v.captures.selectors = s.captures.selectors ∧
      v = { s with store := v.store, inputs := v.inputs, captures := v.captures } := by
  intro before after v
  obtain ⟨-, hlevel, hstore, hrest⟩ := s.imageWritten_rule (.thresholds th)
  obtain ⟨u, hu⟩ : ∃ u, u = s.imageWritten (.thresholds th) := ⟨_, rfl⟩
  have hv : v = u.flowLevelWritten before := by rw [hu]; rfl
  rw [← hu] at hlevel hstore hrest
  have hth : u.image.thresholds = th := by rw [State.image, hstore]; rfl
  have hread : u.switchReading = after := by rw [State.switchReading, hlevel, hth]
  have hcaps : u.captures = s.captures := by rw [hrest]
  have hnow : u.now = s.now := by rw [hrest]
  have hvc : v = { u with captures := v.captures } := by
    rw [hv]
    unfold State.flowLevelWritten State.handSwitch
    (repeat' split) <;> rfl
  have hcap : v.captures = { s.captures with
      switch := if before ≠ after ∧ after = some true ∧ s.captures.switch = .armed
        then .held s.now
        else s.captures.switch } := by
    rw [hv, State.flowLevelWritten, hread, ← hnow, ← hcaps]
    cases after with
    | none => simp
    | some flow =>
      by_cases he : before = some flow
      · simp [he]
      · cases flow with
        | false => simp [State.handSwitch]
        | true =>
          simp only [if_neg he, State.handSwitch, if_true, State.setSwitchCapture, CaptureUnit.record]
          cases u.captures.switch <;> simp [he]
  refine ⟨?_, ?_, by rw [hcap], by rw [hcap], ?_⟩
  · rw [hvc]
    exact hth
  · rw [hvc]
    exact hread
  · rw [hvc, hrest]

/-! ### A CYLINDER record (R2) -/

theorem cylinder_written {s : State} {k : CylIdx} {fitted : Bool} {qNom pNom : Nat}
    (hfit : (s.cyl k).isSome = (s.image.cylinders[k]).fitted) :
    let v := s.written (.cylinder k fitted qNom pNom)
    (v.image.cylinders[k]).fitted = fitted ∧ (v.image.cylinders[k]).qNom = qNom ∧
      (v.image.cylinders[k]).pNom = pNom ∧
      (v.image.cylinders[k]).inService =
        (if fitted = (s.image.cylinders[k]).fitted then (s.image.cylinders[k]).inService else fitted) ∧
      (∀ j : CylIdx, j ≠ k → v.image.cylinders[j] = s.image.cylinders[j] ∧ v.cyl j = s.cyl j) ∧
      (fitted = false → v.cyl k = none) ∧
      (fitted = true → (s.image.cylinders[k]).fitted = false →
        v.cyl k = some { window := none, pos := 0, seeded := false, streak := 0, pAvg := 0, phi := 0, e := 0
                         condition := .unread, disposition := .free }) ∧
      (∀ c, fitted = true → s.cyl k = some c → ∃ c', v.cyl k = some c' ∧ c'.window = c.window ∧
        c'.disposition = c.disposition ∧
        (c.seeded = true → c.condition ≠ .unread →
          (qNom ≠ (s.image.cylinders[k]).qNom ∨ pNom ≠ (s.image.cylinders[k]).pNom) →
          c'.phi = min 1000 (c.pAvg * 2881 * 1000 / (pNom * (2731 + s.rackTemp (rackOf k)).toNat)) ∧
          c'.condition = classifyFrom s.image.thresholds.low s.image.thresholds.empty c.condition c'.phi ∧
          c'.e = (if c'.condition = .full ∨ c'.condition = .low then qNom * c'.phi / 1000 else 0))) := by
  intro v
  obtain ⟨-, -, hstore, hrest⟩ := s.imageWritten_rule (.cylinder k fitted qNom pNom)
  obtain ⟨u, hu⟩ : ∃ u, u = s.imageWritten (.cylinder k fitted qNom pNom) := ⟨_, rfl⟩
  have hv : v = u.cylinderWritten k s.image.cylinders[k] := by rw [hu]; rfl
  rw [← hu] at hstore hrest
  obtain ⟨new, hnew⟩ : ∃ n : CylinderRecord, n = { fitted := fitted, qNom := qNom, pNom := pNom
                                                   inService := if fitted = (s.image.cylinders[k]).fitted
                                                     then (s.image.cylinders[k]).inService else fitted } := ⟨_, rfl⟩
  have himg : v.image.cylinders = s.image.cylinders.set k new := by
    rw [hnew]
    exact congrArg (fun st => st.image.cylinders) (s.written_store (.cylinder k fitted qNom pNom))
  have hk : v.image.cylinders[k] = new := by rw [himg]; exact Vector.getElem_set_self k.isLt
  have hku : u.image.cylinders[k] = new := by
    rw [State.image, hstore, hnew]
    exact Vector.getElem_set_self k.isLt
  have hcylu : ∀ j, u.cyl j = s.cyl j := fun j => by rw [hrest]; rfl
  have hthr : u.image.thresholds = s.image.thresholds := by rw [State.image, hstore]; rfl
  have htemp : u.rackTemp (rackOf k) = s.rackTemp (rackOf k) := by rw [hrest]; rfl
  have hcyl : ∀ j, v.cyl j = if j = k then u.rewritten k s.image.cylinders[k] new else s.cyl j := fun j => by
    rw [hv, State.cyl_cylinderWritten, hku, hcylu]
  have hck : v.cyl k = u.rewritten k s.image.cylinders[k] new := (hcyl k).trans (if_pos rfl)
  refine ⟨by rw [hk, hnew], by rw [hk, hnew], by rw [hk, hnew], by rw [hk, hnew],
    fun j hj => ⟨?_, (hcyl j).trans (if_neg hj)⟩, fun hf => ?_, fun hf ho => ?_, fun c hf hc => ?_⟩
  · rw [himg]
    exact Vector.getElem_set_ne k.isLt j.isLt fun e => hj (Fin.ext e.symm)
  · have hn := u.isSome_rewritten k s.image.cylinders[k] new
    rw [hnew, hf] at hn
    rw [hck, hnew, hf]
    exact Option.isNone_iff_eq_none.1 (by simpa using hn)
  · have hnone : s.cyl k = none := Option.isSome_eq_false_iff.1 (hfit.trans ho) |> Option.isNone_iff_eq_none.1
    have hfn : new.fitted = true := by rw [hnew]; exact hf
    rw [hck, State.rewritten, hcylu, hnone]
    simp only [hfn, if_true]
    rfl
  · have hfn : new.fitted = true := by rw [hnew]; exact hf
    have hq : new.qNom = qNom := by rw [hnew]
    have hp : new.pNom = pNom := by rw [hnew]
    rw [hck, State.rewritten, hcylu, hc]
    simp only [hfn, Bool.not_true, Bool.false_eq_true, if_false, hq, hp, hthr, htemp]
    split
    · refine ⟨_, rfl, rfl, rfl, fun _ _ _ => ⟨?_, rfl, ?_⟩⟩
      · simp [Cylinder.recompute, chargeFraction, hp]
      · simp only [Cylinder.recompute, hq]
        cases hcond : classifyFrom s.image.thresholds.low s.image.thresholds.empty c.condition
          (chargeFraction c.pAvg new.pNom (s.rackTemp (rackOf k))) <;> simp [effective]
    · rename_i hno
      exact ⟨_, rfl, rfl, rfl, fun h1 h2 h3 => absurd ⟨h3, h1, h2⟩ hno⟩

/-! ### A CHANNEL record (R149, R157) -/

theorem channel_written {s : State} {c : ChanIdx} {role : Role} :
    let v := s.written (.channel c role)
    (role ≠ s.role c → (v.channel c).measured = .unknown ∧ (v.channel c).goodChecks = 0 ∧
        (v.channel c).failedPulse = false) ∧
      (role = s.role c → v.channel c = s.channel c) ∧
      (∀ d, d ≠ c → (v.channel d).measured = (s.channel d).measured ∧
        (v.channel d).goodChecks = (s.channel d).goodChecks) := by
  intro v
  obtain ⟨-, -, hstore, hrest⟩ := s.imageWritten_rule (.channel c role)
  obtain ⟨u, hu⟩ : ∃ u, u = s.imageWritten (.channel c role) := ⟨_, rfl⟩
  have hv : v = u.roleWritten c (s.role c) := by rw [hu]; rfl
  rw [← hu] at hstore hrest
  have hrole : u.role c = role := by
    rw [State.role, hstore]
    exact Vector.getElem_set_self c.isLt
  have hchan : ∀ d, u.channel d = s.channel d := fun d => by rw [hrest]; rfl
  by_cases he : role = s.role c
  · have e : v = u := by rw [hv, State.roleWritten, hrole, if_pos he]
    exact ⟨fun h => absurd he h, fun _ => by rw [e, hchan], fun d _ => by rw [e, hchan]; exact ⟨rfl, rfl⟩⟩
  · have e : v = (u.setChannel c { u.channel c with
        measured := .unknown, goodChecks := 0, failedPulse := false }).redrive := by
      rw [hv, State.roleWritten, hrole, if_neg he]
    refine ⟨fun _ => ?_, fun h => absurd h he, fun d hd => ?_⟩
    · rw [e, State.channel_redrive, State.channel_setChannel, if_pos rfl]
      exact ⟨rfl, rfl, rfl⟩
    · rw [e, State.channel_redrive, State.channel_setChannel, if_neg hd, hchan]
      exact ⟨rfl, rfl⟩

/-! ### The obligation -/

/-- Settles O53: with an exit pending by what the exit leaves, with none by what the write of each record leaves. -/
theorem writeCompletes : Obligations.WriteCompletes := by
  unfold Obligations.WriteCompletes
  intro s w hw ho
  refine ⟨commissionWriteCompletion_exits hw ho, fun hx => ?_⟩
  have hctl := s.written_ctl w
  obtain ⟨hsite, hnow⟩ := s.written_site w
  have hrun := exec_commissionWriteCompletion hw
  rw [State.exitIfPending_of_not (by rw [hctl, hx])] at hrun
  refine ⟨_, hrun, ⟨s.written_store w, congrArg ModeControl.mode hctl, siteAnswered_written w ho hsite hnow⟩,
    fun h r e hh hl hs => ?_, fun th e => ?_, fun k fitted qNom pNom e hfit => ?_, fun c role e => ?_⟩
  · subst e
    obtain ⟨h1, h2, h3, h4, h5, h6, h7, h8, h9⟩ := hall_written (h := h) (r := r) ⟨hh, hl, hs⟩
    refine ⟨h1, h2, h3, h4, h5, h6, h7, h8, ?_⟩
    rw [h9]
    rfl
  · subst e
    obtain ⟨h1, h2, h3, h4, h5⟩ := thresholds_written (s := s) (th := th)
    refine ⟨h1, h2, h3, h4, ?_⟩
    rw [h5]
    rfl
  · subst e
    exact cylinder_written hfit
  · subst e
    exact channel_written

end Sys2Proof.Machine
end


-- ==== Sys2Proof/Proofs/ClaimsLaw.lean ====
section
/-! PROOFS. The claims law taken apart by hall: what it reads of the state, and what changes for one hall leave to the others. -/

namespace Sys2Proof.Machine

/-! ### What the law reads of the release circuits -/

/-- The fire pulses in progress, channel by channel. -/
def State.pulses (s : State) : Vector (Option Time) 80 := s.circuits.channels.map (·.pulse)

theorem State.pulse_channel (s : State) (c : ChanIdx) : (s.channel c).pulse = s.pulses[c] := by
  simp [State.pulses, State.channel]

theorem State.pulses_ext {s t : State} (h : ∀ c, (t.channel c).pulse = (s.channel c).pulse) : t.pulses = s.pulses := by
  refine Vector.ext fun i hi => ?_
  have e := h ⟨i, hi⟩
  rw [State.pulse_channel, State.pulse_channel] at e
  exact e

theorem State.pulses_of_circuits {s t : State} (h : t.circuits = s.circuits) : t.pulses = s.pulses := by
  rw [State.pulses, h, State.pulses]

@[simp] theorem State.pulses_redrive (s : State) : s.redrive.pulses = s.pulses :=
  State.pulses_ext fun c => by rw [State.channel_redrive]

@[simp] theorem State.pulses_commandSelector (s : State) (h : Hall) (v : Valve) : (s.commandSelector h v).pulses = s.pulses :=
  State.pulses_redrive _

@[simp] theorem State.pulses_commandVent (s : State) (v : Valve) : (s.commandVent v).pulses = s.pulses := State.pulses_redrive _

@[simp] theorem State.pulses_setMode (s : State) (m : Mode) : (s.setMode m).pulses = s.pulses := State.pulses_redrive _

@[simp] theorem State.pulses_maintPendingEnd (s : State) : s.maintPendingEnd.pulses = s.pulses := by
  unfold State.maintPendingEnd
  split <;> simp

@[simp] theorem State.pulses_enterVenting (s : State) : s.enterVenting.pulses = s.pulses := State.pulses_commandVent _ _

@[simp] theorem State.pulses_testMismatch (s : State) (h : Hall) : (s.testMismatch h).pulses = s.pulses :=
  State.pulses_of_circuits (by simp)

@[simp] theorem State.pulses_leaveClosing (s : State) : s.leaveClosing.pulses = s.pulses := by
  unfold State.leaveClosing
  split <;> simp

@[simp] theorem State.pulses_enterClosing (s : State) : s.enterClosing.pulses = s.pulses := by
  rw [State.enterClosing_eq]
  split
  · rfl
  · exact State.pulses_enterVenting _

@[simp] theorem State.pulses_endGrant (s : State) (h : Hall) : (s.endGrant h).pulses = s.pulses :=
  (State.pulses_enterClosing _).trans (State.pulses_commandSelector _ _ _)

@[simp] theorem State.pulses_withdrawGrant (s : State) (h : Hall) : (s.withdrawGrant h).pulses = s.pulses :=
  State.pulses_endGrant _ h

@[simp] theorem State.pulses_grant (s : State) (h : Hall) : (s.grant h).pulses = s.pulses :=
  State.pulses_commandSelector _ h .opened

@[simp] theorem State.pulses_tryGrant (s : State) : s.tryGrant.pulses = s.pulses := by
  unfold State.tryGrant
  (repeat' split) <;> simp

@[simp] theorem State.pulses_clearMismatch (s : State) (h : Hall) : (s.clearMismatch h).pulses = s.pulses := by
  unfold State.clearMismatch
  split
  · exact State.pulses_tryGrant _
  · rfl

/-! ### The law of one hall -/

/-- What hall `h`'s claim `c` holds is what is ASSIGNED to the hall, each once and with its present E, and its sums and its
limit follow (R15, R40, R41, R77, R85). -/
structure HeldLaw (s : State) (h : Hall) (c : Claim) : Prop where
  allocated : c.allocatedSum = sumE c.allocation
  short : c.shortage = c.figures.req - c.allocatedSum
  limit : c.allocation.length + c.fired.length ≤ Config.claimLimit
  owner : ∀ k, s.assignedTo h k = true ↔ ∃ e ∈ c.allocation, e.cyl = k
  once : (c.allocation.map (·.cyl)).Nodup
  content : ∀ e ∈ c.allocation, (s.cyl e.cyl).map (·.e) = some e.e

/-- What the state of a claim says of what it holds and of its STARVED flag (R54, R56, R57, R121). -/
structure Claim.StateLaw (c : Claim) : Prop where
  holding : c.allocation ≠ [] → c.state = .countdown ∨ c.state = .hold ∨ c.state = .waiting ∨ c.state = .selecting ∨
    c.state = .firing
  starved : c.flags.starved = true → c.allocation = [] ∧ c.state ≠ .waiting ∧ c.state.granted = false
  flagged : c.state = .countdown ∨ c.state = .hold ∨ c.state = .starved →
    (c.flags.starved = true ↔ c.allocation = [])
  supplied : c.state = .waiting ∨ c.state = .selecting → c.allocation ≠ []

/-- The law of hall `h`'s claim `c`. -/
structure ClaimKept (s : State) (h : Hall) (c : Claim) : Prop where
  held : HeldLaw s h c
  state : c.StateLaw
  schedule : c.state = .selecting ∨ c.state = .firing → ∃ sc, c.schedule = some sc ∧ ScheduleLaw s c sc
  deferral : ∀ sc, c.state = .firing → c.schedule = some sc → (s.unit h).kind? = some .deferral → sc.outstanding = 0

/-- The law of hall `h`: its claim is kept, and with no claim nothing is ASSIGNED to it. -/
def HallLaw (s : State) (h : Hall) : Prop :=
  match s.claim h with
  | none => ∀ k, s.assignedTo h k = false
  | some c => ClaimKept s h c

/-- The claims law without what it says of the image. -/
structure CoreLaw (s : State) : Prop where
  halls : ∀ h, HallLaw s h
  pulses : ∀ ch, (s.channel ch).pulse.isSome = true →
    ∃ h k, s.role ch = .cylinder k ∧ s.assignedTo h k = true ∧ s.claimState h = some .firing

/-- What the claims law says of the image. -/
def ImageLaw (s : State) : Prop :=
  s.mode = .normal ∨ s.mode = .maintPending ∨ (s.mode = .startup ∧ s.ctl.imageValid = true) → validate s.image = none

theorem HallLaw.of_claim {s : State} {h : Hall} {c : Claim} (hc : s.claim h = some c) (k : ClaimKept s h c) : HallLaw s h := by
  simp only [HallLaw, hc]
  exact k

theorem HallLaw.claim {s : State} {h : Hall} {c : Claim} (l : HallLaw s h) (hc : s.claim h = some c) : ClaimKept s h c := by
  simp only [HallLaw, hc] at l
  exact l

theorem HallLaw.unclaimed {s : State} {h : Hall} (l : HallLaw s h) (hc : s.claim h = none) (k : CylIdx) :
    s.assignedTo h k = false := by
  simp only [HallLaw, hc] at l
  exact l k

theorem claimLaw_iff {s : State} {h : Hall} {c : Claim} :
    HeldLaw s h c ∧ c.StateLaw ↔ ClaimLaw c ∧ (∀ k, s.assignedTo h k = true ↔ ∃ e ∈ c.allocation, e.cyl = k) ∧
      (c.allocation.map (·.cyl)).Nodup ∧ ∀ e ∈ c.allocation, ∃ y, s.cyl e.cyl = some y ∧ y.e = e.e := by
  have hcontent : ∀ e : Entry, (s.cyl e.cyl).map (·.e) = some e.e ↔ ∃ y, s.cyl e.cyl = some y ∧ y.e = e.e := fun e => by
    cases s.cyl e.cyl <;> simp
  constructor
  · rintro ⟨⟨h1, h2, h3, h4, h5, h6⟩, ⟨h7, h8, h9, h10⟩⟩
    exact ⟨⟨h1, h2, h3, h7, h8, h9, h10⟩, h4, h5, fun e he => (hcontent e).1 (h6 e he)⟩
  · rintro ⟨⟨h1, h2, h3, h7, h8, h9, h10⟩, h4, h5, h6⟩
    exact ⟨⟨h1, h2, h3, h4, h5, fun e he => (hcontent e).2 (h6 e he)⟩, ⟨h7, h8, h9, h10⟩⟩

theorem claimsLaw_iff (s : State) : ClaimsLaw s ↔ CoreLaw s ∧ ImageLaw s := by
  constructor
  · intro l
    refine ⟨⟨fun h => ?_, l.pulses⟩, l.image⟩
    cases hc : s.claim h with
    | none =>
      simp only [HallLaw, hc]
      intro k
      rw [← Bool.not_eq_true, l.allocation.owner, hc]
      simp
    | some c =>
      have ho : ∀ k, s.assignedTo h k = true ↔ ∃ e ∈ c.allocation, e.cyl = k := fun k => by
        rw [l.allocation.owner, hc]
        simp
      obtain ⟨h1, h2⟩ := claimLaw_iff.2 ⟨l.each h c hc, ho, l.allocation.once h c hc, fun e => l.allocation.content h c e hc⟩
      exact .of_claim hc ⟨h1, h2, l.schedule h c hc, fun sc => l.deferral h c sc hc⟩
  · rintro ⟨l, hi⟩
    have hk : ∀ h c, s.claim h = some c → ClaimKept s h c := fun h c hc => (l.halls h).claim hc
    refine ⟨fun h c hc => (claimLaw_iff.1 ⟨(hk h c hc).held, (hk h c hc).state⟩).1, ⟨fun h k => ?_, fun h c hc => (hk h c hc).held.once,
      fun h c e hc => (claimLaw_iff.1 ⟨(hk h c hc).held, (hk h c hc).state⟩).2.2.2 e⟩, fun h c hc => (hk h c hc).schedule,
      fun h c sc hc => (hk h c hc).deferral sc, l.pulses, hi⟩
    cases hc : s.claim h with
    | none => simp [(l.halls h).unclaimed hc k]
    | some c => simp [(hk h c hc).held.owner k]

/-! ### Changes that the law does not read -/

theorem State.pulsing_congr {s t : State} (hr : ∀ c, t.role c = s.role c) (hp : t.pulses = s.pulses) (k : CylIdx) :
    t.pulsing k = s.pulsing k := by
  simp only [State.pulsing, State.pulse_channel, hr, hp]

/-- A pulse of cylinder `k` is in progress on one of its channels. -/
theorem State.pulsing_iff (s : State) (k : CylIdx) :
    s.pulsing k = true ↔ ∃ c, s.role c = .cylinder k ∧ (s.channel c).pulse.isSome = true := by
  simp [State.pulsing, allChannels, List.any_eq_true]

theorem State.assignedTo_congr {s t : State} {k : CylIdx} (h : t.cyl k = s.cyl k) (j : Hall) :
    t.assignedTo j k = s.assignedTo j k := by
  simp only [State.assignedTo, h]

/-- A cylinder is ASSIGNED to one hall at most. -/
theorem State.assignedTo_unique {s : State} {h j : Hall} {k : CylIdx} (hh : s.assignedTo h k = true)
    (hj : s.assignedTo j k = true) : j = h := by
  unfold State.assignedTo at hh hj
  split at hh
  · simp_all
  · simp at hh

/-- A claim is kept by a state that reads alike what its law reads. -/
theorem ClaimKept.congr {s t : State} {h : Hall} {c : Claim} (l : ClaimKept s h c)
    (ha : ∀ k, t.assignedTo h k = s.assignedTo h k)
    (hc : ∀ k, s.assignedTo h k = true → (t.cyl k).map (·.e) = (s.cyl k).map (·.e))
    (hp : ∀ k, s.assignedTo h k = true → t.pulsing k = s.pulsing k)
    (hu : (t.unit h).kind? = some .deferral → (s.unit h).kind? = some .deferral) : ClaimKept t h c := by
  have hm : ∀ e ∈ c.allocation, s.assignedTo h e.cyl = true := fun e he => (l.held.owner e.cyl).2 ⟨e, he, rfl⟩
  refine ⟨{ l.held with
    owner := fun k => by rw [ha]; exact l.held.owner k
    content := fun e he => by rw [hc _ (hm e he)]; exact l.held.content e he }, l.state, fun hs => ?_, fun sc hf hsc hk => ?_⟩
  · obtain ⟨sc, hsc, hl⟩ := l.schedule hs
    refine ⟨sc, hsc, { hl with ahead := fun e he => ?_, outstanding := ?_ }⟩
    · rw [hp _ (hm e he)]
      exact hl.ahead e he
    · rw [hl.outstanding]
      exact congrArg List.length (List.filter_congr fun e he => (hp _ (hm e he)).symm)
  · exact l.deferral sc hf hsc (hu hk)

/-- `s` and `t` have the same claims, cylinders, deadlines, roles and pulses. -/
structure SameCore (s t : State) : Prop where
  claims : t.claims = s.claims
  cyls : t.cyls = s.cyls
  kinds : ∀ h, (t.unit h).kind? = (s.unit h).kind?
  roles : t.store.image.roles = s.store.image.roles
  pulses : t.pulses = s.pulses

theorem SameCore.trans {s t u : State} (x : SameCore s t) (y : SameCore t u) : SameCore s u :=
  ⟨y.claims.trans x.claims, y.cyls.trans x.cyls, fun h => (y.kinds h).trans (x.kinds h), y.roles.trans x.roles,
    y.pulses.trans x.pulses⟩

theorem SameCore.refl (s : State) : SameCore s s := ⟨rfl, rfl, fun _ => rfl, rfl, rfl⟩

theorem SameCore.of_eq {s t : State} (h1 : t.claims = s.claims) (h2 : t.cyls = s.cyls) (h3 : t.units = s.units)
    (h4 : t.store = s.store) (h5 : t.pulses = s.pulses) : SameCore s t :=
  ⟨h1, h2, fun h => by rw [State.unit_of_units h3], by rw [h4], h5⟩

theorem SameCore.claim {s t : State} (x : SameCore s t) (h : Hall) : t.claim h = s.claim h := by
  rw [State.claim, x.claims, State.claim]

theorem SameCore.cyl {s t : State} (x : SameCore s t) (k : CylIdx) : t.cyl k = s.cyl k := by
  rw [State.cyl, x.cyls, State.cyl]

theorem SameCore.role {s t : State} (x : SameCore s t) (c : ChanIdx) : t.role c = s.role c := by
  rw [State.role, x.roles, State.role]

theorem CoreLaw.of_same {s t : State} (l : CoreLaw s) (x : SameCore s t) : CoreLaw t := by
  have ha : ∀ h k, t.assignedTo h k = s.assignedTo h k := fun h k => State.assignedTo_congr (x.cyl k) h
  refine ⟨fun h => ?_, fun ch hp => ?_⟩
  · cases hc : s.claim h with
    | none =>
      simp only [HallLaw, x.claim, hc]
      exact fun k => (ha h k).trans ((l.halls h).unclaimed hc k)
    | some c =>
      exact .of_claim ((x.claim h).trans hc) (((l.halls h).claim hc).congr (ha h) (fun k _ => by rw [x.cyl])
        (fun k _ => State.pulsing_congr x.role x.pulses k) fun hk => (x.kinds h).symm.trans hk)
  · rw [State.pulse_channel, x.pulses, ← State.pulse_channel] at hp
    obtain ⟨h, k, h1, h2, h3⟩ := l.pulses ch hp
    exact ⟨h, k, (x.role ch).trans h1, (ha h k).trans h2, by rw [State.claimState, x.claim]; exact h3⟩

/-! ### Changes for one hall -/

/-- Between `s` and `t` nothing has changed that the laws of the halls other than `h` read. -/
structure OtherHalls (s t : State) (h : Hall) : Prop where
  claims : ∀ j, j ≠ h → t.claim j = s.claim j
  units : ∀ j, j ≠ h → (t.unit j).kind? = (s.unit j).kind?
  assigned : ∀ j, j ≠ h → ∀ k, t.assignedTo j k = s.assignedTo j k
  content : ∀ j, j ≠ h → ∀ k, s.assignedTo j k = true → (t.cyl k).map (·.e) = (s.cyl k).map (·.e)
  pulsing : ∀ j, j ≠ h → ∀ k, s.assignedTo j k = true → t.pulsing k = s.pulsing k

theorem OtherHalls.trans {s t u : State} {h : Hall} (x : OtherHalls s t h) (y : OtherHalls t u h) : OtherHalls s u h where
  claims j hj := (y.claims j hj).trans (x.claims j hj)
  units j hj := (y.units j hj).trans (x.units j hj)
  assigned j hj k := (y.assigned j hj k).trans (x.assigned j hj k)
  content j hj k hk := (y.content j hj k ((x.assigned j hj k).trans hk)).trans (x.content j hj k hk)
  pulsing j hj k hk := (y.pulsing j hj k ((x.assigned j hj k).trans hk)).trans (x.pulsing j hj k hk)

theorem SameCore.others {s t : State} (x : SameCore s t) (h : Hall) : OtherHalls s t h where
  claims j _ := x.claim j
  units j _ := x.kinds j
  assigned j _ k := State.assignedTo_congr (x.cyl k) j
  content j _ k _ := by rw [x.cyl]
  pulsing j _ k _ := State.pulsing_congr x.role x.pulses k

/-- A change for hall `h` that leaves the cylinders, the roles and the pulses. -/
theorem OtherHalls.of_records {s t : State} {h : Hall} (h1 : ∀ j, j ≠ h → t.claim j = s.claim j)
    (h2 : ∀ j, j ≠ h → (t.unit j).kind? = (s.unit j).kind?) (h3 : t.cyls = s.cyls) (h4 : t.store = s.store)
    (h5 : t.pulses = s.pulses) : OtherHalls s t h := by
  have hc : ∀ k, t.cyl k = s.cyl k := fun k => by rw [State.cyl, h3, State.cyl]
  exact ⟨h1, h2, fun j _ k => State.assignedTo_congr (hc k) j, fun j _ k _ => by rw [hc],
    fun j _ k _ => State.pulsing_congr (fun c => by rw [State.role, h4, State.role]) h5 k⟩

/-- The law after a change for hall `h`: by the law of that hall, and by where the pulses in progress are. -/
theorem CoreLaw.of_others {s t : State} {h : Hall} (l : CoreLaw s) (x : OtherHalls s t h) (hh : HallLaw t h)
    (hp : ∀ ch, (t.channel ch).pulse.isSome = true →
      (∃ j k, j ≠ h ∧ t.role ch = .cylinder k ∧ s.assignedTo j k = true ∧ s.claimState j = some .firing) ∨
      ∃ k, t.role ch = .cylinder k ∧ t.assignedTo h k = true ∧ t.claimState h = some .firing) : CoreLaw t := by
  refine ⟨fun j => ?_, fun ch hs => ?_⟩
  · by_cases hj : j = h
    · exact hj ▸ hh
    · cases hc : s.claim j with
      | none =>
        simp only [HallLaw, x.claims j hj, hc]
        exact fun k => (x.assigned j hj k).trans ((l.halls j).unclaimed hc k)
      | some c =>
        exact .of_claim ((x.claims j hj).trans hc) (((l.halls j).claim hc).congr (x.assigned j hj) (x.content j hj)
          (x.pulsing j hj) fun hk => (x.units j hj).symm.trans hk)
  · rcases hp ch hs with ⟨j, k, hj, h1, h2, h3⟩ | ⟨k, h1, h2, h3⟩
    · exact ⟨j, k, h1, (x.assigned j hj k).trans h2, by rw [State.claimState, x.claims j hj]; exact h3⟩
    · exact ⟨h, k, h1, h2, h3⟩

/-- The same for a hall whose claim is not in FIRING: the pulses in progress are not its own. -/
theorem CoreLaw.of_others_quiet {s t : State} {h : Hall} (l : CoreLaw s) (x : OtherHalls s t h) (hh : HallLaw t h)
    (hq : s.claimState h ≠ some .firing) (hr : t.store.image.roles = s.store.image.roles) (hp : t.pulses = s.pulses) :
    CoreLaw t := by
  refine l.of_others x hh fun ch hs => ?_
  rw [State.pulse_channel, hp, ← State.pulse_channel] at hs
  obtain ⟨j, k, h1, h2, h3⟩ := l.pulses ch hs
  have hj : j ≠ h := fun e => hq (e ▸ h3)
  exact .inl ⟨j, k, hj, by rw [State.role, hr]; exact h1, h2, h3⟩

/-- A cylinder of a claim that is not in FIRING has no pulse in progress (R116). -/
theorem CoreLaw.not_pulsing {s : State} {h : Hall} {k : CylIdx} (l : CoreLaw s) (ha : s.assignedTo h k = true)
    (hq : s.claimState h ≠ some .firing) : s.pulsing k = false := by
  rw [← Bool.not_eq_true, State.pulsing_iff]
  rintro ⟨c, hr, hp⟩
  obtain ⟨j, i, h1, h2, h3⟩ := l.pulses c hp
  obtain rfl : k = i := Role.cylinder.inj (hr.symm.trans h1)
  exact hq (State.assignedTo_unique ha h2 ▸ h3)

/-- A cylinder that no hall has, has no pulse in progress. -/
theorem CoreLaw.not_pulsing_of_unassigned {s : State} {k : CylIdx} (l : CoreLaw s) (ha : ∀ h, s.assignedTo h k = false) :
    s.pulsing k = false := by
  rw [← Bool.not_eq_true, State.pulsing_iff]
  rintro ⟨c, hr, hp⟩
  obtain ⟨j, i, h1, h2, h3⟩ := l.pulses c hp
  obtain rfl : k = i := Role.cylinder.inj (hr.symm.trans h1)
  simp [ha] at h2

/-- A deadline removed leaves the law (R118). -/
theorem CoreLaw.removeUnit {s : State} (l : CoreLaw s) (h : Hall) : CoreLaw (s.removeUnit h) := by
  refine ⟨fun j => ?_, l.pulses⟩
  cases hc : s.claim j with
  | none =>
    have e : (s.removeUnit h).claim j = none := hc
    simp only [HallLaw, e]
    exact (l.halls j).unclaimed hc
  | some c =>
    refine .of_claim (c := c) hc (((l.halls j).claim hc).congr (fun _ => rfl) (fun _ _ => rfl) (fun _ _ => rfl) fun hk => ?_)
    rw [State.unit_removeUnit] at hk
    split at hk
    · cases hk
    · exact hk

end Sys2Proof.Machine
end


-- ==== Sys2Proof/Proofs/HeldCylinders.lean ====
section
/-! PROOFS. The claims law through runs, losses and handed changes of E, short of FIRING (R57, R73, R82 to R85, R89). -/

namespace Sys2Proof.Machine

/-! ### Firing lines (R88) -/

theorem flatten_layFrom (line ks : List CylIdx) : (layFrom line ks).flatten = line ++ ks := by
  induction ks generalizing line with
  | nil =>
    unfold layFrom
    split
    · rename_i h
      simp [List.isEmpty_iff.1 h]
    · simp
  | cons k ks ih =>
    unfold layFrom
    split
    · rename_i h
      rw [ih, List.isEmpty_iff.1 h]
      rfl
    · split
      · rw [ih]
        simp
      · rw [List.flatten_cons, ih]
        simp

/-- The lines laid name the cylinders laid, in their order (R88). -/
theorem flatten_lay (ks : List CylIdx) : (lay ks).flatten = ks := flatten_layFrom [] ks

theorem nodup_of_mem_lay {ks : List CylIdx} (h : ks.Nodup) {l : List CylIdx} (hl : l ∈ lay ks) : l.Nodup := by
  rw [← flatten_lay ks] at h
  exact (List.nodup_flatten.1 h).1 l hl

/-- A schedule of which nothing is outstanding, and whose lines to come hold the cylinders `ks`. -/
structure Schedule.Unfired (sc : Schedule) (ks : List CylIdx) : Prop where
  cursor : sc.cursor ≤ sc.lines.length
  lines : ∀ l ∈ sc.lines, l.cyls.Nodup
  ahead : ∀ k ∈ ks, ∃ l ∈ sc.lines.drop sc.cursor, k ∈ l.cyls
  outstanding : sc.outstanding = 0

/-- With no pulse in progress the schedule law says that the schedule is unfired. -/
theorem scheduleLaw_iff_unfired {s : State} {c : Claim} {sc : Schedule} (hp : ∀ e ∈ c.allocation, s.pulsing e.cyl = false) :
    ScheduleLaw s c sc ↔ sc.Unfired (c.allocation.map (·.cyl)) := by
  have hnone : (c.allocation.filter fun e => s.pulsing e.cyl).length = 0 := by
    rw [List.length_eq_zero_iff, List.filter_eq_nil_iff]
    exact fun e he => by simp [hp e he]
  constructor
  · rintro ⟨h1, h2, h3, h4⟩
    refine ⟨h1, h2, fun k hk => ?_, h4.trans hnone⟩
    obtain ⟨e, he, rfl⟩ := List.mem_map.1 hk
    refine (h3 e he).resolve_right ?_
    simp [hp e he]
  · rintro ⟨h1, h2, h3, h4⟩
    exact ⟨h1, h2, fun e he => .inl (h3 e.cyl (List.mem_map_of_mem he)), h4.trans hnone.symm⟩

theorem unfired_buildSchedule {alloc : List Entry} (h : (alloc.map (·.cyl)).Nodup) :
    (buildSchedule alloc).Unfired (alloc.map (·.cyl)) := by
  refine ⟨Nat.zero_le _, fun l hl => ?_, fun k hk => ?_, rfl⟩
  · obtain ⟨ks, hks, rfl⟩ := List.mem_map.1 hl
    exact nodup_of_mem_lay h hks
  · rw [← flatten_lay (alloc.map (·.cyl))] at hk
    obtain ⟨ks, hks, hk⟩ := List.mem_flatten.1 hk
    exact ⟨newLine ks, List.mem_map_of_mem hks, hk⟩

/-! ### The law of what a claim holds -/

/-- The law reads nothing of the claim but its allocation, its sums, its requirement and its fired list. -/
theorem HeldLaw.of_claim {s : State} {h : Hall} {c c' : Claim} (l : HeldLaw s h c) (h1 : c'.allocation = c.allocation)
    (h2 : c'.allocatedSum = c.allocatedSum) (h3 : c'.shortage = c.shortage) (h4 : c'.figures = c.figures)
    (h5 : c'.fired.length ≤ c.fired.length) : HeldLaw s h c' := by
  obtain ⟨l1, l2, l3, l4, l5, l6⟩ := l
  refine ⟨by rw [h1, h2, l1], by rw [h2, h3, h4, l2], ?_, by rw [h1]; exact l4, by rw [h1]; exact l5, by rw [h1]; exact l6⟩
  rw [h1]
  omega

/-- The law in a state that has the cylinders of `s`. -/
theorem HeldLaw.of_cyls {s t : State} {h : Hall} {c : Claim} (l : HeldLaw s h c) (hc : t.cyls = s.cyls) : HeldLaw t h c := by
  have e : ∀ k, t.cyl k = s.cyl k := fun k => by rw [State.cyl, hc, State.cyl]
  exact { l with
    owner := fun k => by rw [State.assignedTo_congr (e k)]; exact l.owner k
    content := fun x hx => by rw [e]; exact l.content x hx }

/-- An eligible cylinder is ASSIGNED to no hall (R24). -/
theorem State.assignedTo_of_eligible {s : State} {k : CylIdx} (hk : s.eligible k = true) (h : Hall) :
    s.assignedTo h k = false := by
  unfold State.eligible eligibleRecord at hk
  unfold State.assignedTo
  cases hc : s.cyl k with
  | none => rfl
  | some c =>
    rw [hc] at hk
    simp only [Bool.and_eq_true, decide_eq_true_eq] at hk
    simp [hk.1]

/-- A claim in a state with cylinders, with the STARVED flag clear. -/
theorem Claim.StateLaw.of_supplied {c : Claim} (hn : c.allocation ≠ []) (hf : c.flags.starved = false)
    (hs : c.state.toppedUp = true ∨ c.state = .firing) : c.StateLaw := by
  refine ⟨fun _ => ?_, fun h => by simp [hf] at h, fun _ => by simp [hf, hn], fun _ => hn⟩
  revert hs
  cases c.state <;> simp [ClaimState.toppedUp]

/-- A claim with no cylinders, STARVED-flagged where its state says so. -/
theorem Claim.StateLaw.of_empty {c : Claim} (hn : c.allocation = []) (hw : c.state ≠ .waiting) (hs : c.state ≠ .selecting)
    (hf : c.state = .countdown ∨ c.state = .hold ∨ c.state = .starved → c.flags.starved = true)
    (hg : c.flags.starved = true → c.state.granted = false) : c.StateLaw :=
  ⟨fun h => absurd hn h, fun h => ⟨hn, hw, hg h⟩, fun h => ⟨fun _ => hn, fun _ => hf h⟩, fun h => by simp [hw, hs] at h⟩

/-- A claim that holds cylinders is not STARVED-flagged. -/
theorem Claim.StateLaw.not_starved {c : Claim} (l : c.StateLaw) (hn : c.allocation ≠ []) : c.flags.starved = false := by
  rw [← Bool.not_eq_true]
  exact fun h => hn (l.starved h).1

/-! ### Commits (R73, R77, R80) -/

/-- The law of what a claim holds is kept by the commit of what a run takes (R73, R77). -/
theorem HeldLaw.commit {s : State} {h : Hall} {c : Claim} (l : HeldLaw s h c) (hc : s.claim h = some c) (kind : RunKind) :
    HeldLaw (s.commit h (s.takenList kind c)) h (s.committed c (s.takenList kind c)) := by
  obtain ⟨h1, -, -, h2, h3, -⟩ := s.committed_fields c (s.takenList kind c)
  obtain ⟨h4, h5⟩ := s.committed_sums c (s.takenList kind c) l.allocated l.short
  have hlim := s.length_takenList_le kind c l.limit
  have hmem : ∀ e ∈ s.takenList kind c, s.eligible e.cyl = true ∧ ∃ y, s.cyl e.cyl = some y ∧ y.e = e.e := fun e he =>
    ⟨(State.mem_takenList he).1, (State.mem_takenList he).2.1⟩
  have hnd := s.nodup_takenList kind c
  generalize s.takenList kind c = taken at *
  have hcyl := s.cyl_commit h taken c hc
  have hE : ∀ k, ((s.commit h taken).cyl k).map (·.e) = (s.cyl k).map (·.e) := fun k => by
    rw [hcyl]
    split
    · rw [Option.map_map]
      rfl
    · rfl
  refine ⟨by rw [h4, h1], by rw [h5, h3, h4], ?_, fun k => ?_, ?_, fun e he => ?_⟩
  · rw [h1, h2, List.length_append]
    omega
  · rw [h1]
    by_cases hk : k ∈ taken.map (·.cyl)
    · obtain ⟨e, he, rfl⟩ := List.mem_map.1 hk
      have hy : ∃ y, s.cyl e.cyl = some y := (hmem e he).2.imp fun y hy => hy.1
      simp only [State.assignedTo_commit hc he hy, true_iff]
      exact ⟨e, List.mem_append_right _ he, rfl⟩
    · have e : (s.commit h taken).cyl k = s.cyl k := (hcyl k).trans (if_neg hk)
      rw [State.assignedTo_congr e, l.owner]
      refine exists_congr fun x => and_congr_left fun hx => ⟨fun hm => List.mem_append_left _ hm, fun hm => ?_⟩
      exact (List.mem_append.1 hm).resolve_right fun ht => hk (hx ▸ List.mem_map_of_mem ht)
  · rw [h1, List.map_append]
    refine l.once.append hnd fun _ hk ht => ?_
    obtain ⟨x, hx, rfl⟩ := List.mem_map.1 hk
    obtain ⟨e, he, hex⟩ := List.mem_map.1 ht
    have ha := (l.owner x.cyl).2 ⟨x, hx, rfl⟩
    rw [← hex, State.assignedTo_of_eligible (hmem e he).1] at ha
    cases ha
  · rw [hE]
    rw [h1] at he
    rcases List.mem_append.1 he with he | he
    · exact l.content e he
    · obtain ⟨-, y, hy, hye⟩ := hmem e he
      simp [hy, hye]

/-- A change of dispositions, and of what belongs to hall `h`, leaves the other halls. -/
theorem OtherHalls.of_dispositions {s t : State} {h : Hall} (h1 : ∀ j, j ≠ h → t.claim j = s.claim j)
    (h2 : ∀ j, j ≠ h → (t.unit j).kind? = (s.unit j).kind?) (h3 : ∀ k, (t.cyl k).map (·.e) = (s.cyl k).map (·.e))
    (h4 : ∀ j, j ≠ h → ∀ k, t.assignedTo j k = s.assignedTo j k) (h5 : t.store = s.store) (h6 : t.pulses = s.pulses) :
    OtherHalls s t h :=
  ⟨h1, h2, h4, fun _ _ k _ => h3 k, fun _ _ k _ => State.pulsing_congr (fun c => by rw [State.role, h5, State.role]) h6 k⟩

/-- What a commit of eligible cylinders for hall `h` leaves to the others (R16). -/
theorem otherHalls_commit {s : State} {h : Hall} {c : Claim} (hc : s.claim h = some c) {taken : List Entry}
    (ht : ∀ e ∈ taken, s.eligible e.cyl = true) : OtherHalls s (s.commit h taken) h := by
  have hcyl := s.cyl_commit h taken c hc
  refine .of_dispositions (fun j hj => (s.commit_other hj taken).1) (fun j _ => by rw [State.unit_of_units (s := s) (by simp)])
    (fun k => ?_) (fun j hj k => ?_) (by simp) (State.pulses_of_circuits (by simp))
  · rw [hcyl]
    split
    · rw [Option.map_map]
      rfl
    · rfl
  · by_cases hk : k ∈ taken.map (·.cyl)
    · obtain ⟨e, he, rfl⟩ := List.mem_map.1 hk
      rw [State.assignedTo_of_eligible (ht e he), State.assignedTo, hcyl, if_pos hk]
      cases s.cyl e.cyl with
      | none => rfl
      | some y => simp [Ne.symm hj]
    · exact State.assignedTo_congr ((hcyl k).trans (if_neg hk)) j

/-! ### Losses and their answers (R57, R82, R83, R89) -/

theorem HeldLaw.commit_toppedUpWith {s : State} {h : Hall} {c : Claim} (l : HeldLaw s h c) (hc : s.claim h = some c) :
    HeldLaw (s.commit h (s.toppedUpWith c)) h (s.committed c (s.toppedUpWith c)) := by
  unfold State.toppedUpWith
  split
  · rw [State.commit_nil]
    exact l
  · exact l.commit hc .topUp

theorem otherHalls_commit_toppedUpWith {s : State} {h : Hall} {c : Claim} (hc : s.claim h = some c) :
    OtherHalls s (s.commit h (s.toppedUpWith c)) h :=
  otherHalls_commit hc fun _ he => (State.mem_takenList (State.mem_toppedUpWith he)).1

/-- No pulse is in progress but of cylinders that halls other than `h` have. -/
def State.QuietFor (s : State) (h : Hall) : Prop := ∀ k, (∀ j, j ≠ h → s.assignedTo j k = false) → s.pulsing k = false

/-- A claim that is not in FIRING has no pulse in progress (R116). -/
theorem CoreLaw.quietFor {s : State} {h : Hall} (l : CoreLaw s) (hq : s.claimState h ≠ some .firing) : s.QuietFor h := by
  intro k hk
  cases ha : s.assignedTo h k with
  | true => exact l.not_pulsing ha hq
  | false =>
    refine l.not_pulsing_of_unassigned fun j => ?_
    by_cases hj : j = h
    · exact hj ▸ ha
    · exact hk j hj

theorem State.QuietFor.of_others {s t : State} {h : Hall} (q : s.QuietFor h)
    (x : ∀ j, j ≠ h → ∀ k, t.assignedTo j k = s.assignedTo j k) (hr : t.store = s.store) (hp : t.pulses = s.pulses) :
    t.QuietFor h := by
  intro k hk
  rw [State.pulsing_congr (s := s) (fun c => by rw [State.role, hr, State.role]) hp]
  exact q k fun j hj => (x j hj k).symm.trans (hk j hj)

/-- Nothing of what such a claim holds is being pulsed. -/
theorem State.QuietFor.held {s : State} {h : Hall} {c : Claim} (q : s.QuietFor h) (l : HeldLaw s h c) :
    ∀ e ∈ c.allocation, s.pulsing e.cyl = false := by
  intro e he
  refine q e.cyl fun j hj => ?_
  rw [← Bool.not_eq_true]
  exact fun ha => hj (State.assignedTo_unique ((l.owner e.cyl).2 ⟨e, he, rfl⟩) ha)

/-- The law of a claim short of FIRING, of which SELECTING has a schedule that is unfired. -/
theorem ClaimKept.of_quiet {s : State} {h : Hall} {c : Claim} (l : HeldLaw s h c) (hs : c.StateLaw) (hf : c.state ≠ .firing)
    (q : s.QuietFor h) (hsch : c.state = .selecting → ∃ sc, c.schedule = some sc ∧ sc.Unfired (c.allocation.map (·.cyl))) :
    ClaimKept s h c := by
  refine ⟨l, hs, fun h1 => ?_, fun _ h1 => absurd h1 hf⟩
  obtain ⟨sc, h2, h3⟩ := hsch (h1.resolve_right hf)
  exact ⟨sc, h2, (scheduleLaw_iff_unfired (q.held l)).2 h3⟩

/-- The law of a claim that is neither in SELECTING nor in FIRING. -/
theorem ClaimKept.of_idle {s : State} {h : Hall} {c : Claim} (l : HeldLaw s h c) (hs : c.StateLaw) (hf : c.state ≠ .firing)
    (hsel : c.state ≠ .selecting) : ClaimKept s h c :=
  ⟨l, hs, fun h1 => (h1.elim hsel hf).elim, fun _ h1 => absurd h1 hf⟩

/-- A starved claim keeps the law (R54, R57). -/
theorem hallLaw_starve {s : State} {h : Hall} {c : Claim} (hc : s.claim h = some c) (l : HeldLaw s h c)
    (hs : c.state.toppedUp = true) (hn : c.allocation = []) : HallLaw (s.starve h) h := by
  obtain ⟨c', hc', h1, h2, h3⟩ := State.starve_cases hc
  have key : c'.allocation = c.allocation ∧ c'.allocatedSum = c.allocatedSum ∧ c'.shortage = c.shortage ∧
      c'.figures = c.figures ∧ c'.fired = c.fired ∧ c'.flags.starved = true ∧
      (c'.state = .countdown ∨ c'.state = .hold ∨ c'.state = .starved) := by
    rcases ClaimState.toppedUp_iff.1 hs with e | e | e | e
    · rw [(h1 (.inl e)).1]
      exact ⟨rfl, rfl, rfl, rfl, rfl, rfl, .inl e⟩
    · rw [(h1 (.inr e)).1]
      exact ⟨rfl, rfl, rfl, rfl, rfl, rfl, .inr (.inl e)⟩
    · rw [(h2 e).1]
      exact ⟨rfl, rfl, rfl, rfl, rfl, rfl, .inr (.inr rfl)⟩
    · rw [(h3 e).1]
      exact ⟨rfl, rfl, rfl, rfl, rfl, rfl, .inr (.inr rfl)⟩
  obtain ⟨e1, e2, e3, e4, e5, e6, e7⟩ := key
  have hw : c'.state ≠ .waiting ∧ c'.state ≠ .selecting ∧ c'.state ≠ .firing ∧ c'.state.granted = false := by
    rcases e7 with e | e | e <;> rw [e] <;> simp [ClaimState.granted]
  obtain ⟨w1, w2, w3, w4⟩ := hw
  refine .of_claim hc' (.of_idle ((l.of_cyls (by simp)).of_claim e1 e2 e3 e4 (le_of_eq (congrArg _ e5))) ?_ w3 w2)
  exact .of_empty (e1.trans hn) w1 w2 (fun _ => e6) fun _ => w4

theorem Claim.rescheduled_held {s : State} {h : Hall} {c : Claim} (l : HeldLaw s h c) (before : List Entry) :
    HeldLaw s h (c.rescheduled before) := by
  obtain ⟨h1, h2, h3, h4, h5⟩ : (c.rescheduled before).allocation = c.allocation ∧
      (c.rescheduled before).allocatedSum = c.allocatedSum ∧ (c.rescheduled before).shortage = c.shortage ∧
      (c.rescheduled before).figures = c.figures ∧ (c.rescheduled before).fired = c.fired := by
    unfold Claim.rescheduled
    split <;> exact ⟨rfl, rfl, rfl, rfl, rfl⟩
  exact l.of_claim h1 h2 h3 h4 (le_of_eq (congrArg _ h5))

/-- The answer to a loss leaves hall `h` its law (R57, R82, R83, R89). -/
theorem hallLaw_answerLoss {s : State} {h : Hall} {c : Claim} {before : List Entry} (hc : s.claim h = some c)
    (l : HeldLaw s h c) (hs : c.state.toppedUp = true) (hf : c.flags.starved = false) (q : s.QuietFor h)
    (hsch : c.state = .selecting → ∃ sc, c.schedule = some sc ∧ sc.Unfired (before.map (·.cyl))) :
    HallLaw (s.answerLoss h before) h := by
  by_cases hn : c.allocation ++ s.toppedUpWith c = []
  · rw [State.answerLoss_empty hc hs before hn]
    exact hallLaw_starve hc l hs (List.append_eq_nil_iff.1 hn).1
  · have hcl := s.claim_commit h (s.toppedUpWith c) c hc (ClaimState.terminal_of_toppedUp hs)
    have hl := l.commit_toppedUpWith hc
    have ho := otherHalls_commit_toppedUpWith hc
    obtain ⟨h1, h2, h3, -, -, h4⟩ := s.committed_fields c (s.toppedUpWith c)
    rw [State.answerLoss_supplied hc hs before hn]
    have q2 : (s.commit h (s.toppedUpWith c)).QuietFor h :=
      q.of_others ho.assigned (by simp) (State.pulses_of_circuits (by simp))
    generalize s.committed c (s.toppedUpWith c) = c2 at *
    generalize s.commit h (s.toppedUpWith c) = u at *
    have hcyls : (u.rebuild h before).cyls = u.cyls := rfl
    have hq3 : (u.rebuild h before).QuietFor h := q2.of_others (fun _ _ _ => rfl) rfl rfl
    have hst : (c2.rescheduled before).state = c2.state ∧ (c2.rescheduled before).allocation = c2.allocation ∧
        (c2.rescheduled before).flags = c2.flags := by
      unfold Claim.rescheduled
      split <;> exact ⟨rfl, rfl, rfl⟩
    obtain ⟨r1, r2, r3⟩ := hst
    refine .of_claim (State.claim_rebuild hcl before) (.of_quiet ((Claim.rescheduled_held hl before).of_cyls hcyls) ?_ ?_ hq3
      fun hsel => ?_)
    · exact .of_supplied (by rw [r2, h1]; exact hn) (by rw [r3, h4, hf]) (.inl (by rw [r1, h2]; exact hs))
    · rw [r1, h2]
      intro e
      rw [e] at hs
      cases hs
    · have hsel2 : c2.state = .selecting := r1.symm.trans hsel
      rw [r2]
      unfold Claim.rescheduled
      split
      · exact ⟨_, rfl, unfired_buildSchedule hl.once⟩
      · rename_i he
        obtain ⟨sc, e1, e2⟩ := hsch (h2.symm.trans hsel2)
        have he : c2.allocation.map (·.cyl) = before.map (·.cyl) := by
          by_contra hne
          exact he ⟨hsel2, hne⟩
        exact ⟨sc, h3.trans e1, he ▸ e2⟩

@[simp] theorem State.pulses_starve (s : State) (h : Hall) : (s.starve h).pulses = s.pulses := by
  unfold State.starve
  dsimp only
  (repeat' split)
  · rfl
  · rfl
  · exact State.pulses_withdrawGrant _ h
  · rfl

/-- What the answer to a loss leaves to the other halls, and to the pulses. -/
theorem otherHalls_answerLoss (s : State) (h : Hall) (before : List Entry) :
    OtherHalls s (s.answerLoss h before) h ∧ (s.answerLoss h before).pulses = s.pulses := by
  cases hc : s.claim h with
  | none =>
    have e : s.answerLoss h before = s := by simp [State.answerLoss, hc]
    rw [e]
    exact ⟨(SameCore.refl s).others h, rfl⟩
  | some c =>
    cases hs : c.state.toppedUp with
    | false =>
      rw [State.answerLoss_of_not_toppedUp hc hs]
      exact ⟨(SameCore.refl s).others h, rfl⟩
    | true =>
      by_cases hn : c.allocation ++ s.toppedUpWith c = []
      · rw [State.answerLoss_empty hc hs before hn]
        refine ⟨.of_records (fun j hj => (s.starve_other hj).1) (fun j hj => ?_) (by simp) (by simp) (by simp), by simp⟩
        exact congrArg CompareUnit.kind? (s.starve_other hj).2
      · rw [State.answerLoss_supplied hc hs before hn]
        refine ⟨(otherHalls_commit_toppedUpWith hc).trans ?_, State.pulses_of_circuits (by simp)⟩
        exact .of_records (fun j hj => State.rebuild_other _ hj before) (fun _ _ => rfl) rfl rfl rfl

/-! ### Entries that leave, and entries handed a new E (R14, R85) -/

/-- The law of what a claim holds once cylinder `k` is no longer ASSIGNED and its entry has left (R40, R41, R85). -/
theorem HeldLaw.drop {s t : State} {h : Hall} {c : Claim} {k : CylIdx} (l : HeldLaw s h c)
    (hj : ∀ j, j ≠ k → t.cyl j = s.cyl j) (hk : t.assignedTo h k = false) (commit : Bool) :
    HeldLaw t h (c.changedTo commit (c.allocation.filter fun e => e.cyl ≠ k)) := by
  have hsub : (c.allocation.filter fun e => e.cyl ≠ k).Sublist c.allocation := List.filter_sublist
  have hmem : ∀ e, e ∈ c.allocation.filter (fun e => e.cyl ≠ k) ↔ e ∈ c.allocation ∧ e.cyl ≠ k := fun e => by simp
  refine ⟨rfl, rfl, ?_, fun i => ?_, (hsub.map _).nodup l.once, fun e he => ?_⟩
  · have := hsub.length_le
    have := l.limit
    simp only [Claim.changedTo]
    omega
  · simp only [Claim.changedTo, hmem]
    by_cases hi : i = k
    · subst hi
      simp only [hk, Bool.false_eq_true, false_iff]
      rintro ⟨e, he, rfl⟩
      exact he.2 rfl
    · rw [State.assignedTo_congr (hj i hi), l.owner]
      exact exists_congr fun e => and_congr_left fun he => by simp [he, hi]
  · obtain ⟨h1, h2⟩ := (hmem e).1 he
    rw [hj _ h2]
    exact l.content e h1

/-- The law of what a claim holds once its cylinder `k` has the E `new`, and its entry has been handed it (R14, R85). -/
theorem HeldLaw.handed {s t : State} {h : Hall} {c : Claim} {k : CylIdx} {new : Nat} (l : HeldLaw s h c)
    (hj : ∀ j, j ≠ k → t.cyl j = s.cyl j) (ha : t.assignedTo h k = s.assignedTo h k) (hk : (t.cyl k).map (·.e) = some new)
    (commit : Bool) : HeldLaw t h (c.changedTo commit (newE k new c.allocation)) := by
  have hlen : (newE k new c.allocation).length = c.allocation.length := by simp [newE]
  have hcyls : (newE k new c.allocation).map (·.cyl) = c.allocation.map (·.cyl) := map_cyl_newE k new c.allocation
  have hex : ∀ (es : List Entry) i, (∃ e ∈ es, e.cyl = i) ↔ i ∈ es.map (·.cyl) := fun es i => by simp
  refine ⟨rfl, rfl, ?_, fun i => ?_, ?_, fun e he => ?_⟩
  · simp only [Claim.changedTo, hlen]
    exact l.limit
  · simp only [Claim.changedTo]
    rw [hex, hcyls, ← hex, ← l.owner]
    by_cases hi : i = k
    · rw [hi, ha]
    · rw [State.assignedTo_congr (hj i hi)]
  · simp only [Claim.changedTo]
    rw [hcyls]
    exact l.once
  · simp only [Claim.changedTo, newE, List.mem_map] at he
    obtain ⟨x, hx, rfl⟩ := he
    split
    · rename_i hxk
      rw [hxk]
      exact hk
    · rename_i hxk
      rw [hj _ hxk]
      exact l.content x hx

/-- A claim that holds something is not terminal (R65, R127). -/
theorem Claim.StateLaw.not_terminal {c : Claim} (l : c.StateLaw) (hn : c.allocation ≠ []) : c.state.terminal = false := by
  rcases l.holding hn with e | e | e | e | e <;> rw [e] <;> rfl

/-- A claim that holds something is topped up, or is in FIRING. -/
theorem Claim.StateLaw.toppedUp_or_firing {c : Claim} (l : c.StateLaw) (hn : c.allocation ≠ []) :
    c.state.toppedUp = true ∨ c.state = .firing := by
  rcases l.holding hn with e | e | e | e | e <;> rw [e] <;> simp [ClaimState.toppedUp]

/-- The owner of an ASSIGNED cylinder has a claim, that holds it and keeps the law. -/
theorem CoreLaw.ownerClaim {s : State} {h : Hall} {k : CylIdx} (l : CoreLaw s) (ha : s.assignedTo h k = true) :
    ∃ c, s.claim h = some c ∧ ClaimKept s h c ∧ c.allocation ≠ [] := by
  cases hc : s.claim h with
  | none =>
    rw [(l.halls h).unclaimed hc k] at ha
    cases ha
  | some c =>
    have hk := (l.halls h).claim hc
    obtain ⟨e, he, -⟩ := (hk.held.owner k).1 ha
    exact ⟨c, rfl, hk, List.ne_nil_of_mem he⟩

theorem State.assignedTo_of_cyl {s : State} {k : CylIdx} {y : Cylinder} (hy : s.cyl k = some y) (h : Hall) :
    s.assignedTo h k = decide (y.disposition = .assigned h) := by
  simp only [State.assignedTo, hy]

/-- `t` is `s` but for the record of cylinder `k`, which hall `h` had. -/
structure OneCylinder (s t : State) (h : Hall) (k : CylIdx) : Prop where
  owned : s.assignedTo h k = true
  cyls : ∀ j, j ≠ k → t.cyl j = s.cyl j
  free : ∀ j, j ≠ h → t.assignedTo j k = false
  claims : t.claims = s.claims
  units : t.units = s.units
  store : t.store = s.store
  pulses : t.pulses = s.pulses

theorem OneCylinder.others {s t : State} {h : Hall} {k : CylIdx} (x : OneCylinder s t h k) : OtherHalls s t h := by
  have hs : ∀ j, j ≠ h → s.assignedTo j k = false := fun j hj => by
    rw [← Bool.not_eq_true]
    exact fun ha => hj (State.assignedTo_unique x.owned ha)
  refine ⟨fun j _ => ?_, fun j _ => ?_, fun j hj i => ?_, fun j hj i hi => ?_, fun j _ i _ => ?_⟩
  · rw [State.claim, x.claims, State.claim]
  · rw [State.unit_of_units x.units]
  · by_cases hik : i = k
    · rw [hik, x.free j hj, hs j hj]
    · exact State.assignedTo_congr (x.cyls i hik) j
  · by_cases hik : i = k
    · rw [hik, hs j hj] at hi
      cases hi
    · rw [x.cyls i hik]
  · exact State.pulsing_congr (fun c => by rw [State.role, x.store, State.role]) x.pulses i

theorem OneCylinder.claim {s t : State} {h : Hall} {k : CylIdx} (x : OneCylinder s t h k) (j : Hall) : t.claim j = s.claim j := by
  rw [State.claim, x.claims, State.claim]

theorem otherHalls_reallocate (s : State) (h : Hall) (commit : Bool) (alloc : List Entry) :
    OtherHalls s (s.reallocate h commit alloc) h :=
  .of_records (fun _ hj => (s.reallocate_other hj commit alloc).1) (fun j _ => by rw [State.unit_of_units (s := s) (by simp)])
    (by simp) (by simp) (State.pulses_of_circuits (by simp))

theorem State.claim_reallocate_changedTo {s : State} {h : Hall} {c : Claim} (hc : s.claim h = some c)
    (ht : c.state.terminal = false) (commit : Bool) (alloc : List Entry) :
    (s.reallocate h commit alloc).claim h = some (c.changedTo commit alloc) := by
  rw [s.claim_reallocate h commit alloc c hc, Claim.reflag_eq_changedTo commit c alloc ht]

theorem State.claimState_of_claim {s : State} {h : Hall} {c : Claim} (hc : s.claim h = some c) :
    s.claimState h = some c.state := by
  rw [State.claimState, hc]
  rfl

/-- A cylinder lost by a claim short of FIRING leaves the law as it was: the entry leaves, and the loss is answered (R18, R20,
R57, R82, R89). -/
theorem coreLaw_removal {s t : State} {h : Hall} {k : CylIdx} {c : Claim} (l : CoreLaw s) (x : OneCylinder s t h k)
    (hk : t.assignedTo h k = false) (hc : s.claim h = some c) (hs : c.state.toppedUp = true) : CoreLaw (t.removal h k) := by
  have kept := (l.halls h).claim hc
  have hne : c.allocation ≠ [] := by
    obtain ⟨e, he, -⟩ := (kept.held.owner k).1 x.owned
    exact List.ne_nil_of_mem he
  have hct : t.claim h = some c := (x.claim h).trans hc
  have hq : s.claimState h ≠ some .firing := by
    rw [State.claimState_of_claim hc]
    intro e
    rw [Option.some.inj e] at hs
    cases hs
  have hlaw : HeldLaw (t.reallocate h false (c.allocation.filter fun e => e.cyl ≠ k)) h
      (c.changedTo false (c.allocation.filter fun e => e.cyl ≠ k)) := (kept.held.drop x.cyls hk false).of_cyls (by simp)
  have hcl := State.claim_reallocate_changedTo hct (kept.state.not_terminal hne) false (c.allocation.filter fun e => e.cyl ≠ k)
  have ho := x.others.trans (otherHalls_reallocate t h false (c.allocation.filter fun e => e.cyl ≠ k))
  rw [State.removal_eq hct]
  have hst : (t.reallocate h false (c.allocation.filter fun e => e.cyl ≠ k)).store = s.store := by simp [x.store]
  have hpu : (t.reallocate h false (c.allocation.filter fun e => e.cyl ≠ k)).pulses = s.pulses :=
    (State.pulses_of_circuits (by simp)).trans x.pulses
  generalize t.reallocate h false (c.allocation.filter fun e => e.cyl ≠ k) = u at *
  obtain ⟨ho2, hp2⟩ := otherHalls_answerLoss u h c.allocation
  have hq2 : u.QuietFor h := (l.quietFor hq).of_others ho.assigned hst hpu
  refine l.of_others_quiet (ho.trans ho2) ?_ hq (by simp [hst]) (hp2.trans hpu)
  refine hallLaw_answerLoss hcl hlaw hs (kept.state.not_starved hne) hq2 fun hsel => ?_
  obtain ⟨sc, e1, e2⟩ := kept.schedule (.inl hsel)
  exact ⟨sc, e1, (scheduleLaw_iff_unfired ((l.quietFor hq).held kept.held)).1 e2⟩

/-- The schedule law reads of the claim the cylinders it holds, in order. -/
theorem ScheduleLaw.congr {s t : State} {c c' : Claim} {sc : Schedule} (l : ScheduleLaw s c sc)
    (hc : c'.allocation.map (·.cyl) = c.allocation.map (·.cyl)) (hp : ∀ k, t.pulsing k = s.pulsing k) : ScheduleLaw t c' sc := by
  have hcount : ∀ es : List Entry, (es.filter fun e => s.pulsing e.cyl).length = ((es.map (·.cyl)).filter s.pulsing).length :=
    fun es => by rw [List.filter_map, List.length_map]; rfl
  refine { l with ahead := fun e he => ?_, outstanding := ?_ }
  · have hm : e.cyl ∈ c.allocation.map (·.cyl) := hc ▸ List.mem_map_of_mem he
    obtain ⟨x, hx, hxe⟩ := List.mem_map.1 hm
    rw [hp, ← hxe]
    exact l.ahead x hx
  · have e : (c'.allocation.filter fun e => t.pulsing e.cyl) = c'.allocation.filter fun e => s.pulsing e.cyl :=
      List.filter_congr fun e _ => hp e.cyl
    rw [e, hcount, hc, ← hcount]
    exact l.outstanding

/-- The state law reads of the claim whether it holds anything, its state and its STARVED flag. -/
theorem Claim.StateLaw.congr {c c' : Claim} (l : c.StateLaw) (ha : c'.allocation = [] ↔ c.allocation = [])
    (hs : c'.state = c.state) (hf : c'.flags.starved = c.flags.starved) : c'.StateLaw := by
  obtain ⟨h1, h2, h3, h4⟩ := l
  refine ⟨fun h => ?_, fun h => ?_, fun h => ?_, fun h => ?_⟩
  · rw [hs]
    exact h1 fun e => h (ha.2 e)
  · rw [hs, ha]
    exact h2 (hf ▸ h)
  · rw [hf, ha]
    exact h3 (hs ▸ h)
  · rw [Ne, ha]
    exact h4 (hs ▸ h)

theorem newE_eq_nil (k : CylIdx) (new : Nat) (alloc : List Entry) : newE k new alloc = [] ↔ alloc = [] := by
  simp [newE]

/-- An answered loss, from a claim that keeps the law with the cylinders it had, leaves the law (R82, R83). -/
theorem coreLaw_answerLoss {s : State} {h : Hall} {c : Claim} {before : List Entry} (l : CoreLaw s)
    (hc : s.claim h = some c) (hf : c.flags.starved = false) (hb : before.map (·.cyl) = c.allocation.map (·.cyl)) :
    CoreLaw (s.answerLoss h before) := by
  cases hs : c.state.toppedUp with
  | false =>
    rw [State.answerLoss_of_not_toppedUp hc hs]
    exact l
  | true =>
    have kept := (l.halls h).claim hc
    have hq : s.claimState h ≠ some .firing := by
      rw [State.claimState_of_claim hc]
      intro e
      rw [Option.some.inj e] at hs
      cases hs
    obtain ⟨ho, hp⟩ := otherHalls_answerLoss s h before
    refine l.of_others_quiet ho ?_ hq (by simp) hp
    refine hallLaw_answerLoss hc kept.held hs hf (l.quietFor hq) fun hsel => ?_
    obtain ⟨sc, e1, e2⟩ := kept.schedule (.inl hsel)
    exact ⟨sc, e1, hb ▸ (scheduleLaw_iff_unfired ((l.quietFor hq).held kept.held)).1 e2⟩

/-- The law once the entry of hall `h`'s cylinder `k` has been handed its new E (R14, R40). -/
theorem coreLaw_handed {s t : State} {h : Hall} {k : CylIdx} {c : Claim} {new : Nat} (l : CoreLaw s)
    (x : OneCylinder s t h k) (ha : t.assignedTo h k = true) (hE : (t.cyl k).map (·.e) = some new)
    (hc : s.claim h = some c) (ht : c.state.terminal = false) :
    CoreLaw (t.reallocate h false (newE k new c.allocation)) ∧
      (t.reallocate h false (newE k new c.allocation)).claim h = some (c.changedTo false (newE k new c.allocation)) := by
  have kept := (l.halls h).claim hc
  have hlaw : HeldLaw (t.reallocate h false (newE k new c.allocation)) h (c.changedTo false (newE k new c.allocation)) :=
    (kept.held.handed x.cyls (ha.trans x.owned.symm) hE false).of_cyls (by simp)
  have hcl := State.claim_reallocate_changedTo ((x.claim h).trans hc) ht false (newE k new c.allocation)
  have ho := x.others.trans (otherHalls_reallocate t h false (newE k new c.allocation))
  have hrole : ∀ d, (t.reallocate h false (newE k new c.allocation)).role d = s.role d := fun d => by
    simp [State.role, x.store]
  have hpu : (t.reallocate h false (newE k new c.allocation)).pulses = s.pulses :=
    (State.pulses_of_circuits (by simp)).trans x.pulses
  have hcyl : ∀ i, (t.reallocate h false (newE k new c.allocation)).cyl i = t.cyl i := fun i => by simp
  have hunit : (t.reallocate h false (newE k new c.allocation)).unit h = s.unit h :=
    State.unit_of_units (by simp [x.units]) h
  refine ⟨?_, hcl⟩
  generalize t.reallocate h false (newE k new c.allocation) = u at *
  refine l.of_others ho (.of_claim hcl ⟨hlaw, ?_, fun hs => ?_, fun sc hs hsc hu => ?_⟩) fun ch hs => ?_
  · exact kept.state.congr (newE_eq_nil k new c.allocation) rfl rfl
  · obtain ⟨sc, e1, e2⟩ := kept.schedule hs
    exact ⟨sc, e1, e2.congr (map_cyl_newE k new c.allocation) (State.pulsing_congr hrole hpu)⟩
  · exact kept.deferral sc hs hsc (hunit ▸ hu)
  · rw [State.pulse_channel, hpu, ← State.pulse_channel] at hs
    obtain ⟨j, i, h1, h2, h3⟩ := l.pulses ch hs
    by_cases hj : j = h
    · subst hj
      refine .inr ⟨i, (hrole ch).trans h1, ?_, ?_⟩
      · by_cases hi : i = k
        · rw [hi, State.assignedTo_congr (hcyl k), ha]
        · rw [State.assignedTo_congr ((hcyl i).trans (x.cyls i hi)), h2]
      · rw [State.claimState_of_claim hcl]
        rw [State.claimState_of_claim hc] at h3
        exact h3
    · exact .inl ⟨j, i, hj, (hrole ch).trans h1, h2, h3⟩

/-- A new E handed to the owner of a cylinder leaves the law as it was (R14, R84, R130). -/
theorem coreLaw_handE {s t : State} {h : Hall} {k : CylIdx} {new : Nat} (l : CoreLaw s)
    (x : OneCylinder s t h k) (ha : t.assignedTo h k = true) (hE : (t.cyl k).map (·.e) = some new) (old : Nat) :
    CoreLaw (t.handE h k old new) := by
  obtain ⟨c, hc, kept, hne⟩ := l.ownerClaim x.owned
  obtain ⟨hu, hcu⟩ := coreLaw_handed l x ha hE hc (kept.state.not_terminal hne)
  rw [State.handE_eq ((x.claim h).trans hc)]
  split
  · exact coreLaw_answerLoss hu hcu (kept.state.not_starved hne) (map_cyl_newE k new c.allocation).symm
  · exact hu

end Sys2Proof.Machine
end


-- ==== Sys2Proof/Proofs/ClaimsLawTable.lean ====
section
/-! PROOFS. The claims law through samples and supervision checks, and through first allocations, holds and the ends of claims
(R14, R20, R22, R50 to R55, R60 to R66, R86). -/

namespace Sys2Proof.Machine

/-! ### Changes at the Cylinder Table -/

/-- The law after a change of cylinders that leaves who has them, and the E of those that are had. -/
theorem CoreLaw.of_cylinders {s t : State} (l : CoreLaw s) (h1 : t.claims = s.claims) (h2 : t.units = s.units)
    (h3 : t.store = s.store) (h4 : t.pulses = s.pulses) (ha : ∀ h k, t.assignedTo h k = s.assignedTo h k)
    (hE : ∀ h k, s.assignedTo h k = true → (t.cyl k).map (·.e) = (s.cyl k).map (·.e)) : CoreLaw t := by
  have hr : ∀ c, t.role c = s.role c := fun c => by rw [State.role, h3, State.role]
  have hc : ∀ h, t.claim h = s.claim h := fun h => by rw [State.claim, h1, State.claim]
  refine ⟨fun h => ?_, fun ch hp => ?_⟩
  · cases hcl : s.claim h with
    | none =>
      simp only [HallLaw, hc, hcl]
      exact fun k => (ha h k).trans ((l.halls h).unclaimed hcl k)
    | some c =>
      refine .of_claim ((hc h).trans hcl) (((l.halls h).claim hcl).congr (ha h) (hE h)
        (fun k _ => State.pulsing_congr hr h4 k) fun hk => ?_)
      rw [State.unit_of_units h2] at hk
      exact hk
  · rw [State.pulse_channel, h4, ← State.pulse_channel] at hp
    obtain ⟨h, k, e1, e2, e3⟩ := l.pulses ch hp
    exact ⟨h, k, (hr ch).trans e1, (ha h k).trans e2, by rw [State.claimState, hc]; exact e3⟩

/-- The record of one cylinder replaced by one of the same disposition, and of the same E where a hall has it. -/
theorem CoreLaw.setCyl {s : State} {k : CylIdx} {c new : Cylinder} (l : CoreLaw s) (hk : s.cyl k = some c)
    (hd : ∀ h, new.disposition = .assigned h ↔ c.disposition = .assigned h)
    (he : ∀ h, c.disposition = .assigned h → new.e = c.e) : CoreLaw (s.setCyl k (some new)) := by
  refine l.of_cylinders rfl rfl rfl rfl (fun h j => ?_) fun h j ha => ?_
  · by_cases hj : j = k
    · subst hj
      simp only [State.assignedTo, State.cyl_setCyl, if_true, hk, hd]
    · exact State.assignedTo_congr (State.cyl_setCyl_of_ne s hj (some new)) h
  · by_cases hj : j = k
    · subst hj
      rw [State.assignedTo_of_cyl hk, decide_eq_true_eq] at ha
      simp [State.cyl_setCyl, hk, he h ha]
    · rw [State.cyl_setCyl_of_ne s hj]

theorem CoreLaw.poolGainIf {s : State} (l : CoreLaw s) (b : Bool) : CoreLaw (s.poolGainIf b) :=
  l.of_same (.of_eq (by simp) (by simp) (by simp) (by simp) (State.pulses_of_circuits (by simp)))

/-- A record of cylinder `k` that hall `h` had, replaced by one that no other hall has. -/
theorem oneCylinder_setCyl {s : State} {h : Hall} {k : CylIdx} {new : Cylinder} (ha : s.assignedTo h k = true)
    (hn : ∀ j, j ≠ h → new.disposition ≠ .assigned j) : OneCylinder s (s.setCyl k (some new)) h k where
  owned := ha
  cyls j hj := State.cyl_setCyl_of_ne s hj _
  free j hj := by simp [State.assignedTo, State.cyl_setCyl, hn j hj]
  claims := rfl
  units := rfl
  store := rfl
  pulses := rfl

theorem Cylinder.disposition_invalidSample (c : Cylinder) : c.invalidSample.disposition = c.disposition := by
  unfold Cylinder.invalidSample
  (repeat' split) <;> rfl

/-- The record that a sample makes, handed over, leaves the law as it was (R14, R18). -/
theorem coreLaw_handOver {s : State} {k : CylIdx} {c new : Cylinder} (l : CoreLaw s) (hk : s.cyl k = some c)
    (hd : new.disposition = c.disposition) (valid : Bool) : CoreLaw ((s.setCyl k (some new)).handOver k valid c new) := by
  by_cases hu : ∃ h, c.disposition = .assigned h
  · obtain ⟨h, hh⟩ := hu
    have ha : s.assignedTo h k = true := by rw [State.assignedTo_of_cyl hk, hh]; simp
    obtain ⟨cl, hc, kept, hne⟩ := l.ownerClaim ha
    have hnew : (s.setCyl k (some new)).cyl k = some new := by rw [State.cyl_setCyl, if_pos rfl]
    rw [State.handOver_assigned (s := s.setCyl k (some new)) (hd.trans hh) hc]
    split
    · rename_i hx
      have x : OneCylinder s ((s.setCyl k (some new)).setDisposition k .free) h k := by
        have x0 := oneCylinder_setCyl (new := { new with disposition := .free }) ha fun j _ => by simp
        have hcy : ∀ j, ((s.setCyl k (some new)).setDisposition k .free).cyl j =
            (s.setCyl k (some { new with disposition := .free })).cyl j := fun j => by
          simp only [State.cyl_setDisposition, State.cyl_setCyl, if_true]
          split <;> rfl
        exact ⟨ha, fun j hj => (hcy j).trans (x0.cyls j hj), fun j hj => (State.assignedTo_congr (hcy k) j).trans (x0.free j hj),
          by simp, by simp, by simp, State.pulses_of_circuits (by simp)⟩
      refine coreLaw_removal l x ?_ hc hx.2.2
      rw [State.assignedTo, State.cyl_setDisposition, if_pos rfl, hnew]
      simp
    · split
      · refine coreLaw_handE l (oneCylinder_setCyl ha fun j hj => ?_) ?_ ?_ c.e
        · rw [hd, hh]
          simpa using hj.symm
        · rw [State.assignedTo_of_cyl hnew, hd, hh]
          simp
        · rw [hnew]
          rfl
      · rename_i hee
        exact l.setCyl hk (fun j => by rw [hd]) fun _ _ => not_not.1 hee
  · have hu : ∀ h, c.disposition ≠ .assigned h := fun h e => hu ⟨h, e⟩
    rw [State.handOver_unassigned (fun h => hd ▸ hu h)]
    exact (l.setCyl hk (fun j => by rw [hd]) fun h e => absurd e (hu h)).poolGainIf _

/-- A pressure sample leaves the law as it was (R14). -/
theorem coreLaw_takeSample {s : State} (l : CoreLaw s) (k : CylIdx) (p : Option Nat) : CoreLaw (s.takeSample k p) := by
  cases hk : s.cyl k with
  | none =>
    have e : s.takeSample k p = s := by simp [State.takeSample, hk]
    rw [e]
    exact l
  | some c =>
    simp only [State.takeSample, hk]
    cases p with
    | none => exact coreLaw_handOver l hk c.disposition_invalidSample _
    | some p => exact coreLaw_handOver l hk (c.disposition_validSample p _ _ _) _

/-! ### Supervision checks that cost no claim a cylinder -/

/-- A cylinder put out of use or made FREE that no hall has. -/
theorem CoreLaw.setDisposition {s : State} (l : CoreLaw s) {k : CylIdx} {d : Disposition} (hk : ∀ h, s.assignedTo h k = false)
    (hd : ∀ h, d ≠ .assigned h) : CoreLaw (s.setDisposition k d) := by
  have hE : ∀ i, ((s.setDisposition k d).cyl i).map (·.e) = (s.cyl i).map (·.e) := fun i => by
    rw [State.cyl_setDisposition]
    split
    · rename_i hi
      rw [Option.map_map, hi]
      rfl
    · rfl
  refine l.of_cylinders (by simp) (by simp) (by simp) (State.pulses_of_circuits (by simp)) (fun h i => ?_) fun _ i _ => hE i
  by_cases hi : i = k
  · subst hi
    rw [hk h, State.assignedTo, State.cyl_setDisposition, if_pos rfl]
    cases s.cyl i with
    | none => rfl
    | some y => simp [hd h]
  · exact State.assignedTo_congr (by rw [State.cyl_setDisposition, if_neg hi]) h

theorem coreLaw_actuatorGood {s : State} (l : CoreLaw s) (k : CylIdx) : CoreLaw (s.actuatorGood k) := by
  unfold State.actuatorGood
  split
  · exact l
  · rename_i c hc
    split
    · rename_i hd
      refine (l.setDisposition (fun h => ?_) fun h => by simp).poolGainIf _
      rw [State.assignedTo_of_cyl hc, hd]
      simp
    · exact l

/-! ### One hall's records change, and no cylinder -/

/-- Between `s` and `t` only hall `h`'s claim and deadline have changed, of what the law reads. -/
structure RecordsOf (s t : State) (h : Hall) : Prop where
  claims : ∀ j, j ≠ h → t.claim j = s.claim j
  units : ∀ j, j ≠ h → t.unit j = s.unit j
  cyls : t.cyls = s.cyls
  store : t.store = s.store
  pulses : t.pulses = s.pulses

theorem RecordsOf.trans {s t u : State} {h : Hall} (x : RecordsOf s t h) (y : RecordsOf t u h) : RecordsOf s u h :=
  ⟨fun j hj => (y.claims j hj).trans (x.claims j hj), fun j hj => (y.units j hj).trans (x.units j hj), y.cyls.trans x.cyls,
    y.store.trans x.store, y.pulses.trans x.pulses⟩

theorem RecordsOf.others {s t : State} {h : Hall} (x : RecordsOf s t h) : OtherHalls s t h :=
  .of_records x.claims (fun j hj => congrArg _ (x.units j hj)) x.cyls x.store x.pulses

/-- `c'` holds what `c` holds. -/
structure Claim.HoldsAs (c c' : Claim) : Prop where
  allocation : c'.allocation = c.allocation
  allocatedSum : c'.allocatedSum = c.allocatedSum
  shortage : c'.shortage = c.shortage
  figures : c'.figures = c.figures
  fired : c'.fired.length ≤ c.fired.length

theorem HeldLaw.holdsAs {s : State} {h : Hall} {c c' : Claim} (l : HeldLaw s h c) (x : c.HoldsAs c') : HeldLaw s h c' :=
  l.of_claim x.allocation x.allocatedSum x.shortage x.figures x.fired

/-- A claim short of FIRING takes another state short of FIRING, with what it holds. -/
theorem CoreLaw.restate {s t : State} {h : Hall} {c c' : Claim} (l : CoreLaw s) (x : RecordsOf s t h)
    (hc : s.claim h = some c) (hq : c.state ≠ .firing) (hct : t.claim h = some c') (hh : c.HoldsAs c') (hs : c'.StateLaw)
    (hf : c'.state ≠ .firing)
    (hsch : c'.state = .selecting → ∃ sc, c'.schedule = some sc ∧ sc.Unfired (c'.allocation.map (·.cyl))) : CoreLaw t := by
  have hq' : s.claimState h ≠ some .firing := by
    rw [State.claimState_of_claim hc]
    exact fun e => hq (Option.some.inj e)
  have q : t.QuietFor h := (l.quietFor hq').of_others x.others.assigned x.store x.pulses
  refine l.of_others_quiet x.others (.of_claim hct (.of_quiet ?_ hs hf q hsch)) hq' (by rw [x.store]) x.pulses
  exact (((l.halls h).claim hc).held.of_cyls x.cyls).holdsAs hh

/-- The same for a claim that is not in SELECTING after. -/
theorem CoreLaw.restate_idle {s t : State} {h : Hall} {c c' : Claim} (l : CoreLaw s) (x : RecordsOf s t h)
    (hc : s.claim h = some c) (hq : c.state ≠ .firing) (hct : t.claim h = some c') (hh : c.HoldsAs c') (hs : c'.StateLaw)
    (hf : c'.state ≠ .firing) (hsel : c'.state ≠ .selecting) : CoreLaw t :=
  l.restate x hc hq hct hh hs hf fun e => absurd e hsel

theorem recordsOf_updClaim (s : State) (h : Hall) (f : Claim → Claim) : RecordsOf s (s.updClaim h f) h :=
  ⟨fun _ hj => s.updClaim_other hj f, fun _ _ => rfl, rfl, rfl, rfl⟩

theorem recordsOf_loadUnit (s : State) (h : Hall) (d : Time) (k : DeadlineKind) : RecordsOf s (s.loadUnit h d k) h :=
  ⟨fun _ _ => rfl, fun j hj => by rw [State.unit_loadUnit, if_neg hj], rfl, rfl, rfl⟩

theorem recordsOf_removeUnit (s : State) (h : Hall) : RecordsOf s (s.removeUnit h) h :=
  ⟨fun _ _ => rfl, fun j hj => by rw [State.unit_removeUnit, if_neg hj], rfl, rfl, rfl⟩

theorem recordsOf_same {s t : State} (h : Hall) (h1 : t.claims = s.claims) (h2 : t.units = s.units) (h3 : t.cyls = s.cyls)
    (h4 : t.store = s.store) (h5 : t.pulses = s.pulses) : RecordsOf s t h :=
  ⟨fun j _ => by rw [State.claim, h1, State.claim], fun j _ => State.unit_of_units h2 j, h3, h4, h5⟩

/-! ### Holds (R60 to R64) and upgrades (R53) -/

theorem State.claim_updClaim_of {s : State} {h : Hall} {c : Claim} (hc : s.claim h = some c) (f : Claim → Claim) :
    (s.updClaim h f).claim h = some (f c) := by
  rw [State.claim_updClaim_self, hc]
  rfl

theorem Claim.StateLaw.of_same {c c' : Claim} (l : c.StateLaw) (ha : c'.allocation = c.allocation)
    (hs : c'.state = c.state) (hf : c'.flags = c.flags) : c'.StateLaw :=
  l.congr (by rw [ha]) hs (by rw [hf])

/-- A claim of COUNTDOWN or HOLD goes to the other with what it holds (R54, R60, R63). -/
theorem Claim.StateLaw.of_timed {c c' : Claim} (l : c.StateLaw) (hc : c.state = .countdown ∨ c.state = .hold)
    (ha : c'.allocation = c.allocation) (hs : c'.state = .countdown ∨ c'.state = .hold) (hf : c'.flags = c.flags) :
    c'.StateLaw := by
  have hiff := l.flagged (hc.imp_right .inl)
  refine ⟨fun _ => ?_, fun h => ⟨by rw [ha]; exact hiff.1 (hf ▸ h), ?_, ?_⟩, fun _ => by rw [hf, ha]; exact hiff, fun h => ?_⟩
  · rcases hs with e | e <;> simp [e]
  · rcases hs with e | e <;> simp [e]
  · rcases hs with e | e <;> rw [e] <;> rfl
  · rcases hs with e | e <;> simp [e] at h

/-- A claim of WAITING or SELECTING goes into HOLD with what it holds (R62). -/
theorem Claim.StateLaw.of_held {c c' : Claim} (l : c.StateLaw) (hc : c.state = .waiting ∨ c.state = .selecting)
    (ha : c'.allocation = c.allocation) (hs : c'.state.toppedUp = true) (hf : c'.flags = c.flags) :
    c'.StateLaw := by
  have hn := l.supplied hc
  exact .of_supplied (ha ▸ hn) (by rw [hf]; exact l.not_starved hn) (.inl hs)

theorem coreLaw_resume {s : State} {h : Hall} {c : Claim} (l : CoreLaw s) (hc : s.claim h = some c)
    (hs : c.state = .countdown ∨ c.state = .hold) (left : Nat) (source : DelaySource) : CoreLaw (s.resume h left source) := by
  have kept := (l.halls h).claim hc
  have hcl := State.claim_updClaim_of hc fun c =>
    { c with state := .countdown, remaining := none, holdStartedAt := none, delaySource := source }
  refine l.restate_idle ((recordsOf_updClaim s h _).trans (recordsOf_loadUnit _ h _ _)) hc ?_ hcl ⟨rfl, rfl, rfl, rfl, le_rfl⟩
    (kept.state.of_timed hs rfl (.inl rfl) rfl) (by simp) (by simp)
  rcases hs with e | e <;> simp [e]

/-- Entry to HOLD, from a state `u` in which the claim is as it was but for its schedule (R60 to R62). -/
theorem coreLaw_enterHold {s u : State} {h : Hall} {c c1 : Claim} (l : CoreLaw s) (x : RecordsOf s u h)
    (hc : s.claim h = some c) (hu : u.claim h = some c1) (hh : c.HoldsAs c1) (hf : c1.flags = c.flags)
    (hs : c.state = .countdown ∨ c.state = .waiting ∨ c.state = .selecting) (left : Nat) : CoreLaw (u.enterHold h left) := by
  have kept := (l.halls h).claim hc
  have hcl := State.claim_updClaim_of hu fun c =>
    { c with state := .hold, remaining := some left, holdStartedAt := some u.now, readyAt := none }
  have hr : RecordsOf u (u.enterHold h left) h := by
    unfold State.enterHold
    dsimp only
    split
    · exact (recordsOf_updClaim u h _).trans (recordsOf_removeUnit _ h)
    · exact (recordsOf_updClaim u h _).trans (recordsOf_loadUnit _ h _ _)
  have hcl2 : (u.enterHold h left).claim h =
      some { c1 with state := .hold, remaining := some left, holdStartedAt := some u.now, readyAt := none } := by
    rw [← hcl]
    unfold State.enterHold
    dsimp only
    split <;> rfl
  refine l.restate_idle (x.trans hr) hc ?_ hcl2 ⟨hh.allocation, hh.allocatedSum, hh.shortage, hh.figures, hh.fired⟩ ?_
    (by simp) (by simp)
  · rcases hs with e | e | e <;> simp [e]
  · rcases hs with e | e
    · exact kept.state.of_timed (.inl e) hh.allocation (.inr rfl) hf
    · exact kept.state.of_held e hh.allocation rfl hf

/-- A hold edge leaves the law as it was (R60 to R62). -/
theorem coreLaw_holdEdge {s : State} (l : CoreLaw s) (h : Hall) : CoreLaw (s.holdEdge h) := by
  unfold State.holdEdge
  split
  · exact l
  · rename_i c hc
    have hself : c.HoldsAs c := ⟨rfl, rfl, rfl, rfl, le_rfl⟩
    split
    · rename_i hs
      exact coreLaw_enterHold l (recordsOf_same h rfl rfl rfl rfl rfl) hc hc hself rfl (.inl hs) _
    · rename_i hs
      exact coreLaw_enterHold l (u := s.leaveWaitList h) (recordsOf_same h rfl rfl rfl rfl rfl) hc hc hself rfl
        (.inr (.inl hs)) _
    · rename_i hs
      have hl := coreLaw_enterHold l (recordsOf_updClaim s h fun c => { c with schedule := none }) hc
        (State.claim_updClaim_of hc _) ⟨rfl, rfl, rfl, rfl, le_rfl⟩ rfl (.inr (.inr hs)) 0
      exact hl.of_same (.of_eq (by simp) (by simp) (by simp) (by simp) (by simp))
    · exact l

theorem coreLaw_endHold {s : State} {h : Hall} {c : Claim} (l : CoreLaw s) (hc : s.claim h = some c) (hs : c.state = .hold) :
    CoreLaw (s.endHold h c) := by
  unfold State.endHold
  dsimp only
  split
  · exact coreLaw_resume l hc (.inr hs) _ _
  · exact coreLaw_resume l hc (.inr hs) _ _

/-- A hold fall leaves the law as it was (R63). -/
theorem coreLaw_holdFall {s : State} (l : CoreLaw s) (h : Hall) : CoreLaw (s.holdFall h) := by
  unfold State.holdFall
  split
  · rename_i c hc
    split
    · rename_i hs
      exact coreLaw_endHold l hc hs
    · exact l
  · exact l

theorem sameCore_updPort (s : State) (h : Hall) (f : HallPort → HallPort) : SameCore s (s.updPort h f) :=
  .of_eq rfl rfl rfl rfl rfl

/-- The hold level of a POLL leaves the law as it was (R59). -/
theorem coreLaw_observeHold {s : State} (l : CoreLaw s) (h : Hall) (level : Bool) : CoreLaw (s.observeHold h level) := by
  unfold State.observeHold
  dsimp only
  split
  · refine CoreLaw.of_same ?_ (sameCore_updPort _ h _)
    split
    · exact coreLaw_holdEdge l h
    · exact l
  · exact coreLaw_holdFall (l.of_same (sameCore_updPort s h _)) h

/-- A MANUAL upgrade leaves the law as it was (R53). -/
theorem coreLaw_upgrade {s : State} {h : Hall} {c : Claim} (l : CoreLaw s) (hc : s.claim h = some c)
    (hs : c.state = .countdown ∨ c.state = .hold) : CoreLaw (s.upgrade h c) := by
  have kept := (l.halls h).claim hc
  have hcl := State.claim_updClaim_of hc fun c => { c with basis := .manual }
  have h1 : CoreLaw (s.updClaim h fun c => { c with basis := .manual }) := by
    refine l.restate_idle (recordsOf_updClaim s h _) hc ?_ hcl ⟨rfl, rfl, rfl, rfl, le_rfl⟩ (kept.state.of_same rfl rfl rfl) ?_ ?_
    all_goals rcases hs with e | e <;> simp [e]
  unfold State.upgrade
  refine CoreLaw.of_same ?_ (sameCore_updPort _ h _)
  split
  · exact coreLaw_resume h1 hcl hs _ _
  · exact coreLaw_resume h1 hcl hs _ _

end Sys2Proof.Machine
end


-- ==== Sys2Proof/Proofs/ClaimsLawClaims.lean ====
section
/-! PROOFS. The claims law through first allocations, grants and the ends of claims (R50 to R58, R65 to R68, R86, R97 to R99). -/

namespace Sys2Proof.Machine

/-! ### First allocations (R54, R79) -/

/-- What a first allocation leaves of a claim that holds nothing: what is taken, and STARVED set exactly when that is
nothing (R54, R79). -/
theorem firstAllocation_rule {s : State} {h : Hall} {c : Claim} (hc : s.claim h = some c) (l : HeldLaw s h c)
    (hn : c.allocation = []) (ht : c.state.terminal = false) :
    ∃ c', (s.firstAllocation h).claim h = some c' ∧ HeldLaw (s.firstAllocation h) h c' ∧ c'.state = c.state ∧
      (c'.flags.starved = true ↔ c'.allocation = []) ∧ OtherHalls s (s.firstAllocation h) h := by
  rw [s.firstAllocation_eq h c hc]
  have hgiven : (decide (s.minAcceptable h c.figures.req ≤ sumE (s.takeCredited .firstAllocation c).1) &&
      !(s.takenList .firstAllocation c).isEmpty) = true → s.takenList .firstAllocation c ≠ [] := by
    simp
  generalize (decide (s.minAcceptable h c.figures.req ≤ sumE (s.takeCredited .firstAllocation c).1) &&
      !(s.takenList .firstAllocation c).isEmpty) = given at *
  cases given with
  | true =>
    have hcl := s.claim_commit h (s.takenList .firstAllocation c) c hc ht
    obtain ⟨h1, h2, -⟩ := s.committed_fields c (s.takenList .firstAllocation c)
    have hl := l.commit hc .firstAllocation
    have ho := otherHalls_commit hc fun e he => (State.mem_takenList (kind := .firstAllocation) (c := c) he).1
    simp only [if_true]
    refine ⟨_, State.claim_updClaim_of hcl _, HeldLaw.holdsAs (hl.of_cyls rfl) ⟨rfl, rfl, rfl, rfl, le_rfl⟩, h2, ?_,
      ho.trans (recordsOf_updClaim _ h _).others⟩
    simp [h1, hgiven rfl]
  | false =>
    simp only [Bool.false_eq_true, if_false]
    refine ⟨_, State.claim_updClaim_of hc _, HeldLaw.holdsAs (l.of_cyls rfl) ⟨rfl, rfl, rfl, rfl, le_rfl⟩, rfl, ?_,
      (recordsOf_updClaim s h _).others⟩
    simp [hn]

/-- The law of a claim that has had its first allocation, in a state that needs no grant (R54). -/
theorem Claim.StateLaw.of_allocated {c : Claim} (hf : c.flags.starved = true ↔ c.allocation = [])
    (hs : c.state = .countdown ∨ c.state = .hold) : c.StateLaw := by
  refine ⟨fun _ => ?_, fun h => ⟨hf.1 h, ?_, ?_⟩, fun _ => hf, fun h => ?_⟩
  · rcases hs with e | e <;> simp [e]
  · rcases hs with e | e <;> simp [e]
  · rcases hs with e | e <;> rw [e] <;> rfl
  · rcases hs with e | e <;> simp [e] at h

/-- A hall whose claim has ended, or that has none, has no cylinder (R15, R17). -/
theorem CoreLaw.unassigned {s : State} {h : Hall} (l : CoreLaw s) (hc : s.claim h = none ∨ ∃ c, s.claim h = some c ∧
    c.state.terminal = true) (k : CylIdx) : s.assignedTo h k = false := by
  rcases hc with hc | ⟨c, hc, ht⟩
  · exact (l.halls h).unclaimed hc k
  · have kept := (l.halls h).claim hc
    rw [← Bool.not_eq_true, kept.held.owner]
    rintro ⟨e, he, -⟩
    rw [kept.state.not_terminal (List.ne_nil_of_mem he)] at ht
    cases ht

/-- A new claim in the place of none, or of one that has ended, leaves the law as it was (R50). -/
theorem coreLaw_openClaim {s : State} {h : Hall} (l : CoreLaw s)
    (hc : s.claim h = none ∨ ∃ c, s.claim h = some c ∧ c.state.terminal = true) (basis : Basis) (asked : Bool) :
    CoreLaw (s.openClaim h basis asked) := by
  have hun := l.unassigned hc
  have hq : s.claimState h ≠ some .firing := by
    rcases hc with hc | ⟨c, hc, ht⟩
    · simp [State.claimState, hc]
    · rw [State.claimState_of_claim hc]
      intro e
      rw [Option.some.inj e] at ht
      cases ht
  obtain ⟨c0, hc0⟩ : ∃ c, c = newClaim basis (reservePermitted (s.hallRec h).reservePolicy asked) s.now (s.figures h) :=
    ⟨_, rfl⟩
  obtain ⟨u, hu⟩ : ∃ u, u = ((s.setClaim h (some c0)).removeUnit h).setOrder
      (joinTail (fun j => s.admittedAt j s.now && h < j) h s.order) := ⟨_, rfl⟩
  have hopen : ∃ d, s.openClaim h basis asked = (u.firstAllocation h).loadUnit h d .countdown := by
    rw [hu, hc0]
    exact ⟨_, rfl⟩
  have hx : RecordsOf s u h := by
    rw [hu]
    exact ⟨fun j hj => s.setClaim_other hj _, fun j hj => (State.unit_removeUnit _ h j).trans (if_neg hj), rfl, rfl, rfl⟩
  have hcl : u.claim h = some c0 := by
    rw [hu]
    exact State.claim_setClaim_self s h _
  have hlaw : HeldLaw u h c0 := by
    have e : ∀ k, u.assignedTo h k = false := fun k => by
      rw [hu]
      exact hun k
    rw [hc0]
    exact ⟨rfl, rfl, Nat.zero_le _, fun k => by simp [e, newClaim], List.nodup_nil, nofun⟩
  have hempty : c0.allocation = [] := by rw [hc0]; rfl
  have hcount : c0.state = .countdown := by rw [hc0]; rfl
  obtain ⟨c', h1, h2, h3, h4, h5⟩ := firstAllocation_rule hcl hlaw hempty (by rw [hcount]; rfl)
  obtain ⟨d, hd⟩ := hopen
  have hx2 := recordsOf_loadUnit (u.firstAllocation h) h d .countdown
  rw [hd]
  refine l.of_others_quiet ((hx.others.trans h5).trans hx2.others) (.of_claim (c := c') h1 ?_) hq ?_ ?_
  · exact .of_idle (h2.of_cyls hx2.cyls) (.of_allocated h4 (.inl (h3.trans hcount))) (by rw [h3, hcount]; simp)
      (by rw [h3, hcount]; simp)
  · rw [hx2.store, ← hx.store]
    simp
  · exact (hx2.pulses.trans (State.pulses_of_circuits (by simp))).trans hx.pulses

/-! ### Grants (R97 to R99) -/

/-- The claims of the halls of a list are WAITING. -/
def State.AllWaiting (s : State) (hs : List Hall) : Prop := ∀ h ∈ hs, s.claimState h = some .waiting

/-- The claims of the wait list are WAITING (R97). -/
def State.WaitersWait (s : State) : Prop := s.AllWaiting (s.manifold.waitList.map (·.hall))

theorem GrantLaw.waitersWait {s : State} (g : GrantLaw s) : s.WaitersWait := by
  intro h hh
  obtain ⟨w, hw, rfl⟩ := List.mem_map.1 hh
  exact (g.waiting w.hall).1 ⟨w, hw, rfl⟩

/-- The grant of the manifold to a claim in WAITING (R88, R99). -/
theorem coreLaw_grant {s : State} {h : Hall} {c : Claim} (l : CoreLaw s) (hc : s.claim h = some c) (hs : c.state = .waiting) :
    CoreLaw (s.grant h) := by
  have kept := (l.halls h).claim hc
  have hne := kept.state.supplied (.inl hs)
  have hcl : (s.grant h).claim h =
      some { c with state := .selecting, schedule := some (buildSchedule c.allocation), fired := [] } :=
    State.claim_updClaim_of (s := s.leaveWaitList h) hc _
  have hx : RecordsOf s (s.grant h) h :=
    ⟨fun j hj => State.updClaim_other (s.leaveWaitList h) hj _, fun j hj => (State.unit_loadUnit _ h j _ _).trans (if_neg hj),
      by simp, by simp, by simp⟩
  refine l.restate hx hc (by simp [hs]) hcl ⟨rfl, rfl, rfl, rfl, Nat.zero_le _⟩
    (.of_supplied hne (kept.state.not_starved hne) (.inl rfl)) (by simp) fun _ => ⟨_, rfl, unfired_buildSchedule kept.held.once⟩

theorem coreLaw_tryGrant {s : State} (l : CoreLaw s) (w : s.WaitersWait) : CoreLaw s.tryGrant := by
  rcases s.tryGrant_cases with ⟨-, e⟩ | ⟨x, rest, -, hw, e⟩
  · rw [e]
    exact l
  · rw [e]
    have hx : s.claimState x.hall = some .waiting := w x.hall (by rw [hw]; exact List.mem_cons_self ..)
    cases hc : s.claim x.hall with
    | none => simp [State.claimState, hc] at hx
    | some c =>
      rw [State.claimState_of_claim hc] at hx
      exact coreLaw_grant l hc (Option.some.inj hx)

theorem mem_joinTail {α : Type} (behind : α → Bool) (x y : α) (l : List α) : y ∈ joinTail behind x l ↔ y = x ∨ y ∈ l := by
  obtain ⟨before, after, h1, h2, -⟩ := joinTail_split behind x l
  rw [h2, h1]
  simp only [List.mem_append, List.mem_cons]
  tauto

/-- The places that joins take: claims, cylinders, deadlines, roles and pulses stand, and the list holds those that join. -/
theorem place_foldl (hs : List Hall) (s : State) :
    SameCore s (hs.foldl (fun s h => s.place h s.now) s) ∧
      ∀ w ∈ (hs.foldl (fun s h => s.place h s.now) s).manifold.waitList, w.hall ∈ hs ∨ w ∈ s.manifold.waitList := by
  induction hs generalizing s with
  | nil => exact ⟨.refl s, fun w hw => .inr hw⟩
  | cons h hs ih =>
    obtain ⟨h1, h2⟩ := ih (s.place h s.now)
    have hp : SameCore s (s.place h s.now) := .of_eq rfl rfl rfl rfl rfl
    refine ⟨hp.trans h1, fun w hw => ?_⟩
    rcases h2 w hw with hm | hm
    · exact .inl (List.mem_cons_of_mem _ hm)
    · rcases (mem_joinTail _ _ _ _).1 hm with e | hm
      · exact .inl (e ▸ List.mem_cons_self ..)
      · exact .inr hm

theorem coreLaw_join {s : State} {hs : List Hall} (l : CoreLaw s) (w : s.WaitersWait) (hw : s.AllWaiting hs) :
    CoreLaw (s.join hs) := by
  obtain ⟨h1, h2⟩ := place_foldl hs s
  refine coreLaw_tryGrant (l.of_same h1) fun h hh => ?_
  obtain ⟨x, hx, rfl⟩ := List.mem_map.1 hh
  rw [State.claimState, h1.claim]
  exact (h2 x hx).elim (hw x.hall) fun hm => w x.hall (List.mem_map_of_mem hm)

/-! ### The countdown that is over (R55, R56) -/

/-- A claim that holds cylinders, with STARVED clear, becomes WAITING (R56). -/
theorem coreLaw_makeWaiting {s u : State} {h : Hall} {c c' : Claim} (l : CoreLaw s) (hc : s.claim h = some c)
    (hq : c.state ≠ .firing) (x : OtherHalls s u h) (hr : u.store = s.store) (hp : u.pulses = s.pulses)
    (hu : u.claim h = some c') (hl : HeldLaw u h c') (hn : c'.allocation ≠ []) (hf : c'.flags.starved = false) :
    CoreLaw (u.makeWaiting h) ∧ (u.makeWaiting h).claimState h = some .waiting := by
  have hq' : s.claimState h ≠ some .firing := by
    rw [State.claimState_of_claim hc]
    exact fun e => hq (Option.some.inj e)
  have hcl := State.claim_updClaim_of hu fun c => { c with state := .waiting, readyAt := some u.now }
  have hx := recordsOf_updClaim u h fun c => { c with state := .waiting, readyAt := some u.now }
  refine ⟨l.of_others_quiet (x.trans hx.others) (.of_claim hcl (.of_idle ?_ ?_ ?_ ?_)) hq' ?_ (hx.pulses.trans hp), ?_⟩
  · exact HeldLaw.holdsAs (hl.of_cyls rfl) ⟨rfl, rfl, rfl, rfl, le_rfl⟩
  · exact .of_supplied hn hf (.inl rfl)
  · simp
  · simp
  · exact congrArg (fun st => st.image.roles) (hx.store.trans hr)
  · exact State.claimState_of_claim hcl

theorem State.holdsCylinders_iff {s : State} {h : Hall} {c : Claim} (hc : s.claim h = some c) :
    s.holdsCylinders h = true ↔ c.allocation ≠ [] := by
  simp [State.holdsCylinders, hc]

/-- Waiters wait still after a change for a hall that was not WAITING. -/
theorem State.AllWaiting.of_others {s t : State} {h : Hall} {hs : List Hall} (w : s.AllWaiting hs)
    (x : ∀ j, j ≠ h → t.claim j = s.claim j) (hh : s.claimState h ≠ some .waiting) : t.AllWaiting hs := by
  intro j hj
  have hne : j ≠ h := fun e => hh (e ▸ w j hj)
  rw [State.claimState, x j hne]
  exact w j hj

/-- What has been given, or not, once the countdown is over: the claim holds cylinders, or STARVED is set (R55). -/
theorem countdownOver_supplied {s : State} {h : Hall} {c : Claim} (l : CoreLaw s) (hc : s.claim h = some c)
    (hs : c.state = .countdown) : ∃ u c', u = (if s.holdsCylinders h then s else s.firstAllocation h) ∧ u.claim h = some c' ∧
      HeldLaw u h c' ∧ (c'.flags.starved = true ↔ c'.allocation = []) ∧ OtherHalls s u h ∧ u.store = s.store ∧
      u.pulses = s.pulses ∧ u.manifold = s.manifold := by
  have kept := (l.halls h).claim hc
  cases hh : s.holdsCylinders h with
  | true =>
    exact ⟨s, c, rfl, hc, kept.held, kept.state.flagged (.inl hs), (SameCore.refl s).others h, rfl, rfl, rfl⟩
  | false =>
    have hn : c.allocation = [] := by
      by_contra hne
      rw [(State.holdsCylinders_iff hc).2 hne] at hh
      cases hh
    obtain ⟨c', h1, h2, -, h3, h4⟩ := firstAllocation_rule hc kept.held hn (by rw [hs]; rfl)
    exact ⟨_, c', rfl, h1, h2, h3, h4, by simp, State.pulses_of_circuits (by simp), by simp⟩

theorem coreLaw_countdownOver {s : State} {h : Hall} {c : Claim} (l : CoreLaw s) (w : s.WaitersWait)
    (hc : s.claim h = some c) (hs : c.state = .countdown) : CoreLaw (s.countdownOver h) := by
  obtain ⟨u, c', hu, h1, h2, h3, h4, h5, h6, h7⟩ := countdownOver_supplied l hc hs
  have hq : s.claimState h = some .countdown := by rw [State.claimState_of_claim hc, hs]
  have e : s.countdownOver h = if u.holdsCylinders h then (u.makeWaiting h).join [h]
      else u.updClaim h fun c => { c with state := .starved } := by
    rw [hu]
    rfl
  rw [e]
  split
  · rename_i hh
    have hn := (State.holdsCylinders_iff h1).1 hh
    have hf : c'.flags.starved = false := by
      rw [← Bool.not_eq_true, h3]
      exact hn
    obtain ⟨k1, k2⟩ := coreLaw_makeWaiting l hc (by simp [hs]) h4 h5 h6 h1 h2 hn hf
    refine coreLaw_join k1 ?_ fun j hj => ?_
    · have hm : (u.makeWaiting h).manifold = s.manifold := by simp [h7]
      unfold State.WaitersWait
      rw [hm]
      refine State.AllWaiting.of_others w (fun j hj => ?_) (by rw [hq]; simp)
      exact (State.makeWaiting_other u hj).trans (h4.claims j hj)
    · obtain rfl := List.mem_singleton.1 hj
      exact k2
  · rename_i hh
    have hn : c'.allocation = [] := by
      by_contra hne
      exact hh ((State.holdsCylinders_iff h1).2 hne)
    have hx := recordsOf_updClaim u h fun c => { c with state := .starved }
    refine l.of_others_quiet (h4.trans hx.others) (.of_claim (State.claim_updClaim_of h1 _) (.of_idle ?_ ?_ ?_ ?_))
      (by rw [hq]; simp) (by rw [hx.store, h5]) (hx.pulses.trans h6)
    · exact HeldLaw.holdsAs (h2.of_cyls rfl) ⟨rfl, rfl, rfl, rfl, le_rfl⟩
    · exact .of_empty hn (by simp) (by simp) (fun _ => h3.2 hn) fun _ => rfl
    · simp
    · simp

/-! ### The starved re-evaluation (R86) -/

/-- What the tries of a re-evaluation keep: the law, and that the waiters and the claims listed to join are WAITING. -/
structure TryLaw (acc : State × List Hall) : Prop where
  core : CoreLaw acc.1
  waiters : acc.1.WaitersWait
  joining : acc.1.AllWaiting acc.2

/-- A STARVED-flagged claim that is not terminal is in COUNTDOWN, HOLD or STARVED (R54). -/
theorem Claim.StateLaw.state_of_starved {c : Claim} (l : c.StateLaw) (hf : c.flags.starved = true)
    (ht : c.state.terminal = false) : c.state = .countdown ∨ c.state = .hold ∨ c.state = .starved := by
  obtain ⟨-, hw, hg⟩ := l.starved hf
  revert hw hg ht
  cases c.state <;> simp [ClaimState.terminal, ClaimState.granted]

theorem tryLaw_tryStarved {acc : State × List Hall} (a : TryLaw acc) (h : Hall) : TryLaw (State.tryStarved acc h) := by
  obtain ⟨s, hs⟩ := acc
  obtain ⟨l, w, wj⟩ := a
  cases hc : s.claim h with
  | none =>
    have e : State.tryStarved (s, hs) h = (s, hs) := by simp [State.tryStarved, hc]
    rw [e]
    exact ⟨l, w, wj⟩
  | some c =>
    by_cases hf : c.flags.starved = true ∧ c.state.terminal = false
    · obtain ⟨hf, ht⟩ := hf
      have kept := (l.halls h).claim hc
      have hst := kept.state.state_of_starved hf ht
      have hq : ∀ st, s.claimState h = some st → st = .countdown ∨ st = .hold ∨ st = .starved := fun st e => by
        rw [State.claimState_of_claim hc] at e
        exact Option.some.inj e ▸ hst
      have hwait : s.claimState h ≠ some .waiting := fun e => by simpa using hq _ e
      have hfire : s.claimState h ≠ some .firing := fun e => by simpa using hq _ e
      obtain ⟨c', h1, h2, h3, h4, h5⟩ := firstAllocation_rule hc kept.held (kept.state.starved hf).1 ht
      have e : State.tryStarved (s, hs) h =
          if ((s.firstAllocation h).holdsCylinders h && c.state = .starved) = true then
            ((s.firstAllocation h).makeWaiting h, hs ++ [h])
          else (s.firstAllocation h, hs) := by
        simp [State.tryStarved, hc, hf, ht]
      have hr : (s.firstAllocation h).store = s.store := by simp
      have hp : (s.firstAllocation h).pulses = s.pulses := State.pulses_of_circuits (by simp)
      have hm : (s.firstAllocation h).manifold = s.manifold := by simp
      rw [e]
      generalize s.firstAllocation h = u at *
      split
      · rename_i hx
        simp only [Bool.and_eq_true, decide_eq_true_eq] at hx
        have hn := (State.holdsCylinders_iff h1).1 hx.1
        have hf' : c'.flags.starved = false := by
          rw [← Bool.not_eq_true, h4]
          exact hn
        obtain ⟨k1, k2⟩ := coreLaw_makeWaiting l hc (by simp [hx.2]) h5 hr hp h1 h2 hn hf'
        have ho : ∀ j, j ≠ h → (u.makeWaiting h).claim j = s.claim j := fun j hj =>
          (State.makeWaiting_other u hj).trans (h5.claims j hj)
        refine ⟨k1, ?_, fun j hj => ?_⟩
        · have hm2 : (u.makeWaiting h).manifold = s.manifold := hm
          simp only [State.WaitersWait, hm2]
          exact State.AllWaiting.of_others w ho hwait
        · rcases List.mem_append.1 hj with hj | hj
          · exact State.AllWaiting.of_others wj ho hwait j hj
          · rw [List.mem_singleton.1 hj]
            exact k2
      · rename_i hx
        refine ⟨l.of_others_quiet h5 (.of_claim h1 (.of_idle h2 ?_ ?_ ?_)) hfire (by rw [hr]) hp, ?_,
          State.AllWaiting.of_others wj h5.claims hwait⟩
        · rcases hst with e | e | e
          · exact .of_allocated h4 (.inl (h3.trans e))
          · exact .of_allocated h4 (.inr (h3.trans e))
          · have hn : c'.allocation = [] := by
              by_contra hne
              refine hx ?_
              rw [(State.holdsCylinders_iff h1).2 hne, e]
              rfl
            have hst' : c'.state = .starved := h3.trans e
            exact .of_empty hn (by simp [hst']) (by simp [hst']) (fun _ => h4.2 hn) fun _ => by rw [hst']; rfl
        · rw [h3]
          rcases hst with e | e | e <;> simp [e]
        · rw [h3]
          rcases hst with e | e | e <;> simp [e]
        · simp only [State.WaitersWait, hm]
          exact State.AllWaiting.of_others w h5.claims hwait
    · have e : State.tryStarved (s, hs) h = (s, hs) := by
        have hb : (c.flags.starved && !c.state.terminal) = false := by
          rw [← Bool.not_eq_true]
          simpa using hf
        simp [State.tryStarved, hc, hb]
      rw [e]
      exact ⟨l, w, wj⟩

theorem tryLaw_foldl {acc : State × List Hall} (a : TryLaw acc) (hs : List Hall) : TryLaw (hs.foldl State.tryStarved acc) := by
  induction hs generalizing acc with
  | nil => exact a
  | cons h hs ih => exact ih (tryLaw_tryStarved a h)

theorem coreLaw_reEvaluate {s : State} (l : CoreLaw s) (w : s.WaitersWait) : CoreLaw s.reEvaluate := by
  obtain ⟨h1, h2, h3⟩ := tryLaw_foldl (acc := (s, [])) ⟨l, w, nofun⟩ s.order
  unfold State.reEvaluate
  dsimp only
  split
  · exact h1
  · exact coreLaw_join h1 h2 h3

/-! ### The end of a claim (R65) -/

/-- An allocation released: nothing is ASSIGNED to the hall, and the other halls have what they had (R17). -/
theorem releaseAllocation_rule {s : State} {h : Hall} {c : Claim} (hc : s.claim h = some c)
    (hown : ∀ k, s.assignedTo h k = true → ∃ e ∈ c.allocation, e.cyl = k) :
    (∀ k, (s.releaseAllocation h).assignedTo h k = false) ∧ OtherHalls s (s.releaseAllocation h) h := by
  have hcyl := State.cyl_releaseAllocation hc
  have hrel : ∀ k, s.assignedTo h k = true →
      (s.releaseAllocation h).cyl k = (s.cyl k).map fun y => { y with disposition := .free } := fun k ha =>
    (hcyl k).trans (if_pos ⟨hown k ha, ha⟩)
  have hkeep : ∀ k, s.assignedTo h k = false → (s.releaseAllocation h).cyl k = s.cyl k := fun k ha =>
    (hcyl k).trans (if_neg fun e => by rw [ha] at e; cases e.2)
  have hfree : ∀ k j, s.assignedTo h k = true → (s.releaseAllocation h).assignedTo j k = false := fun k j ha => by
    simp only [State.assignedTo, hrel k ha]
    cases s.cyl k <;> simp
  refine ⟨fun k => ?_, .of_dispositions (fun j hj => (s.releaseAllocation_other hj).1)
    (fun j _ => by rw [State.unit_of_units (s := s) (by simp)]) (fun k => ?_) (fun j hj k => ?_) (by simp)
    (State.pulses_of_circuits (by simp))⟩
  · cases ha : s.assignedTo h k with
    | true => exact hfree k h ha
    | false => rw [State.assignedTo_congr (hkeep k ha), ha]
  · cases ha : s.assignedTo h k with
    | true =>
      rw [hrel k ha, Option.map_map]
      rfl
    | false => rw [hkeep k ha]
  · cases ha : s.assignedTo h k with
    | true =>
      rw [hfree k j ha]
      symm
      rw [← Bool.not_eq_true]
      exact fun hj' => hj (State.assignedTo_unique ha hj')
    | false => exact State.assignedTo_congr (hkeep k ha) j

/-- The law of a claim that has released everything. -/
theorem HeldLaw.of_released {s : State} {h : Hall} {c : Claim} (hn : c.allocation = []) (h1 : c.allocatedSum = 0)
    (h2 : c.shortage = c.figures.req) (h3 : c.fired.length ≤ Config.claimLimit) (h4 : ∀ k, s.assignedTo h k = false) :
    HeldLaw s h c := by
  refine ⟨by rw [hn, h1]; rfl, by rw [h1, h2]; rfl, by rw [hn]; simpa using h3, fun k => ?_, by rw [hn]; exact List.nodup_nil,
    by rw [hn]; nofun⟩
  rw [h4, hn]
  simp

/-- The record of a claim that ends (R65). -/
def Claim.ended (c : Claim) (now : Time) (state : ClaimState) (reason : EndReason) : Claim :=
  { c with state := state, endReason := some reason, endedAt := some now, remaining := none, holdStartedAt := none
           schedule := if c.state = .selecting then none else c.schedule }

/-- The state in which a claim that ends releases its allocation: off the wait list, its grant withdrawn (R65). -/
def State.endingClaim (s : State) (h : Hall) (c : Claim) (state : ClaimState) (reason : EndReason) : State :=
  let s2 := (s.updClaim h fun c => c.ended s.now state reason).removeUnit h
  let s3 := if c.state = .waiting then s2.leaveWaitList h else s2
  if c.state = .selecting then s3.withdrawGrant h else s3

theorem State.endClaim_eq {s : State} {h : Hall} {c : Claim} (hc : s.claim h = some c) (state : ClaimState)
    (reason : EndReason) : ∃ o, s.endClaim h state reason =
      (((s.endingClaim h c state reason).releaseAllocation h).setLatch h (endLatch reason)).setOrder o := by
  simp only [State.endClaim, hc]
  exact ⟨_, rfl⟩

theorem endingClaim_rule {s : State} {h : Hall} {c : Claim} (hc : s.claim h = some c) (state : ClaimState)
    (reason : EndReason) : RecordsOf s (s.endingClaim h c state reason) h ∧
      (s.endingClaim h c state reason).claim h = some (c.ended s.now state reason) := by
  obtain ⟨u, hu⟩ : ∃ u, u = (s.updClaim h fun c => c.ended s.now state reason).removeUnit h := ⟨_, rfl⟩
  have hx : RecordsOf s u h := by
    rw [hu]
    exact (recordsOf_updClaim s h _).trans (recordsOf_removeUnit _ h)
  have hcl : u.claim h = some (c.ended s.now state reason) := by
    rw [hu]
    exact State.claim_updClaim_of hc _
  have hw : RecordsOf u (if c.state = .waiting then u.leaveWaitList h else u) h ∧
      (if c.state = .waiting then u.leaveWaitList h else u).claim h = u.claim h := by
    split
    · exact ⟨recordsOf_same h rfl rfl rfl rfl rfl, rfl⟩
    · exact ⟨recordsOf_same h rfl rfl rfl rfl rfl, rfl⟩
  unfold State.endingClaim
  rw [← hu]
  dsimp only
  split
  · exact ⟨(hx.trans hw.1).trans (recordsOf_same h (by simp) (by simp) (by simp) (by simp) (by simp)),
      by rw [← hcl, ← hw.2]; simp [State.claim]⟩
  · exact ⟨hx.trans hw.1, hw.2.trans hcl⟩

/-- A claim short of FIRING that ends leaves the law as it was (R17, R65). -/
theorem coreLaw_endClaim {s : State} {h : Hall} {c : Claim} (l : CoreLaw s) (hc : s.claim h = some c)
    (hs : c.state ≠ .firing) {state : ClaimState} (ht : state.terminal = true) (reason : EndReason) :
    CoreLaw (s.endClaim h state reason) := by
  have kept := (l.halls h).claim hc
  have hq : s.claimState h ≠ some .firing := by
    rw [State.claimState_of_claim hc]
    exact fun e => hs (Option.some.inj e)
  obtain ⟨o, he⟩ := State.endClaim_eq hc state reason
  obtain ⟨hx, hu⟩ := endingClaim_rule hc state reason
  have hh : c.HoldsAs (c.ended s.now state reason) := ⟨rfl, rfl, rfl, rfl, le_rfl⟩
  have hst : (c.ended s.now state reason).state = state := rfl
  generalize s.endingClaim h c state reason = u at *
  generalize c.ended s.now state reason = c1 at *
  have hl := (kept.held.of_cyls hx.cyls).holdsAs hh
  obtain ⟨r1, r2⟩ := releaseAllocation_rule hu fun k ha => (hl.owner k).1 ha
  obtain ⟨c2, e1, e2, e3, e4, e5, e6, e7, -⟩ := u.claim_releaseAllocation h c1 hu
  rw [he]
  have hlimit := hl.limit
  have hstore : (u.releaseAllocation h).store = s.store := by simp [hx.store]
  have hpulses : (u.releaseAllocation h).pulses = s.pulses := (State.pulses_of_circuits (by simp)).trans hx.pulses
  generalize u.releaseAllocation h = v at *
  refine CoreLaw.of_same (s := v) ?_ (.of_eq (by simp) (by simp) (by simp) (by simp) (State.pulses_of_circuits (by simp)))
  have hst2 : c2.state.terminal = true := by rw [e5, hst, ht]
  refine l.of_others_quiet (hx.others.trans r2) (.of_claim e1 (.of_idle (.of_released e2 e3 ?_ ?_ r1) (.of_empty e2 ?_ ?_ ?_ ?_) ?_
    ?_)) hq (by rw [hstore]) hpulses
  · rw [e4, e6]
  · rw [e7]
    omega
  all_goals
    revert hst2
    cases c2.state <;> simp [ClaimState.terminal, ClaimState.granted]

theorem ClaimState.shortOfFiring_ne {st : ClaimState} (h : st.shortOfFiring = true) : st ≠ .firing := by
  rintro rfl
  cases h

theorem coreLaw_lockHall {s : State} (l : CoreLaw s) (h : Hall) : CoreLaw (s.lockHall h) := by
  unfold State.lockHall
  split
  · rename_i c hc
    split
    · rename_i hs
      exact coreLaw_endClaim l hc (ClaimState.shortOfFiring_ne hs) rfl _
    · exact l
  · exact l

/-- The LOCKOUT leaves the law as it was (R68). -/
theorem coreLaw_lockout {s : State} (l : CoreLaw s) : CoreLaw s.lockout := by
  have hfold : ∀ (hs : List Hall) (u : State), CoreLaw u → CoreLaw (hs.foldl State.lockHall u) := by
    intro hs
    induction hs with
    | nil => exact fun _ hu => hu
    | cons h hs ih => exact fun u hu => ih _ (coreLaw_lockHall hu h)
  have hu := hfold allHalls s l
  rw [State.lockout_eq]
  generalize allHalls.foldl State.lockHall s = u at *
  exact hu.of_same (.of_eq rfl rfl rfl rfl rfl)

theorem coreLaw_abort {s : State} (l : CoreLaw s) (h : Hall) : CoreLaw (s.abort h).1 := by
  unfold State.abort
  split
  · exact l
  · rename_i c hc
    split
    · rename_i hs
      exact coreLaw_endClaim l hc (ClaimState.shortOfFiring_ne hs) rfl _
    · exact l

theorem coreLaw_release {s : State} (l : CoreLaw s) (h : Hall) (fields : Option (Basis × Bool)) :
    CoreLaw (s.release h fields).1 := by
  unfold State.release
  (repeat' split)
  all_goals dsimp only
  all_goals (try exact l)
  · rename_i hc
    exact coreLaw_openClaim l (.inl hc) _ _
  · rename_i c hc ht
    exact coreLaw_openClaim l (.inr ⟨c, hc, ht⟩) _ _
  · rename_i c hc ht hu
    simp only [isUpgrade, Bool.and_eq_true, Bool.or_eq_true, decide_eq_true_eq] at hu
    exact coreLaw_upgrade l hc hu.2

theorem coreLaw_setFaulted {s : State} (l : CoreLaw s) (h : Hall) (b : Bool) : CoreLaw (s.setFaulted h b) :=
  l.of_same (.of_eq rfl rfl rfl rfl rfl)

/-- A selector marked faulted, and its claim failed, leave the law as it was (R69). -/
theorem coreLaw_markFaulted {s : State} (l : CoreLaw s) (h : Hall) : CoreLaw (s.markFaulted h) := by
  have hend : ∀ st, (s.setFaulted h true).claimState h = some st → st ≠ .firing →
      CoreLaw ((s.setFaulted h true).endClaim h .failed .failedSelectorFault) := by
    intro st hst hne
    have hl := coreLaw_setFaulted l h true
    cases hc : (s.setFaulted h true).claim h with
    | none => simp [State.claimState, hc] at hst
    | some c =>
      rw [State.claimState_of_claim hc] at hst
      exact coreLaw_endClaim hl hc (Option.some.inj hst ▸ hne) rfl _
  unfold State.markFaulted
  split
  · exact l
  · dsimp only
    split
    · exact hend _ ‹_› (by simp)
    · exact hend _ ‹_› (by simp)
    · exact hend _ ‹_› (by simp)
    · exact hend _ ‹_› (by simp)
    · exact coreLaw_setFaulted l h true

end Sys2Proof.Machine
end


-- ==== Sys2Proof/Proofs/ClaimsLawFiring.lean ====
section
/-! PROOFS. The claims law through the Sequencer: lines fired and deferred, pulses completed, and the end of a discharge
(R91, R115 to R127). -/

namespace Sys2Proof.Machine

/-! ### CONFIRMING and the end DISCHARGED (R124, R126, R127) -/

/-- The discharge that has ended, before its grant ends (R127). -/
def State.dischargedClaim (s : State) (h : Hall) (reason : EndReason) : State :=
  let s1 := s.updClaim h fun c => { c with state := .discharged, endReason := some reason, endedAt := some s.now }
  let s2 := (s1.removeUnit h).setSwitchCapture .disarmed
  let s3 := if reason = .unconfirmed then s2.setLatch h .unconfirmed else s2
  let s4 := s3.setLatch h .discharged
  s4.setOrder (s4.order.filter fun j => j ≠ h)

theorem State.discharge_eq (s : State) (h : Hall) (reason : EndReason) :
    s.discharge h reason = (s.dischargedClaim h reason).endGrant h := State.maintPendingEnd_endGrant _ h

theorem recordsOf_endGrant (s : State) (h : Hall) : RecordsOf s (s.endGrant h) h :=
  recordsOf_same h (by simp) (by simp) (by simp) (by simp) (by simp)

theorem discharge_rule {s : State} {h : Hall} {c : Claim} (hc : s.claim h = some c) (reason : EndReason) :
    RecordsOf s (s.discharge h reason) h ∧ (s.discharge h reason).claim h =
      some { c with state := .discharged, endReason := some reason, endedAt := some s.now } := by
  rw [State.discharge_eq]
  obtain ⟨u, hu⟩ : ∃ u, u = (s.updClaim h fun c =>
    { c with state := .discharged, endReason := some reason, endedAt := some s.now }).removeUnit h := ⟨_, rfl⟩
  have hx : RecordsOf s u h := by
    rw [hu]
    exact (recordsOf_updClaim s h _).trans (recordsOf_removeUnit _ h)
  have hcl : u.claim h = some { c with state := .discharged, endReason := some reason, endedAt := some s.now } := by
    rw [hu]
    exact State.claim_updClaim_of hc _
  have hs : SameCore u (s.dischargedClaim h reason) ∧ (s.dischargedClaim h reason).units = u.units ∧
      (s.dischargedClaim h reason).store = u.store := by
    rw [hu]
    unfold State.dischargedClaim
    dsimp only
    split <;> exact ⟨.of_eq rfl rfl rfl rfl rfl, rfl, rfl⟩
  have hr := recordsOf_same h hs.1.claims hs.2.1 hs.1.cyls hs.2.2 hs.1.pulses
  refine ⟨(hx.trans hr).trans (recordsOf_endGrant _ h), ?_⟩
  rw [← hcl, ← hs.1.claim]
  simp [State.claim]

/-- A claim in FIRING or CONFIRMING that holds nothing goes on to CONFIRMING, or ends (R121, R124, R127). -/
theorem CoreLaw.leaveFiring {s t : State} {h : Hall} {c c' : Claim} (l : CoreLaw s) (x : RecordsOf s t h)
    (hc : s.claim h = some c) (hg : c.state = .firing ∨ c.state = .confirming) (hn : c.allocation = [])
    (hct : t.claim h = some c') (hh : c.HoldsAs c') (hf : c'.flags = c.flags)
    (hs : c'.state = .confirming ∨ c'.state = .discharged) : CoreLaw t := by
  have kept := (l.halls h).claim hc
  have hflag : c.flags.starved = false := by
    rw [← Bool.not_eq_true]
    intro e
    have := (kept.state.starved e).2.2
    rcases hg with g | g <;> rw [g] at this <;> cases this
  have hnone : ∀ k, s.assignedTo h k = false := fun k => by
    rw [← Bool.not_eq_true, kept.held.owner, hn]
    simp
  have hstate : c'.StateLaw := by
    refine .of_empty (hh.allocation.trans hn) ?_ ?_ (fun e => ?_) fun e => by rw [hf, hflag] at e; cases e
    · rcases hs with e | e <;> simp [e]
    · rcases hs with e | e <;> simp [e]
    · rcases hs with e' | e' <;> simp [e'] at e
  refine l.of_others x.others (.of_claim hct (.of_idle ((kept.held.of_cyls x.cyls).holdsAs hh) hstate ?_ ?_)) fun ch hp => ?_
  · rcases hs with e | e <;> simp [e]
  · rcases hs with e | e <;> simp [e]
  · rw [State.pulse_channel, x.pulses, ← State.pulse_channel] at hp
    obtain ⟨j, k, h1, h2, h3⟩ := l.pulses ch hp
    have hj : j ≠ h := by
      rintro rfl
      rw [hnone] at h2
      cases h2
    exact .inl ⟨j, k, hj, by rw [State.role, x.store]; exact h1, h2, h3⟩

theorem coreLaw_discharge {s : State} {h : Hall} {c : Claim} (l : CoreLaw s) (hc : s.claim h = some c)
    (hs : c.state = .confirming) (reason : EndReason) : CoreLaw (s.discharge h reason) := by
  have hn : c.allocation = [] := by
    by_contra hne
    have := ((l.halls h).claim hc).state.holding hne
    simp [hs] at this
  obtain ⟨hx, hcl⟩ := discharge_rule hc reason
  exact l.leaveFiring hx hc (.inr hs) hn hcl ⟨rfl, rfl, rfl, rfl, le_rfl⟩ rfl (.inr rfl)

/-- Entry to CONFIRMING of a claim in FIRING that holds nothing (R121, R124). -/
theorem coreLaw_enterConfirming {s : State} {h : Hall} {c : Claim} (l : CoreLaw s) (hc : s.claim h = some c)
    (hs : c.state = .firing) (hn : c.allocation = []) : CoreLaw (s.enterConfirming h) := by
  have hcl := State.claim_updClaim_of hc fun c => { c with state := .confirming }
  have hx := recordsOf_updClaim s h fun c => { c with state := .confirming }
  have h1 : CoreLaw (s.updClaim h fun c => { c with state := .confirming }) :=
    l.leaveFiring hx hc (.inl hs) hn hcl ⟨rfl, rfl, rfl, rfl, le_rfl⟩ rfl (.inl rfl)
  by_cases hd : c.dischargeSeenAt = none
  · rw [State.enterConfirming_unseen hc hd]
    exact l.leaveFiring (hx.trans (recordsOf_loadUnit _ h _ _)) hc (.inl hs) hn hcl ⟨rfl, rfl, rfl, rfl, le_rfl⟩ rfl (.inl rfl)
  · rw [State.enterConfirming_seen hc hd]
    exact coreLaw_discharge h1 hcl rfl _

/-! ### Schedules -/

/-- `sc'` has the lines of `sc`, cylinder by cylinder, and its cursor and pulses outstanding. -/
structure Schedule.SameLines (sc sc' : Schedule) : Prop where
  lines : sc'.lines.map (·.cyls) = sc.lines.map (·.cyls)
  cursor : sc'.cursor = sc.cursor
  outstanding : sc'.outstanding = sc.outstanding

theorem Schedule.SameLines.length {sc sc' : Schedule} (x : sc.SameLines sc') : sc'.lines.length = sc.lines.length := by
  have := congrArg List.length x.lines
  simpa using this

theorem ScheduleLaw.sameLines {s : State} {c : Claim} {sc sc' : Schedule} (l : ScheduleLaw s c sc) (x : sc.SameLines sc') :
    ScheduleLaw s c sc' := by
  have hmem : ∀ ls : List Line, ∀ k, (∃ l ∈ ls, k ∈ l.cyls) ↔ ∃ ks ∈ ls.map (·.cyls), k ∈ ks := fun ls k => by simp
  have hnd : ∀ ls : List Line, (∀ l ∈ ls, l.cyls.Nodup) ↔ ∀ ks ∈ ls.map (·.cyls), ks.Nodup := fun ls => by simp
  refine ⟨by rw [x.cursor, x.length]; exact l.cursor, ?_, fun e he => ?_, by rw [x.outstanding]; exact l.outstanding⟩
  · rw [hnd, x.lines, ← hnd]
    exact l.lines
  · rw [hmem, List.map_drop, x.lines, x.cursor, ← List.map_drop, ← hmem]
    exact l.ahead e he

theorem map_cyls_modify (ls : List Line) (i : Nat) {f : Line → Line} (hf : ∀ l, (f l).cyls = l.cyls) :
    (ls.modify i f).map (·.cyls) = ls.map (·.cyls) := by
  refine List.ext_getElem (by simp) fun n h1 h2 => ?_
  simp only [List.getElem_map, List.getElem_modify]
  split
  · exact hf _
  · rfl

theorem Schedule.sameLines_updLine (sc : Schedule) (i : Nat) {f : Line → Line} (hf : ∀ l, (f l).cyls = l.cyls) :
    sc.SameLines (sc.updLine i f) := ⟨map_cyls_modify sc.lines i hf, rfl, rfl⟩

/-- A claim that keeps its state, its flags, what it holds, and the lines of its schedule, keeps the law; a deferral stands
only with no pulse outstanding. -/
theorem CoreLaw.touch {s t : State} {h : Hall} {c c' : Claim} {f : Schedule → Schedule} (l : CoreLaw s) (x : RecordsOf s t h)
    (hc : s.claim h = some c) (hct : t.claim h = some c') (hh : c.HoldsAs c') (hs : c'.state = c.state)
    (hf : c'.flags = c.flags) (hsch : c'.schedule = c.schedule.map f) (hlines : ∀ sc : Schedule, sc.SameLines (f sc))
    (hu : (t.unit h).kind? = some .deferral →
      (s.unit h).kind? = some .deferral ∨ ∀ sc, c.schedule = some sc → sc.outstanding = 0) : CoreLaw t := by
  have kept := (l.halls h).claim hc
  have hrole : ∀ d, t.role d = s.role d := fun d => by rw [State.role, x.store, State.role]
  have hcyl : ∀ k, t.cyl k = s.cyl k := fun k => by rw [State.cyl, x.cyls, State.cyl]
  refine l.of_others x.others (.of_claim hct ⟨(kept.held.of_cyls x.cyls).holdsAs hh,
    kept.state.of_same hh.allocation hs hf, fun e => ?_, fun sc e hsc hk => ?_⟩) fun ch hp => ?_
  · obtain ⟨sc, e1, e2⟩ := kept.schedule (hs ▸ e)
    have e3 : ScheduleLaw t c' sc := e2.congr (by rw [hh.allocation]) (State.pulsing_congr hrole x.pulses)
    exact ⟨f sc, by rw [hsch, e1]; rfl, e3.sameLines (hlines sc)⟩
  · rw [hsch] at hsc
    obtain ⟨sc0, e1, e2⟩ := Option.map_eq_some_iff.1 hsc
    rw [← e2, (hlines sc0).outstanding]
    rcases hu hk with hk | hz
    · exact kept.deferral sc0 (hs ▸ e) e1 hk
    · exact hz sc0 e1
  · rw [State.pulse_channel, x.pulses, ← State.pulse_channel] at hp
    obtain ⟨j, k, h1, h2, h3⟩ := l.pulses ch hp
    by_cases hj : j = h
    · subst hj
      refine .inr ⟨k, (hrole ch).trans h1, (State.assignedTo_congr (hcyl k) j).trans h2, ?_⟩
      rw [State.claimState_of_claim hct, hs, ← State.claimState_of_claim hc, h3]
    · exact .inl ⟨j, k, hj, (hrole ch).trans h1, h2, h3⟩

theorem Schedule.SameLines.refl (sc : Schedule) : sc.SameLines sc := ⟨rfl, rfl, rfl⟩

/-- The discharge seen by the switch's capture (R125, R127). -/
theorem coreLaw_dischargeSeen {s : State} (l : CoreLaw s) (h : Hall) (t : Time) : CoreLaw (s.dischargeSeen h t) := by
  have hseen : ∀ c, s.claim h = some c → CoreLaw (s.updClaim h fun c => { c with dischargeSeenAt := some t }) := fun c hc =>
    l.touch (f := id) (recordsOf_updClaim s h _) hc (State.claim_updClaim_of hc _) ⟨rfl, rfl, rfl, rfl, le_rfl⟩ rfl rfl
      (by simp) Schedule.SameLines.refl .inl
  cases hc : s.claim h with
  | none =>
    have e : s.dischargeSeen h t = s := by simp [State.dischargeSeen, State.claimState, hc]
    rw [e]
    exact l
  | some c =>
    unfold State.dischargeSeen
    rw [State.claimState_of_claim hc]
    dsimp only
    split
    · exact hseen c hc
    · rename_i hs
      exact coreLaw_discharge (hseen c hc) (State.claim_updClaim_of hc _) (Option.some.inj hs) _
    · exact l

/-- A line deferred, with no pulse outstanding (R117). -/
theorem coreLaw_deferLine {s : State} {h : Hall} {c : Claim} (l : CoreLaw s) (hc : s.claim h = some c)
    (hz : ∀ sc, c.schedule = some sc → sc.outstanding = 0) : CoreLaw (s.deferLine h) := by
  unfold State.deferLine
  exact l.touch ((recordsOf_updClaim s h _).trans (recordsOf_loadUnit _ h _ _)) hc (State.claim_updSchedule hc _)
    ⟨rfl, rfl, rfl, rfl, le_rfl⟩ rfl rfl rfl (fun sc => sc.sameLines_updLine _ fun _ => rfl) fun _ => .inr hz

/-- A claim in FIRING of which no line is to come and no pulse is outstanding holds nothing (R121). -/
theorem ClaimKept.spent {s : State} {h : Hall} {c : Claim} {sc : Schedule} (k : ClaimKept s h c) (hs : c.state = .firing)
    (hsc : c.schedule = some sc) (hz : sc.outstanding = 0) (hl : ¬ sc.cursor < sc.lines.length) : c.allocation = [] := by
  obtain ⟨sc', e1, e2⟩ := k.schedule (.inr hs)
  obtain rfl : sc = sc' := Option.some.inj (hsc.symm.trans e1)
  have hnone := List.filter_eq_nil_iff.1 (List.length_eq_zero_iff.1 (e2.outstanding.symm.trans hz))
  refine List.eq_nil_iff_forall_not_mem.2 fun e he => ?_
  rcases e2.ahead e he with ⟨x, hx, -⟩ | hp
  · rw [List.drop_eq_nil_of_le (Nat.not_lt.1 hl)] at hx
    cases hx
  · exact hnone e he hp

/-- The completion of a line with no pulse outstanding (R121). -/
theorem coreLaw_lineCompletion {s : State} {h : Hall} {c : Claim} {sc : Schedule} (l : CoreLaw s) (hc : s.claim h = some c)
    (hs : c.state = .firing) (hsc : c.schedule = some sc) (hz : sc.outstanding = 0) : CoreLaw (s.lineCompletion h) := by
  have e : s.lineCompletion h = if sc.cursor < sc.lines.length then s else s.enterConfirming h := by
    simp only [State.lineCompletion, hc, Option.bind_some, hsc]
  rw [e]
  split
  · exact l
  · rename_i hl
    exact coreLaw_enterConfirming l hc hs (((l.halls h).claim hc).spent hs hsc hz hl)

/-- A pulse that has completed: from the law of the state in which it is counted (R121 to R124). -/
theorem coreLaw_finishPulse {s : State} {h : Hall} {c : Claim} {sc : Schedule} (l : CoreLaw (s.pulseCounted h))
    (hc : s.claim h = some c) (hs : c.state = .firing) (hsc : c.schedule = some sc) : CoreLaw (s.finishPulse h) := by
  have h1 := State.claim_pulseCounted hc
  have h2 := State.claim_lineDone hc
  rw [(State.finishPulse_cases hc).2 sc hsc]
  rw [hsc] at h1 h2
  split
  · exact l
  · rename_i ho
    have hdone : CoreLaw (s.lineDone h) :=
      l.touch (recordsOf_updClaim _ h _) h1 (State.claim_updSchedule h1 _) ⟨rfl, rfl, rfl, rfl, le_rfl⟩ rfl rfl rfl
        (fun sc => sc.sameLines_updLine _ fun _ => rfl) .inl
    have e : (s.lineDone h).lineCompletion h =
        if sc.cursor < sc.lines.length then s.lineDone h else (s.lineDone h).enterConfirming h := by
      simp only [State.lineCompletion, h2, Option.map_some, Option.bind_some, Schedule.handDone, Schedule.counted,
        Schedule.updLine, List.length_modify]
    rw [← e]
    refine coreLaw_lineCompletion hdone h2 hs rfl ?_
    have : sc.outstanding - 1 = 0 := by omega
    exact this

end Sys2Proof.Machine
end


-- ==== Sys2Proof/Proofs/ClaimsLawPulses.lean ====
section
/-! PROOFS. The claims law through the lines fired, the pulses that complete, and the replacements of what is lost in FIRING
(R19 to R21, R91, R115 to R123, R151). -/

namespace Sys2Proof.Machine

/-! ### Channels and pulses -/

/-- Every fitted cylinder has one release channel, as a valid image says (R179, section 10.4). -/
def State.OneChannel (s : State) : Prop :=
  ∀ k y, s.cyl k = some y → ∃ c, s.role c = .cylinder k ∧ ∀ d, s.role d = .cylinder k → d = c

theorem pulse_firePulse (s : State) (k : CylIdx) (c : ChanIdx) : ((s.firePulse k).channel c).pulse =
    if s.role c = .cylinder k then some s.now else (s.channel c).pulse := by
  unfold State.firePulse
  rw [State.channel_redrive]
  simp only [State.channel, Fin.getElem_fin, getElem_tabulate]
  split <;> rfl

/-- The pulses in progress once the pulses of some cylinders have begun (R151). -/
theorem pulse_firePulses (ks : List CylIdx) (s : State) (c : ChanIdx) : ((ks.foldl State.firePulse s).channel c).pulse =
    if ∃ k ∈ ks, s.role c = .cylinder k then some s.now else (s.channel c).pulse := by
  induction ks generalizing s with
  | nil => simp
  | cons k ks ih =>
    have hr : (s.firePulse k).role c = s.role c := rfl
    have hn : (s.firePulse k).now = s.now := rfl
    rw [List.foldl_cons, ih, hr, hn, pulse_firePulse]
    by_cases h1 : s.role c = .cylinder k
    · simp [h1]
    · simp [h1]

/-- A cylinder is being pulsed once its pulse has begun, or was in progress. -/
theorem pulsing_firePulses {s : State} {ks : List CylIdx} {k : CylIdx} :
    (ks.foldl State.firePulse s).pulsing k = true ↔
      s.pulsing k = true ∨ k ∈ ks ∧ ∃ c, s.role c = .cylinder k := by
  simp only [State.pulsing_iff, pulse_firePulses]
  have hr : ∀ c, (ks.foldl State.firePulse s).role c = s.role c := fun c => by simp [State.role]
  constructor
  · rintro ⟨c, h1, h2⟩
    rw [hr] at h1
    split at h2
    · rename_i hx
      obtain ⟨i, hi, e⟩ := hx
      obtain rfl : k = i := Role.cylinder.inj (h1.symm.trans e)
      exact .inr ⟨hi, c, h1⟩
    · exact .inl ⟨c, h1, h2⟩
  · rintro (⟨c, h1, h2⟩ | ⟨hk, c, h1⟩)
    · refine ⟨c, (hr c).trans h1, ?_⟩
      split
      · rfl
      · exact h2
    · exact ⟨c, (hr c).trans h1, by rw [if_pos ⟨k, hk, h1⟩]; rfl⟩

/-! ### Counting what is held -/

theorem length_filter_cyl {es : List Entry} {P : CylIdx → Bool} :
    (es.filter fun e => P e.cyl).length = ((es.map (·.cyl)).filter P).length := by
  rw [List.filter_map, List.length_map]
  rfl

/-- The members of a list without repetitions, counted in another that holds them. -/
theorem length_filter_mem {ks js : List CylIdx} (hk : ks.Nodup) (hj : js.Nodup) (hs : ∀ k ∈ ks, k ∈ js) :
    (js.filter fun k => k ∈ ks).length = ks.length := by
  refine ((List.perm_ext_iff_of_nodup (hj.filter _) hk).2 fun k => ?_).length_eq
  simp only [List.mem_filter, decide_eq_true_eq, and_iff_right_iff_imp]
  exact hs k

/-- An entry that leaves, of a cylinder that does not count, leaves the count. -/
theorem length_filter_drop_of_false {es : List Entry} {k : CylIdx} {P Q : CylIdx → Bool} (hPQ : ∀ i, i ≠ k → P i = Q i)
    (hk : Q k = false) :
    ((es.filter fun e => e.cyl ≠ k).filter fun e => P e.cyl).length = (es.filter fun e => Q e.cyl).length := by
  rw [List.filter_filter]
  refine congrArg List.length (List.filter_congr fun e _ => ?_)
  by_cases he : e.cyl = k
  · simp [he, hk]
  · simp [he, hPQ _ he]

/-- An entry that leaves, of a cylinder that counts, lowers the count by one. -/
theorem length_filter_drop_of_true {es : List Entry} {k : CylIdx} {P Q : CylIdx → Bool} (hn : (es.map (·.cyl)).Nodup)
    (hm : k ∈ es.map (·.cyl)) (hPQ : ∀ i, i ≠ k → P i = Q i) (hk : Q k = true) :
    ((es.filter fun e => e.cyl ≠ k).filter fun e => P e.cyl).length + 1 = (es.filter fun e => Q e.cyl).length := by
  have h1 := List.length_eq_length_filter_add (l := es.filter fun e => Q e.cyl) fun e => decide (e.cyl = k)
  have h2 : ((es.filter fun e => Q e.cyl).filter fun e => decide (e.cyl = k)).length = 1 := by
    have e : ((es.filter fun e => Q e.cyl).filter fun e => decide (e.cyl = k)) = es.filter fun e => (fun i => i == k) e.cyl := by
      rw [List.filter_filter]
      refine List.filter_congr fun e _ => ?_
      by_cases he : e.cyl = k <;> simp [he, hk]
    rw [e, length_filter_cyl (P := fun i => i == k), ← List.countP_eq_length_filter]
    exact List.count_eq_one_of_mem hn hm
  have h3 : ((es.filter fun e => e.cyl ≠ k).filter fun e => P e.cyl) =
      (es.filter fun e => Q e.cyl).filter fun e => !decide (e.cyl = k) := by
    rw [List.filter_filter, List.filter_filter]
    refine List.filter_congr fun e _ => ?_
    by_cases he : e.cyl = k
    · simp [he]
    · simp [he, hPQ _ he]
  rw [h3]
  omega

/-! ### A line fired (R116) -/

/-- The schedule once its next line has been fired, with the pulses `pulsed` begun (R116). -/
def Schedule.firedLine (sc : Schedule) (now : Time) (pulsed : List CylIdx) : Schedule :=
  { (sc.updLine sc.cursor fun l =>
      { l with time := some now, pulsed := pulsed, status := if pulsed.isEmpty then .done else .pulsing }) with
    cursor := sc.cursor + 1, outstanding := pulsed.length }

/-- The cylinders of a line that are pulsed when it is fired: those that hall `h` still has (R116). -/
def State.pulsedOf (s : State) (h : Hall) (line : Line) : List CylIdx := line.cyls.filter (s.assignedTo h)

/-- The state in which hall `h`'s next line has been fired, before the completion of a line that pulses nothing (R116). -/
def State.lineFired (s : State) (h : Hall) (pulsed : List CylIdx) : State :=
  ((pulsed.foldl State.firePulse s).updSchedule h fun sc => sc.firedLine s.now pulsed).loadUnit h
    (s.now + ms s.timing.lineInterval) .nextLine

theorem State.fireLine_eq {s : State} {h : Hall} {c : Claim} {sc : Schedule} {line : Line} (hc : s.claim h = some c)
    (hsc : c.schedule = some sc) (hl : sc.lines[sc.cursor]? = some line) :
    s.fireLine h = if (s.pulsedOf h line).isEmpty then (s.lineFired h (s.pulsedOf h line)).lineCompletion h
      else s.lineFired h (s.pulsedOf h line) := by
  have hn : ∀ ks : List CylIdx, (ks.foldl State.firePulse s).now = s.now := fun ks => by simp
  have ht : ∀ ks : List CylIdx, (ks.foldl State.firePulse s).timing = s.timing := fun ks => by simp [State.timing]
  simp only [State.fireLine, hc, Option.bind_some, hsc, hl]
  rfl

/-- What the firing of a line leaves to the other halls, and of hall `h` (R116). -/
theorem lineFired_rule {s : State} {h : Hall} {pulsed : List CylIdx} (hp : ∀ k ∈ pulsed, s.assignedTo h k = true) :
    OtherHalls s (s.lineFired h pulsed) h ∧ (s.lineFired h pulsed).cyls = s.cyls ∧
      (∀ c, (s.lineFired h pulsed).role c = s.role c) ∧ ((s.lineFired h pulsed).unit h).kind? ≠ some .deferral ∧
      (∀ c, s.claim h = some c → (s.lineFired h pulsed).claim h =
        some { c with schedule := c.schedule.map fun sc => sc.firedLine s.now pulsed }) ∧
      ∀ c, ((s.lineFired h pulsed).channel c).pulse =
        if ∃ k ∈ pulsed, s.role c = .cylinder k then some s.now else (s.channel c).pulse := by
  obtain ⟨u, hu⟩ : ∃ u, u = pulsed.foldl State.firePulse s := ⟨_, rfl⟩
  have hclaims : u.claims = s.claims := by rw [hu]; simp
  have hunits : u.units = s.units := by rw [hu]; simp
  have hcyls : u.cyls = s.cyls := by rw [hu]; simp
  have hstore : u.store = s.store := by rw [hu]; simp
  have hx : RecordsOf u (s.lineFired h pulsed) h := by
    unfold State.lineFired
    rw [← hu]
    exact (recordsOf_updClaim u h _).trans (recordsOf_loadUnit _ h _ _)
  have hcl : ∀ j, u.claim j = s.claim j := fun j => by rw [State.claim, hclaims, State.claim]
  have hcyl : ∀ k, u.cyl k = s.cyl k := fun k => by rw [State.cyl, hcyls, State.cyl]
  have hroles : ∀ c, u.role c = s.role c := fun c => by rw [State.role, hstore, State.role]
  have h1 : OtherHalls s u h := by
    refine ⟨fun j _ => hcl j, fun j _ => by rw [State.unit_of_units hunits], fun j _ k => State.assignedTo_congr (hcyl k) j,
      fun _ _ k _ => by rw [hcyl], fun j hj k hk => ?_⟩
    rw [Bool.eq_iff_iff, hu, pulsing_firePulses]
    refine or_iff_left ?_
    rintro ⟨hm, -⟩
    exact hj (State.assignedTo_unique (hp k hm) hk)
  refine ⟨h1.trans hx.others, hx.cyls.trans hcyls, fun c => ?_, ?_, fun c hc => ?_, fun c => ?_⟩
  · rw [State.role, hx.store]
    exact hroles c
  · have e : (s.lineFired h pulsed).unit h = .load u.now (s.now + ms s.timing.lineInterval) .nextLine := by
      unfold State.lineFired
      rw [State.unit_loadUnit_self, ← hu]
      rfl
    rw [e]
    simp only [CompareUnit.load, CompareUnit.settle]
    split <;> simp [CompareUnit.kind?]
  · have e : (s.lineFired h pulsed).claim h = (u.updSchedule h fun sc => sc.firedLine s.now pulsed).claim h := by
      rw [hu]
      rfl
    rw [e]
    exact State.claim_updSchedule ((hcl h).trans hc) _
  · rw [State.pulse_channel, hx.pulses, ← State.pulse_channel, hu]
    exact pulse_firePulses pulsed s c

/-- With no pulse outstanding, nothing that the claim holds is being pulsed (R121). -/
theorem ScheduleLaw.not_pulsing {s : State} {c : Claim} {sc : Schedule} (l : ScheduleLaw s c sc) (hz : sc.outstanding = 0) :
    ∀ e ∈ c.allocation, s.pulsing e.cyl = false := by
  have hnone := List.filter_eq_nil_iff.1 (List.length_eq_zero_iff.1 (l.outstanding.symm.trans hz))
  exact fun e he => by simpa using hnone e he

theorem State.OneChannel.exists_channel {s : State} {h : Hall} {k : CylIdx} (o : s.OneChannel)
    (ha : s.assignedTo h k = true) : ∃ c, s.role c = .cylinder k ∧ ∀ d, s.role d = .cylinder k → d = c := by
  cases hk : s.cyl k with
  | none => simp [State.assignedTo, hk] at ha
  | some y => exact o k y hk

/-- What of an allocation is being pulsed once a line has been fired: what that line pulses (R116). -/
theorem pulsing_lineFired {s : State} {h : Hall} {c : Claim} {pulsed : List CylIdx} (o : s.OneChannel)
    (hl : HeldLaw s h c) (hq : ∀ e ∈ c.allocation, s.pulsing e.cyl = false) (hp : ∀ k ∈ pulsed, s.assignedTo h k = true) :
    ∀ e ∈ c.allocation, (s.lineFired h pulsed).pulsing e.cyl = decide (e.cyl ∈ pulsed) := by
  obtain ⟨-, -, hrole, -, -, hpulse⟩ := lineFired_rule hp
  intro e he
  have hiff : (s.lineFired h pulsed).pulsing e.cyl = true ↔ (pulsed.foldl State.firePulse s).pulsing e.cyl = true := by
    simp only [State.pulsing_iff, hrole, hpulse, pulse_firePulses]
    simp [State.role]
  rw [Bool.eq_iff_iff, hiff, pulsing_firePulses, hq e he, decide_eq_true_eq]
  simp only [Bool.false_eq_true, false_or, and_iff_left_iff_imp]
  intro _
  obtain ⟨d, hd, -⟩ := o.exists_channel ((hl.owner e.cyl).2 ⟨e, he, rfl⟩)
  exact ⟨d, hd⟩

/-- The schedule of a line fired keeps its law (R116, R121). -/
theorem scheduleLaw_firedLine {s : State} {h : Hall} {c c' : Claim} {sc : Schedule} {line : Line} (o : s.OneChannel)
    (hl : HeldLaw s h c) (l : ScheduleLaw s c sc) (hz : sc.outstanding = 0) (hline : sc.lines[sc.cursor]? = some line)
    (ha : c'.allocation = c.allocation) (now : Time) :
    ScheduleLaw (s.lineFired h (s.pulsedOf h line)) c' (sc.firedLine now (s.pulsedOf h line)) := by
  have hq := l.not_pulsing hz
  have hp : ∀ k ∈ s.pulsedOf h line, s.assignedTo h k = true := fun k hk => (List.mem_filter.1 hk).2
  have hpulsing := pulsing_lineFired o hl hq hp
  obtain ⟨hlt, hget⟩ := List.getElem?_eq_some_iff.1 hline
  have hnodup : (s.pulsedOf h line).Nodup := (l.lines line (hget ▸ List.getElem_mem hlt)).filter _
  have hsame := sc.sameLines_updLine sc.cursor (f := fun l =>
    { l with time := some now, pulsed := s.pulsedOf h line
             status := if (s.pulsedOf h line).isEmpty then .done else .pulsing }) fun _ => rfl
  have hlines : (sc.firedLine now (s.pulsedOf h line)).lines.map (·.cyls) = sc.lines.map (·.cyls) := hsame.lines
  refine ⟨?_, ?_, fun e he => ?_, ?_⟩
  · have : (sc.firedLine now (s.pulsedOf h line)).lines.length = sc.lines.length := hsame.length
    rw [this]
    exact hlt
  · intro x hx
    have hm : x.cyls ∈ sc.lines.map (·.cyls) := hlines ▸ List.mem_map_of_mem hx
    obtain ⟨y, hy, e⟩ := List.mem_map.1 hm
    rw [← e]
    exact l.lines y hy
  · rw [ha] at he
    rw [hpulsing e he]
    obtain ⟨x, hx, hex⟩ := (l.ahead e he).resolve_right (by simp [hq e he])
    rw [List.drop_eq_getElem_cons hlt, List.mem_cons] at hx
    rcases hx with hx | hx
    · refine .inr ?_
      rw [decide_eq_true_eq]
      rw [hx, hget] at hex
      exact List.mem_filter.2 ⟨hex, (hl.owner e.cyl).2 ⟨e, he, rfl⟩⟩
    · have hm : x.cyls ∈ ((sc.firedLine now (s.pulsedOf h line)).lines.drop (sc.cursor + 1)).map (·.cyls) := by
        rw [List.map_drop, hlines, ← List.map_drop]
        exact List.mem_map_of_mem hx
      obtain ⟨y, hy, e⟩ := List.mem_map.1 hm
      exact .inl ⟨y, hy, e ▸ hex⟩
  · have hcount : (c.allocation.filter fun e => (s.lineFired h (s.pulsedOf h line)).pulsing e.cyl).length =
        (c.allocation.filter fun e => (fun k => decide (k ∈ s.pulsedOf h line)) e.cyl).length :=
      congrArg List.length (List.filter_congr hpulsing)
    rw [ha, hcount, length_filter_cyl (P := fun k => decide (k ∈ s.pulsedOf h line)),
      length_filter_mem hnodup hl.once fun k hk => ?_]
    · rfl
    · obtain ⟨e, he, hek⟩ := (hl.owner k).1 (hp k hk)
      exact hek ▸ List.mem_map_of_mem he

/-- The law after a change for a claim that is in FIRING after it. -/
theorem CoreLaw.of_firing {s t : State} {h : Hall} {c' : Claim} {sc' : Schedule} (l : CoreLaw s) (x : OtherHalls s t h)
    (hct : t.claim h = some c') (hl : HeldLaw t h c') (hs : c'.state = .firing) (hf : c'.flags.starved = false)
    (hsc : c'.schedule = some sc') (hlaw : ScheduleLaw t c' sc')
    (hdef : (t.unit h).kind? = some .deferral → sc'.outstanding = 0) (hr : ∀ d, t.role d = s.role d)
    (hp : ∀ ch, (t.channel ch).pulse.isSome = true → (∃ k, s.role ch = .cylinder k ∧ t.assignedTo h k = true) ∨
      (s.channel ch).pulse.isSome = true ∧ ∀ k, s.role ch = .cylinder k → s.assignedTo h k = true → t.assignedTo h k = true) :
    CoreLaw t := by
  have hstate : c'.StateLaw :=
    ⟨fun _ => by simp [hs], fun e => by simp [hf] at e, fun e => by simp [hs] at e, fun e => by simp [hs] at e⟩
  refine l.of_others x (.of_claim hct ⟨hl, hstate, fun _ => ⟨sc', hsc, hlaw⟩, fun sc _ e hk => ?_⟩) fun ch he => ?_
  · obtain rfl : sc' = sc := Option.some.inj (hsc.symm.trans e)
    exact hdef hk
  · have hfire : t.claimState h = some .firing := by rw [State.claimState_of_claim hct, hs]
    rcases hp ch he with ⟨k, h1, h2⟩ | ⟨h1, h2⟩
    · exact .inr ⟨k, (hr ch).trans h1, h2, hfire⟩
    · obtain ⟨j, k, e1, e2, e3⟩ := l.pulses ch h1
      by_cases hj : j = h
      · subst hj
        exact .inr ⟨k, (hr ch).trans e1, h2 k e1 e2, hfire⟩
      · exact .inl ⟨j, k, hj, (hr ch).trans e1, e2, e3⟩

/-- A claim in FIRING is not STARVED-flagged (R54). -/
theorem Claim.StateLaw.not_starved_of_firing {c : Claim} (l : c.StateLaw) (hs : c.state = .firing) :
    c.flags.starved = false := by
  rw [← Bool.not_eq_true]
  intro e
  have := (l.starved e).2.2
  rw [hs] at this
  cases this

/-- A line fired, with no pulse outstanding, leaves the law as it was (R116). -/
theorem coreLaw_fireLine {s : State} {h : Hall} {c : Claim} {sc : Schedule} (l : CoreLaw s) (o : s.OneChannel)
    (hc : s.claim h = some c) (hs : c.state = .firing) (hsc : c.schedule = some sc) (hz : sc.outstanding = 0) :
    CoreLaw (s.fireLine h) := by
  cases hline : sc.lines[sc.cursor]? with
  | none =>
    have e : s.fireLine h = s := by simp [State.fireLine, hc, hsc, hline]
    rw [e]
    exact l
  | some line =>
    have kept := (l.halls h).claim hc
    obtain ⟨sc', e1, e2⟩ := kept.schedule (.inr hs)
    obtain rfl : sc = sc' := Option.some.inj (hsc.symm.trans e1)
    have hp : ∀ k ∈ s.pulsedOf h line, s.assignedTo h k = true := fun k hk => (List.mem_filter.1 hk).2
    obtain ⟨r1, r2, r3, r4, r5, r6⟩ := lineFired_rule hp
    have hcl := r5 c hc
    rw [hsc] at hcl
    have hlaw := scheduleLaw_firedLine (c' := { c with schedule := some (sc.firedLine s.now (s.pulsedOf h line)) }) o
      kept.held e2 hz hline rfl s.now
    rw [State.fireLine_eq hc hsc hline]
    have hcyl : ∀ k, (s.lineFired h (s.pulsedOf h line)).assignedTo h k = s.assignedTo h k := fun k =>
      State.assignedTo_congr (by rw [State.cyl, r2, State.cyl]) h
    have hcore : CoreLaw (s.lineFired h (s.pulsedOf h line)) := by
      refine l.of_firing r1 hcl (HeldLaw.holdsAs (kept.held.of_cyls r2) ⟨rfl, rfl, rfl, rfl, le_rfl⟩) hs
        (kept.state.not_starved_of_firing hs) rfl hlaw (fun e => absurd e r4) r3 fun ch hch => ?_
      rw [r6] at hch
      split at hch
      · rename_i hx
        obtain ⟨k, hk, hrole⟩ := hx
        exact .inl ⟨k, hrole, (hcyl k).trans (hp k hk)⟩
      · exact .inr ⟨hch, fun k _ hk => (hcyl k).trans hk⟩
    split
    · rename_i he
      refine coreLaw_lineCompletion hcore hcl hs rfl ?_
      exact congrArg List.length (List.isEmpty_iff.1 he)
    · exact hcore

theorem State.OneChannel.congr {s t : State} (o : s.OneChannel) (hc : ∀ k, (t.cyl k).isSome = (s.cyl k).isSome)
    (hr : ∀ d, t.role d = s.role d) : t.OneChannel := by
  intro k y hy
  have hs : (s.cyl k).isSome = true := by rw [← hc, hy]; rfl
  obtain ⟨y', hy'⟩ := Option.isSome_iff_exists.1 hs
  obtain ⟨c, h1, h2⟩ := o k y' hy'
  exact ⟨c, (hr c).trans h1, fun d hd => h2 d ((hr d).symm.trans hd)⟩

theorem State.OneChannel.of_eq {s t : State} (o : s.OneChannel) (hc : t.cyls = s.cyls) (hs : t.store = s.store) :
    t.OneChannel :=
  o.congr (fun k => by rw [State.cyl, hc, State.cyl]) fun d => by rw [State.role, hs, State.role]

/-- The grant holder's discharge begins (R100, R115). -/
theorem coreLaw_beginDischarge {s : State} {h : Hall} {c : Claim} (l : CoreLaw s) (o : s.OneChannel)
    (hc : s.claim h = some c) (hs : c.state = .selecting) (t : Time) : CoreLaw (s.beginDischarge h t) := by
  have kept := (l.halls h).claim hc
  obtain ⟨sc, e1, e2⟩ := kept.schedule (.inl hs)
  have hq : s.claimState h ≠ some .firing := by
    rw [State.claimState_of_claim hc, hs]
    simp
  have hz : sc.outstanding = 0 := ((scheduleLaw_iff_unfired ((l.quietFor hq).held kept.held)).1 e2).outstanding
  obtain ⟨u, hu⟩ : ∃ u, u = (((s.updClaim h fun c =>
      { c with selectorOpenAt := some t, state := .firing, dischargeSeenAt := none }).removeUnit h).setManifold
        { s.manifold with state := .discharging }).setSwitchCapture .armed := ⟨_, rfl⟩
  have hx : RecordsOf s u h := by
    rw [hu]
    exact ((recordsOf_updClaim s h _).trans (recordsOf_removeUnit _ h)).trans (recordsOf_same h rfl rfl rfl rfl rfl)
  have hcl : u.claim h = some { c with selectorOpenAt := some t, state := .firing, dischargeSeenAt := none } := by
    rw [hu]
    exact State.claim_updClaim_of hc _
  have hun : u.unit h = .inhibited := by
    rw [hu]
    exact State.unit_removeUnit_self _ h
  have e : s.beginDischarge h t = u.fireLine h := by rw [hu]; rfl
  have hrole : ∀ d, u.role d = s.role d := fun d => by rw [State.role, hx.store, State.role]
  have hcore : CoreLaw u := by
    refine l.of_firing hx.others hcl (HeldLaw.holdsAs (kept.held.of_cyls hx.cyls) ⟨rfl, rfl, rfl, rfl, le_rfl⟩) rfl
      (kept.state.not_starved (kept.state.supplied (.inr hs))) e1 (e2.congr rfl (State.pulsing_congr hrole hx.pulses))
      (fun e => by rw [hun] at e; cases e) hrole fun ch hch => .inr ⟨?_, fun k _ hk => ?_⟩
    · rw [State.pulse_channel, hx.pulses, ← State.pulse_channel] at hch
      exact hch
    · exact (State.assignedTo_congr (by rw [State.cyl, hx.cyls, State.cyl]) h).trans hk
  rw [e]
  exact coreLaw_fireLine hcore (o.of_eq hx.cyls hx.store) hcl rfl e1 hz

/-- The next line deadline of a claim of which no pulse is outstanding (R117). -/
theorem coreLaw_lineTime {s : State} {h : Hall} {c : Claim} (l : CoreLaw s) (o : s.OneChannel) (hc : s.claim h = some c)
    (hs : c.state = .firing) (hz : s.pulsesOutstanding h = false) : CoreLaw (s.lineTime h) := by
  have hz' : ∀ sc, c.schedule = some sc → sc.outstanding = 0 := fun sc hsc => by
    simpa [State.pulsesOutstanding, hc, hsc] using hz
  obtain ⟨sc, e1, -⟩ := ((l.halls h).claim hc).schedule (.inr hs)
  unfold State.lineTime
  split
  · exact coreLaw_fireLine l o hc hs e1 (hz' sc e1)
  · exact coreLaw_deferLine l hc hz'

/-- A deferred line fired by an edge to OPEN (R119). -/
theorem coreLaw_sequencerEdge {s : State} (l : CoreLaw s) (h : Hall)
    (o : s.claimState h = some .firing → s.OneChannel) (v : Valve) : CoreLaw (s.sequencerEdge h v) := by
  unfold State.sequencerEdge
  split
  · rename_i hx
    obtain ⟨-, -, hs, hk⟩ := hx
    cases hc : s.claim h with
    | none => simp [State.claimState, hc] at hs
    | some c =>
      have ho := o hs
      rw [State.claimState_of_claim hc] at hs
      have hs := Option.some.inj hs
      have kept := (l.halls h).claim hc
      obtain ⟨sc, e1, -⟩ := kept.schedule (.inr hs)
      exact coreLaw_fireLine l ho hc hs e1 (kept.deferral sc hs e1 hk)
  · exact l

/-- The unfired lines abandoned, with no pulse outstanding (R120). -/
theorem coreLaw_abandon {s : State} {h : Hall} {c : Claim} {sc : Schedule} (l : CoreLaw s) (hc : s.claim h = some c)
    (hs : c.state = .firing) (hsc : c.schedule = some sc) (hz : sc.outstanding = 0) : CoreLaw (s.abandon h) := by
  have kept := (l.halls h).claim hc
  obtain ⟨sc', e1, e2⟩ := kept.schedule (.inr hs)
  obtain rfl : sc = sc' := Option.some.inj (hsc.symm.trans e1)
  obtain ⟨u, hu⟩ : ∃ u, u = s.updSchedule h Schedule.abandoned := ⟨_, rfl⟩
  have hcu : u.claim h = some { c with schedule := some sc.abandoned } := by
    rw [hu, State.claim_updSchedule hc, hsc]
    rfl
  have hx : RecordsOf s u h := by rw [hu]; exact recordsOf_updClaim s h _
  have hl : HeldLaw u h { c with schedule := some sc.abandoned } :=
    HeldLaw.holdsAs (kept.held.of_cyls hx.cyls) ⟨rfl, rfl, rfl, rfl, le_rfl⟩
  obtain ⟨r1, r2⟩ := releaseAllocation_rule hcu fun k ha => (hl.owner k).1 ha
  have hcr := State.claim_releaseAllocation_of_live hcu (by rw [hs]; rfl)
  have hstore : (u.releaseAllocation h).store = s.store := by simp [hx.store]
  have hpulses : (u.releaseAllocation h).pulses = s.pulses := (State.pulses_of_circuits (by simp)).trans hx.pulses
  have hunit : (u.releaseAllocation h).unit h = s.unit h := by
    rw [State.unit_of_units (s := u) (by simp), hu]
    rfl
  obtain ⟨v, hv⟩ : ∃ v, v = u.releaseAllocation h := ⟨_, rfl⟩
  rw [← hv] at r1 r2 hcr hstore hpulses hunit
  have hab : s.abandonedClaim h = (v.updClaim h fun c => { c with flags := { c.flags with part := true } }).setLatch h .part := by
    rw [hv, hu]
    rfl
  have hx2 : RecordsOf v (s.abandonedClaim h) h := by
    rw [hab]
    exact (recordsOf_updClaim v h _).trans (recordsOf_same h rfl rfl rfl rfl rfl)
  have hcl : (s.abandonedClaim h).claim h = some (c.abandoned sc) := by
    rw [hab]
    exact State.claim_updClaim_of hcr _
  have hnone : ∀ k, (s.abandonedClaim h).assignedTo h k = false := fun k =>
    (State.assignedTo_congr (by rw [State.cyl, hx2.cyls, State.cyl]) h).trans (r1 k)
  have hst : (s.abandonedClaim h).store = s.store := hx2.store.trans hstore
  have hpu : (s.abandonedClaim h).pulses = s.pulses := hx2.pulses.trans hpulses
  have ho : OtherHalls s (s.abandonedClaim h) h := (hx.others.trans r2).trans hx2.others
  have hhlaw : HeldLaw (s.abandonedClaim h) h (c.abandoned sc) :=
    .of_released rfl rfl rfl (Nat.le_of_add_left_le kept.held.limit) hnone
  have hquiet := e2.not_pulsing hz
  have hcore : CoreLaw (s.abandonedClaim h) := by
    refine l.of_firing (sc' := sc.abandoned) ho hcl hhlaw hs (kept.state.not_starved_of_firing hs) rfl ?_ (fun _ => hz)
      (fun d => by rw [State.role, hst, State.role]) fun ch hch => .inr ?_
    · have hsame : sc.SameLines sc.abandoned := by
        refine ⟨?_, rfl, rfl⟩
        simp only [Schedule.abandoned, List.map_append, List.map_map]
        have e : ((fun x : Line => x.cyls) ∘ fun l : Line => { l with status := .abandoned }) = fun x : Line => x.cyls := rfl
        rw [e, ← List.map_append, List.take_append_drop]
      have hempty : ScheduleLaw (s.abandonedClaim h) (c.abandoned sc) sc :=
        ⟨e2.cursor, e2.lines, nofun, hz⟩
      exact hempty.sameLines hsame
    · rw [State.pulse_channel, hpu, ← State.pulse_channel] at hch
      refine ⟨hch, fun k hr hk => ?_⟩
      obtain ⟨e, he, rfl⟩ := (kept.held.owner k).1 hk
      have hp : s.pulsing e.cyl = true := (s.pulsing_iff e.cyl).2 ⟨ch, hr, hch⟩
      rw [hquiet e he] at hp
      cases hp
  rw [State.abandon_eq]
  exact coreLaw_enterConfirming hcore hcl hs rfl

end Sys2Proof.Machine
end


-- ==== Sys2Proof/Proofs/ClaimsLawCompletions.lean ====
section
/-! PROOFS. The claims law through cylinders lost in FIRING, pulses that complete, and supervision checks (R19 to R22, R91,
R121 to R123, R151 to R156). -/

namespace Sys2Proof.Machine

/-! ### A cylinder that a claim in FIRING loses (R19 to R21, R91) -/

/-- `t` is `s` with cylinder `k`, which hall `h` had, taken out of use, and with no pulse of it in progress. -/
structure OutOfUse (s t : State) (h : Hall) (k : CylIdx) : Prop where
  owned : s.assignedTo h k = true
  cyls : ∀ j, j ≠ k → t.cyl j = s.cyl j
  lost : ∀ j, t.assignedTo j k = false
  claims : t.claims = s.claims
  units : t.units = s.units
  store : t.store = s.store
  fewer : ∀ ch, (t.channel ch).pulse.isSome = true → (s.channel ch).pulse.isSome = true
  pulsing : ∀ j, j ≠ k → t.pulsing j = s.pulsing j
  quiet : t.pulsing k = false

theorem OutOfUse.claim {s t : State} {h : Hall} {k : CylIdx} (x : OutOfUse s t h k) (j : Hall) : t.claim j = s.claim j := by
  rw [State.claim, x.claims, State.claim]

theorem OutOfUse.others {s t : State} {h : Hall} {k : CylIdx} (x : OutOfUse s t h k) : OtherHalls s t h := by
  have hne : ∀ j, j ≠ h → ∀ i, s.assignedTo j i = true → i ≠ k := fun j hj i ha e =>
    hj (State.assignedTo_unique x.owned (e ▸ ha))
  refine ⟨fun j _ => x.claim j, fun j _ => by rw [State.unit_of_units x.units], fun j hj i => ?_, fun j hj i hi => ?_,
    fun j hj i hi => x.pulsing i (hne j hj i hi)⟩
  · by_cases hik : i = k
    · rw [hik, x.lost, eq_comm, ← Bool.not_eq_true]
      exact fun ha => hne j hj k ha rfl
    · exact State.assignedTo_congr (x.cyls i hik) j
  · rw [x.cyls i (hne j hj i hi)]

/-- The new lines of a schedule hold the cylinders they are laid from (R88, R92). -/
theorem exists_newLine {ks : List CylIdx} {k : CylIdx} (hk : k ∈ ks) : ∃ l ∈ (lay ks).map newLine, k ∈ l.cyls := by
  rw [← flatten_lay ks] at hk
  obtain ⟨js, hjs, hk⟩ := List.mem_flatten.1 hk
  exact ⟨newLine js, List.mem_map_of_mem hjs, hk⟩

/-- The schedule law once cylinder `k` has left and what has been taken for it is laid into new lines; `n` pulses are
outstanding, one fewer if `k` was being pulsed (R92, R121). -/
theorem scheduleLaw_lost {s v : State} {c c' : Claim} {sc : Schedule} {k : CylIdx} {taken : List Entry} {n : Nat}
    (l : ScheduleLaw s c sc) (hn : (c.allocation.map (·.cyl)).Nodup) (hk : k ∈ c.allocation.map (·.cyl))
    (ha : c'.allocation = (c.allocation.filter fun e => e.cyl ≠ k) ++ taken) (ht : (taken.map (·.cyl)).Nodup)
    (hv : ∀ j, j ≠ k → v.pulsing j = s.pulsing j) (hq : ∀ e ∈ taken, v.pulsing e.cyl = false)
    (hcount : n + (if s.pulsing k then 1 else 0) = sc.outstanding) :
    ScheduleLaw v c' { sc with lines := sc.lines ++ (lay (taken.map (·.cyl))).map newLine, outstanding := n } := by
  refine ⟨?_, fun x hx => ?_, fun e he => ?_, ?_⟩
  · have := l.cursor
    simp only [List.length_append]
    omega
  · rcases List.mem_append.1 hx with hx | hx
    · exact l.lines x hx
    · obtain ⟨ks, hks, rfl⟩ := List.mem_map.1 hx
      exact nodup_of_mem_lay ht hks
  · simp only [List.drop_append_of_le_length l.cursor, List.mem_append]
    rw [ha] at he
    rcases List.mem_append.1 he with he | he
    · obtain ⟨h1, h2⟩ : e ∈ c.allocation ∧ e.cyl ≠ k := by simpa using he
      rw [hv _ h2]
      exact (l.ahead e h1).imp_left fun ⟨x, hx, hm⟩ => ⟨x, .inl hx, hm⟩
    · obtain ⟨x, hx, hm⟩ := exists_newLine (List.mem_map_of_mem (f := (·.cyl)) he)
      exact .inl ⟨x, .inr hx, hm⟩
  · have hnone : taken.filter (fun e => v.pulsing e.cyl) = [] := List.filter_eq_nil_iff.2 fun e he => by simp [hq e he]
    have hsum := l.outstanding
    rw [ha, List.filter_append, hnone, List.append_nil]
    change n = _
    cases hp : s.pulsing k with
    | true =>
      have := length_filter_drop_of_true (P := v.pulsing) hn hk hv hp
      simp only [hp, if_true] at hcount
      omega
    | false =>
      rw [length_filter_drop_of_false (P := v.pulsing) hv hp]
      simp only [hp, Bool.false_eq_true, if_false] at hcount
      omega

/-- The law after the loss of a cylinder in FIRING, from what the claim of the hall is then (R19, R91, R92). -/
theorem CoreLaw.of_lost {s t v : State} {h : Hall} {k : CylIdx} {c c' : Claim} {sc : Schedule} {taken : List Entry} {n : Nat}
    (l : CoreLaw s) (x : OutOfUse s t h k) (y : OtherHalls t v h) (hc : s.claim h = some c) (hs : c.state = .firing)
    (hsc : c.schedule = some sc) (hst : v.store = t.store) (hpu : v.pulses = t.pulses) (hun : v.unit h = t.unit h)
    (hv : v.claim h = some c') (hl : HeldLaw v h c') (hs' : c'.state = .firing)
    (hf : c'.flags.starved = c.flags.starved) (ha : c'.allocation = (c.allocation.filter fun e => e.cyl ≠ k) ++ taken)
    (ht : ∀ e ∈ taken, ∀ j, t.assignedTo j e.cyl = false)
    (hsc' : c'.schedule = some { sc with lines := sc.lines ++ (lay (taken.map (·.cyl))).map newLine, outstanding := n })
    (hcount : n + (if s.pulsing k then 1 else 0) = sc.outstanding) : CoreLaw v := by
  have kept := (l.halls h).claim hc
  obtain ⟨sc0, e1, e2⟩ := kept.schedule (.inr hs)
  obtain rfl : sc = sc0 := Option.some.inj (hsc.symm.trans e1)
  have hrole : ∀ d, v.role d = s.role d := fun d => by rw [State.role, hst, x.store, State.role]
  have hvt : ∀ j, v.pulsing j = t.pulsing j := State.pulsing_congr (fun d => by rw [State.role, hst, State.role]) hpu
  have hpulsing : ∀ j, j ≠ k → v.pulsing j = s.pulsing j := fun j hj => (hvt j).trans (x.pulsing j hj)
  have hquiet : ∀ e ∈ taken, v.pulsing e.cyl = false := fun e he => by
    by_cases hek : e.cyl = k
    · rw [hvt, hek, x.quiet]
    · rw [hpulsing _ hek]
      exact l.not_pulsing_of_unassigned fun j => (State.assignedTo_congr (x.cyls _ hek) j).symm.trans (ht e he j)
  have hk : k ∈ c.allocation.map (·.cyl) := by
    obtain ⟨e, he, rfl⟩ := (kept.held.owner k).1 x.owned
    exact List.mem_map_of_mem he
  have hnd : (taken.map (·.cyl)).Nodup := by
    have := hl.once
    rw [ha, List.map_append] at this
    exact this.of_append_right
  have hlaw := scheduleLaw_lost (c' := c') e2 kept.held.once hk ha hnd hpulsing hquiet hcount
  refine l.of_firing (x.others.trans y) hv hl hs' (hf.trans (kept.state.not_starved_of_firing hs)) hsc' hlaw (fun hd => ?_)
    hrole fun ch hch => .inr ?_
  · rw [hun, State.unit_of_units x.units] at hd
    have := kept.deferral sc hs hsc hd
    have : n = 0 := by omega
    exact this
  · rw [State.pulse_channel, hpu, ← State.pulse_channel] at hch
    refine ⟨x.fewer ch hch, fun i hi hai => ?_⟩
    obtain ⟨e, he, rfl⟩ := (kept.held.owner i).1 hai
    rw [hl.owner, ha]
    refine ⟨e, List.mem_append_left _ (List.mem_filter.2 ⟨he, ?_⟩), rfl⟩
    rw [decide_eq_true_eq]
    intro hek
    have hp : t.pulsing e.cyl = true :=
      (t.pulsing_iff e.cyl).2 ⟨ch, by rw [State.role, x.store]; exact hi, hch⟩
    rw [hek, x.quiet] at hp
    cases hp

/-! ### The replacement of what is lost (R91, R92) -/

/-- A cylinder lost in FIRING and replaced, seen from any state `v` after it in which `n` pulses are outstanding (R91, R92,
R121). -/
theorem coreLaw_replaced {s t v : State} {h : Hall} {k : CylIdx} {c : Claim} {sc : Schedule} {debt n : Nat}
    {f : Schedule → Schedule} (l : CoreLaw s) (x : OutOfUse s t h k) (hc : s.claim h = some c) (hs : c.state = .firing)
    (hsc : c.schedule = some sc) (y : RecordsOf ((t.dropEntry h k).replace h debt) v h)
    (hun : v.unit h = ((t.dropEntry h k).replace h debt).unit h)
    (hv : ∀ c1, ((t.dropEntry h k).replace h debt).claim h = some c1 →
      v.claim h = some { c1 with schedule := c1.schedule.map f })
    (hf : ∀ ls : List Line, f { sc with lines := ls } = { sc with lines := ls, outstanding := n })
    (hcount : n + (if s.pulsing k then 1 else 0) = sc.outstanding) : CoreLaw v := by
  have kept := (l.halls h).claim hc
  have hnt : c.state.terminal = false := by rw [hs]; rfl
  have hct : t.claim h = some c := (x.claim h).trans hc
  obtain ⟨left, hleft⟩ : ∃ left, left = c.allocation.filter fun e => e.cyl ≠ k := ⟨_, rfl⟩
  obtain ⟨u, hu⟩ : ∃ u, u = t.dropEntry h k := ⟨_, rfl⟩
  have hd : u = t.reallocate h false left := by rw [hu, hleft]; exact State.dropEntry_eq hct k
  have hcu : u.claim h = some (c.changedTo false left) := by
    rw [hd]
    exact State.claim_reallocate_changedTo hct hnt false left
  have hheld : HeldLaw u h (c.changedTo false left) := by
    rw [hd, hleft]
    exact (kept.held.drop x.cyls (x.lost h) false).of_cyls (by simp)
  have ho : OtherHalls t u h := by rw [hd]; exact otherHalls_reallocate t h false left
  have hstu : u.store = t.store := by rw [hd]; simp
  have hpuu : u.pulses = t.pulses := by rw [hd]; exact State.pulses_of_circuits (by simp)
  have huu : u.units = t.units := by rw [hd]; simp
  have hcyu : ∀ j, u.cyl j = t.cyl j := fun j => by rw [hd]; simp
  rw [← hu] at y hv hun
  have hmem : ∀ e ∈ u.takenList (.replacement debt) (c.changedTo false left), u.eligible e.cyl = true := fun e he =>
    (State.mem_takenList he).1
  have hcl := State.claim_replace hcu (by exact hnt) debt
  have hco := hheld.commit hcu (.replacement debt)
  have hoc := otherHalls_commit hcu hmem
  obtain ⟨f1, f2, -, f4, -, f6⟩ :=
    u.committed_fields (c.changedTo false left) (u.takenList (.replacement debt) (c.changedTo false left))
  have hrep : ∃ g, u.replace h debt =
      (u.commit h (u.takenList (.replacement debt) (c.changedTo false left))).updClaim h g := by
    simp only [State.replace, hcu]
    exact ⟨_, rfl⟩
  obtain ⟨g, hrep⟩ := hrep
  have hstc : (u.commit h (u.takenList (.replacement debt) (c.changedTo false left))).store = u.store := by simp
  have hpuc : (u.commit h (u.takenList (.replacement debt) (c.changedTo false left))).pulses = u.pulses :=
    State.pulses_of_circuits (by simp)
  have huc : (u.commit h (u.takenList (.replacement debt) (c.changedTo false left))).units = u.units := by simp
  have hcv := hv _ hcl
  generalize u.takenList (.replacement debt) (c.changedTo false left) = taken at *
  generalize u.committed (c.changedTo false left) taken = c2 at *
  generalize u.commit h taken = w at *
  have hx : RecordsOf w v h := by
    rw [hrep] at y
    exact (recordsOf_updClaim w h _).trans y
  have hunv : v.unit h = t.unit h := by
    have e : v.unit h = w.unit h := by rw [hun, hrep]; rfl
    rw [e, State.unit_of_units huc, State.unit_of_units huu]
  have hsch : (c.changedTo false left).schedule = some sc := hsc
  rw [hsch] at hcv
  refine l.of_lost x ((ho.trans hoc).trans hx.others) hc hs hsc (hx.store.trans (hstc.trans hstu))
    (hx.pulses.trans (hpuc.trans hpuu)) hunv hcv (HeldLaw.holdsAs (hco.of_cyls hx.cyls) ⟨rfl, rfl, rfl, rfl, le_rfl⟩)
    (f2.trans hs) f6 (by rw [← hleft]; exact f1) (fun e he j => ?_) ?_ hcount
  · exact (State.assignedTo_congr (hcyu _) j).symm.trans (State.assignedTo_of_eligible (hmem e he) j)
  · exact congrArg some (hf _)

/-! ### Pulses that complete (R19, R21, R151) -/

/-- The state in which the pulse of channel `c` is over. -/
def State.pulseEnded (s : State) (c : ChanIdx) (r : LineState) : State :=
  (s.setChannel c ((s.channel c).pulsed r)).redrive

theorem pulse_pulseEnded (s : State) (c d : ChanIdx) (r : LineState) :
    ((s.pulseEnded c r).channel d).pulse = if d = c then none else (s.channel d).pulse := by
  unfold State.pulseEnded
  rw [State.channel_redrive, State.channel_setChannel]
  split <;> rfl

/-- A pulse that has ended, of the one channel of cylinder `k`, with the cylinder put out of use (R19, R21, R151). -/
theorem outOfUse_pulseEnded {s : State} {h : Hall} {k : CylIdx} {c : ChanIdx} (o : s.OneChannel)
    (ha : s.assignedTo h k = true) (hr : s.role c = .cylinder k) (r : LineState) {d : Disposition}
    (hd : ∀ j, d ≠ .assigned j) : OutOfUse s ((s.pulseEnded c r).setDisposition k d) h k := by
  have hpulse : ∀ e, (((s.pulseEnded c r).setDisposition k d).channel e).pulse =
      if e = c then none else (s.channel e).pulse := fun e => by
    rw [← pulse_pulseEnded s c e r]
    simp [State.channel]
  have hrole : ∀ e, ((s.pulseEnded c r).setDisposition k d).role e = s.role e := fun e => by
    simp [State.role, State.pulseEnded]
  have hcyl : ∀ j, (s.pulseEnded c r).cyl j = s.cyl j := fun _ => rfl
  obtain ⟨c', hc', huniq⟩ := o.exists_channel ha
  obtain rfl : c = c' := huniq c hr
  refine ⟨ha, fun j hj => ?_, fun j => ?_, by simp [State.pulseEnded], by simp [State.pulseEnded],
    by simp [State.pulseEnded], fun e he => ?_, fun j hj => ?_, ?_⟩
  · rw [State.cyl_setDisposition, if_neg hj, hcyl]
  · rw [State.assignedTo, State.cyl_setDisposition, if_pos rfl, hcyl]
    cases s.cyl k with
    | none => rfl
    | some y => simp [hd j]
  · rw [hpulse] at he
    split at he
    · cases he
    · exact he
  · rw [Bool.eq_iff_iff, State.pulsing_iff, State.pulsing_iff]
    refine exists_congr fun e => ?_
    rw [hrole, hpulse]
    refine and_congr_right fun he => ?_
    have hec : e ≠ c := by
      rintro rfl
      exact hj (Role.cylinder.inj (he.symm.trans hr))
    rw [if_neg hec]
  · rw [← Bool.not_eq_true, State.pulsing_iff]
    rintro ⟨e, he, hp⟩
    rw [hrole] at he
    rw [hpulse, if_pos (huniq e he)] at hp
    cases hp

/-- A pulse that has ended and counted reads NORMAL: the entry has joined the fired list (R19, R121, R122). -/
theorem coreLaw_pulseCredited {s t : State} {h : Hall} {k : CylIdx} {c : Claim} {sc : Schedule} (l : CoreLaw s)
    (x : OutOfUse s t h k) (hc : s.claim h = some c) (hs : c.state = .firing) (hsc : c.schedule = some sc)
    (hp : s.pulsing k = true) : CoreLaw ((t.creditFired h k).pulseCounted h) := by
  have kept := (l.halls h).claim hc
  have hx : RecordsOf t ((t.creditFired h k).pulseCounted h) h :=
    (recordsOf_updClaim t h _).trans (recordsOf_updClaim _ h _)
  have hcl := State.claim_pulseCounted (t.claim_creditFired h k c ((x.claim h).trans hc))
  obtain ⟨sc0, e1, e2⟩ := kept.schedule (.inr hs)
  obtain rfl : sc = sc0 := Option.some.inj (hsc.symm.trans e1)
  have hdrop := kept.held.drop x.cyls (x.lost h) false
  have hlen : (c.allocation.filter fun e => e.cyl ≠ k).length + 1 = c.allocation.length := by
    obtain ⟨e, he, hek⟩ := (kept.held.owner k).1 x.owned
    have := length_filter_drop_of_true (P := fun _ => true) (Q := fun _ => true) kept.held.once
      (List.mem_map.2 ⟨e, he, hek⟩) (fun _ _ => rfl) rfl
    simpa using this
  have hone : 1 ≤ sc.outstanding := by
    rw [e2.outstanding]
    obtain ⟨e, he, hek⟩ := (kept.held.owner k).1 x.owned
    exact List.length_pos_of_mem (List.mem_filter.2 ⟨he, by rw [hek]; exact hp⟩)
  have hsch : { c.holding (c.allocation.filter fun e => e.cyl ≠ k) with fired := c.fired ++ [k] }.schedule = some sc := hsc
  rw [hsch] at hcl
  refine l.of_lost (taken := []) (n := sc.outstanding - 1) x hx.others hc hs hsc hx.store hx.pulses rfl hcl ?_ hs rfl
    (by simp [Claim.holding]) nofun ?_ ?_
  · have hlim := kept.held.limit
    exact { hdrop.of_cyls hx.cyls with
      limit := by
        simp only [Claim.holding, List.length_append, List.length_singleton]
        omega }
  · simp [lay, layFrom, Schedule.counted]
  · rw [hp]
    simp only [if_true]
    omega

/-- A pulse in progress counts among those outstanding (R121). -/
theorem ScheduleLaw.outstanding_pos {s : State} {h : Hall} {k : CylIdx} {c : Claim} {sc : Schedule} (l : ScheduleLaw s c sc)
    (hl : HeldLaw s h c) (ha : s.assignedTo h k = true) (hp : s.pulsing k = true) : 1 ≤ sc.outstanding := by
  rw [l.outstanding]
  obtain ⟨e, he, hek⟩ := (hl.owner k).1 ha
  exact List.length_pos_of_mem (List.mem_filter.2 ⟨he, by rw [hek]; exact hp⟩)

/-- A pulse that has ended and counted reads OPEN or SHORT: the loss is replaced (R21, R91, R121). -/
theorem coreLaw_pulseReplaced {s t : State} {h : Hall} {k : CylIdx} {c : Claim} {sc : Schedule} (l : CoreLaw s)
    (x : OutOfUse s t h k) (hc : s.claim h = some c) (hs : c.state = .firing) (hsc : c.schedule = some sc)
    (hp : s.pulsing k = true) (debt : Nat) : CoreLaw (((t.dropEntry h k).replace h debt).pulseCounted h) := by
  have kept := (l.halls h).claim hc
  obtain ⟨sc0, e1, e2⟩ := kept.schedule (.inr hs)
  obtain rfl : sc = sc0 := Option.some.inj (hsc.symm.trans e1)
  have hone := e2.outstanding_pos kept.held x.owned hp
  refine coreLaw_replaced (n := sc.outstanding - 1) l x hc hs hsc (recordsOf_updClaim _ h _) rfl
    (fun c1 h1 => State.claim_pulseCounted h1) (fun _ => rfl) ?_
  rw [hp]
  simp only [if_true]
  omega

/-- A pulse of hall `h`'s cylinder `k` that has ended, handed over (R19, R21, R122, R123). -/
theorem coreLaw_pulseHanded {s : State} {h : Hall} {k : CylIdx} {c : ChanIdx} {cl : Claim} (l : CoreLaw s) (o : s.OneChannel)
    (ha : s.assignedTo h k = true) (hr : s.role c = .cylinder k) (hp : (s.channel c).pulse.isSome = true)
    (hc : s.claim h = some cl) (hs : cl.state = .firing) (r : LineState) :
    CoreLaw ((s.pulseEnded c r).pulseNormal h k) ∧ CoreLaw ((s.pulseEnded c r).pulseFailed h k) := by
  obtain ⟨sc, hsc, -⟩ := ((l.halls h).claim hc).schedule (.inr hs)
  have hk : s.pulsing k = true := (s.pulsing_iff k).2 ⟨c, hr, hp⟩
  constructor
  · have x := outOfUse_pulseEnded o ha hr r (d := .fired) fun j => by simp
    have hcl := State.claim_creditFired _ h k cl ((x.claim h).trans hc)
    exact coreLaw_finishPulse (coreLaw_pulseCredited l x hc hs hsc hk) hcl hs hsc
  · have x := outOfUse_pulseEnded o ha hr r (d := .actuatorFault .pulse) fun j => by simp
    have hct := (x.claim h).trans hc
    have hlaw := coreLaw_pulseReplaced l x hc hs hsc hk ((s.pulseEnded c r).entryE h k)
    have hd := State.dropEntry_eq hct k
    have hcu := State.claim_reallocate_changedTo hct (by rw [hs]; rfl) false (cl.allocation.filter fun e => e.cyl ≠ k)
    rw [← hd] at hcu
    unfold State.pulseFailed
    dsimp only
    generalize (s.pulseEnded c r).setDisposition k (.actuatorFault .pulse) = t at *
    generalize (s.pulseEnded c r).entryE h k = debt at *
    have hcl := State.claim_replace hcu (by exact congrArg ClaimState.terminal hs) debt
    have hstate := ((t.dropEntry h k).committed_fields (cl.changedTo false (cl.allocation.filter fun e => e.cyl ≠ k))
      ((t.dropEntry h k).takenList (.replacement debt) (cl.changedTo false (cl.allocation.filter fun e => e.cyl ≠ k)))).2.1
    have hsch : (cl.changedTo false (cl.allocation.filter fun e => e.cyl ≠ k)).schedule = some sc := hsc
    rw [hsch] at hcl
    exact coreLaw_finishPulse hlaw hcl (hstate.trans hs) rfl

/-- The completion of a fire pulse leaves the law as it was (R118, R151). -/
theorem coreLaw_completePulse {s : State} (l : CoreLaw s) {c : ChanIdx}
    (o : ∀ h, s.claimState h = some .firing → s.OneChannel) (msr : List PulseMeasurement) : CoreLaw (s.completePulse c msr) := by
  unfold State.completePulse
  split
  · rename_i hover
    have hp : (s.channel c).pulse.isSome = true := by
      cases hx : (s.channel c).pulse with
      | none => simp [State.pulseOver, hx] at hover
      | some t => rfl
    obtain ⟨h, k, hr, ha, hf⟩ := l.pulses c hp
    obtain ⟨cl, hc, -, -⟩ := l.ownerClaim ha
    have ho := o h hf
    rw [State.claimState_of_claim hc] at hf
    have hs := Option.some.inj hf
    obtain ⟨hnormal, hfailed⟩ := coreLaw_pulseHanded l ho ha hr hp hc hs (pulseReading msr)
    have hcl : (s.pulseEnded c (pulseReading msr)).claimState h = some .firing := by
      have e : (s.pulseEnded c (pulseReading msr)).claim h = some cl := hc
      rw [State.claimState_of_claim e, hs]
    dsimp only
    rw [hr]
    change CoreLaw ((s.pulseEnded c (pulseReading msr)).handPulse k (pulseReading msr))
    cases hk : s.cyl k with
    | none => simp [State.assignedTo, hk] at ha
    | some y =>
      have hk' : (s.pulseEnded c (pulseReading msr)).cyl k = some y := hk
      rw [State.assignedTo_of_cyl hk, decide_eq_true_eq] at ha
      simp only [State.handPulse, hk', ha, hcl, ne_eq, not_true, if_false]
      split
      · exact hnormal
      · exact hfailed
  · exact l

/-! ### Supervision checks (R20, R22, R153 to R156) -/

/-- An ASSIGNED cylinder, not being pulsed, that a supervision check puts out of use (R20). -/
theorem outOfUse_setDisposition {s : State} {h : Hall} {k : CylIdx} (ha : s.assignedTo h k = true) (hq : s.pulsing k = false)
    {d : Disposition} (hd : ∀ j, d ≠ .assigned j) : OutOfUse s (s.setDisposition k d) h k := by
  have hpulsing : ∀ j, (s.setDisposition k d).pulsing j = s.pulsing j :=
    State.pulsing_congr (fun e => by simp [State.role]) (State.pulses_of_circuits (by simp))
  refine ⟨ha, fun j hj => ?_, fun j => ?_, by simp, by simp, by simp, fun e he => ?_, fun j _ => hpulsing j,
    (hpulsing k).trans hq⟩
  · rw [State.cyl_setDisposition, if_neg hj]
  · rw [State.assignedTo, State.cyl_setDisposition, if_pos rfl]
    cases s.cyl k with
    | none => rfl
    | some y => simp [hd j]
  · have e1 : (s.setDisposition k d).channel e = s.channel e := by simp [State.channel]
    rwa [e1] at he

theorem OutOfUse.oneCylinder {s t : State} {h : Hall} {k : CylIdx} (x : OutOfUse s t h k) (hp : t.pulses = s.pulses) :
    OneCylinder s t h k := ⟨x.owned, x.cyls, fun j _ => x.lost j, x.claims, x.units, x.store, hp⟩

/-- A cylinder lost to a supervision fault (R20, R57, R91). -/
theorem coreLaw_lostToFault {s : State} {h : Hall} {k : CylIdx} (l : CoreLaw s) (ha : s.assignedTo h k = true)
    (hq : s.pulsing k = false) : CoreLaw ((s.setDisposition k (.actuatorFault .supervision)).lostToFault h k) := by
  have x := outOfUse_setDisposition ha hq (d := .actuatorFault .supervision) fun j => by simp
  have hp : (s.setDisposition k (.actuatorFault .supervision)).pulses = s.pulses := State.pulses_of_circuits (by simp)
  obtain ⟨c, hc, kept, hne⟩ := l.ownerClaim ha
  generalize s.setDisposition k (.actuatorFault .supervision) = t at *
  have hct := (x.claim h).trans hc
  simp only [State.lostToFault, hct]
  split
  · rename_i hs
    obtain ⟨sc, hsc, -⟩ := kept.schedule (.inr hs)
    refine coreLaw_replaced (n := sc.outstanding) (f := id) l x hc hs hsc (recordsOf_same h rfl rfl rfl rfl rfl) rfl
      (fun c1 h1 => ?_) (fun _ => rfl) ?_
    · simpa using h1
    · simp [hq]
  · rename_i hs
    exact coreLaw_removal l (x.oneCylinder hp) (x.lost h) hc ((kept.state.toppedUp_or_firing hne).resolve_right hs)

/-- A supervision check that reads OPEN or SHORT on a cylinder that is not being pulsed (R20). -/
theorem coreLaw_actuatorFaulted {s : State} (l : CoreLaw s) {k : CylIdx}
    (hq : ∀ h, s.assignedTo h k = true → s.pulsing k = false) : CoreLaw (s.actuatorFaulted k) := by
  unfold State.actuatorFaulted
  split
  · exact l
  · rename_i c hc
    split
    · rename_i hd
      refine l.setDisposition (fun h => ?_) fun h => by simp
      rw [State.assignedTo_of_cyl hc, hd]
      simp
    · rename_i h hd
      have ha : s.assignedTo h k = true := by rw [State.assignedTo_of_cyl hc, hd]; simp
      exact coreLaw_lostToFault l ha (hq h ha)
    · exact l

theorem coreLaw_handCheck {s : State} (l : CoreLaw s) {role : Role} (r : LineState) (third : Bool)
    (hq : ∀ k h, role = .cylinder k → s.assignedTo h k = true → s.pulsing k = false) :
    CoreLaw (s.handCheck role r third) := by
  unfold State.handCheck
  split
  · rename_i k
    split
    · exact coreLaw_actuatorFaulted l fun h => hq k h rfl
    · split
      · exact coreLaw_actuatorGood l k
      · exact l
  · rename_i h
    split
    · exact coreLaw_markFaulted l h
    · split
      · exact coreLaw_setFaulted l h false
      · exact l
  · exact l
  · exact l

/-- A supervision check leaves the law as it was (R153 to R156). -/
theorem coreLaw_superviseChannel {s : State} (l : CoreLaw s) (c : ChanIdx)
    (o : ∀ h, s.claimState h = some .firing → s.OneChannel) (m : LineMeasurement) : CoreLaw (s.superviseChannel c m) := by
  unfold State.superviseChannel
  dsimp only
  split
  · exact l
  · rename_i hskip
    have hnone : (s.channel c).pulse.isSome = false := by
      rw [← Bool.not_eq_true]
      exact fun e => hskip (.inr e)
    have hpulses : (s.setChannel c ((s.channel c).checked (checkResult (s.channel c) m))).pulses = s.pulses :=
      State.pulses_ext fun d => by
        rw [State.channel_setChannel]
        split
        · rename_i hd
          rw [hd]
          rfl
        · rfl
    have hl : CoreLaw (s.setChannel c ((s.channel c).checked (checkResult (s.channel c) m))) :=
      l.of_same (.of_eq rfl rfl rfl rfl hpulses)
    refine coreLaw_handCheck hl _ _ fun k h hr ha => ?_
    have hpulsing := State.pulsing_congr (s := s) (t := s.setChannel c ((s.channel c).checked (checkResult (s.channel c) m)))
      (fun _ => rfl) hpulses k
    rw [hpulsing, ← Bool.not_eq_true]
    intro hp
    have hf : s.claimState h = some .firing := by
      by_contra hne
      rw [l.not_pulsing ha hne] at hp
      cases hp
    obtain ⟨d, hd, hdp⟩ := (s.pulsing_iff k).1 hp
    obtain ⟨e, -, huniq⟩ := (o h hf).exists_channel ha
    rw [huniq d hd, ← huniq c hr, hnone] at hdp
    cases hdp

end Sys2Proof.Machine
end


-- ==== Sys2Proof/Proofs/ImageInUse.lean ====
section
/-! PROOFS. The image in use passes validation after every command: what changes the mode or the image keeps it (R179 to R183,
R189). -/

namespace Sys2Proof.Machine

/-! ### Modes in which the image is used, or was found valid -/

/-- The mode is one in which the image is used, or in which it has been found valid (R179, R183). -/
def ModeControl.Uses (c : ModeControl) : Prop :=
  c.mode = .normal ∨ c.mode = .maintPending ∨ (c.mode = .startup ∧ c.imageValid = true)

theorem imageLaw_iff (s : State) : ImageLaw s ↔ (s.ctl.Uses → validate s.store.image = none) := Iff.rfl

/-- Between `s` and `t` the image stands, and is not in use in `t` unless it was in `s`. -/
structure KeepsUse (s t : State) : Prop where
  image : t.store.image = s.store.image
  uses : t.ctl.Uses → s.ctl.Uses

theorem KeepsUse.refl (s : State) : KeepsUse s s := ⟨rfl, id⟩

theorem KeepsUse.trans {s t u : State} (x : KeepsUse s t) (y : KeepsUse t u) : KeepsUse s u :=
  ⟨y.image.trans x.image, fun h => x.uses (y.uses h)⟩

theorem KeepsUse.of_eq {s t : State} (hc : t.ctl = s.ctl) (hs : t.store.image = s.store.image) : KeepsUse s t :=
  ⟨hs, fun h => hc ▸ h⟩

theorem uses_of_ctl {s t : State} (h : t.ctl = s.ctl) : t.ctl.Uses → s.ctl.Uses := fun hu => h ▸ hu

theorem ImageLaw.of_keepsUse {s t : State} (l : ImageLaw s) (x : KeepsUse s t) : ImageLaw t := by
  rw [imageLaw_iff, x.image]
  exact fun h => l (x.uses h)

/-- In MAINTENANCE, and UNCOMMISSIONED, the image is not in use. -/
theorem ImageLaw.of_unused {s : State} (h : s.mode = .maintenance ∨ s.mode = .uncommissioned) : ImageLaw s := by
  intro hu
  rcases h with h | h <;> simp [h] at hu

/-! ### What leaves Mode Control -/

theorem State.discharge_ctl (s : State) (h : Hall) (reason : EndReason) : (s.discharge h reason).ctl = s.ctl := by
  rw [State.discharge_eq, State.endGrant_ctl]
  unfold State.dischargedClaim
  dsimp only
  split <;> rfl

theorem State.dischargeSeen_ctl (s : State) (h : Hall) (t : Time) : (s.dischargeSeen h t).ctl = s.ctl := by
  unfold State.dischargeSeen
  dsimp only
  split
  · rfl
  · rw [State.discharge_ctl]
    rfl
  · rfl

theorem State.beginDischarge_ctl (s : State) (h : Hall) (t : Time) : (s.beginDischarge h t).ctl = s.ctl := by
  unfold State.beginDischarge
  simp [State.fireLine_ctl]

theorem State.lineTime_ctl (s : State) (h : Hall) : (s.lineTime h).ctl = s.ctl := by
  unfold State.lineTime
  split
  · exact s.fireLine_ctl h
  · simp

theorem State.abandon_ctl (s : State) (h : Hall) : (s.abandon h).ctl = s.ctl := by
  rw [State.abandon_eq, State.enterConfirming_ctl]
  simp [State.abandonedClaim]

theorem State.finishPulse_ctl (s : State) (h : Hall) : (s.finishPulse h).ctl = s.ctl := by
  unfold State.finishPulse
  dsimp only
  (repeat' split) <;> simp [State.lineCompletion_ctl]

theorem State.completePulse_ctl (s : State) (c : ChanIdx) (msr : List PulseMeasurement) :
    (s.completePulse c msr).ctl = s.ctl := by
  unfold State.completePulse State.handPulse State.pulseNormal State.pulseFailed
  dsimp only
  (repeat' split) <;> simp [State.finishPulse_ctl]

theorem State.takeSelectorCapture_ctl (s : State) (h : Hall) : (s.takeSelectorCapture h).ctl = s.ctl := by
  unfold State.takeSelectorCapture
  dsimp only
  (repeat' split) <;> simp [State.beginDischarge_ctl]

theorem State.takeSwitchCapture_ctl (s : State) : s.takeSwitchCapture.ctl = s.ctl := by
  unfold State.takeSwitchCapture
  dsimp only
  (repeat' split) <;> simp [State.dischargeSeen_ctl]

theorem State.selectorEdge_ctl (s : State) (h : Hall) : (s.selectorEdge h).ctl = s.ctl := by
  unfold State.selectorEdge
  dsimp only
  (repeat' split) <;> simp [State.handSelector_ctl]

theorem hallArrival_ctl (s : State) (h : Hall) (f : Frame) (length : Option Nat) {owner : State → Answer}
    (ho : ∀ s, (owner s).state.ctl = s.ctl) : (s.hallArrival h f length owner).ctl = s.ctl := by
  unfold State.hallArrival
  dsimp only
  (repeat' split) <;> simp [ho]

theorem pollOwner_ctl (h : Hall) (p : Payload) (s : State) : (pollOwner h p s).state.ctl = s.ctl := by
  unfold pollOwner
  dsimp only
  (repeat' split) <;> simp

theorem releaseOwner_ctl (h : Hall) (p : Payload) (s : State) : (releaseOwner h p s).state.ctl = s.ctl := by
  unfold releaseOwner State.release
  dsimp only
  (repeat' split) <;> simp

theorem abortOwner_ctl (h : Hall) (s : State) : (abortOwner h s).state.ctl = s.ctl := by
  unfold abortOwner State.abort
  dsimp only
  (repeat' split) <;> simp

theorem queryOwner_state (h : Hall) (s : State) : (queryOwner h s).state = s := by
  unfold queryOwner
  (repeat' split) <;> rfl

theorem takeClaimExpiry_ctl (s : State) (h : Hall) (k : DeadlineKind) (st : ClaimState) {owner : State → State}
    (ho : ∀ s, (owner s).ctl = s.ctl) : (s.takeClaimExpiry h k st owner).ctl = s.ctl := by
  rcases s.takeClaimExpiry_cases h k st owner with e | e | ⟨-, -, e⟩ <;> rw [e]
  · simp
  · simp [ho]

/-! ### What changes the mode -/

theorem keepsUse_maintPendingEnd (s : State) : KeepsUse s s.maintPendingEnd := by
  rcases s.maintPendingEnd_cases with e | ⟨hm, -, -, -⟩
  · rw [e]
    exact .refl s
  · exact ⟨by simp, fun _ => .inr (.inl hm)⟩

theorem keepsUse_endVenting (s : State) (result : VentResult) : KeepsUse s (s.endVenting result) := by
  unfold State.endVenting
  exact KeepsUse.trans (.of_eq (by simp) (by simp)) (keepsUse_maintPendingEnd _)

theorem keepsUse_takeManifoldSample (s : State) (p : Option Nat) : KeepsUse s (s.takeManifoldSample p) := by
  have hr : KeepsUse s (s.recordPressure p) := .of_eq (by simp) (by simp)
  unfold State.takeManifoldSample
  dsimp only
  (repeat' split)
  · exact hr.trans (keepsUse_endVenting _ _)
  · exact hr
  · exact .of_eq (by simp) (by simp)
  all_goals exact hr

theorem keepsUse_takeManifoldExpiry (s : State) (k : DeadlineKind) (st : ManifoldState) {owner : State → State}
    (ho : ∀ s, KeepsUse s (owner s)) : KeepsUse s (s.takeManifoldExpiry k st owner) := by
  rcases s.takeManifoldExpiry_cases k st owner with e | e | ⟨-, -, e⟩ <;> rw [e]
  · exact .refl s
  · exact .of_eq rfl rfl
  · have h1 : KeepsUse s (s.setManifold { s.manifold with unit := .inhibited }) := .of_eq rfl rfl
    exact h1.trans (ho _)

/-- Start-up completes in NORMAL only when the image has been found valid (R180). -/
theorem keepsUse_completeStartup {s : State} (hm : s.mode = .startup) : KeepsUse s s.completeStartup := by
  have hctl : s.completeStartup.ctl.mode =
      if s.ctl.key = .on then .maintenance else if s.ctl.imageValid then .normal else .uncommissioned := rfl
  refine ⟨by simp, fun h => .inr (.inr ⟨hm, ?_⟩)⟩
  unfold ModeControl.Uses at h
  rw [hctl] at h
  split at h
  · simp at h
  · split at h
    · assumption
    · simp at h

theorem keepsUse_firstSample (s : State) (src : SampleSource) : KeepsUse s (s.firstSample src) := by
  unfold State.firstSample
  dsimp only
  split
  · rename_i hx
    have h1 : KeepsUse s (s.setCtl { s.ctl with outstanding := s.ctl.outstanding.filter fun x => x ≠ src }) := ⟨rfl, id⟩
    split
    · exact h1.trans (keepsUse_completeStartup hx.1)
    · exact h1
  · exact .refl s

theorem keepsUse_takeStartupExpiry (s : State) : KeepsUse s s.takeStartupExpiry := by
  unfold State.takeStartupExpiry
  dsimp only
  split
  · have h1 : KeepsUse s (s.setCtl { s.ctl with startupUnit := .inhibited }) := ⟨rfl, id⟩
    split
    · rename_i hm
      exact h1.trans (keepsUse_completeStartup hm)
    · exact h1
  · exact .refl s

/-- The key turned ON: the mode becomes one without the image in use, or MAINT_PENDING from NORMAL (R181). -/
theorem keepsUse_keyTurnedOn (s : State) : KeepsUse s s.keyTurnedOn := by
  refine ⟨by simp, ?_⟩
  unfold State.keyTurnedOn
  dsimp only
  split
  · rename_i hm
    exact fun _ => .inl hm
  · intro h
    simp [ModeControl.Uses, State.setMode] at h
  all_goals exact id

/-- The maintenance exit leaves NORMAL only with an image that validates (R183). -/
theorem imageLaw_maintenanceExit (s : State) : ImageLaw s.maintenanceExit := by
  intro h
  have hi : s.maintenanceExit.image = s.image := by
    unfold State.maintenanceExit
    dsimp only
    split <;> rfl
  have hm : s.maintenanceExit.mode = if (validate s.image).isNone then .normal else .uncommissioned := rfl
  rw [hi]
  rw [hm] at h
  split at h
  · rename_i hv
    exact Option.isNone_iff_eq_none.1 hv
  · simp at h

/-- The key turned OFF (R183). -/
theorem imageLaw_keyTurnedOff {s : State} (l : ImageLaw s) : ImageLaw s.keyTurnedOff := by
  unfold State.keyTurnedOff
  dsimp only
  split
  · rename_i hm
    exact l.of_keepsUse ⟨rfl, fun _ => .inr (.inl hm)⟩
  · split
    · exact l.of_keepsUse ⟨rfl, id⟩
    · exact imageLaw_maintenanceExit _
  all_goals exact l.of_keepsUse ⟨rfl, id⟩

/-- What a write that has completed in MAINTENANCE leaves: the mode stands, or the exit is made (R183, R185). -/
theorem imageLaw_exitIfPending {s : State} (hm : s.mode = .maintenance) : ImageLaw s.exitIfPending := by
  unfold State.exitIfPending
  split
  · exact imageLaw_maintenanceExit s
  · exact .of_unused (.inl hm)

theorem imageLaw_answered {s : State} (l : ImageLaw s) (kind : Byte) (result : Result) (content : List Byte) :
    ImageLaw (s.answerSite kind result content) := l.of_keepsUse (.of_eq rfl rfl)

theorem imageLaw_afterReset (s : State) : ImageLaw s.afterReset := by
  rintro (h | h | ⟨-, h⟩)
  · cases h
  · cases h
  · have hv : startupCheck s.store = true := h
    simp only [startupCheck, Bool.and_eq_true, Option.isNone_iff_eq_none] at hv
    exact hv.1

/-! ### Every command -/

/-- A command that neither resets the device, nor turns the key OFF, nor completes a write keeps the use of the image. -/
theorem exec_keepsUse {i : Instr} {s t : State} (hi : Instr.rereads i = false ∨ ∃ k c, i = .pressureSample k c) (hk : i ≠ .keyOff)
    (ht : exec i s = .next t) : t.ctl.Uses → s.ctl.Uses := by
  cases i <;> cases ht
  case deviceReset | commissionWriteCompletion | maintIsolateCompletion | maintRestoreCompletion => simp [Instr.rereads] at hi
  case keyOff => exact absurd rfl hk
  case inputEstablishment =>
    split
    · simp [State.establish, ModeControl.Uses]
    · exact id
  case pressureSample =>
    exact (KeepsUse.trans (.of_eq (by simp) (by simp)) (keepsUse_firstSample _ _)).uses
  case rackTemperatureSample =>
    exact (KeepsUse.trans (.of_eq (by simp) (by simp)) (keepsUse_firstSample _ _)).uses
  case manifoldPressureSample => exact (keepsUse_takeManifoldSample _ _).uses
  case supervisionCheck => simp
  case pulseCompletion => simp [State.completePulse_ctl]
  case selectorEdge => simp [State.selectorEdge_ctl]
  case manifoldSwitchEdge => simp
  case keyOn =>
    split
    · exact (KeepsUse.trans (.of_eq (by simp) (by simp)) (keepsUse_keyTurnedOn _)).uses
    · exact id
  case selectorCapture => simp [State.takeSelectorCapture_ctl]
  case manifoldSwitchCapture => simp [State.takeSwitchCapture_ctl]
  case countdownExpiry => exact uses_of_ctl (takeClaimExpiry_ctl _ _ _ _ fun s => by simp)
  case holdLimitExpiry => exact uses_of_ctl (takeClaimExpiry_ctl _ _ _ _ fun s => by simp)
  case selectorOpenTimeout => exact uses_of_ctl (takeClaimExpiry_ctl _ _ _ _ fun s => by simp)
  case nextLineExpiry =>
    split
    · exact id
    · exact uses_of_ctl (takeClaimExpiry_ctl _ _ _ _ fun s => s.lineTime_ctl _)
  case deferralExpiry => exact uses_of_ctl (takeClaimExpiry_ctl _ _ _ _ fun s => s.abandon_ctl _)
  case confirmTimeout => exact uses_of_ctl (takeClaimExpiry_ctl _ _ _ _ fun s => s.discharge_ctl _ _)
  case closeTimeout => exact (keepsUse_takeManifoldExpiry _ _ _ fun s => .of_eq (by simp) (by simp)).uses
  case ventTimeout => exact (keepsUse_takeManifoldExpiry _ _ _ fun s => keepsUse_endVenting s _).uses
  case supervisionExpiry => simp
  case temperatureExpiry => simp
  case startupExpiry => exact (keepsUse_takeStartupExpiry _).uses
  case poll => exact uses_of_ctl (hallArrival_ctl _ _ _ _ (pollOwner_ctl _ _))
  case release => exact uses_of_ctl (hallArrival_ctl _ _ _ _ (releaseOwner_ctl _ _))
  case abort => exact uses_of_ctl (hallArrival_ctl _ _ _ _ (abortOwner_ctl _))
  case latchClear => exact uses_of_ctl (hallArrival_ctl _ _ _ _ fun s => rfl)
  case query => exact uses_of_ctl (hallArrival_ctl _ _ _ _ fun s => by rw [queryOwner_state])
  case hallUnknownKind => exact uses_of_ctl (hallArrival_ctl _ _ _ _ fun s => rfl)
  case frameAbandoned p _ => cases p <;> exact id
  case replyTransmitted p => cases p <;> exact id
  case sitePoll => simp
  case cylinderQuery => simp
  case claimQuery => simp
  case commissionRead => simp
  case commissionWrite => simp
  case maintIsolate => simp
  case maintRestore => simp
  case siteUnknownKind => simp
  case crcStoreCompletion => simp
  case starvedReEvaluation => simp
  case byteReceived p _ => cases p <;> exact id
  case rawLevelChange r => simp
  case loopStateChange => simp

theorem ProgrammingLaw.maintenance {s : State} (p : ProgrammingLaw s) {w : WriteInProgress} (hw : s.store.write = some w) :
    s.mode = .maintenance := (p.write (by rw [hw]; rfl)).1

theorem mode_of_ctl {s t : State} (h : t.ctl = s.ctl) : t.mode = s.mode := congrArg ModeControl.mode h

/-- Every command keeps what the claims law says of the image (R179, R183). -/
theorem imageLaw_exec {s t : State} (l : ImageLaw s) (p : ProgrammingLaw s) (i : Instr) (ht : exec i s = .next t) :
    ImageLaw t := by
  by_cases hk : i = .keyOff
  · subst hk
    cases ht
    split
    · exact imageLaw_keyTurnedOff (l.of_keepsUse (.of_eq (by simp) (by simp)))
    · exact l
  · cases hi : Instr.rereads i with
    | false => exact l.of_keepsUse ⟨(exec_keepsReadings i s t hi ht).2, exec_keepsUse (.inl hi) hk ht⟩
    | true =>
      cases i with
      | deviceReset =>
        cases ht
        exact imageLaw_afterReset s
      | pressureSample k c =>
        refine l.of_keepsUse ⟨?_, exec_keepsUse (.inr ⟨k, c, rfl⟩) hk ht⟩
        cases ht
        simp
      | commissionWriteCompletion =>
        cases ht
        split
        · rename_i w hw
          have hm : (s.writeEnded.applyWrite w).mode = .maintenance :=
            (mode_of_ctl (s.writeEnded.applyWrite_ctl w)).trans (p.maintenance hw)
          exact imageLaw_answered (imageLaw_exitIfPending hm) _ _ _
        · exact l
      | maintIsolateCompletion =>
        cases ht
        split
        · rename_i k hw
          exact imageLaw_answered (imageLaw_exitIfPending ((mode_of_ctl (by simp)).trans (p.maintenance hw))) _ _ _
        · exact l
      | maintRestoreCompletion =>
        cases ht
        split
        · rename_i k hw
          exact imageLaw_answered (imageLaw_exitIfPending ((mode_of_ctl (by simp)).trans (p.maintenance hw))) _ _ _
        · exact l
      | _ => cases hi

end Sys2Proof.Machine
end


-- ==== Sys2Proof/Proofs/ClaimsLawEvents.lean ====
section
/-! PROOFS. The claims law through the commands of the field, the compare units and the hall ports. -/

namespace Sys2Proof.Machine

/-! ### The one channel of each fitted cylinder (R188) -/

/-- A role that an image names once is that of one channel. -/
theorem exists_unique_role {roles : Vector Role 80} {r : Role} (h : (roles.toList.filter fun x => x = r).length = 1) :
    ∃ c : ChanIdx, roles[c] = r ∧ ∀ d : ChanIdx, roles[d] = r → d = c := by
  have e : roles.toList = (List.finRange 80).map fun c => roles[c] := List.ext_getElem (by simp) (by simp)
  rw [e, List.filter_map, List.length_map] at h
  obtain ⟨c, hc⟩ := List.length_eq_one_iff.1 h
  have hmem : ∀ d : ChanIdx, roles[d] = r ↔ d = c := fun d => by
    rw [← List.mem_singleton (a := d), ← hc]
    simp
  exact ⟨c, (hmem c).2 rfl, fun d hd => (hmem d).1 hd⟩

/-- An image that passes validation gives every fitted cylinder one channel (R188). -/
theorem oneChannel_of_valid {s : State} (b : BankLaw s) (h : validate s.image = none) : s.OneChannel := by
  intro k y hk
  have hc : s.image.passes .cylinderChannels = true := by
    have := List.find?_eq_none.1 h .cylinderChannels (by simp [imageChecks])
    simpa using this
  have hf : (s.image.cylinders[k]).fitted = true := by
    rw [← b.fitted, hk]
    rfl
  simp only [Image.passes, List.all_eq_true, Bool.or_eq_true, Bool.not_eq_true', decide_eq_true_eq] at hc
  have h1 := (hc k (by simp [allCylinders])).resolve_left (by rw [hf]; simp)
  exact exists_unique_role h1

/-- While a claim is non-terminal, every fitted cylinder has one channel. -/
def State.Served (s : State) : Prop := ∀ h, s.nonTerminal h = true → s.OneChannel

theorem State.served {s : State} (b : BankLaw s) (m : ModeLaw s) (i : ImageLaw s) : s.Served := by
  intro h hn
  refine oneChannel_of_valid b (i ?_)
  exact (m.quiet h hn).imp_right .inl

theorem State.Served.oneChannel {s : State} (o : s.Served) {h : Hall} {st : ClaimState} (hs : s.claimState h = some st)
    (ht : st.terminal = false) : s.OneChannel := by
  refine o h ?_
  unfold State.nonTerminal
  cases hc : s.claim h with
  | none => simp [State.claimState, hc] at hs
  | some c =>
    rw [State.claimState_of_claim hc] at hs
    simp [Option.some.inj hs, ht]

/-! ### The Arbiter's edges (R105, R109, R146) -/

theorem State.WaitersWait.congr {s t : State} (w : s.WaitersWait) (hc : t.claims = s.claims)
    (hm : t.manifold.waitList = s.manifold.waitList) : t.WaitersWait := by
  intro h hh
  rw [hm] at hh
  rw [State.claimState, State.claim, hc]
  exact w h hh

@[simp] theorem State.waitList_setMismatch (s : State) (h : Hall) :
    (s.setMismatch h).manifold.waitList = s.manifold.waitList := by
  unfold State.setMismatch
  split
  · rfl
  · simp [State.putMismatch]

@[simp] theorem State.waitList_testMismatch (s : State) (h : Hall) :
    (s.testMismatch h).manifold.waitList = s.manifold.waitList := by
  unfold State.testMismatch
  split <;> simp

@[simp] theorem State.waitList_enterVenting (s : State) : s.enterVenting.manifold.waitList = s.manifold.waitList := by
  simp [State.enterVenting]

@[simp] theorem State.waitList_leaveClosing (s : State) : s.leaveClosing.manifold.waitList = s.manifold.waitList := by
  unfold State.leaveClosing
  split <;> simp

theorem sameCore_leaveClosing (s : State) : SameCore s s.leaveClosing :=
  .of_eq (by simp) (by simp) (by simp) (by simp) (by simp)

theorem coreLaw_clearMismatch {s : State} (l : CoreLaw s) (w : s.WaitersWait) (h : Hall) : CoreLaw (s.clearMismatch h) := by
  unfold State.clearMismatch
  split
  · exact coreLaw_tryGrant (l.of_same (.of_eq rfl rfl rfl rfl rfl)) (w.congr rfl rfl)
  · exact l

theorem coreLaw_arbiterEdge {s : State} (l : CoreLaw s) (w : s.WaitersWait) (h : Hall) (v : Valve) :
    CoreLaw (s.arbiterEdge h v) := by
  unfold State.arbiterEdge
  split
  · exact l.of_same (.of_eq (by simp) (by simp) (by simp) (by simp) (by simp))
  · dsimp only
    split
    · exact coreLaw_clearMismatch (l.of_same (sameCore_leaveClosing s)) (w.congr (by simp) (by simp)) h
    · exact coreLaw_clearMismatch l w h

/-- A change of a selector's reading leaves the law as it was (R105, R119, R146). -/
theorem coreLaw_handSelector {s : State} (l : CoreLaw s) (w : s.WaitersWait) (o : s.Served) (h : Hall) (v : Valve) (t : Time) :
    CoreLaw (s.handSelector h v t) := by
  unfold State.handSelector
  dsimp only
  obtain ⟨u, hu⟩ : ∃ u, u = if v = .opened then s.setSelectorCapture h ((s.captures.selectors[h]).record t) else s := ⟨_, rfl⟩
  rw [← hu]
  have hx : SameCore s u ∧ u.manifold = s.manifold ∧ u.store = s.store := by
    rw [hu]
    split
    · exact ⟨.of_eq rfl rfl rfl rfl rfl, rfl, rfl⟩
    · exact ⟨.refl s, rfl, rfl⟩
  obtain ⟨hx, hm, hst⟩ := hx
  have hl := coreLaw_arbiterEdge (l.of_same hx) (w.congr hx.claims (by rw [hm])) h v
  cases v with
  | closed =>
    have e : ∀ u : State, u.sequencerEdge h .closed = u := fun u => by simp [State.sequencerEdge]
    rw [e]
    exact hl
  | opened =>
    refine coreLaw_sequencerEdge hl h (fun hf => ?_) .opened
    have e : (u.arbiterEdge h .opened).claims = s.claims := by
      rw [← hx.claims]
      simp [State.arbiterEdge]
    rw [State.claimState, State.claim, e, ← State.claim, ← State.claimState] at hf
    exact (o.oneChannel hf rfl).of_eq (by simp [hx.cyls]) (by simp [hst])

theorem coreLaw_selectorEdge {s : State} (l : CoreLaw s) (w : s.WaitersWait) (o : s.Served) (h : Hall) :
    CoreLaw (s.selectorEdge h) := by
  unfold State.selectorEdge
  dsimp only
  split
  · exact l
  · generalize hu : s.setSelectorContact h _ = u
    have hx : SameCore s u ∧ u.manifold = s.manifold ∧ u.store = s.store := by
      rw [← hu]
      exact ⟨.of_eq rfl rfl rfl rfl rfl, rfl, rfl⟩
    obtain ⟨hx, hm, hst⟩ := hx
    split
    · refine coreLaw_handSelector (l.of_same hx) (w.congr hx.claims (by rw [hm])) (fun j hj => ?_) h _ _
      rw [State.nonTerminal, hx.claim, ← State.nonTerminal] at hj
      exact (o j hj).of_eq hx.cyls hst
    · exact l.of_same hx

/-! ### Captures (R100, R115, R125) -/

theorem coreLaw_takeSelectorCapture {s : State} (l : CoreLaw s) (o : s.Served) (h : Hall) :
    CoreLaw (s.takeSelectorCapture h) := by
  unfold State.takeSelectorCapture
  split
  · exact l
  · rename_i t ht
    have hl : CoreLaw (s.setSelectorCapture h .disarmed) := l.of_same (.of_eq rfl rfl rfl rfl rfl)
    dsimp only
    split
    · rename_i hx
      obtain ⟨-, -, hs⟩ := hx
      have ho := o.oneChannel hs rfl
      cases hc : s.claim h with
      | none => simp [State.claimState, hc] at hs
      | some c =>
        rw [State.claimState_of_claim hc] at hs
        exact coreLaw_beginDischarge hl (ho.of_eq rfl rfl) hc (Option.some.inj hs) t
    · exact hl

theorem coreLaw_takeSwitchCapture {s : State} (l : CoreLaw s) : CoreLaw s.takeSwitchCapture := by
  unfold State.takeSwitchCapture
  split
  · exact l
  · rename_i t ht
    have hl : CoreLaw (s.setSwitchCapture .disarmed) := l.of_same (.of_eq rfl rfl rfl rfl rfl)
    dsimp only
    split
    · exact coreLaw_dischargeSeen hl _ t
    · exact hl

/-! ### Venting and the manifold's pressure (R96, R106, R112) -/

theorem coreLaw_maintPendingEnd {s : State} (l : CoreLaw s) : CoreLaw s.maintPendingEnd :=
  l.of_same (.of_eq (by simp) (by simp) (by simp) (by simp) (by simp))

theorem coreLaw_endVenting {s : State} (l : CoreLaw s) (w : s.WaitersWait) (result : VentResult) :
    CoreLaw (s.endVenting result) := by
  unfold State.endVenting
  refine coreLaw_maintPendingEnd (coreLaw_tryGrant (l.of_same (.of_eq ?_ ?_ ?_ ?_ ?_)) (w.congr ?_ ?_)) <;> simp
  rfl

theorem coreLaw_takeManifoldSample {s : State} (l : CoreLaw s) (w : s.WaitersWait) (p : Option Nat) :
    CoreLaw (s.takeManifoldSample p) := by
  have hl : CoreLaw (s.recordPressure p) := l.of_same (.of_eq rfl rfl rfl rfl rfl)
  unfold State.takeManifoldSample
  dsimp only
  (repeat' split)
  · exact coreLaw_endVenting hl (w.congr rfl rfl) _
  · exact hl
  · exact hl.of_same (.of_eq (by simp) (by simp) (by simp) (by simp) (by simp))
  all_goals exact hl

theorem coreLaw_takeManifoldExpiry {s : State} (l : CoreLaw s) (w : s.WaitersWait) (k : DeadlineKind) (st : ManifoldState)
    {owner : State → State} (ho : ∀ u, CoreLaw u → u.WaitersWait → CoreLaw (owner u)) :
    CoreLaw (s.takeManifoldExpiry k st owner) := by
  have hl : CoreLaw (s.setManifold { s.manifold with unit := .inhibited }) := l.of_same (.of_eq rfl rfl rfl rfl rfl)
  rcases s.takeManifoldExpiry_cases k st owner with e | e | ⟨-, -, e⟩ <;> rw [e]
  · exact l
  · exact hl
  · exact ho _ hl (w.congr rfl rfl)

theorem coreLaw_closeTimeout {s : State} (l : CoreLaw s) : CoreLaw s.closeTimeout := by
  refine l.of_same ?_
  unfold State.closeTimeout
  split
  · exact SameCore.trans (.of_eq (by simp) (by simp) (by simp) (by simp) (State.pulses_of_circuits (by simp)))
      (sameCore_leaveClosing _)
  · exact sameCore_leaveClosing s

/-! ### Compare units (R138) -/

/-- What a unit has become by now keeps its kind (R138). -/
theorem CompareUnit.kind_settle (u : CompareUnit) (now : Time) : (u.settle now).kind? = u.kind? := by
  cases u with
  | watching d k =>
    unfold CompareUnit.settle
    dsimp only
    split <;> rfl
  | inhibited => rfl
  | expired d k => rfl

/-- An expiry raised is of the kind that the unit holds. -/
theorem CompareUnit.kind_of_raised {u : CompareUnit} {now : Time} {k : DeadlineKind} (h : u.raised now k = true) :
    u.kind? = some k := by
  rw [← u.kind_settle now]
  unfold CompareUnit.raised at h
  split at h
  · rename_i hu
    rw [hu]
    simpa [CompareUnit.kind?] using h
  · cases h

/-! ### Expiries of a claim's unit (R55, R64, R102, R117, R120, R126) -/

/-- An expiry taken: the unit is removed, and the owner of a claim in its state keeps the law. -/
theorem coreLaw_takeClaimExpiry {s : State} (l : CoreLaw s) (h : Hall) (k : DeadlineKind) (st : ClaimState)
    {owner : State → State}
    (ho : ∀ c, (s.unit h).kind? = some k → CoreLaw (s.removeUnit h) → (s.removeUnit h).claim h = some c → c.state = st →
      CoreLaw (owner (s.removeUnit h))) : CoreLaw (s.takeClaimExpiry h k st owner) := by
  rcases s.takeClaimExpiry_cases h k st owner with e | e | ⟨hr, hs, e⟩ <;> rw [e]
  · exact l
  · exact l.removeUnit h
  · cases hc : s.claim h with
    | none => simp [State.claimState, hc] at hs
    | some c =>
      rw [State.claimState_of_claim hc] at hs
      exact ho c (CompareUnit.kind_of_raised hr) (l.removeUnit h) hc (Option.some.inj hs)

theorem coreLaw_holdLimitOver {s : State} (l : CoreLaw s) (h : Hall) : CoreLaw (s.holdLimitOver h) :=
  (coreLaw_holdFall l h).of_same (sameCore_updPort _ h _)

theorem State.WaitersWait.removeUnit {s : State} (w : s.WaitersWait) (h : Hall) : (s.removeUnit h).WaitersWait :=
  w.congr rfl rfl

/-- The next line deadline waits for the completions of the line in hand (R118). -/
theorem coreLaw_nextLineExpiry {s : State} (l : CoreLaw s) (o : s.Served) {h : Hall} (hz : s.pulsesOutstanding h = false) :
    CoreLaw (s.takeClaimExpiry h .nextLine .firing fun s => s.lineTime h) := by
  refine coreLaw_takeClaimExpiry l h _ _ fun c _ hl hc hs => coreLaw_lineTime hl ?_ hc hs hz
  have hcs : s.claimState h = some .firing := by
    rw [← hs]
    exact State.claimState_of_claim hc
  exact (o.oneChannel hcs rfl).of_eq rfl rfl

/-- A deferral stands only with no pulse outstanding (R120). -/
theorem coreLaw_deferralExpiry {s : State} (l : CoreLaw s) (h : Hall) :
    CoreLaw (s.takeClaimExpiry h .deferral .firing fun s => s.abandon h) := by
  refine coreLaw_takeClaimExpiry l h _ _ fun c hk hl hc hs => ?_
  have kept := (l.halls h).claim hc
  obtain ⟨sc, e1, -⟩ := kept.schedule (.inr hs)
  exact coreLaw_abandon hl hc hs e1 (kept.deferral sc hs e1 hk)

/-! ### Hall requests (R165, R166) -/

theorem coreLaw_hallArrival {s : State} (l : CoreLaw s) (h : Hall) (f : Frame) (length : Option Nat) {owner : State → Answer}
    (ho : ∀ u, CoreLaw u → CoreLaw (owner u).state) : CoreLaw (s.hallArrival h f length owner) := by
  have hsame : ∀ (u : State) (r : Result) (live : Option LiveFigures), SameCore u (u.answerHall h f.kind r live) :=
    fun u r live => .of_eq (by simp) (by simp) (by simp) (by simp) (State.pulses_of_circuits (by simp))
  have hr : CoreLaw (s.releaseFrame h f) :=
    l.of_same (.of_eq (by simp) (by simp) (by simp) (by simp) (State.pulses_of_circuits (by simp)))
  unfold State.hallArrival
  dsimp only
  split
  · exact l
  · split
    · exact hr
    · have h2 : CoreLaw (((s.releaseFrame h f).updPort h fun p => { p with owed := true }).superviseLink h) :=
        hr.of_same (.of_eq (by simp) (by simp) (by simp) (by simp) (State.pulses_of_circuits (by simp)))
      generalize ((s.releaseFrame h f).updPort h fun p => { p with owed := true }).superviseLink h = u at *
      refine CoreLaw.of_same ?_ (hsame _ _ _)
      split
      · exact h2
      · exact ho u h2

theorem coreLaw_pollOwner {s : State} (l : CoreLaw s) (h : Hall) (p : Payload) : CoreLaw (pollOwner h p s).state := by
  unfold pollOwner
  dsimp only
  (repeat' split)
  · exact coreLaw_observeHold (l.of_same (.of_eq (by simp) (by simp) (by simp) (by simp) (State.pulses_of_circuits (by simp)))) h _
  · exact coreLaw_observeHold l h _
  · exact l
  · exact l

theorem coreLaw_siteArrival {s : State} (l : CoreLaw s) (f : Frame) (owner : State → SiteOutcome) :
    CoreLaw (s.siteArrival f owner) := by
  refine l.of_same ⟨by simp, by simp, fun h => by rw [State.unit_of_units (s := s) (by simp)], ?_,
    State.pulses_of_circuits (by simp)⟩
  rw [(keepsReadings_siteArrival s f owner).2]

/-! ### Start-up and the key (R179 to R183) -/

theorem State.pulses_completeStartup (s : State) : s.completeStartup.pulses = s.pulses := by
  unfold State.completeStartup
  dsimp only
  generalize hu : (State.setCtl s _).setMode _ = u
  have e : u.pulses = s.pulses := by
    rw [← hu]
    exact State.pulses_setMode _ _
  exact e

theorem sameCore_completeStartup (s : State) : SameCore s s.completeStartup :=
  .of_eq (by simp) (by simp) (by simp) (by simp) s.pulses_completeStartup

theorem sameCore_firstSample (s : State) (src : SampleSource) : SameCore s (s.firstSample src) := by
  unfold State.firstSample
  dsimp only
  split
  · split
    · exact SameCore.trans (.of_eq rfl rfl rfl rfl rfl) (sameCore_completeStartup _)
    · exact .of_eq rfl rfl rfl rfl rfl
  · exact .refl s

theorem sameCore_takeStartupExpiry (s : State) : SameCore s s.takeStartupExpiry := by
  unfold State.takeStartupExpiry
  dsimp only
  split
  · split
    · exact SameCore.trans (.of_eq rfl rfl rfl rfl rfl) (sameCore_completeStartup _)
    · exact .of_eq rfl rfl rfl rfl rfl
  · exact .refl s

theorem sameCore_setMode (s : State) (m : Mode) : SameCore s (s.setMode m) := .of_eq rfl rfl rfl rfl (by simp)

theorem sameCore_maintenanceExit (s : State) : SameCore s s.maintenanceExit := by
  unfold State.maintenanceExit
  dsimp only
  generalize hu : (if (validate s.image).isNone = true then State.setStore _ _ else _) = u
  have hx : SameCore s u := by
    rw [← hu]
    split <;> exact ⟨rfl, rfl, fun _ => rfl, rfl, rfl⟩
  exact hx.trans (sameCore_setMode u _)

theorem sameCore_exitIfPending (s : State) : SameCore s s.exitIfPending := by
  unfold State.exitIfPending
  split
  · exact sameCore_maintenanceExit s
  · exact .refl s

theorem sameCore_keyTurnedOff (s : State) : SameCore s s.keyTurnedOff := by
  have h1 : ∀ c : ModeControl, SameCore s (s.setCtl c) := fun c => .of_eq rfl rfl rfl rfl rfl
  unfold State.keyTurnedOff
  dsimp only
  split
  · exact (h1 _).trans (sameCore_setMode _ _)
  · split
    · exact .of_eq rfl rfl rfl rfl rfl
    · exact (h1 _).trans (sameCore_maintenanceExit _)
  all_goals exact h1 _

theorem coreLaw_keyTurnedOn {s : State} (l : CoreLaw s) : CoreLaw s.keyTurnedOn := by
  have h1 : ∀ c : ModeControl, CoreLaw (s.setCtl c) := fun c => l.of_same (.of_eq rfl rfl rfl rfl rfl)
  unfold State.keyTurnedOn
  dsimp only
  split
  · exact (coreLaw_lockout (h1 _)).of_same (sameCore_setMode _ _)
  · exact (h1 _).of_same (sameCore_setMode _ _)
  · exact l.of_same (.of_eq rfl rfl rfl rfl rfl)
  all_goals exact h1 _

theorem coreLaw_answerPoolGain {s : State} (l : CoreLaw s) (w : s.WaitersWait) : CoreLaw s.answerPoolGain := by
  unfold State.answerPoolGain
  split
  · exact l
  · exact coreLaw_reEvaluate (l.of_same (.of_eq rfl rfl rfl rfl rfl)) (w.congr rfl rfl)

end Sys2Proof.Machine
end


-- ==== Sys2Proof/Proofs/ClaimsLawKept.lean ====
section
/-! PROOFS. The claims law through the device reset and the writes of MAINTENANCE, and so through every step. -/

namespace Sys2Proof.Machine

/-! ### States in which no claim is left (R181 to R184) -/

/-- No claim is non-terminal. -/
def State.Ended (s : State) : Prop := ∀ h, s.nonTerminal h = false

/-- A write stands only in MAINTENANCE, in which no claim is left (R182, R184). -/
theorem ended_of_write {s : State} (p : ProgrammingLaw s) (m : ModeLaw s) {w : WriteInProgress}
    (hw : s.store.write = some w) : s.Ended := by
  intro h
  rw [← Bool.not_eq_true]
  intro hn
  have hm := p.maintenance hw
  rcases m.quiet h hn with e | e <;> rw [e] at hm <;> cases hm

theorem State.Ended.claim {s : State} (e : s.Ended) (h : Hall) :
    s.claim h = none ∨ ∃ c, s.claim h = some c ∧ c.state.terminal = true := by
  have hn := e h
  unfold State.nonTerminal at hn
  cases hc : s.claim h with
  | none => exact .inl rfl
  | some c =>
    rw [hc] at hn
    exact .inr ⟨c, rfl, by simpa using hn⟩

theorem State.Ended.of_claims {s t : State} (e : s.Ended) (hc : t.claims = s.claims) : t.Ended := by
  intro h
  rw [State.nonTerminal, State.claim, hc, ← State.claim, ← State.nonTerminal]
  exact e h

theorem State.Ended.served {s : State} (e : s.Ended) : s.Served := fun h hn => by
  rw [e h] at hn
  cases hn

/-- No pulse is in progress when no claim is left (R116). -/
theorem CoreLaw.no_pulse {s : State} (l : CoreLaw s) (e : s.Ended) (ch : ChanIdx) : (s.channel ch).pulse.isSome = false := by
  rw [← Bool.not_eq_true]
  intro hp
  obtain ⟨h, k, -, ha, -⟩ := l.pulses ch hp
  rw [l.unassigned (e.claim h)] at ha
  cases ha

/-- With no claim left, the law asks of the cylinders that none is ASSIGNED, and of the channels that none is being pulsed. -/
theorem CoreLaw.of_ended {s t : State} (l : CoreLaw s) (e : s.Ended) (hc : t.claims = s.claims) (hp : t.pulses = s.pulses)
    (ha : ∀ h k, t.assignedTo h k = false) : CoreLaw t := by
  have hclaim : ∀ h, t.claim h = s.claim h := fun h => by rw [State.claim, hc, State.claim]
  refine ⟨fun h => ?_, fun ch hch => ?_⟩
  · rcases e.claim h with hn | ⟨c, hcl, ht⟩
    · simp only [HallLaw, hclaim, hn]
      exact ha h
    · have kept := (l.halls h).claim hcl
      have hempty : c.allocation = [] := by
        by_contra hne
        rw [kept.state.not_terminal hne] at ht
        cases ht
      refine .of_claim ((hclaim h).trans hcl) (.of_idle ?_ kept.state ?_ ?_)
      · exact { kept.held with
          owner := fun k => by rw [ha, hempty]; simp
          content := fun x hx => by rw [hempty] at hx; cases hx }
      · rintro hs
        rw [hs] at ht
        cases ht
      · rintro hs
        rw [hs] at ht
        cases ht
  · rw [State.pulse_channel, hp, ← State.pulse_channel, l.no_pulse e] at hch
    cases hch

/-- No cylinder is ASSIGNED when no claim is left (R15). -/
theorem CoreLaw.unassigned_of_ended {s : State} (l : CoreLaw s) (e : s.Ended) (h : Hall) (k : CylIdx) :
    s.assignedTo h k = false := l.unassigned (e.claim h) k

/-! ### The writes (R185, R186) -/

theorem coreLaw_commissionedWritten {s : State} (l : CoreLaw s) (w : s.WaitersWait) (h : Hall) (before : Bool) :
    CoreLaw (s.commissionedWritten h before) := by
  unfold State.commissionedWritten
  split
  · exact coreLaw_clearMismatch l w h
  · split
    · exact l.of_same (.of_eq (by simp) (by simp) (by simp) (by simp) (by simp))
    · exact l

/-- With no claim left, no claim waits (R97). -/
theorem GrantLaw.waitList_of_ended {s : State} (g : GrantLaw s) (e : s.Ended) : s.manifold.waitList = [] := by
  refine List.eq_nil_iff_forall_not_mem.2 fun w hw => ?_
  have hs := (g.waiting w.hall).1 ⟨w, hw, rfl⟩
  rcases e.claim w.hall with hc | ⟨c, hc, ht⟩
  · simp [State.claimState, hc] at hs
  · rw [State.claimState_of_claim hc] at hs
    rw [Option.some.inj hs] at ht
    cases ht

theorem State.WaitersWait.of_nil {s : State} (hw : s.manifold.waitList = []) : s.WaitersWait := by
  intro h hh
  rw [hw] at hh
  cases hh

theorem waitList_arbiterEdge {s : State} (hw : s.manifold.waitList = []) (h : Hall) (v : Valve) :
    (s.arbiterEdge h v).manifold.waitList = [] ∧ (s.arbiterEdge h v).claims = s.claims := by
  have hclear : ∀ u : State, u.manifold.waitList = [] →
      (u.clearMismatch h).manifold.waitList = [] ∧ (u.clearMismatch h).claims = u.claims := fun u hu => by
    rw [(flagged_clearMismatch hu).frame]
    exact ⟨hu, rfl⟩
  unfold State.arbiterEdge
  split
  · exact ⟨by simp [hw], by simp⟩
  · dsimp only
    split
    · obtain ⟨h1, h2⟩ := hclear s.leaveClosing (by simp [hw])
      exact ⟨h1, h2.trans (by simp)⟩
    · exact hclear s hw

/-- With no claim left, a change of a selector's reading leaves the wait list empty. -/
theorem waitList_handSelector {s : State} (e : s.Ended) (hw : s.manifold.waitList = []) (h : Hall) (v : Valve) (t : Time) :
    (s.handSelector h v t).manifold.waitList = [] := by
  unfold State.handSelector
  dsimp only
  generalize hu : (if v = .opened then s.setSelectorCapture h _ else s) = u
  have hx : u.manifold = s.manifold ∧ u.claims = s.claims := by
    rw [← hu]
    split <;> exact ⟨rfl, rfl⟩
  obtain ⟨h1, h2⟩ := waitList_arbiterEdge (s := u) (by rw [hx.1, hw]) h v
  have he : (u.arbiterEdge h v).Ended := e.of_claims (h2.trans hx.2)
  unfold State.sequencerEdge
  rw [if_neg]
  · exact h1
  · rintro ⟨-, -, hf, -⟩
    rcases he.claim h with hc | ⟨c, hc, ht⟩
    · simp [State.claimState, hc] at hf
    · rw [State.claimState_of_claim hc] at hf
      rw [Option.some.inj hf] at ht
      cases ht

/-- A HALL record's write, handed to the Arbiter (R109, R145). -/
theorem coreLaw_hallWritten {s : State} (l : CoreLaw s) (e : s.Ended) (hw : s.manifold.waitList = []) (h : Hall)
    (before : Option Valve) (commissioned : Bool) :
    CoreLaw ((s.openLevelWritten h before).commissionedWritten h commissioned) := by
  have w := State.WaitersWait.of_nil hw
  refine coreLaw_commissionedWritten ?_ (.of_nil ?_) h commissioned
  · unfold State.openLevelWritten
    (repeat' split)
    · exact l
    · exact coreLaw_handSelector l w e.served h _ _
    · exact l
  · unfold State.openLevelWritten
    (repeat' split)
    · exact hw
    · exact waitList_handSelector e hw h _ _
    · exact hw

theorem State.rewritten_disposition {s : State} {k : CylIdx} {old new : CylinderRecord} {c' : Cylinder}
    (h : s.rewritten k old new = some c') : c'.disposition = .free ∨ ∃ c, s.cyl k = some c ∧ c'.disposition = c.disposition := by
  unfold State.rewritten at h
  split at h
  · split at h
    · cases h
      exact .inl rfl
    · cases h
  · rename_i c hc
    refine .inr ⟨c, hc, ?_⟩
    split at h
    · cases h
    · split at h
      · cases h
        rfl
      · cases h
        rfl

theorem State.assignedTo_of_none {s : State} {k : CylIdx} (hk : s.cyl k = none) (h : Hall) : s.assignedTo h k = false := by
  simp only [State.assignedTo, hk]

theorem coreLaw_cylinderWritten {s : State} (l : CoreLaw s) (e : s.Ended) (k : CylIdx) (old : CylinderRecord) :
    CoreLaw (s.cylinderWritten k old) := by
  refine l.of_ended e (by simp) (State.pulses_of_circuits (by simp)) fun h j => ?_
  have hs := l.unassigned_of_ended e h j
  have hcyl := s.cyl_cylinderWritten k j old
  by_cases hj : j = k
  · rw [if_pos hj] at hcyl
    cases hc : s.rewritten k old s.image.cylinders[k] with
    | none => exact State.assignedTo_of_none (hcyl.trans hc) h
    | some c =>
      rw [State.assignedTo_of_cyl (hcyl.trans hc)]
      rcases State.rewritten_disposition hc with hd | ⟨c0, hc0, hd⟩
      · simp [hd]
      · rw [hd, ← State.assignedTo_of_cyl hc0, ← hj]
        exact hs
  · rw [if_neg hj] at hcyl
    exact (State.assignedTo_congr hcyl h).trans hs

theorem State.pulses_roleWritten (s : State) (c : ChanIdx) (before : Role) : (s.roleWritten c before).pulses = s.pulses := by
  unfold State.roleWritten
  split
  · rfl
  · rw [State.pulses_redrive]
    refine State.pulses_ext fun d => ?_
    rw [State.channel_setChannel]
    split
    · rename_i hd
      rw [hd]
    · rfl

/-- A record stored and handed over, with no claim left (R185). -/
theorem coreLaw_applyWrite {s : State} (l : CoreLaw s) (e : s.Ended) (hw : s.manifold.waitList = []) (w : RecordWrite) :
    CoreLaw (s.applyWrite w) := by
  have hu : CoreLaw (s.setImage (s.image.write w)).represent :=
    l.of_ended e (by simp) (State.pulses_of_circuits (by simp)) fun h k =>
      (State.assignedTo_congr (by simp [State.cyl]) h).trans (l.unassigned_of_ended e h k)
  have he : (s.setImage (s.image.write w)).represent.Ended := e.of_claims (by simp)
  have hm : (s.setImage (s.image.write w)).represent.manifold.waitList = [] := by simp [hw]
  unfold State.applyWrite
  dsimp only
  generalize (s.setImage (s.image.write w)).represent = u at *
  cases w with
  | hall h r => exact coreLaw_hallWritten hu he hm h _ _
  | cylinder k f q p => exact coreLaw_cylinderWritten hu he k _
  | thresholds t =>
    exact hu.of_same (.of_eq (by simp) (by simp) (by simp) (by simp) (State.pulses_of_circuits (by simp)))
  | channel c r => exact hu.of_same (.of_eq (by simp) (by simp) (by simp) (by simp) (u.pulses_roleWritten c _))
  | _ => exact hu

theorem sameCore_writeEnded (s : State) : SameCore s s.writeEnded := ⟨rfl, rfl, fun _ => rfl, rfl, rfl⟩

theorem sameCore_exitAnswered (s : State) (kind : Byte) (result : Result) (content : List Byte) :
    SameCore s (s.exitIfPending.answerSite kind result content) :=
  (sameCore_exitIfPending s).trans (.of_eq rfl rfl rfl rfl rfl)

theorem coreLaw_completeWrite {s : State} (l : CoreLaw s) (e : s.Ended) (hw : s.manifold.waitList = []) (w : RecordWrite) :
    CoreLaw (s.completeWrite w) :=
  (coreLaw_applyWrite (l.of_same (sameCore_writeEnded s)) (e.of_claims rfl) hw w).of_same (sameCore_exitAnswered _ _ _ _)

theorem coreLaw_completeIsolate {s : State} (l : CoreLaw s) (e : s.Ended) (k : CylIdx) : CoreLaw (s.completeIsolate k) := by
  have hu : CoreLaw (s.writeEnded.setImage (s.writeEnded.image.setInService k false)) :=
    l.of_same ⟨rfl, rfl, fun _ => rfl, rfl, rfl⟩
  have hi : CoreLaw ((s.writeEnded.setImage (s.writeEnded.image.setInService k false)).isolate k) :=
    hu.setDisposition (fun h => l.unassigned_of_ended e h k) fun h => by simp
  exact hi.of_same (sameCore_exitAnswered _ _ _ _)

theorem coreLaw_restore {s : State} (l : CoreLaw s) (e : s.Ended) (k : CylIdx) : CoreLaw (s.restore k) := by
  have hfree : CoreLaw (s.setDisposition k .free) :=
    l.setDisposition (fun h => l.unassigned_of_ended e h k) fun h => by simp
  unfold State.restore
  refine CoreLaw.poolGainIf ?_ _
  split
  · split
    · exact hfree
    · exact hfree
    · exact hfree
    · exact l
  · exact l

theorem coreLaw_completeRestore {s : State} (l : CoreLaw s) (e : s.Ended) (k : CylIdx) : CoreLaw (s.completeRestore k) := by
  have hp : ((s.writeEnded.setImage (s.writeEnded.image.setInService k true)).clearFailedPulse k).pulses = s.pulses :=
    State.pulses_ext fun c => by
      rw [State.channel_clearFailedPulse]
      split <;> rfl
  have hu : CoreLaw ((s.writeEnded.setImage (s.writeEnded.image.setInService k true)).clearFailedPulse k) :=
    l.of_same ⟨rfl, rfl, fun _ => rfl, rfl, hp⟩
  exact (coreLaw_restore hu (e.of_claims rfl) k).of_same (sameCore_exitAnswered _ _ _ _)

/-! ### The device reset (R27, R95) -/

/-- A cylinder is FREE or ISOLATED after a device reset (R27). -/
theorem disposition_running {q : CylinderRecord} {c : Cylinder} (h : q.running = some c) :
    c.disposition = .free ∨ c.disposition = .isolated := by
  unfold CylinderRecord.running at h
  split at h
  · cases h
    unfold resetCylinder
    dsimp only
    split
    · exact .inl rfl
    · exact .inr rfl
  · cases h

theorem coreLaw_afterReset (s : State) : CoreLaw s.afterReset := by
  have hclaim : ∀ h, s.afterReset.claim h = none := fun h => by
    simp [State.afterReset, State.claim, State.reset]
  have hcyl : ∀ k, s.afterReset.cyl k = (s.image.cylinders[k]).running := fun k => by
    simp [State.afterReset, State.cyl]
  have hpulse : ∀ ch, (s.afterReset.channel ch).pulse = none := fun ch => by
    simp [State.afterReset, State.channel, State.reset, resetCircuits, resetChannel]
  refine ⟨fun h => ?_, fun ch hp => ?_⟩
  · simp only [HallLaw, hclaim]
    intro k
    cases hk : (s.image.cylinders[k]).running with
    | none => exact State.assignedTo_of_none ((hcyl k).trans hk) h
    | some c =>
      rw [State.assignedTo_of_cyl ((hcyl k).trans hk)]
      rcases disposition_running hk with e | e <;> simp [e]
  · rw [hpulse] at hp
    cases hp

/-! ### Every step -/

/-- The laws that hold with the claims law, in the parts that the claims law draws on. -/
structure Surroundings (s : State) : Prop where
  waiters : s.WaitersWait
  served : s.Served
  ended : ∀ w, s.store.write = some w → s.Ended ∧ s.manifold.waitList = []

theorem State.surroundings {s : State} (g : GrantLaw s) (b : BankLaw s) (p : ProgrammingLaw s) (m : ModeLaw s)
    (i : ImageLaw s) : Surroundings s where
  waiters := g.waitersWait
  served := State.served b m i
  ended _ hw := ⟨ended_of_write p m hw, g.waitList_of_ended (ended_of_write p m hw)⟩

theorem coreLaw_exec {s t : State} (l : CoreLaw s) (x : Surroundings s) (i : Instr) (ht : exec i s = .next t) : CoreLaw t := by
  obtain ⟨w, o, e⟩ := x
  have same : ∀ {u : State}, u.claims = s.claims → u.cyls = s.cyls → u.units = s.units → u.store = s.store →
      u.circuits = s.circuits → CoreLaw u := fun h1 h2 h3 h4 h5 =>
    l.of_same (.of_eq h1 h2 h3 h4 (State.pulses_of_circuits h5))
  cases i <;> cases ht
  case deviceReset => exact coreLaw_afterReset s
  case inputEstablishment =>
    split
    · exact same (by simp) (by simp) (by simp) (by simp) (by simp)
    · exact l
  case pressureSample k i => exact (coreLaw_takeSample l k _).of_same (sameCore_firstSample _ _)
  case rackTemperatureSample r i =>
    exact (same (by simp) (by simp) (by simp) (by simp) (by simp) : CoreLaw (s.takeRackSample r _)).of_same
      (sameCore_firstSample _ _)
  case manifoldPressureSample i => exact coreLaw_takeManifoldSample l w _
  case supervisionCheck c m => exact coreLaw_superviseChannel l c (fun h hf => o.oneChannel hf rfl) m
  case pulseCompletion c ms => exact coreLaw_completePulse l (fun h hf => o.oneChannel hf rfl) ms
  case selectorEdge h => exact coreLaw_selectorEdge l w o h
  case manifoldSwitchEdge => exact same (by simp) (by simp) (by simp) (by simp) (by simp)
  case keyOn =>
    split
    · exact coreLaw_keyTurnedOn (same rfl rfl rfl rfl rfl)
    · exact l
  case keyOff =>
    split
    · exact (same rfl rfl rfl rfl rfl : CoreLaw s.takeKeyEdge).of_same (sameCore_keyTurnedOff _)
    · exact l
  case selectorCapture h => exact coreLaw_takeSelectorCapture l o h
  case manifoldSwitchCapture => exact coreLaw_takeSwitchCapture l
  case countdownExpiry h =>
    exact coreLaw_takeClaimExpiry l h _ _ fun c _ hl hc hs => coreLaw_countdownOver hl (w.removeUnit h) hc hs
  case holdLimitExpiry h => exact coreLaw_takeClaimExpiry l h _ _ fun c _ hl _ _ => coreLaw_holdLimitOver hl h
  case selectorOpenTimeout h =>
    exact coreLaw_takeClaimExpiry l h _ _ fun c _ hl hc hs => coreLaw_endClaim hl hc (by rw [hs]; simp) rfl _
  case nextLineExpiry h =>
    split
    · exact l
    · rename_i hz
      exact coreLaw_nextLineExpiry l o (by simpa using hz)
  case deferralExpiry h => exact coreLaw_deferralExpiry l h
  case confirmTimeout h => exact coreLaw_takeClaimExpiry l h _ _ fun c _ hl hc hs => coreLaw_discharge hl hc hs _
  case closeTimeout => exact coreLaw_takeManifoldExpiry l w _ _ fun u hl _ => coreLaw_closeTimeout hl
  case ventTimeout => exact coreLaw_takeManifoldExpiry l w _ _ fun u hl hw => coreLaw_endVenting hl hw _
  case supervisionExpiry h => exact same (by simp) (by simp) (by simp) (by simp) (by simp)
  case temperatureExpiry h => exact same (by simp) (by simp) (by simp) (by simp) (by simp)
  case startupExpiry => exact l.of_same (sameCore_takeStartupExpiry s)
  case poll h p => exact coreLaw_hallArrival l h _ _ fun u hl => coreLaw_pollOwner hl h p
  case release h p => exact coreLaw_hallArrival l h _ _ fun u hl => coreLaw_release hl h _
  case abort h p => exact coreLaw_hallArrival l h _ _ fun u hl => coreLaw_abort hl h
  case latchClear h p => exact coreLaw_hallArrival l h _ _ fun u hl => hl.of_same (.of_eq rfl rfl rfl rfl rfl)
  case query h p => exact coreLaw_hallArrival l h _ _ fun u hl => (queryOwner_state h u).symm ▸ hl
  case hallUnknownKind h k p => exact coreLaw_hallArrival l h _ _ fun u hl => hl
  case frameAbandoned p _ => cases p <;> exact same rfl rfl rfl rfl rfl
  case replyTransmitted p => cases p <;> exact same rfl rfl rfl rfl rfl
  case sitePoll => exact coreLaw_siteArrival l _ _
  case cylinderQuery => exact coreLaw_siteArrival l _ _
  case claimQuery => exact coreLaw_siteArrival l _ _
  case commissionRead => exact coreLaw_siteArrival l _ _
  case commissionWrite => exact coreLaw_siteArrival l _ _
  case maintIsolate => exact coreLaw_siteArrival l _ _
  case maintRestore => exact coreLaw_siteArrival l _ _
  case siteUnknownKind => exact coreLaw_siteArrival l _ _
  case commissionWriteCompletion =>
    split
    · rename_i w hw
      obtain ⟨he, hl⟩ := e _ hw
      exact coreLaw_completeWrite l he hl w
    · exact l
  case maintIsolateCompletion =>
    split
    · rename_i k hw
      exact coreLaw_completeIsolate l (e _ hw).1 k
    · exact l
  case maintRestoreCompletion =>
    split
    · rename_i k hw
      exact coreLaw_completeRestore l (e _ hw).1 k
    · exact l
  case crcStoreCompletion =>
    refine l.of_same ⟨by simp, by simp, fun h => by rw [State.unit_of_units (s := s) (by simp)], ?_,
      State.pulses_of_circuits (by simp)⟩
    rw [(keepsReadings_crcStored s).2]
  case starvedReEvaluation => exact coreLaw_answerPoolGain l w
  case byteReceived p _ => cases p <;> exact same rfl rfl rfl rfl rfl
  case rawLevelChange r => exact same (by simp) (by simp) (by simp) (by simp) (by simp)
  case loopStateChange => exact same (by simp) (by simp) (by simp) (by simp) (by simp)

/-- A millisecond that passes leaves what the law reads, and the kinds of the deadlines (R138). -/
theorem sameCore_tick (s : State) : SameCore s s.tick := by
  refine ⟨rfl, rfl, fun h => ?_, rfl, rfl⟩
  have e : s.tick.unit h = (s.unit h).settle (s.now + 1) := by
    simp [State.tick, State.unit]
  rw [e, CompareUnit.kind_settle]

/-- Settles O7: the law splits into a law of each hall's claim and one of the image; a command keeps the first hall by hall,
and the second by what it does to the mode. -/
theorem claimsLawKept : Obligations.ClaimsLawKept := by
  unfold Obligations.ClaimsLawKept
  intro s t g b p m l ht
  obtain ⟨lc, li⟩ := (claimsLaw_iff s).1 l
  have x := State.surroundings g b p m li
  rw [claimsLaw_iff]
  rcases step_cases ht with ⟨i, rest, -, he⟩ | rfl | rfl
  · have hs : SameCore s { s with pending := rest } := .of_eq rfl rfl rfl rfl rfl
    have hx : Surroundings { s with pending := rest } := ⟨x.waiters, x.served, x.ended⟩
    have hp : ProgrammingLaw { s with pending := rest } := ⟨p.write, p.pending, p.reply⟩
    exact ⟨coreLaw_exec (lc.of_same hs) hx i he, imageLaw_exec (s := { s with pending := rest }) li hp i he⟩
  · exact ⟨lc.of_same (sameCore_tick s), li⟩
  · exact ⟨lc.of_same (.of_eq rfl rfl rfl rfl rfl), li⟩

end Sys2Proof.Machine
end

