-- ==== Sys2Proof/Proofs/Quantity.lean ====
section
/-! PROOFS. The arithmetic of the Quantity Unit: the interpolated factors and the requirement lie in their bounds (chapter 2). -/

namespace Sys2Proof.Machine

/-! ### Rounding up -/

/-- What a quotient rounded up is: the least number whose product with the divisor covers the dividend. -/
theorem ceilDiv_bounds (a : Nat) {b : Nat} (hb : 0 < b) : a ≤ b * ceilDiv a b ∧ b * ceilDiv a b < a + b := by
  have hd : b * ceilDiv a b + (a + b - 1) % b = a + b - 1 := Nat.div_add_mod _ _
  have hr : (a + b - 1) % b < b := Nat.mod_lt _ hb
  omega

/-! ### The flooding tables (R32, R33) -/

/-- The position of a clamped temperature above -10.0 degrees, in 0.1 degrees: 0 to 750 (R32). -/
theorem tableOffset_le (t : Int) : tableOffset t ≤ 750 := by
  unfold tableOffset clampInt
  split
  · omega
  · split <;> omega

/-- The distance above the table point is at most a whole step, and a whole step only at the last point (R32). -/
theorem tableRest_bounds (t : Int) :
    tableRest t ≤ 50 ∧ (tableOffset t < 750 → tableRest t ≤ 49) ∧
      (tableOffset t = 750 → tableIndex t = 14 ∧ tableRest t = 50) := by
  have := tableOffset_le t
  unfold tableRest tableIndex
  omega

/-- A weighted sum of two values, with weights that make 50, lies between 50 times the smaller and 50 times the larger
(R33). -/
theorem weighted_between (a b : Nat) {r : Nat} (hr : r ≤ 50) :
    50 * min a b ≤ a * (50 - r) + b * r ∧ a * (50 - r) + b * r ≤ 50 * max a b := by
  have split : ∀ x, x * (50 - r) + x * r = 50 * x := fun x => by
    rw [← Nat.mul_add, Nat.sub_add_cancel hr, Nat.mul_comm]
  constructor
  · rw [← split]
    exact Nat.add_le_add (Nat.mul_le_mul_right _ (Nat.min_le_left a b)) (Nat.mul_le_mul_right _ (Nat.min_le_right a b))
  · rw [← split]
    exact Nat.add_le_add (Nat.mul_le_mul_right _ (Nat.le_max_left a b)) (Nat.mul_le_mul_right _ (Nat.le_max_right a b))

/-- Settles O58: the factors are the quotients by 50 of a weighted sum of two table points whose weights make 50, so that they
lie between the two points. -/
theorem floodingFactors : Obligations.FloodingFactors := by
  unfold Obligations.FloodingFactors
  intro table t htable
  have hi : tableIndex t ≤ 14 := Nat.min_le_right _ _
  obtain ⟨hr, hrest, hlast⟩ := tableRest_bounds t
  refine ⟨tableIndex t, tableRest t, hi, ?_⟩
  obtain ⟨ha, ha'⟩ := htable ⟨tableIndex t, by omega⟩
  obtain ⟨hb, hb'⟩ := htable ⟨tableIndex t + 1, by omega⟩
  have hfd : designFactor table t = (weightedSum table t + 49) / 50 := rfl
  have hfc : ceilingFactor table t = weightedSum table t / 50 := rfl
  have hsum : weightedSum table t = table[tableIndex t] * (50 - tableRest t) + table[tableIndex t + 1] * tableRest t := rfl
  simp only [Fin.getElem_fin] at ha ha' hb hb'
  dsimp only
  rw [hfd, hfc, hsum]
  generalize table[tableIndex t] = a at *
  generalize table[tableIndex t + 1] = b at *
  obtain ⟨hmin, hmax⟩ := weighted_between a b hr
  have hoff : tableOffset t = ((if t < -100 then -100 else if 650 < t then 650 else t) + 100 : Int).toNat := rfl
  refine ⟨rfl, rfl, hr, fun h => hrest (by omega), fun h => hlast (by omega), by omega, rfl, rfl, fun h => ?_, fun h => ?_,
    by omega, by omega, by omega, by omega, by omega⟩
  · rw [h]
    omega
  · rw [h]
    omega

/-! ### The requirement (R35, R36) -/

/-- The design mass of a volume and a factor in 1 to 65535 (R35). -/
theorem designMass_bounds {v fd : Nat} (hv : 1 ≤ v) (hv' : v ≤ 65535) (hf : 1 ≤ fd) (hf' : fd ≤ 65535) :
    1 ≤ v * fd ∧ v * fd ≤ 4294836225 :=
  ⟨Nat.mul_le_mul hv hf, Nat.mul_le_mul hv' hf'⟩

/-- The product that the requirement divides, with a margin of at most 50 per cent (R36). -/
theorem marginProduct_bounds {mass m : Nat} (h : 1 ≤ mass) (h' : mass ≤ 4294836225) (hm : m ≤ 50) :
    100 ≤ mass * (100 + m) ∧ mass * (100 + m) ≤ 644225433750 :=
  ⟨Nat.mul_le_mul h (Nat.le_add_right 100 m), Nat.mul_le_mul h' (Nat.add_le_add_left hm 100)⟩

/-- Settles O59: the bounds of the mass and of its product with the margin, and the requirement as that product's quotient
rounded up. -/
theorem designMass : Obligations.DesignMass := by
  unfold Obligations.DesignMass
  intro v fd m hv hv' hf hf' hm
  obtain ⟨hmass, hmass'⟩ := designMass_bounds hv hv' hf hf'
  obtain ⟨hprod, hprod'⟩ := marginProduct_bounds hmass hmass' hm
  obtain ⟨hcover, hleast⟩ := ceilDiv_bounds (v * fd * (100 + m)) (b := 10000) (by decide)
  have hreq : requirement v fd m = ceilDiv (v * fd * (100 + m)) 10000 := rfl
  rw [← hreq] at hcover hleast
  refine ⟨hmass, hmass', by omega, hcover, hleast, hprod', by omega, by omega, by omega, by omega, fun c hc ha => ?_⟩
  have hshort : c.resum.shortage = c.figures.req := by simp [Claim.resum, ha, sumE]
  rw [hshort, hc]
  omega

end Sys2Proof.Machine
end


-- ==== Sys2Proof/Proofs/HallRequests.lean ====
section
/-! PROOFS. The requests and the expiries of a hall port: what a request leaves of its port, and what answers it
(R165, R166,
R169, R170, R172). -/

namespace Sys2Proof.Machine

/-! ### Expiries of a port (R30, R170) -/

/-- What setting a latch does to its state (R171). -/
theorem LatchState.raise_eq (x : LatchState) : x.raise = if x = .clear then .unreported else x := by cases x <;> rfl

/-- An ACTIVE link that is lost (R170). -/
theorem State.takeSupervisionExpiry_active {s : State} {h : Hall} (hl : (s.port h).link = .active)
    (hr : (s.port h).supervision.raised s.now .supervision = true) :
    s.takeSupervisionExpiry h = (s.updPort h fun p => { p with supervision := .inhibited }).linkLost h := by
  simp only [State.takeSupervisionExpiry, hr, if_true, hl]

/-- Settles O41: each expiry is an update of the one port. -/
theorem portExpiries : Obligations.PortExpiries := by
  unfold Obligations.PortExpiries
  constructor
  · intro s h hl hr
    refine ⟨s.takeSupervisionExpiry h, rfl, ?_⟩
    rw [State.takeSupervisionExpiry_active hl hr]
    refine ⟨?_, fun j hj => ?_, rfl⟩
    · rw [State.linkLost, State.port_setLatch, if_pos rfl, State.port_updPort_self, State.port_updPort_self,
        LatchState.raise_eq]
      rfl
    · rw [State.linkLost, State.port_setLatch, if_neg hj, State.port_updPort, if_neg hj, State.port_updPort, if_neg hj]
  · intro s h hr
    have e : s.takeFreshnessExpiry h = s.withdrawTemperature h := by simp only [State.takeFreshnessExpiry, hr, if_true]
    refine ⟨s.takeFreshnessExpiry h, rfl, ?_⟩
    rw [e]
    exact ⟨State.port_updPort_self .., fun j hj => by rw [State.withdrawTemperature, State.port_updPort, if_neg hj], rfl⟩

/-! ### A request taken (R165, R166, R169) -/

/-- The state in which hall `h`'s request of frame `f` is handed to its owner: the frame is taken, a reply is owed, and link
supervision has been served (R166). -/
def State.hallRequested (s : State) (h : Hall) (f : Frame) : State :=
  ((s.releaseFrame h f).updPort h fun p => { p with owed := true }).superviseLink h

theorem State.port_hallRequested (s : State) (h : Hall) (f : Frame) :
    (s.hallRequested h f).port h =
      { s.port h with
        rx := (s.port h).rx.release f, owed := true, link := .active
        supervision := .load s.now (s.now + ms (s.supervisionTimeout h)) .supervision } := by
  simp only [State.hallRequested, State.superviseLink, State.releaseFrame, State.port_updPort_self]
  rfl

/-- A request that is taken changes nothing but its port. -/
theorem State.hallRequested_eq (s : State) (h : Hall) (f : Frame) :
    s.hallRequested h f = { s with ports := (s.hallRequested h f).ports } := rfl

theorem State.port_hallRequested_other (s : State) {h j : Hall} (hj : j ≠ h) (f : Frame) :
    (s.hallRequested h f).port j = s.port j := by
  simp only [State.hallRequested, State.superviseLink, State.releaseFrame, State.port_updPort, if_neg hj]

/-- A port that receives and owes no reply gives a request, of an unknown kind or of its kind's length, to its owner, and
answers what the owner says (R165, R166). -/
theorem State.hallArrival_taken {s : State} {h : Hall} (hs : s.takesRequest h) {f : Frame} {length : Option Nat}
    (hl : length = none ∨ length = some f.payload.length) (owner : State → Answer) :
    s.hallArrival h f length owner =
      (owner (s.hallRequested h f)).state.answerHall h f.kind (owner (s.hallRequested h f)).result
        (owner (s.hallRequested h f)).live := by
  obtain ⟨hoff, howed⟩ := hs
  have ho : ((s.releaseFrame h f).port h).owed = false := by rw [State.releaseFrame, State.port_updPort_self, howed]
  have hlen : (length.isSome && length ≠ some f.payload.length) = false := by rcases hl with e | e <;> simp [e]
  unfold State.hallArrival
  rw [if_neg hoff]
  dsimp only
  rw [ho, hlen]
  rfl

/-- From `s` to `u` hall `h`'s request has been taken and its owner has acted: a reply is owed, and the link is ACTIVE and
supervised from now (R166, R169). -/
structure Requested (s u : State) (h : Hall) : Prop where
  now : u.now = s.now
  owed : (u.port h).owed = true
  active : (u.port h).link = .active
  supervised : (u.port h).supervision = .load s.now (s.now + ms (s.supervisionTimeout h)) .supervision

theorem requested_hallRequested (s : State) (h : Hall) (f : Frame) : Requested s (s.hallRequested h f) h := by
  have e := s.port_hallRequested h f
  exact ⟨rfl, by rw [e], by rw [e], by rw [e]⟩

/-- An owner that leaves the supervision of the port answers the same request. -/
theorem Requested.of_port {s u v : State} {h : Hall} (r : Requested s u h) (hn : v.now = u.now)
    (ho : (v.port h).owed = (u.port h).owed) (hl : (v.port h).link = (u.port h).link)
    (hs : (v.port h).supervision = (u.port h).supervision) : Requested s v h :=
  ⟨hn.trans r.now, ho.trans r.owed, hl.trans r.active, hs.trans r.supervised⟩

/-- The port `p` once `reply` has been formed, to be transmitted from `begins` on (R165, R172). -/
def HallPort.answering (p : HallPort) (reply : HallReply) (begins : Time) : HallPort :=
  { p with reply := some reply, replyBegins := some begins, latches := p.latches.map LatchState.report }

theorem State.port_answerHall_eq (s : State) (h j : Hall) (kind : Byte) (result : Result) (live : Option LiveFigures) :
    (s.answerHall h kind result live).port j = (s.updPort h fun p =>
      p.answering (s.hallReply h kind result live) (s.now + Config.replyDelay s.choices)).port j := rfl

theorem State.port_answerHall (s : State) (h : Hall) (kind : Byte) (result : Result) (live : Option LiveFigures) :
    (s.answerHall h kind result live).port h =
      (s.port h).answering (s.hallReply h kind result live) (s.now + Config.replyDelay s.choices) := by
  rw [State.port_answerHall_eq, State.port_updPort_self]

theorem State.port_answerHall_other (s : State) {h j : Hall} (hj : j ≠ h) (kind : Byte) (result : Result)
    (live : Option LiveFigures) : (s.answerHall h kind result live).port j = s.port j := by
  rw [State.port_answerHall_eq, State.port_updPort, if_neg hj]

/-- The reply formed once the owner has acted answers the request (R165 to R167, R172). -/
theorem Requested.answered {s u : State} {h : Hall} (r : Requested s u h) (kind : Byte) (result : Result)
    (live : Option LiveFigures) : HallAnswered s (u.answerHall h kind result live) h kind result := by
  have e := u.port_answerHall h kind result live
  refine ⟨by rw [e]; exact r.owed, by rw [e]; exact r.active, by rw [e]; exact r.supervised, ?_, ?_⟩
  · refine ⟨1 + Config.replyTiming u.choices % 5, by omega, by omega, ?_⟩
    rw [e, ← r.now]
    rfl
  · exact ⟨u.hallReply h kind result live, by rw [e]; rfl, rfl, rfl, rfl, rfl, rfl, by rw [e]; rfl⟩

/-! ### QUERY (R43, R44) -/

/-- The refusal of a QUERY for hall `h` (R44). -/
def State.queryRefusal (s : State) (h : Hall) : Option Result :=
  if s.mode = .uncommissioned then some .notCommissioned
  else if s.mode = .maintenance then some .lockout
  else if (s.hallRec h).commissioned = false then some .notCommissioned else none

/-- After start-up a QUERY is refused, or answered with the live figures (R43, R44). -/
theorem queryOwner_eq {s : State} (h : Hall) (hm : s.mode ≠ .startup) :
    queryOwner h s =
      { state := s, result := (s.queryRefusal h).getD .accepted
        live := if s.queryRefusal h = none then some (s.liveFigures h) else none } := by
  unfold queryOwner State.queryRefusal
  cases hmode : s.mode with
  | startup => exact absurd hmode hm
  | uncommissioned => simp
  | maintenance => simp
  | normal => cases (s.hallRec h).commissioned <;> simp
  | maintPending => cases (s.hallRec h).commissioned <;> simp

/-- The figures of a hall read its reported temperature, the time and the image (R31 to R37). -/
theorem State.figures_congr {s u : State} {h : Hall} (hn : u.now = s.now) (hi : u.store = s.store)
    (ht : (u.port h).temp = (s.port h).temp) (hf : (u.port h).freshness = (s.port h).freshness) :
    u.figures h = s.figures h := by
  have e : u.temperatureUsed h = s.temperatureUsed h := by
    simp only [State.temperatureUsed, State.hallRec, hn, hi, ht, hf]
  simp only [State.figures, e, State.image, State.hallRec, hi]

theorem State.figures_hallRequested (s : State) (h : Hall) (f : Frame) : (s.hallRequested h f).figures h = s.figures h := by
  have e := s.port_hallRequested h f
  exact State.figures_congr rfl rfl (by rw [e]) (by rw [e])

/-- Settles O47: the owner of a QUERY changes nothing, so that the reply is all that is left. -/
theorem queryAnswered : Obligations.QueryAnswered := by
  unfold Obligations.QueryAnswered
  intro s h
  refine ⟨fun hoff => ?_, fun hs hm => ?_⟩
  · have e : s.hallArrival h { kind := 5, payload := [] } (some 0) (queryOwner h) = s := if_pos hoff
    exact congrArg _ e
  · obtain ⟨u, hu⟩ : ∃ u, u = s.hallRequested h { kind := 5, payload := [] } := ⟨_, rfl⟩
    have ho := queryOwner_eq (s := u) h (by rw [hu]; exact hm)
    have hq : u.queryRefusal h = s.queryRefusal h := by rw [hu]; rfl
    have hf : u.liveFigures h =
        { figures := s.figures h
          minAcceptable := ((s.figures h).req * (s.hallRec h).minFraction + 99) / 100 } := by
      rw [State.liveFigures, hu, State.figures_hallRequested]
      rfl
    have ht := State.hallArrival_taken hs (f := { kind := 5, payload := [] }) (.inr rfl) (queryOwner h)
    have req := requested_hallRequested s h { kind := 5, payload := [] }
    have hp := s.port_hallRequested h { kind := 5, payload := [] }
    have hj : ∀ j, j ≠ h → u.port j = s.port j := fun j hj => by rw [hu, State.port_hallRequested_other s hj]
    have hrest : u = { s with ports := u.ports } := by rw [hu]; rfl
    rw [← hu, ho, hq] at ht
    rw [← hu] at req hp
    dsimp only at ht
    have he : exec (.query h []) s = .next (u.answerHall h 5 ((s.queryRefusal h).getD .accepted)
        (if s.queryRefusal h = none then some (u.liveFigures h) else none)) := congrArg _ ht
    have e := u.port_answerHall h 5 ((s.queryRefusal h).getD .accepted)
      (if s.queryRefusal h = none then some (u.liveFigures h) else none)
    refine ⟨_, _, he, by rw [e]; rfl, fun j hne => ?_, by rw [e, hp]; rfl, by rw [e, hp]; rfl, by rw [e, hp]; rfl, ?_,
      fun x hx => ?_,
      fun hx => ?_⟩
    · rw [State.port_answerHall_other u hne, hj j hne]
    · rw [hrest]
      rfl
    · have hx' : s.queryRefusal h = some x := hx
      rw [hx']
      exact ⟨req.answered 5 x _, by simp [State.hallReply]⟩
    · have hx' : s.queryRefusal h = none := hx
      rw [hx', if_pos rfl, hf]
      exact ⟨req.answered 5 .accepted _, rfl⟩

end Sys2Proof.Machine
end


-- ==== Sys2Proof/Proofs/Polls.lean ====
section
/-! PROOFS. The POLL of a hall: its temperature, and what its hold level does to the hall's claim (R30, R59 to R63, R168). -/

namespace Sys2Proof.Machine

/-! ### The port of a POLL (R30, R59) -/

theorem State.port_of_ports {s t : State} (h : t.ports = s.ports) (j : Hall) : t.port j = s.port j := by
  rw [State.port, h, State.port]

/-- What the hold level of a POLL leaves of the port: the level observed, and the re-arm flag cleared by a level of 0 (R59). -/
theorem State.port_observeHold (s : State) (h : Hall) (level : Bool) :
    (s.observeHold h level).port h = { s.port h with holdLevel := level, reArm := (s.port h).reArm && level } := by
  unfold State.observeHold
  cases level with
  | false =>
    rw [if_neg (by decide)]
    have e := State.port_updPort_self s h fun p => { p with reArm := false, holdLevel := false }
    rw [Bool.and_false, ← e]
    exact State.port_of_ports (by simp) h
  | true =>
    rw [if_pos rfl, State.port_updPort_self, Bool.and_true]
    split
    · rw [State.port_of_ports (s := s) (by simp)]
    · rfl

theorem State.port_reportTemperature (s : State) (h : Hall) (t : Int) :
    (s.reportTemperature h t).port h =
      { s.port h with
        temp := some { temperature := clampInt (-400) 850 t, arrival := s.now, clamped := clampInt (-400) 850 t ≠ t }
        freshness := .load s.now (s.now + Config.freshnessTime) .freshness } :=
  State.port_updPort_self s h _

/-! ### The hold level and the claim (R59 to R63) -/

/-- The level of a POLL that is 1: a hold edge when the level observed was 0 and the re-arm flag is clear, and no more than the
level observed otherwise (R59). -/
theorem State.observeHold_true (s : State) (h : Hall) :
    s.observeHold h true = State.updPort
      (if (s.port h).holdLevel = false ∧ (s.port h).reArm = false then s.holdEdge h else s) h
      fun p => { p with holdLevel := true } := by
  unfold State.observeHold
  rw [if_pos rfl]
  dsimp only
  congr 1
  cases (s.port h).holdLevel <;> cases (s.port h).reArm <;> simp

theorem State.observeHold_false (s : State) (h : Hall) :
    s.observeHold h false = (s.updPort h fun p => { p with reArm := false, holdLevel := false }).holdFall h := rfl

/-- The states in which a hold edge does nothing (R60 to R62). -/
def ClaimState.unheld : ClaimState → Bool
  | .countdown | .waiting | .selecting => false
  | _ => true

theorem State.holdEdge_of_unheld {s : State} {h : Hall} (hc : ∀ c, s.claim h = some c → c.state.unheld = true) :
    s.holdEdge h = s := by
  unfold State.holdEdge
  cases hcl : s.claim h with
  | none => rfl
  | some c =>
    have hu := hc c hcl
    cases hst : c.state <;> simp_all [ClaimState.unheld]

theorem State.holdFall_of_not_hold {s : State} {h : Hall} (hc : ∀ c, s.claim h = some c → c.state ≠ .hold) :
    s.holdFall h = s := by
  unfold State.holdFall
  cases hcl : s.claim h with
  | none => rfl
  | some c => exact if_neg (hc c hcl)

/-- The claim `c` held from `now` on with `left` ms remaining (R60, R61). -/
def Claim.held (c : Claim) (now : Time) (left : Nat) : Claim :=
  { c with state := .hold, remaining := some left, holdStartedAt := some now, readyAt := none }

/-- The unit of a claim in HOLD: the hold limit from now on, and nothing where the limit is 0 (R60). -/
def State.holdUnit (s : State) : CompareUnit :=
  if s.timing.holdLimit = 0 then .inhibited else .load s.now (s.now + ms s.timing.holdLimit) .holdLimit

theorem State.enterHold_records {s : State} {h : Hall} {c : Claim} (hc : s.claim h = some c) (left : Nat) :
    (s.enterHold h left).claim h = some (c.held s.now left) ∧ (s.enterHold h left).unit h = s.holdUnit := by
  have hcl := State.claim_updClaim_of hc fun c => c.held s.now left
  unfold State.enterHold State.holdUnit
  dsimp only
  split
  · exact ⟨hcl, State.unit_removeUnit_self ..⟩
  · exact ⟨hcl, State.unit_loadUnit_self ..⟩

/-- A hold edge of a claim in COUNTDOWN: it is held with the remaining time it had (R60). -/
theorem State.holdEdge_of_countdown {s : State} {h : Hall} {c : Claim} (hc : s.claim h = some c) (hs : c.state = .countdown) :
    (s.holdEdge h).claim h = some (c.held s.now ((s.unit h).remaining s.now)) ∧ (s.holdEdge h).unit h = s.holdUnit := by
  simp only [State.holdEdge, hc, hs]
  exact State.enterHold_records hc _

/-- A hold edge of a claim in WAITING: held with nothing remaining, and off the wait list (R61). -/
theorem State.holdEdge_of_waiting {s : State} {h : Hall} {c : Claim} (hc : s.claim h = some c) (hs : c.state = .waiting) :
    (s.holdEdge h).claim h = some (c.held s.now 0) ∧ (s.holdEdge h).unit h = s.holdUnit ∧
      (s.holdEdge h).manifold = { s.manifold with waitList := s.manifold.waitList.filter fun w => w.hall ≠ h } := by
  obtain ⟨h1, h2⟩ := State.enterHold_records (s := s.leaveWaitList h) hc 0
  simp only [State.holdEdge, hc, hs]
  exact ⟨h1, h2, by simp [State.leaveWaitList]⟩

/-- A hold edge of a claim in SELECTING: held with nothing remaining, its schedule gone and its grant withdrawn (R61, R101). -/
theorem State.holdEdge_of_selecting {s : State} {h : Hall} {c : Claim} (hc : s.claim h = some c) (hs : c.state = .selecting) :
    (s.holdEdge h).claim h = some { c.held s.now 0 with schedule := none } ∧ (s.holdEdge h).unit h = s.holdUnit ∧
      (s.manifold.lastHall = some h → GrantWithdrawn s (s.holdEdge h) h) := by
  have hcl := State.claim_updClaim_of hc fun c => { c with schedule := none }
  obtain ⟨h1, h2⟩ := State.enterHold_records hcl 0
  simp only [State.holdEdge, hc, hs]
  refine ⟨?_, ?_, fun hl => (grantWithdrawn_withdrawGrant (by simpa using hl)).congr ?_⟩
  · exact Eq.trans (by simp [State.claim]) h1
  · exact (State.unit_of_units (by simp) h).trans h2
  · unfold State.enterHold
    dsimp only
    split <;> rfl

/-- A level of 1 that is no edge, an edge that finds no claim to hold, and a level of 0 that finds none in HOLD change no claim
(R59 to R63). -/
theorem State.observeHold_keeps {s : State} {h : Hall} {level : Bool}
    (hup : level = true → (s.port h).holdLevel = true ∨ (s.port h).reArm = true ∨
      ∀ c, s.claim h = some c → c.state.unheld = true)
    (hdown : level = false → ∀ c, s.claim h = some c → c.state ≠ .hold) :
    (s.observeHold h level).claims = s.claims ∧ (s.observeHold h level).units = s.units ∧
      (s.observeHold h level).manifold = s.manifold := by
  cases level with
  | false =>
    have e := State.holdFall_of_not_hold (s := s.updPort h fun p => { p with reArm := false, holdLevel := false }) (hdown rfl)
    rw [State.observeHold_false, e]
    exact ⟨rfl, rfl, rfl⟩
  | true =>
    have e : (if (s.port h).holdLevel = false ∧ (s.port h).reArm = false then s.holdEdge h else s) = s := by
      split
      · rename_i hedge
        refine State.holdEdge_of_unheld ?_
        simpa [hedge.1, hedge.2] using hup rfl
      · rfl
    rw [State.observeHold_true, e]
    exact ⟨rfl, rfl, rfl⟩

/-- A level of 1 that is an edge hands a hold edge to the claim (R59). -/
theorem State.observeHold_edge {s : State} {h : Hall} (hl : (s.port h).holdLevel = false) (hr : (s.port h).reArm = false) :
    s.observeHold h true = (s.holdEdge h).updPort h fun p => { p with holdLevel := true } := by
  rw [State.observeHold_true, if_pos ⟨hl, hr⟩]

/-- A hold fall of a claim in HOLD: COUNTDOWN from the larger of its remaining and the resume minimum (R63). -/
theorem State.holdFall_of_hold {s : State} {h : Hall} {c : Claim} {r : Nat} (hc : s.claim h = some c) (hs : c.state = .hold)
    (hr : c.remaining = some r) :
    (s.holdFall h).claim h = some { c with
      state := .countdown, remaining := none, holdStartedAt := none
      delaySource := if s.timing.resumeMinimum ≤ r then .remaining else .resumeMin } ∧
    (s.holdFall h).unit h = .load s.now (s.now + ms (max r s.timing.resumeMinimum)) .countdown := by
  have resumed : ∀ left source, (s.resume h left source).claim h = some { c with
      state := .countdown, remaining := none, holdStartedAt := none, delaySource := source } ∧
      (s.resume h left source).unit h = .load s.now (s.now + ms left) .countdown := fun left source =>
    ⟨State.claim_updClaim_of hc _, State.unit_loadUnit_self ..⟩
  simp only [State.holdFall, hc, hs, if_true, State.endHold, hr, Option.getD_some]
  split
  · rename_i hle
    rw [Nat.max_eq_left hle]
    exact resumed _ _
  · rename_i hle
    rw [Nat.max_eq_right (by omega)]
    exact resumed _ _

/-- What an edge of the hold level does to a claim in COUNTDOWN (R60). -/
theorem State.observeHold_countdown {s : State} {h : Hall} {level : Bool} {c : Claim} (hup : level = true)
    (hl : (s.port h).holdLevel = false) (hr : (s.port h).reArm = false) (hc : s.claim h = some c) (hs : c.state = .countdown) :
    (s.observeHold h level).claim h = some (c.held s.now ((s.unit h).remaining s.now)) ∧
      (s.observeHold h level).unit h = s.holdUnit := by
  rw [hup, State.observeHold_edge hl hr]
  exact State.holdEdge_of_countdown hc hs

/-- What an edge of the hold level does to a claim in WAITING or SELECTING (R61, R101). -/
theorem State.observeHold_queued {s : State} {h : Hall} {level : Bool} {c : Claim} (hup : level = true)
    (hl : (s.port h).holdLevel = false) (hr : (s.port h).reArm = false) (hc : s.claim h = some c)
    (hs : c.state = .waiting ∨ c.state = .selecting) :
    (s.observeHold h level).claim h =
        some { c.held s.now 0 with schedule := if c.state = .selecting then none else c.schedule } ∧
      (s.observeHold h level).unit h = s.holdUnit ∧ (s.observeHold h level).cyls = s.cyls ∧
      (c.state = .waiting → (s.observeHold h level).manifold =
        { s.manifold with waitList := s.manifold.waitList.filter fun w => w.hall ≠ h }) ∧
      (c.state = .selecting → s.manifold.lastHall = some h → GrantWithdrawn s (s.observeHold h level) h) := by
  have hcyls : ((s.holdEdge h).updPort h fun p => { p with holdLevel := true }).cyls = s.cyls := by simp
  rw [hup, State.observeHold_edge hl hr]
  rcases hs with hs | hs
  · obtain ⟨k1, k2, k3⟩ := State.holdEdge_of_waiting hc hs
    rw [hs]
    exact ⟨k1, k2, hcyls, fun _ => k3, nofun⟩
  · obtain ⟨k1, k2, k3⟩ := State.holdEdge_of_selecting hc hs
    rw [hs]
    refine ⟨k1, k2, hcyls, nofun, fun _ hlast => ?_⟩
    obtain ⟨g1, g2, g3⟩ := k3 hlast
    exact ⟨g1, g2, g3⟩

/-- What a level of 0 does to a claim in HOLD (R63). -/
theorem State.observeHold_resumes {s : State} {h : Hall} {level : Bool} {c : Claim} {r : Nat} (hdown : level = false)
    (hc : s.claim h = some c) (hs : c.state = .hold) (hr : c.remaining = some r) :
    (s.observeHold h level).claim h = some { c with
      state := .countdown, remaining := none, holdStartedAt := none
      delaySource := if s.timing.resumeMinimum ≤ r then .remaining else .resumeMin } ∧
    (s.observeHold h level).unit h = .load s.now (s.now + ms (max r s.timing.resumeMinimum)) .countdown := by
  rw [hdown, State.observeHold_false]
  exact State.holdFall_of_hold (s := s.updPort h fun p => { p with reArm := false, holdLevel := false }) hc hs hr

/-! ### The owner of a POLL (R168) -/

/-- A yes/no byte within its codes. -/
theorem yesNo_of_le {b : Byte} (h : b.toNat ≤ 1) : (b = 0 ∨ b = 1) ∧ yesNo b = some (decide (b = 1)) := by
  have hb : b = 0 ∨ b = 1 := by
    rcases Nat.le_one_iff_eq_zero_or_eq_one.1 h with e | e
    · exact .inl (BitVec.eq_of_toNat_eq e)
    · exact .inr (BitVec.eq_of_toNat_eq e)
  refine ⟨hb, ?_⟩
  rcases hb with rfl | rfl <;> rfl

theorem yesNo_of_lt {b : Byte} (h : 1 < b.toNat) : yesNo b = none := by
  have h0 : b ≠ 0 := by
    rintro rfl
    simp at h
  have h1 : b ≠ 1 := by
    rintro rfl
    simp at h
  rw [yesNo, if_neg h0, if_neg h1]

/-- A POLL with a field out of its codes is refused, and taken in no part (R168). -/
theorem pollOwner_bad {present hold : Byte} (hb : 1 < present.toNat ∨ 1 < hold.toNat) (h : Hall) (t1 t0 : Byte) (s : State) :
    pollOwner h [present, t1, t0, hold] s = { state := s, result := .badField, live := none } := by
  unfold pollOwner
  dsimp only
  rcases hb with hb | hb
  · rw [yesNo_of_lt hb]
  · rw [yesNo_of_lt hb]
    cases yesNo present <;> rfl

/-- The state in which a valid POLL's hold level is observed: its temperature reported when it carries one (R30, R168). -/
def State.polled (s : State) (h : Hall) (present t1 t0 : Byte) : State :=
  if present = 1 then s.reportTemperature h (signed16 t1 t0) else s

theorem pollOwner_valid {present hold : Byte} (hp : present.toNat ≤ 1) (hh : hold.toNat ≤ 1) (h : Hall) (t1 t0 : Byte)
    (s : State) : pollOwner h [present, t1, t0, hold] s =
      { state := (s.polled h present t1 t0).observeHold h (decide (hold = 1)), result := .accepted, live := none } := by
  unfold pollOwner State.polled
  dsimp only
  rw [(yesNo_of_le hp).2, (yesNo_of_le hh).2]
  simp only [decide_eq_true_eq]

/-- What the observation of a valid POLL's hold level finds: nothing changed but the port, whose temperature is the POLL's when
it carries one (R30). -/
theorem State.polled_rule (s : State) (h : Hall) (f : Frame) (present t1 t0 : Byte) :
    ∃ x ps, x = (s.hallRequested h f).polled h present t1 t0 ∧ x = { s with ports := ps } ∧ Requested s x h ∧
      (x.port h).holdLevel = (s.port h).holdLevel ∧ (x.port h).reArm = (s.port h).reArm ∧
      (present = 1 → (x.port h).temp = some
          { temperature := clampInt (-400) 850 (signed16 t1 t0), arrival := s.now
            clamped := clampInt (-400) 850 (signed16 t1 t0) ≠ signed16 t1 t0 } ∧
        (x.port h).freshness = .load s.now (s.now + Config.freshnessTime) .freshness) ∧
      (present ≠ 1 → (x.port h).temp = (s.port h).temp ∧ (x.port h).freshness = (s.port h).freshness) := by
  have r := requested_hallRequested s h f
  have e := s.port_hallRequested h f
  unfold State.polled
  by_cases hp : present = 1
  · have e' := (s.hallRequested h f).port_reportTemperature h (signed16 t1 t0)
    rw [if_pos hp]
    refine ⟨_, _, rfl, rfl, r.of_port rfl (by rw [e']) (by rw [e']) (by rw [e']), by rw [e', e], by rw [e', e],
      fun _ => ?_, fun hn => absurd hp hn⟩
    rw [e']
    exact ⟨rfl, rfl⟩
  · rw [if_neg hp]
    refine ⟨_, _, rfl, rfl, r, by rw [e], by rw [e], fun hn => absurd hn hp, fun _ => ?_⟩
    rw [e]
    exact ⟨rfl, rfl⟩

/-- A reply changes nothing but its port and the reply timing drawn (R165). -/
theorem State.answerHall_eq (s : State) (h : Hall) (kind : Byte) (result : Result) (live : Option LiveFigures) :
    s.answerHall h kind result live = { s with
      ports := (s.answerHall h kind result live).ports, choices := (s.answerHall h kind result live).choices } := rfl

/-- A POLL of which a field is out of its codes is answered with BAD_FIELD, and leaves its port as it stood (R168). -/
theorem poll_refused {s : State} {h : Hall} {present t1 t0 hold : Byte} (hs : s.takesRequest h)
    (hb : 1 < present.toNat ∨ 1 < hold.toNat) :
    ∃ t, exec (.poll h [present, t1, t0, hold]) s = .next t ∧ HallAnswered s t h 1 .badField ∧
      (t.port h).holdLevel = (s.port h).holdLevel ∧ (t.port h).reArm = (s.port h).reArm ∧
      (t.port h).temp = (s.port h).temp ∧ (t.port h).freshness = (s.port h).freshness ∧
      (∀ j, j ≠ h → t.port j = s.port j) ∧ t = { s with ports := t.ports, choices := t.choices } := by
  have ht := State.hallArrival_taken hs (f := { kind := 1, payload := [present, t1, t0, hold] }) (.inr rfl)
    (pollOwner h [present, t1, t0, hold])
  rw [pollOwner_bad hb] at ht
  have he := (s.hallRequested h { kind := 1, payload := [present, t1, t0, hold] }).port_answerHall h 1 .badField none
  have hp := s.port_hallRequested h { kind := 1, payload := [present, t1, t0, hold] }
  have hx : exec (.poll h [present, t1, t0, hold]) s = .next
      ((s.hallRequested h { kind := 1, payload := [present, t1, t0, hold] }).answerHall h 1 .badField none) :=
    congrArg Host.Outcome.next ht
  refine ⟨_, hx, (requested_hallRequested s h _).answered 1 .badField none, by rw [he, hp]; rfl,
    by rw [he, hp]; rfl, by rw [he, hp]; rfl, by rw [he, hp]; rfl, fun j hj => ?_, ?_⟩
  · rw [State.port_answerHall_other _ hj, State.port_hallRequested_other s hj]
  · rw [State.answerHall_eq, State.hallRequested_eq]

/-- Settles O42: a valid POLL stores its temperature, and its hold level then acts on the claim by the edge that it makes. -/
theorem pollTaken : Obligations.PollTaken := by
  unfold Obligations.PollTaken
  intro s h present t1 t0 hold hs
  refine ⟨poll_refused hs, fun hp hh => ?_⟩
  have ht := State.hallArrival_taken hs (f := { kind := 1, payload := [present, t1, t0, hold] }) (.inr rfl)
    (pollOwner h [present, t1, t0, hold])
  obtain ⟨x, ps, hxdef, hx, req, hlevel, harm, htemp, hkept⟩ :=
    s.polled_rule h { kind := 1, payload := [present, t1, t0, hold] } present t1 t0
  rw [pollOwner_valid hp hh, ← hxdef] at ht
  obtain ⟨v, hv⟩ : ∃ v, v = x.observeHold h (decide (hold = 1)) := ⟨_, rfl⟩
  have hport : v.port h = { x.port h with holdLevel := decide (hold = 1), reArm := (x.port h).reArm && decide (hold = 1) } :=
    hv ▸ x.port_observeHold h (decide (hold = 1))
  have hothers : ∀ j, j ≠ h → v.claim j = x.claim j := fun j hj => hv ▸ (x.observeHold_other hj _).1
  have hkeeps := State.observeHold_keeps (s := x) (h := h) (level := decide (hold = 1))
  have hcountdown := fun c => State.observeHold_countdown (s := x) (h := h) (level := decide (hold = 1)) (c := c)
  have hqueued := fun c => State.observeHold_queued (s := x) (h := h) (level := decide (hold = 1)) (c := c)
  have hresumes := fun c r => State.observeHold_resumes (s := x) (h := h) (level := decide (hold = 1)) (c := c) (r := r)
  have reqv := req.of_port (v := v) (by simp [hv]) (by rw [hport]) (by rw [hport]) (by rw [hport])
  have hexec : exec (.poll h [present, t1, t0, hold]) s = .next (v.answerHall h 1 .accepted none) :=
    hv ▸ congrArg Host.Outcome.next ht
  have he := v.port_answerHall h 1 .accepted none
  rw [hlevel, harm] at hkeeps hcountdown hqueued
  rw [← hv] at hkeeps hcountdown hqueued hresumes
  clear hv hxdef ht
  subst hx
  refine ⟨_, hexec, reqv.answered 1 .accepted none, by rw [he, hport]; rfl, fun h1 => ?_, fun h0 => ?_, ?_, hothers,
    fun h1 hno => ?_, fun h1 hcl => ?_, fun h0 hcl => hkeeps (by simp [h0]) fun _ => hcl,
    fun cl h1 hl hr hc hst => hcountdown cl (decide_eq_true h1) hl hr hc hst,
    fun cl h1 hl hr hc hst => ?_, fun cl r h0 hc hst hrem => hresumes cl r (by rw [h0]; rfl) hc hst hrem⟩
  · rw [he, hport]
    exact htemp h1
  · rw [he, hport]
    exact hkept (by rw [h0]; decide)
  · rw [he, hport]
    exact congrArg (· && _) harm
  · obtain ⟨k1, k2, -⟩ := hkeeps (fun _ => hno.imp_right .inl) (by simp [h1])
    exact ⟨k1, k2⟩
  · refine hkeeps (fun _ => .inr (.inr fun c hc => ?_)) (by simp [h1])
    rcases hcl c hc with e | e | e | e | e
    · rw [e]; rfl
    · rw [e]; rfl
    · rw [e]; rfl
    · rw [e]; rfl
    · revert e
      cases c.state <;> simp [ClaimState.terminal, ClaimState.unheld]
  · obtain ⟨k1, k2, k3, k4, k5⟩ := hqueued cl (decide_eq_true h1) hl hr hc hst
    refine ⟨k1, k2, k3, k4, fun hs hlast => ?_⟩
    obtain ⟨g1, g2, g3⟩ := k5 hs hlast
    exact ⟨g1, g2, g3⟩

end Sys2Proof.Machine
end

