-- ==== Sys2Proof/Proofs/FirstAllocations.lean ====
section
/-! PROOFS. What a first allocation gives a claim, and what it leaves to the others (R54, R73, R79). -/

namespace Sys2Proof.Machine

/-! ### Whether the pool serves a claim (R79) -/

/-- A claim that is served: classes 1 to 4 reach its minimum acceptable quantity, and something is taken (R79). -/
theorem State.servable_iff {s : State} {h : Hall} {c : Claim} :
    s.servable h c = true ↔ s.minAcceptable h c.figures.req ≤ sumE (s.takeCredited .firstAllocation c).1 ∧
      s.takenList .firstAllocation c ≠ [] := by
  simp [State.servable]

theorem State.servable_eq (s : State) (h : Hall) (c : Claim) :
    (s.minAcceptable h c.figures.req ≤ sumE (s.takeCredited .firstAllocation c).1 &&
      !(s.takenList .firstAllocation c).isEmpty) = s.servable h c := by
  rw [Bool.eq_iff_iff, State.servable_iff]
  simp

/-- A first allocation of a claim that the pool serves commits what is taken (R54, R79). -/
theorem State.firstAllocation_of_servable {s : State} {h : Hall} {c : Claim} (hc : s.claim h = some c)
    (hv : s.servable h c = true) : s.firstAllocation h =
      (s.commit h (s.takenList .firstAllocation c)).updClaim h fun c =>
        { c with flags := { c.flags with starved := false } } := by
  rw [s.firstAllocation_eq h c hc, s.servable_eq, hv, if_pos rfl]
  rfl

/-- A first allocation of a claim that the pool does not serve sets STARVED, and nothing else (R54, R79). -/
theorem State.firstAllocation_of_unservable {s : State} {h : Hall} {c : Claim} (hc : s.claim h = some c)
    (hv : s.servable h c = false) : s.firstAllocation h =
      s.updClaim h fun c => { c with flags := { c.flags with starved := true } } := by
  rw [s.firstAllocation_eq h c hc, s.servable_eq, hv, if_neg (by decide)]
  rfl

/-- An update that leaves the claim as it was changes nothing. -/
theorem State.updClaim_same {s : State} {h : Hall} {c : Claim} (hc : s.claim h = some c) {f : Claim → Claim} (hf : f c = c) :
    s.updClaim h f = s := by
  have e : s.claims.set h (some c) = s.claims := by
    rw [← hc]
    exact Vector.set_getElem_self ..
  refine State.eq_of_fields rfl rfl rfl rfl rfl rfl rfl ?_ rfl rfl rfl rfl rfl rfl rfl rfl rfl
  rw [State.updClaim, hc, Option.map_some, hf]
  exact e

/-- A first allocation of a STARVED-flagged claim that the pool does not serve leaves everything as it was (R86). -/
theorem State.firstAllocation_starved {s : State} {h : Hall} {c : Claim} (hc : s.claim h = some c)
    (hv : s.servable h c = false) (hf : c.flags.starved = true) : s.firstAllocation h = s := by
  rw [State.firstAllocation_of_unservable hc hv]
  exact State.updClaim_same hc (by rw [← hf])

/-! ### What a served claim holds (R42, R73, R78 to R81) -/

/-- The claim `c` once the first allocation that `s` has for it has been committed. -/
def State.servedClaim (s : State) (c : Claim) : Claim :=
  { s.committed c (s.takenList .firstAllocation c) with
    flags := { (s.committed c (s.takenList .firstAllocation c)).flags with starved := false } }

theorem State.servedClaim_allocation (s : State) (c : Claim) :
    (s.servedClaim c).allocation = c.allocation ++ s.takenList .firstAllocation c := by
  rw [← (s.committed_fields c _).1, State.servedClaim]

theorem State.servedClaim_state (s : State) (c : Claim) : (s.servedClaim c).state = c.state := by
  rw [← (s.committed_fields c (s.takenList .firstAllocation c)).2.1, State.servedClaim]

/-- A commit leaves the ready at of its claim. -/
theorem State.servedClaim_readyAt (s : State) (c : Claim) : (s.servedClaim c).readyAt = c.readyAt := by
  unfold State.servedClaim State.committed
  split <;> rfl

theorem ClaimState.terminal_of_shortOfFiring {st : ClaimState} (h : st.shortOfFiring = true) : st.terminal = false := by
  cases st <;> simp_all [ClaimState.shortOfFiring, ClaimState.terminal]

theorem State.claim_firstAllocation {s : State} {h : Hall} {c : Claim} (hc : s.claim h = some c)
    (hv : s.servable h c = true) (ht : c.state.terminal = false) :
    (s.firstAllocation h).claim h = some (s.servedClaim c) := by
  rw [State.firstAllocation_of_servable hc hv]
  exact State.claim_updClaim_of (s.claim_commit h _ c hc ht) _

/-- A first allocation that serves a claim short of FIRING (R54, R79). -/
theorem served_firstAllocation {s : State} {h : Hall} {c : Claim} (hc : s.claim h = some c) (hv : s.servable h c = true)
    (hs : c.state.shortOfFiring = true) : Served s (s.firstAllocation h) h c (s.servedClaim c) := by
  have ht := ClaimState.terminal_of_shortOfFiring hs
  have hne := (State.servable_iff.1 hv).2
  have e : s.committed c (s.takenList .firstAllocation c) =
      { c.changedTo true (c.allocation ++ s.takenList .firstAllocation c) with
        flags := { (c.changedTo true (c.allocation ++ s.takenList .firstAllocation c)).flags with
          reserveUsed := c.flags.reserveUsed || s.drawsReserve (s.takenList .firstAllocation c)
          unreadIncluded := c.flags.unreadIncluded || s.drawsUnread (s.takenList .firstAllocation c) } } := if_neg hne
  refine ⟨s.servedClaim_allocation c, ?_, ?_, rfl, ?_, rfl, fun l => ?_, fun x hx => ?_, ?_⟩
  · rw [State.servedClaim, e]
    rfl
  · rw [State.servedClaim, e]
    rfl
  · rw [State.servedClaim, e]
    simp only [Claim.changedTo, hs, true_or, and_self, if_true, ne_eq, Nat.sub_eq_zero_iff_le, not_le]
  · rw [State.firstAllocation_of_servable hc hv]
    exact (s.latchAsked_commit h _ c hc ht l).congr rfl rfl
  · obtain ⟨-, ⟨y, hy, -⟩, -⟩ := State.mem_takenList hx
    rw [State.firstAllocation_of_servable hc hv]
    exact State.assignedTo_commit hc hx ⟨y, hy⟩
  · rw [State.servedClaim, e]
    exact ⟨rfl, rfl, rfl, rfl, rfl, rfl, rfl⟩

/-- What makes a claim served is kept by what changes its state or its ready at, and by what leaves its port and the cylinders
taken. -/
theorem Served.restate {s t u : State} {h : Hall} {cl c : Claim} (x : Served s t h cl c) (hp : u.port h = t.port h)
    (hk : ∀ e ∈ s.takenList .firstAllocation cl, u.cyl e.cyl = t.cyl e.cyl) (st : ClaimState) (ready : Option Time) :
    Served s u h cl { c with state := st, readyAt := ready } :=
  { allocation := x.allocation, sum := x.sum, shortage := x.shortage, starved := x.starved, short := x.short
    flags := x.flags, kept := x.kept
    latches := fun l => (x.latches l).congr rfl hp
    assigned := fun e he => (State.assignedTo_congr (hk e he) h).trans (x.assigned e he) }

/-- The same from an equal start, of which a run and its commit read the pool, and the latches the port. -/
theorem Served.of_left {s s' t : State} {h : Hall} {cl c : Claim} (x : Served s' t h cl c) (p : SamePool s s')
    (hp : s'.port h = s.port h) : Served s t h cl c := by
  have e := p.takenList .firstAllocation cl
  have hcand : ∀ e ∈ s.takenList .firstAllocation cl, ∃ cond, s.candidate cond e.cyl = some e := fun e he =>
    State.candidate_of_mem_takenList he
  exact
    { allocation := e ▸ x.allocation, sum := x.sum, shortage := x.shortage, starved := x.starved, short := x.short
      flags := by
        rw [x.flags, e, p.committed cl hcand]
      kept := x.kept
      latches := fun l => by
        have y := x.latches l
        rw [e, p.commitAsks cl hcand] at y
        exact y.congr hp.symm rfl
      assigned := e ▸ x.assigned }

theorem SamePool.servable {s t : State} (p : SamePool s t) (h : Hall) (c : Claim) : t.servable h c = s.servable h c := by
  have e := s.takeCredited_congr t p.candidates (by simp only [State.image, p.image]) .firstAllocation c
  unfold State.servable State.minAcceptable State.hallRec
  rw [p.image, e, p.takenList]

/-! ### What a first allocation leaves (R16, R74, R77) -/

/-- A run takes at most 32 cylinders (R77). -/
theorem State.length_takenList_le_limit (s : State) (kind : RunKind) (c : Claim) : (s.takenList kind c).length ≤ 32 := by
  have hb : ∀ taken e, runBlocked kind c taken e = false → taken.length < 32 := by
    intro taken e h
    have hlt := of_decide_eq_false (Bool.or_eq_false_iff.1 h).1
    have hlimit : Config.claimLimit = 32 := rfl
    omega
  have h1 := length_takeInOrder_le (targetMet kind c) _ 32 hb (s.creditedOrder c.reservePermitted) [] (Nat.zero_le _)
  unfold State.takenList State.takeLastResort
  split
  · exact h1
  · exact length_takeInOrder_le _ _ _ hb _ _ h1

/-- A cylinder that is not taken keeps its record (R73). -/
theorem State.cyl_firstAllocation_of_not_taken {s : State} {h : Hall} {c : Claim} (hc : s.claim h = some c) {k : CylIdx}
    (hk : ∀ e ∈ s.takenList .firstAllocation c, e.cyl ≠ k) : (s.firstAllocation h).cyl k = s.cyl k := by
  cases hv : s.servable h c with
  | false =>
    rw [State.firstAllocation_of_unservable hc hv]
    rfl
  | true =>
    have hn : k ∉ (s.takenList .firstAllocation c).map (·.cyl) := by
      intro hm
      obtain ⟨e, he, hek⟩ := List.mem_map.1 hm
      exact hk e he hek
    rw [State.firstAllocation_of_servable hc hv]
    exact (s.cyl_commit h _ c hc k).trans (if_neg hn)

/-- A cylinder that is not eligible keeps its record when a first allocation is tried (R74). -/
theorem State.cyl_firstAllocation_of_ineligible (s : State) (h : Hall) {k : CylIdx} (hk : s.eligible k = false) :
    (s.firstAllocation h).cyl k = s.cyl k := by
  cases hc : s.claim h with
  | none => simp [State.firstAllocation, hc]
  | some c => exact State.cyl_firstAllocation_of_not_taken hc (State.not_mem_takenList hk)

end Sys2Proof.Machine
end

