-- ==== Sys2Proof/Proofs/Joins.lean ====
section
/-! PROOFS. The place a claim takes on the wait list, and the grant of the manifold (R58, R97 to R99); the countdown that is over
(R55). -/

namespace Sys2Proof.Machine

/-! ### Places (R72, R97) -/

/-- Where a join puts its entry: ahead of the entries at the tail of which `behind` holds, and no further. -/
theorem joinTail_place {α : Type} (behind : α → Bool) (x : α) (l : List α) :
    ∃ before after, l = before ++ after ∧ joinTail behind x l = before ++ x :: after ∧ (∀ y ∈ after, behind y = true) ∧
      ∀ y, before.getLast? = some y → behind y = false := by
  refine ⟨(l.reverse.dropWhile behind).reverse, (l.reverse.takeWhile behind).reverse, ?_, rfl, fun y hy => ?_, fun y hy => ?_⟩
  · rw [← List.reverse_append, List.takeWhile_append_dropWhile, List.reverse_reverse]
  · exact List.mem_takeWhile_imp (List.mem_reverse.1 hy)
  · rw [List.getLast?_reverse] at hy
    have h := List.head?_dropWhile_not behind l.reverse
    rw [hy] at h
    exact h

theorem State.waitList_place (s : State) (h : Hall) : ∃ before after, s.manifold.waitList = before ++ after ∧
    (s.place h s.now).manifold.waitList = before ++ { hall := h, readyAt := s.now } :: after ∧
    (∀ w ∈ after, w.readyAt = s.now ∧ h < w.hall) ∧
    ∀ w, before.getLast? = some w → ¬ (w.readyAt = s.now ∧ h < w.hall) := by
  obtain ⟨before, after, h1, h2, h3, h4⟩ := joinTail_place (fun w => w.readyAt = s.now && h < w.hall)
    { hall := h, readyAt := s.now } s.manifold.waitList
  exact ⟨before, after, h1, h2, fun w hw => by simpa using h3 w hw, fun w hw e => by simpa [e.1, e.2] using h4 w hw⟩

/-! ### The grant (R98, R99) -/

theorem mem_allHalls (h : Hall) : h ∈ allHalls := by
  revert h
  decide

theorem State.noMismatch_iff (s : State) : s.noMismatch = true ↔ ∀ h, s.mismatch h = false := by
  simp only [State.noMismatch, List.all_eq_true, Bool.not_eq_true', mem_allHalls, true_imp_iff]

/-- A manifold that is not IDLE, or a mismatch flag set, stops the grant (R98). -/
theorem State.tryGrant_of_stopped {s : State} (hs : s.manifold.state ≠ .idle ∨ ∃ j, s.mismatch j = true) :
    s.tryGrant = s := by
  rcases hs with hs | ⟨j, hj⟩
  · exact s.tryGrant_of_busy hs
  · have hn : s.noMismatch = false := by
      rw [← Bool.not_eq_true, State.noMismatch_iff]
      exact fun hn => by simp [hn j] at hj
    simp [State.tryGrant, State.mayGrant, hn]

/-- With the manifold IDLE and no mismatch flag set the head of the wait list is granted the manifold (R98). -/
theorem State.tryGrant_of_free {s : State} {w : WaitEntry} {rest : List WaitEntry} (hi : s.manifold.state = .idle)
    (hm : ∀ j, s.mismatch j = false) (hw : s.manifold.waitList = w :: rest) : s.tryGrant = s.grant w.hall := by
  simp [State.tryGrant, State.mayGrant, hi, s.noMismatch_iff.2 hm, hw]

/-- The hall that is granted the manifold has its selector open deadline loaded; the others keep theirs (R99). -/
theorem State.unit_grant (s : State) (h j : Hall) : (s.grant h).unit j =
    if j = h then .load s.now (s.now + ms s.timing.selectorOpenTimeout) .selectorOpen else s.unit j := by
  refine (State.unit_loadUnit _ h j _ _).trans (if_congr Iff.rfl ?_ (State.unit_of_units (by simp) j))
  simp [State.timing]

theorem State.grant_others (s : State) {h j : Hall} (hj : j ≠ h) :
    (s.grant h).claim j = s.claim j ∧ (s.grant h).unit j = s.unit j :=
  ⟨State.updClaim_other (s.leaveWaitList h) hj _, by rw [State.unit_grant, if_neg hj]⟩

/-- What a grant does to the claim that it is made to, and to the other halls (R88, R99). -/
theorem grantedTo_grant {s : State} {h : Hall} {c : Claim} (hc : s.claim h = some c) : GrantedTo s (s.grant h) h c := by
  have hsel : ∀ j, (s.grant h).selectorCmd j = if j = h then .opened else s.selectorCmd j := fun j =>
    State.selectorCmd_commandSelector _ h j .opened
  have hcap : (s.grant h).captures = { s.captures with selectors := s.captures.selectors.set h .armed } := by
    simp [State.grant, State.setSelectorCapture]
  have hcl : (s.grant h).claim h =
      some { c with state := .selecting, schedule := some (buildSchedule c.allocation), fired := [] } :=
    State.claim_updClaim_of (s := s.leaveWaitList h) hc _
  refine ⟨hcl, ⟨?_, ?_, ?_⟩, ?_, by rw [State.unit_grant, if_pos rfl], ?_,
    ⟨by rw [hsel, if_pos rfl], fun j hj => by rw [hsel, if_neg hj]⟩,
    fun j hj => s.grant_others hj⟩
  · simp [State.grant]
  · simp [State.grant]
  · simp [State.grant]
  · simp [State.grant, State.leaveWaitList]
  · rw [hcap]
    refine ⟨Vector.getElem_set_self h.isLt, rfl, fun j hj => Vector.getElem_set_ne h.isLt j.isLt ?_⟩
    exact fun e => hj (Fin.ext e.symm)

/-- A grant seen from an earlier state, that only the claim and the allocation of its hall tell from the one it is made in. -/
theorem GrantedTo.of_left {s s' t : State} {h : Hall} {c : Claim} (x : GrantedTo s' t h c)
    (hw : s'.manifold.waitList.filter (fun w => w.hall ≠ h) = s.manifold.waitList.filter fun w => w.hall ≠ h)
    (hn : s'.now = s.now) (hi : s'.store = s.store) (hcap : s'.captures = s.captures) (hcir : s'.circuits = s.circuits)
    (ho : ∀ j, j ≠ h → s'.claim j = s.claim j ∧ s'.unit j = s.unit j) : GrantedTo s t h c :=
  { claim := x.claim, manifold := x.manifold, waiting := x.waiting.trans hw
    deadline := by
      have e : s'.timing = s.timing := by simp only [State.timing, hi]
      rw [x.deadline, hn, e]
    capture := by
      have e := x.capture
      rwa [hcap] at e
    selector := ⟨x.selector.1, fun j hj => (x.selector.2 j hj).trans (by rw [State.selectorCmd, hcir, State.selectorCmd])⟩
    others := fun j hj =>
      ⟨(x.others j hj).1.trans (ho j hj).1, (x.others j hj).2.trans (ho j hj).2⟩ }

/-! ### Joins (R56, R97) -/

/-- A join that no grant follows is a place on the wait list (R97, R98). -/
theorem State.join_of_stopped {s : State} {h : Hall} (hs : s.manifold.state ≠ .idle ∨ ∃ j, s.mismatch j = true) :
    s.join [h] = s.place h s.now := State.tryGrant_of_stopped (s := s.place h s.now) hs

/-- A join that finds the manifold free is followed by its own grant (R97, R98). -/
theorem State.join_of_free {s : State} {h : Hall} (hi : s.manifold.state = .idle) (hm : ∀ j, s.mismatch j = false)
    (hw : s.manifold.waitList = []) : s.join [h] = (s.place h s.now).grant h := by
  have e : (s.place h s.now).manifold.waitList = { hall := h, readyAt := s.now } :: [] := by
    simp only [State.place, State.setManifold, hw]
    rfl
  have hjoin : s.join [h] = (s.place h s.now).tryGrant := rfl
  rw [hjoin, State.tryGrant_of_free (s := s.place h s.now) hi hm e]

/-- The claim of hall `h`, in `s` given all that it holds, becomes WAITING and joins a manifold that makes no grant. -/
theorem State.join_makeWaiting_of_stopped {s : State} {h : Hall} {c : Claim} (hc : s.claim h = some c)
    (hs : s.manifold.state ≠ .idle ∨ ∃ j, s.mismatch j = true) :
    ∃ t, (s.makeWaiting h).join [h] = t ∧ t.claim h = some { c with state := .waiting, readyAt := some s.now } ∧
      t.units = s.units ∧ t.cyls = s.cyls ∧ t.ports = s.ports ∧
      (∃ before after, s.manifold.waitList = before ++ after ∧
        t.manifold.waitList = before ++ { hall := h, readyAt := s.now } :: after ∧
        (∀ w ∈ after, w.readyAt = s.now ∧ h < w.hall) ∧
        (∀ w, before.getLast? = some w → ¬ (w.readyAt = s.now ∧ h < w.hall))) ∧
      t.manifold = { s.manifold with waitList := t.manifold.waitList } ∧
      t = { s with claims := t.claims, manifold := t.manifold } ∧ ∀ j, j ≠ h → t.claim j = s.claim j := by
  have hcl : (s.makeWaiting h).claim h = some { c with state := .waiting, readyAt := some s.now } :=
    State.claim_updClaim_of hc _
  have hw := (s.makeWaiting h).waitList_place h
  refine ⟨(s.makeWaiting h).place h s.now, State.join_of_stopped (s := s.makeWaiting h) hs, hcl, rfl, rfl, rfl,
    hw, rfl, rfl, fun j hj => ?_⟩
  exact State.makeWaiting_other s hj

/-- The claim of hall `h`, in `s` given all that it holds, becomes WAITING, joins a free manifold, and is granted it. -/
theorem State.join_makeWaiting_of_free {s : State} {h : Hall} {c : Claim} (hc : s.claim h = some c)
    (hi : s.manifold.state = .idle) (hm : ∀ j, s.mismatch j = false) (hw : s.manifold.waitList = []) :
    GrantedTo s ((s.makeWaiting h).join [h]) h { c with readyAt := some s.now } := by
  have hcl : ((s.makeWaiting h).place h s.now).claim h = some { c with state := .waiting, readyAt := some s.now } :=
    State.claim_updClaim_of hc _
  have hjoin : (s.makeWaiting h).join [h] = ((s.makeWaiting h).place h s.now).grant h :=
    State.join_of_free (s := s.makeWaiting h) hi hm hw
  have g := (grantedTo_grant hcl).of_left (s := s) (by
    obtain ⟨before, after, h1, h2, -⟩ := (s.makeWaiting h).waitList_place h
    have h3 : s.manifold.waitList = before ++ after := h1
    have h4 : ((s.makeWaiting h).place h s.now).manifold.waitList = before ++ { hall := h, readyAt := s.now } :: after := h2
    simp [h3, h4]) rfl rfl rfl rfl
    fun j hj => ⟨State.makeWaiting_other s hj, rfl⟩
  rw [hjoin]
  exact ⟨g.claim, g.manifold, g.waiting, g.deadline, g.capture, g.selector, g.others⟩

/-! ### The countdown that is over (R55) -/

theorem State.countdownExpiry_eq {s : State} {h : Hall} {c : Claim} (hc : s.claim h = some c) (hs : c.state = .countdown)
    (hr : (s.unit h).raised s.now .countdown = true) :
    exec (.countdownExpiry h) s = .next ((s.removeUnit h).countdownOver h) := by
  have e : s.takeClaimExpiry h .countdown .countdown (fun s => s.countdownOver h) = (s.removeUnit h).countdownOver h := by
    rw [State.takeClaimExpiry, if_pos hr, if_pos (by rw [State.claimState_of_claim hc, hs])]
  exact congrArg Host.Outcome.next e

theorem State.countdownOver_of_held {s : State} {h : Hall} {c : Claim} (hc : s.claim h = some c) (hn : c.allocation ≠ []) :
    s.countdownOver h = (s.makeWaiting h).join [h] := by
  simp only [State.countdownOver, (State.holdsCylinders_iff hc).2 hn, if_true]

theorem State.holdsCylinders_of_empty {s : State} {h : Hall} {c : Claim} (hc : s.claim h = some c) (hn : c.allocation = []) :
    s.holdsCylinders h = false := by
  rw [← Bool.not_eq_true, State.holdsCylinders_iff hc]
  exact fun hne => hne hn

/-- A first allocation that serves a claim leaves it with cylinders. -/
theorem State.holdsCylinders_firstAllocation {s : State} {h : Hall} {c : Claim} (hc : s.claim h = some c)
    (hv : s.servable h c = true) (ht : c.state.terminal = false) : (s.firstAllocation h).holdsCylinders h = true := by
  rw [State.holdsCylinders_iff (State.claim_firstAllocation hc hv ht), s.servedClaim_allocation]
  exact fun e => (State.servable_iff.1 hv).2 (List.append_eq_nil_iff.1 e).2

theorem State.countdownOver_of_servable {s : State} {h : Hall} {c : Claim} (hc : s.claim h = some c)
    (hn : c.allocation = []) (hv : s.servable h c = true) (ht : c.state.terminal = false) :
    s.countdownOver h = ((s.firstAllocation h).makeWaiting h).join [h] := by
  simp only [State.countdownOver, State.holdsCylinders_of_empty hc hn, Bool.false_eq_true, if_false,
    State.holdsCylinders_firstAllocation hc hv ht, if_true]

theorem State.countdownOver_of_unservable {s : State} {h : Hall} {c : Claim} (hc : s.claim h = some c)
    (hn : c.allocation = []) (hv : s.servable h c = false) :
    s.countdownOver h =
      (s.updClaim h fun c => { c with flags := { c.flags with starved := true } }).updClaim h fun c =>
        { c with state := .starved } := by
  have hcl := State.claim_updClaim_of hc fun c => { c with flags := { c.flags with starved := true } }
  simp only [State.countdownOver, State.holdsCylinders_of_empty hc hn, Bool.false_eq_true, if_false,
    State.firstAllocation_of_unservable hc hv, State.holdsCylinders_of_empty hcl hn]

/-- A claim that a first allocation serves, and that joins a free manifold, is granted it (R54, R56, R98). -/
theorem served_granted {s : State} {h : Hall} {cl : Claim} (hc : s.claim h = some cl) (hs : cl.state.shortOfFiring = true)
    (hv : s.servable h cl = true) (hi : s.manifold.state = .idle) (hm : ∀ j, s.mismatch j = false)
    (hw : s.manifold.waitList = []) :
    ∃ c, Served s (((s.firstAllocation h).makeWaiting h).join [h]) h cl c ∧ c.readyAt = some s.now ∧
      GrantedTo s (((s.firstAllocation h).makeWaiting h).join [h]) h c := by
  have hman : (s.firstAllocation h).manifold = s.manifold := by simp
  have hnow : (s.firstAllocation h).now = s.now := by simp
  have g := State.join_makeWaiting_of_free
    (State.claim_firstAllocation hc hv (ClaimState.terminal_of_shortOfFiring hs)) (by rw [hman]; exact hi)
    (fun j => by rw [State.mismatch, hman]; exact hm j) (by rw [hman]; exact hw)
  rw [hnow] at g
  have served := (served_firstAllocation hc hv hs).restate (u := ((s.firstAllocation h).makeWaiting h).join [h])
    (State.port_of_ports (by simp) h) (fun e _ => by simp [State.cyl]) (s.servedClaim cl).state (some s.now)
  refine ⟨_, served, rfl, g.of_left (by rw [hman]) hnow (by simp) (by simp) (by simp) fun j hj => ⟨?_, ?_⟩⟩
  · exact (State.firstAllocation_other s hj).1
  · exact State.unit_of_units (by simp) j

/-- Settles O33: the claim becomes WAITING with what it holds, or with what its first allocation gives it, and joins; with
nothing given it is STARVED. -/
theorem countdownExpires : Obligations.CountdownExpires := by
  unfold Obligations.CountdownExpires
  intro s h cl hc hst hr
  have hx := State.countdownExpiry_eq hc hst hr
  have hc' : (s.removeUnit h).claim h = some cl := hc
  have ht : cl.state.terminal = false := by rw [hst]; rfl
  have pool : SamePool s (s.removeUnit h) := .of_eq rfl rfl
  have hunit : ∀ j, j ≠ h → (s.removeUnit h).unit j = s.unit j := fun j hj => by rw [State.unit_removeUnit, if_neg hj]
  refine ⟨fun hn hstop => ?_, fun hn hi hm hw => ?_, fun hn hv hstop => ?_, fun hn hv hi hm hw => ?_, fun hn hv => ?_⟩
  · obtain ⟨t, htt, h1, h2, h3, h4, h5, h6, h7, h8⟩ := State.join_makeWaiting_of_stopped hc' hstop
    rw [State.countdownOver_of_held hc' hn, htt] at hx
    refine ⟨t, hx, h1, ?_, h5, h6, ?_, fun j hj => ⟨h8 j hj, ?_⟩⟩
    · exact (State.unit_of_units h2 h).trans (State.unit_removeUnit_self s h)
    · rw [h7]
      rfl
    · exact (State.unit_of_units h2 j).trans (hunit j hj)
  · have g := State.join_makeWaiting_of_free hc' hi hm hw
    rw [State.countdownOver_of_held hc' hn] at hx
    refine ⟨_, hx, g.of_left rfl rfl rfl rfl rfl fun j hj => ⟨rfl, hunit j hj⟩, ?_⟩
    refine State.eq_of_fields ?_ ?_ ?_ ?_ ?_ ?_ ?_ rfl rfl ?_ ?_ rfl rfl ?_ rfl ?_ ?_ <;> simp
  · have hv' : (s.removeUnit h).servable h cl = true := (pool.servable h cl).trans hv
    obtain ⟨t, htt, h1, h2, h3, h4, h5, h6, h7, h8⟩ := State.join_makeWaiting_of_stopped
      (State.claim_firstAllocation hc' hv' ht) (s := (s.removeUnit h).firstAllocation h) (by simpa [State.mismatch] using hstop)
    rw [State.countdownOver_of_servable hc' hn hv' ht, htt] at hx
    have served := (served_firstAllocation hc' hv' (by rw [hst]; rfl)).of_left pool rfl
    have hnow : ((s.removeUnit h).firstAllocation h).now = s.now := by simp
    have hman : ((s.removeUnit h).firstAllocation h).manifold = s.manifold := by simp
    have hun : t.units = (s.removeUnit h).units := h2.trans (by simp)
    have hcyl : ∀ k, t.cyl k = ((s.removeUnit h).firstAllocation h).cyl k := fun k => by rw [State.cyl, h3, State.cyl]
    have hport := State.port_of_ports h4
    rw [hnow] at h1 h5
    rw [hman] at h6
    obtain ⟨before, after, -, hlist, -⟩ := h5
    refine ⟨t, _, hx, h1, served.restate (hport h) (fun e _ => hcyl e.cyl) .waiting (some s.now), rfl, rfl, ?_,
      ⟨{ hall := h, readyAt := s.now }, by simp [hlist], rfl, rfl⟩, h6, fun k hk => ?_, fun j hj => ⟨?_, ?_, ?_⟩, ?_⟩
    · exact (State.unit_of_units hun h).trans (State.unit_removeUnit_self s h)
    · rw [← pool.takenList] at hk
      exact (hcyl k).trans (State.cyl_firstAllocation_of_not_taken hc' hk)
    · exact (h8 j hj).trans (State.firstAllocation_other (s.removeUnit h) hj).1
    · exact (State.unit_of_units hun j).trans (hunit j hj)
    · exact (hport j).trans (State.firstAllocation_other (s.removeUnit h) hj).2
    · rw [h7]
      refine State.eq_of_fields ?_ ?_ ?_ ?_ ?_ rfl ?_ rfl rfl ?_ ?_ rfl ?_ ?_ ?_ rfl ?_ <;> simp
  · have hv' : (s.removeUnit h).servable h cl = true := (pool.servable h cl).trans hv
    obtain ⟨c, served, hready, g⟩ := served_granted hc' (by rw [hst]; rfl) hv' hi hm hw
    rw [State.countdownOver_of_servable hc' hn hv' ht] at hx
    exact ⟨_, c, hx, served.of_left pool rfl, hready, g.of_left rfl rfl rfl rfl rfl fun j hj => ⟨rfl, hunit j hj⟩⟩
  · rw [State.countdownOver_of_unservable hc' hn ((pool.servable h cl).trans hv)] at hx
    refine ⟨_, hx, ?_, State.unit_removeUnit_self s h, rfl, fun j hj => ⟨?_, hunit j hj⟩⟩
    · exact State.claim_updClaim_of (State.claim_updClaim_of hc' _) _
    · exact (State.updClaim_other _ hj _).trans (State.updClaim_other _ hj _)

end Sys2Proof.Machine
end

