-- ==== Sys2Proof/Proofs/ReEvaluation.lean ====
section
/-! PROOFS. The starved re-evaluation (R86): the try of each claim in turn, what a try leaves to the halls that it is not for, and
the joins. -/

namespace Sys2Proof.Machine

/-! ### What is left to a hall (R86) -/

/-- From `s` to `t` hall `h` has kept its claim, its deadline and its port, and every cylinder that no run could take has kept
its record. -/
structure HallKept (s t : State) (h : Hall) : Prop where
  claim : t.claim h = s.claim h
  unit : t.unit h = s.unit h
  port : t.port h = s.port h
  cyls : ∀ k, s.eligible k = false → t.cyl k = s.cyl k

theorem HallKept.refl (s : State) (h : Hall) : HallKept s s h := ⟨rfl, rfl, rfl, fun _ _ => rfl⟩

theorem HallKept.trans {s t u : State} {h : Hall} (x : HallKept s t h) (y : HallKept t u h) : HallKept s u h := by
  refine ⟨y.claim.trans x.claim, y.unit.trans x.unit, y.port.trans x.port, fun k hk => ?_⟩
  have e := x.cyls k hk
  have ht : t.eligible k = false := by rwa [State.eligible, e, ← State.eligible]
  exact (y.cyls k ht).trans e

/-- What a claim has been served stays with it, whatever is done for the others. -/
theorem Served.kept_by {s t u : State} {h : Hall} {cl c : Claim} (x : Served s t h cl c) (k : HallKept t u h) :
    Served s u h cl c := by
  refine x.restate k.port (fun e he => k.cyls e.cyl ?_) c.state c.readyAt
  by_contra hel
  have hfree := State.assignedTo_of_eligible (Bool.not_eq_false _ ▸ hel) h
  rw [x.assigned e he] at hfree
  cases hfree

/-- A first allocation for another hall. -/
theorem hallKept_firstAllocation (s : State) {h j : Hall} (hj : h ≠ j) : HallKept s (s.firstAllocation j) h :=
  ⟨(State.firstAllocation_other s hj).1, State.unit_of_units (by simp) h, (State.firstAllocation_other s hj).2,
    fun _ hk => State.cyl_firstAllocation_of_ineligible s j hk⟩

theorem hallKept_makeWaiting (s : State) {h j : Hall} (hj : h ≠ j) : HallKept s (s.makeWaiting j) h :=
  ⟨State.makeWaiting_other s hj, rfl, rfl, fun _ _ => rfl⟩

theorem hallKept_grant (s : State) {h j : Hall} (hj : h ≠ j) : HallKept s (s.grant j) h :=
  ⟨(s.grant_others hj).1, (s.grant_others hj).2, State.port_of_ports (by simp) h, fun _ _ => by simp [State.cyl]⟩

/-! ### Joins of several claims (R97) -/

/-- The state in which the halls `hs` have been placed on the wait list at now (R97). -/
def State.placeAll (s : State) (hs : List Hall) : State := hs.foldl (fun s h => s.place h s.now) s

theorem State.join_eq (s : State) (hs : List Hall) : s.join hs = (s.placeAll hs).tryGrant := rfl

/-- Places are taken on the wait list alone, and each hall has one. -/
theorem State.placeAll_rule (s : State) (hs : List Hall) :
    s.placeAll hs = { s with manifold := { s.manifold with waitList := (s.placeAll hs).manifold.waitList } } ∧
      (∀ w ∈ s.manifold.waitList, w ∈ (s.placeAll hs).manifold.waitList) ∧
      ∀ h ∈ hs, { hall := h, readyAt := s.now } ∈ (s.placeAll hs).manifold.waitList := by
  induction hs generalizing s with
  | nil => exact ⟨rfl, fun w hw => hw, nofun⟩
  | cons j hs ih =>
    obtain ⟨h1, h2, h3⟩ := ih (s.place j s.now)
    have hmem : ∀ w, w ∈ (s.place j s.now).manifold.waitList ↔ w = { hall := j, readyAt := s.now } ∨ w ∈ s.manifold.waitList :=
      fun w => mem_joinTail _ _ w _
    refine ⟨h1, fun w hw => h2 w ((hmem w).2 (.inr hw)), fun h hh => ?_⟩
    rcases List.mem_cons.1 hh with rfl | hh
    · exact h2 _ ((hmem _).2 (.inl rfl))
    · exact h3 h hh

theorem hallKept_placeAll (s : State) (hs : List Hall) (h : Hall) : HallKept s (s.placeAll hs) h := by
  rw [(s.placeAll_rule hs).1]
  exact ⟨rfl, rfl, rfl, fun _ _ => rfl⟩

/-- Joins that no grant follows keep every hall's claim, and put each on the wait list (R97, R98). -/
theorem State.join_stopped {s : State} (hs : s.manifold.state ≠ .idle ∨ ∃ j, s.mismatch j = true) (hl : List Hall) :
    s.join hl = s.placeAll hl := by
  rw [State.join_eq]
  refine State.tryGrant_of_stopped ?_
  rw [(s.placeAll_rule hl).1]
  exact hs

/-- Joins keep a hall that neither waits nor joins: the grant is not its own (R98). -/
theorem hallKept_join {s : State} {h : Hall} {hs : List Hall} (hw : ∀ w ∈ s.manifold.waitList, w.hall ≠ h) (hh : h ∉ hs) :
    HallKept s (s.join hs) h := by
  rw [State.join_eq]
  refine (hallKept_placeAll s hs h).trans ?_
  rcases (s.placeAll hs).tryGrant_cases with ⟨-, e⟩ | ⟨w, rest, -, hl, e⟩
  · rw [e]
    exact .refl ..
  · rw [e]
    refine hallKept_grant _ fun e => ?_
    rcases (place_foldl hs s).2 w (hl ▸ List.mem_cons_self ..) with hm | hm
    · exact hh (e ▸ hm)
    · exact hw w hm e.symm

/-! ### One try (R86) -/

/-- The claims that a re-evaluation passes over (R86). -/
def State.PassedOver (s : State) (h : Hall) : Prop :=
  ∀ c, s.claim h = some c → c.flags.starved = false ∨ c.state.terminal = true

theorem tryStarved_of_passedOver {acc : State × List Hall} {h : Hall} (hp : acc.1.PassedOver h) :
    State.tryStarved acc h = acc := by
  unfold State.tryStarved
  split
  · rfl
  · rename_i c hc
    refine if_neg ?_
    rcases hp c hc with e | e <;> simp [e]

/-- A claim without a cylinder that the pool does not serve stays as it was (R86). -/
theorem tryStarved_of_unservable {s : State} {hs : List Hall} {h : Hall} {c : Claim} (hc : s.claim h = some c)
    (hf : c.flags.starved = true) (hn : c.allocation = []) (hv : s.servable h c = false) :
    State.tryStarved (s, hs) h = (s, hs) := by
  simp [State.tryStarved, hc, State.firstAllocation_starved hc hv hf, State.holdsCylinders_of_empty hc hn]

/-- A claim that is served, and listed to join when it was STARVED (R86). -/
theorem tryStarved_of_servable {s : State} {hs : List Hall} {h : Hall} {c : Claim} (hc : s.claim h = some c)
    (hf : c.flags.starved = true) (ht : c.state.terminal = false) (hv : s.servable h c = true) :
    State.tryStarved (s, hs) h = if c.state = .starved then ((s.firstAllocation h).makeWaiting h, hs ++ [h])
      else (s.firstAllocation h, hs) := by
  simp [State.tryStarved, hc, hf, ht, State.holdsCylinders_firstAllocation hc hv ht]

/-- Between the two accumulators of tries hall `h` has kept what it had, and its place among those that join. -/
structure Apart (acc acc' : State × List Hall) (h : Hall) : Prop where
  kept : HallKept acc.1 acc'.1 h
  joins : h ∈ acc'.2 ↔ h ∈ acc.2

theorem Apart.refl (acc : State × List Hall) (h : Hall) : Apart acc acc h := ⟨.refl .., Iff.rfl⟩

theorem Apart.trans {a b c : State × List Hall} {h : Hall} (x : Apart a b h) (y : Apart b c h) : Apart a c h :=
  ⟨x.kept.trans y.kept, y.joins.trans x.joins⟩

theorem apart_tryStarved (acc : State × List Hall) {h j : Hall} (hj : h ≠ j) : Apart acc (State.tryStarved acc j) h := by
  have hf := hallKept_firstAllocation acc.1 hj
  unfold State.tryStarved
  split
  · exact .refl ..
  · split
    · dsimp only
      split
      · exact ⟨hf.trans (hallKept_makeWaiting _ hj), by simp [hj]⟩
      · exact ⟨hf, Iff.rfl⟩
    · exact .refl ..

/-- The tries of a list leave a hall as it was that is not in the list, or is passed over. -/
theorem apart_foldl {acc : State × List Hall} {h : Hall} {l : List Hall} (hx : h ∉ l ∨ acc.1.PassedOver h) :
    Apart acc (l.foldl State.tryStarved acc) h := by
  induction l generalizing acc with
  | nil => exact .refl ..
  | cons j l ih =>
    by_cases hj : h = j
    · subst hj
      have hp : acc.1.PassedOver h := hx.resolve_left fun hn => hn (List.mem_cons_self ..)
      rw [List.foldl_cons, tryStarved_of_passedOver hp]
      exact ih (.inr hp)
    · have a := apart_tryStarved acc hj
      refine a.trans (ih (hx.imp (fun hn hm => hn (List.mem_cons_of_mem _ hm)) fun hp c hc => ?_))
      exact hp c (a.kept.claim ▸ hc)

/-- Tries of claims that are all passed over change nothing. -/
theorem foldl_of_passedOver {acc : State × List Hall} {l : List Hall} (hl : ∀ j ∈ l, acc.1.PassedOver j) :
    l.foldl State.tryStarved acc = acc := by
  induction l with
  | nil => rfl
  | cons j l ih =>
    rw [List.foldl_cons, tryStarved_of_passedOver (hl j (List.mem_cons_self ..))]
    exact ih fun i hi => hl i (List.mem_cons_of_mem _ hi)

theorem foldl_tryStarved_frame (l : List Hall) (acc : State × List Hall) :
    (l.foldl State.tryStarved acc).1.manifold = acc.1.manifold ∧ (l.foldl State.tryStarved acc).1.now = acc.1.now ∧
      (l.foldl State.tryStarved acc).1.store = acc.1.store ∧ (l.foldl State.tryStarved acc).1.units = acc.1.units := by
  have keep {β : Type} (g : State → β) (hg : ∀ a h, g (State.tryStarved a h).1 = g a.1) :
      g (l.foldl State.tryStarved acc).1 = g acc.1 := foldl_keeps State.tryStarved (fun a => g a.1) hg l acc
  and_intros
  · exact keep (·.manifold) fun a h => by simp [State.tryStarved_frame]
  · exact keep (·.now) fun a h => by simp [State.tryStarved_frame]
  · exact keep (·.store) fun a h => by simp [State.tryStarved_frame]
  · exact keep (·.units) fun a h => by simp [State.tryStarved_frame]

/-! ### The tries of a whole re-evaluation (R86) -/

/-- The state that the tries of a re-evaluation leave, and the halls whose claims are to join. -/
def State.tried (s : State) : State × List Hall := s.order.foldl State.tryStarved (s, [])

theorem State.reEvaluate_eq (s : State) :
    s.reEvaluate = if s.tried.2.isEmpty then s.tried.1 else s.tried.1.join s.tried.2 := rfl

theorem State.tried_frame (s : State) :
    s.tried.1.manifold = s.manifold ∧ s.tried.1.now = s.now ∧ s.tried.1.store = s.store ∧ s.tried.1.units = s.units :=
  foldl_tryStarved_frame s.order (s, [])

/-- A hall that neither waits nor is to join keeps what the tries left it. -/
theorem hallKept_reEvaluate {s : State} {h : Hall} (hw : ∀ w ∈ s.manifold.waitList, w.hall ≠ h) (hh : h ∉ s.tried.2) :
    HallKept s.tried.1 s.reEvaluate h := by
  rw [State.reEvaluate_eq]
  split
  · exact .refl ..
  · exact hallKept_join (by rw [s.tried_frame.1]; exact hw) hh

/-- Where no grant can be made, a re-evaluation leaves every hall what the tries left it, and the halls that are to join wait,
with ready at now (R97, R98). -/
theorem reEvaluate_stopped {s : State} (hs : s.manifold.state ≠ .idle ∨ ∃ j, s.mismatch j = true) (h : Hall) :
    HallKept s.tried.1 s.reEvaluate h ∧
      (h ∈ s.tried.2 → ∃ w ∈ s.reEvaluate.manifold.waitList, w.hall = h ∧ w.readyAt = s.now) := by
  obtain ⟨hman, hnow, -, -⟩ := s.tried_frame
  have hjoin : s.tried.1.join s.tried.2 = s.tried.1.placeAll s.tried.2 :=
    State.join_stopped (by rw [hman]; simpa only [State.mismatch, hman] using hs) _
  rw [State.reEvaluate_eq, hjoin]
  split
  · rename_i he
    refine ⟨.refl .., fun hm => ?_⟩
    rw [List.isEmpty_iff.1 he] at hm
    cases hm
  · exact ⟨hallKept_placeAll .., fun hm => ⟨_, (s.tried.1.placeAll_rule s.tried.2).2.2 h hm, rfl, hnow⟩⟩

/-- The state in which a hall's claim is tried, at its place in the admission order: what was tried before it has left the hall
as it was, and what is tried after it leaves the outcome of the try. -/
theorem State.tried_at {s : State} {h : Hall} {before after : List Hall} (ho : s.order = before ++ h :: after)
    (hn : s.order.Nodup) : ∃ u hs, HallKept s u h ∧ h ∉ hs ∧ u.manifold = s.manifold ∧ u.now = s.now ∧ u.store = s.store ∧
      Apart (State.tryStarved (u, hs) h) s.tried h ∧ ((∀ j ∈ before, s.PassedOver j) → (u, hs) = (s, [])) := by
  rw [ho] at hn
  obtain ⟨-, hafter, hdisj⟩ := List.nodup_append.1 hn
  have hbefore : h ∉ before := fun hm => hdisj h hm h (List.mem_cons_self ..) rfl
  have a : Apart (s, []) (before.foldl State.tryStarved (s, [])) h := apart_foldl (.inl hbefore)
  obtain ⟨h1, h2, h3, -⟩ := foldl_tryStarved_frame before (s, [])
  have e : s.tried = after.foldl State.tryStarved (State.tryStarved (before.foldl State.tryStarved (s, [])) h) := by
    rw [State.tried, ho, List.foldl_append, List.foldl_cons]
  refine ⟨_, _, a.kept, fun hm => ?_, h1, h2, h3, ?_, fun hp => foldl_of_passedOver hp⟩
  · cases a.joins.1 hm
  · rw [e]
    exact apart_foldl (.inl (List.nodup_cons.1 hafter).1)

/-- A STARVED claim that is served at its try: WAITING, and to join (R56, R86). -/
theorem served_starved {u : State} {hs : List Hall} {r : State × List Hall} {h : Hall} {cl : Claim}
    (a : Apart (State.tryStarved (u, hs) h) r h) (hc : u.claim h = some cl) (hf : cl.flags.starved = true)
    (hst : cl.state = .starved) (hv : u.servable h cl = true) :
    ∃ c, r.1.claim h = some c ∧ Served u r.1 h cl c ∧ c.state = .waiting ∧ c.readyAt = some u.now ∧
      r.1.unit h = u.unit h ∧ h ∈ r.2 := by
  have hshort : cl.state.shortOfFiring = true := by rw [hst]; rfl
  have ht := ClaimState.terminal_of_shortOfFiring hshort
  rw [tryStarved_of_servable hc hf ht hv, if_pos hst] at a
  obtain ⟨kept, joins⟩ := a
  have hnow : (u.firstAllocation h).now = u.now := by simp
  have hcl : ((u.firstAllocation h).makeWaiting h).claim h =
      some { u.servedClaim cl with state := .waiting, readyAt := some (u.firstAllocation h).now } :=
    State.claim_updClaim_of (State.claim_firstAllocation hc hv ht) _
  have served := (served_firstAllocation hc hv hshort).restate (u := (u.firstAllocation h).makeWaiting h) rfl
    (fun _ _ => rfl) .waiting (some (u.firstAllocation h).now)
  refine ⟨_, kept.claim.trans hcl, served.kept_by kept, rfl, congrArg some hnow, ?_, joins.2 (by simp)⟩
  exact kept.unit.trans (State.unit_of_units (by simp) h)

/-- A claim in COUNTDOWN or HOLD that is served at its try keeps its state and its deadline (R86). -/
theorem served_timed {u : State} {hs : List Hall} {r : State × List Hall} {h : Hall} {cl : Claim}
    (a : Apart (State.tryStarved (u, hs) h) r h) (hc : u.claim h = some cl) (hf : cl.flags.starved = true)
    (hst : cl.state = .countdown ∨ cl.state = .hold) (hv : u.servable h cl = true) :
    ∃ c, r.1.claim h = some c ∧ Served u r.1 h cl c ∧ c.state = cl.state ∧ c.readyAt = cl.readyAt ∧
      r.1.unit h = u.unit h ∧ (h ∈ r.2 ↔ h ∈ hs) := by
  have hshort : cl.state.shortOfFiring = true := by rcases hst with e | e <;> rw [e] <;> rfl
  have ht := ClaimState.terminal_of_shortOfFiring hshort
  rw [tryStarved_of_servable hc hf ht hv, if_neg (by rcases hst with e | e <;> simp [e])] at a
  obtain ⟨kept, joins⟩ := a
  refine ⟨_, kept.claim.trans (State.claim_firstAllocation hc hv ht), (served_firstAllocation hc hv hshort).kept_by kept,
    u.servedClaim_state cl, u.servedClaim_readyAt cl, ?_, joins⟩
  exact kept.unit.trans (State.unit_of_units (by simp) h)

/-- Classes 1 to 4 are part of what a run takes (R74). -/
theorem State.sumE_takeCredited_le (s : State) (kind : RunKind) (c : Claim) :
    sumE (s.takeCredited kind c).1 ≤ sumE (s.takenList kind c) := by
  unfold State.takenList State.takeLastResort
  split
  · exact le_rfl
  · obtain ⟨n, hn⟩ := takeInOrder_prefix (lastResortMet kind c) (runBlocked kind c) (s.lastResortOrder c.reservePermitted)
      (s.takeCredited kind c).1
    rw [hn]
    simp [sumE]

/-- A claim without a cylinder that has been served holds its minimum acceptable quantity, in at most 32 cylinders (R77, R79). -/
theorem Served.supplied {s t : State} {h : Hall} {cl c : Claim} (x : Served s t h cl c) (hv : s.servable h cl = true)
    (hn : cl.allocation = []) :
    c.allocation ≠ [] ∧ s.minAcceptable h cl.figures.req ≤ c.allocatedSum ∧ c.allocation.length ≤ 32 := by
  obtain ⟨hmin, hne⟩ := State.servable_iff.1 hv
  have ha : c.allocation = s.takenList .firstAllocation cl := by rw [x.allocation, hn, List.nil_append]
  rw [x.sum, ha]
  exact ⟨hne, hmin.trans (s.sumE_takeCredited_le _ _), s.length_takenList_le_limit _ _⟩

/-! ### What a re-evaluation does for one claim (R86) -/

/-- A claim without the flag that does not wait stands (R86). -/
theorem reEvaluate_unflagged {s : State} {h : Hall} (hp : s.PassedOver h) (hw : ∀ w ∈ s.manifold.waitList, w.hall ≠ h) :
    s.reEvaluate.claim h = s.claim h := by
  have a : Apart (s, []) s.tried h := apart_foldl (.inr hp)
  have k := hallKept_reEvaluate hw fun hm => by cases a.joins.1 hm
  exact k.claim.trans a.kept.claim

/-- A claim in STARVED that holds nothing: unserved as it was, or WAITING with its minimum acceptable quantity (R56, R86). -/
theorem reEvaluate_starved {s : State} {h : Hall} {cl : Claim} (hc : s.claim h = some cl) (hf : cl.flags.starved = true)
    (hst : cl.state = .starved) (hn : cl.allocation = []) (hm : h ∈ s.order) (hnd : s.order.Nodup)
    (hbusy : s.manifold.state ≠ .idle) :
    s.reEvaluate.claim h = some cl ∨ ∃ c, s.reEvaluate.claim h = some c ∧ c.allocation ≠ [] ∧ c.state = .waiting ∧
      c.readyAt = some s.now ∧ c.flags.starved = false ∧ s.minAcceptable h cl.figures.req ≤ c.allocatedSum ∧
      c.allocation.length ≤ 32 ∧ ∃ w ∈ s.reEvaluate.manifold.waitList, w.hall = h ∧ w.readyAt = s.now := by
  obtain ⟨before, after, ho⟩ := List.append_of_mem hm
  obtain ⟨u, hs, kept, -, -, hnow, hstore, a, -⟩ := State.tried_at ho hnd
  have huc : u.claim h = some cl := kept.claim.trans hc
  obtain ⟨k, hwait⟩ := reEvaluate_stopped (.inl hbusy) h
  cases hv : u.servable h cl with
  | false =>
    rw [tryStarved_of_unservable huc hf hn hv] at a
    exact .inl (k.claim.trans (a.kept.claim.trans huc))
  | true =>
    obtain ⟨c, hcl, served, hstate, hready, -, hjoin⟩ := served_starved a huc hf hst hv
    obtain ⟨hne, hmin, hlen⟩ := served.supplied hv hn
    have hminAt : u.minAcceptable h = s.minAcceptable h := by
      unfold State.minAcceptable State.hallRec
      rw [hstore]
    rw [hminAt] at hmin
    exact .inr ⟨c, k.claim.trans hcl, hne, hstate, hnow ▸ hready, served.starved, hmin, hlen, hwait hjoin⟩

section
variable {s : State} {h : Hall} {cl : Claim} {before after : List Hall} (ho : s.order = before ++ h :: after)
  (hnd : s.order.Nodup) (hpass : ∀ j ∈ before, s.PassedOver j) (hc : s.claim h = some cl)
  (hf : cl.flags.starved = true)
include ho hnd hpass hc hf

/-- The first flagged claim of the admission order, not served, stays as it was. -/
theorem reEvaluate_first_unserved (hn : cl.allocation = []) (hv : s.servable h cl = false)
    (hw : ∀ w ∈ s.manifold.waitList, w.hall ≠ h) : s.reEvaluate.claim h = some cl ∧ s.reEvaluate.unit h = s.unit h := by
  obtain ⟨u, hs, -, -, -, -, -, a, hat⟩ := State.tried_at ho hnd
  obtain ⟨rfl, rfl⟩ := Prod.mk.inj (hat hpass)
  rw [tryStarved_of_unservable hc hf hn hv] at a
  have k := a.kept.trans (hallKept_reEvaluate hw fun hm => by cases a.joins.1 hm)
  exact ⟨k.claim.trans hc, k.unit⟩

/-- The first flagged claim, in COUNTDOWN or HOLD, is served where it stands. -/
theorem reEvaluate_first_timed (hst : cl.state = .countdown ∨ cl.state = .hold) (hv : s.servable h cl = true)
    (hw : ∀ w ∈ s.manifold.waitList, w.hall ≠ h) :
    ∃ c, s.reEvaluate.claim h = some c ∧ Served s s.reEvaluate h cl c ∧ c.state = cl.state ∧ c.readyAt = cl.readyAt ∧
      s.reEvaluate.unit h = s.unit h := by
  obtain ⟨u, hs, -, -, -, -, -, a, hat⟩ := State.tried_at ho hnd
  obtain ⟨rfl, rfl⟩ := Prod.mk.inj (hat hpass)
  obtain ⟨c, hcl, served, hstate, hready, hun, hjoin⟩ := served_timed a hc hf hst hv
  have k := hallKept_reEvaluate hw fun hm => by cases hjoin.1 hm
  exact ⟨c, k.claim.trans hcl, served.kept_by k, hstate, hready, k.unit.trans hun⟩

/-- The first flagged claim, in STARVED, is served and waits where no grant can be made. -/
theorem reEvaluate_first_waits (hst : cl.state = .starved) (hv : s.servable h cl = true)
    (hstop : s.manifold.state ≠ .idle ∨ ∃ j, s.mismatch j = true) :
    ∃ c, s.reEvaluate.claim h = some c ∧ Served s s.reEvaluate h cl c ∧ c.state = .waiting ∧ c.readyAt = some s.now ∧
      s.reEvaluate.unit h = s.unit h ∧ ∃ w ∈ s.reEvaluate.manifold.waitList, w.hall = h ∧ w.readyAt = s.now := by
  obtain ⟨u, hs, -, -, -, -, -, a, hat⟩ := State.tried_at ho hnd
  obtain ⟨rfl, rfl⟩ := Prod.mk.inj (hat hpass)
  obtain ⟨c, hcl, served, hstate, hready, hun, hjoin⟩ := served_starved a hc hf hst hv
  obtain ⟨k, hwait⟩ := reEvaluate_stopped hstop h
  exact ⟨c, k.claim.trans hcl, served.kept_by k, hstate, hready, k.unit.trans hun, hwait hjoin⟩

/-- The only flagged claim, in STARVED, is served and granted a free manifold. -/
theorem reEvaluate_first_granted (hst : cl.state = .starved) (hv : s.servable h cl = true) (hi : s.manifold.state = .idle)
    (hw : s.manifold.waitList = []) (hm : ∀ j, s.mismatch j = false)
    (hothers : ∀ j c, j ≠ h → s.claim j = some c → c.flags.starved = false) :
    ∃ c, Served s s.reEvaluate h cl c ∧ c.readyAt = some s.now ∧ GrantedTo s s.reEvaluate h c := by
  have hshort : cl.state.shortOfFiring = true := by rw [hst]; rfl
  have hpassed : before.foldl State.tryStarved (s, []) = (s, []) := foldl_of_passedOver hpass
  have htry := tryStarved_of_servable (hs := []) hc hf (ClaimState.terminal_of_shortOfFiring hshort) hv
  have e : s.tried = ((s.firstAllocation h).makeWaiting h, [h]) := by
    rw [State.tried, ho, List.foldl_append, hpassed, List.foldl_cons, htry, if_pos hst]
    refine foldl_of_passedOver fun j hj c hc' => ?_
    rw [ho] at hnd
    have hjh : j ≠ h := fun e => (List.nodup_cons.1 (List.nodup_append.1 hnd).2.1).1 (e ▸ hj)
    have k := (hallKept_firstAllocation s hjh).trans (hallKept_makeWaiting _ hjh)
    exact .inl (hothers j c hjh (k.claim.symm.trans hc'))
  have hjoin : s.reEvaluate = ((s.firstAllocation h).makeWaiting h).join [h] := by
    rw [State.reEvaluate_eq, e]
    rfl
  rw [hjoin]
  exact served_granted hc hshort hv hi hm hw

end

/-- Settles O55: each claim is tried on what the tries before it left, and the claims listed then join. The event itself is
taken first, which no try and no join reads. -/
theorem starvedReEvaluation : Obligations.StarvedReEvaluation := by
  unfold Obligations.StarvedReEvaluation
  intro s hg
  obtain ⟨s0, hs0⟩ : ∃ s0, s0 = { s with poolGains := s.poolGains - 1 } := ⟨_, rfl⟩
  have hx : exec .starvedReEvaluation s = .next s0.reEvaluate := by
    rw [hs0]
    exact congrArg Host.Outcome.next (if_neg hg)
  have hclaim : s0.claim = s.claim := by rw [hs0]; rfl
  have hunit : s0.unit = s.unit := by rw [hs0]; rfl
  have horder : s0.order = s.order := by rw [hs0]
  have hman : s0.manifold = s.manifold := by rw [hs0]
  have hmis : s0.mismatch = s.mismatch := by rw [hs0]; rfl
  have hnow : s0.now = s.now := by rw [hs0]
  have hmin : s0.minAcceptable = s.minAcceptable := by rw [hs0]; rfl
  have pool : SamePool s s0 := .of_eq (by rw [hs0]) (by rw [hs0])
  have hport : ∀ h, s0.port h = s.port h := fun h => by rw [hs0]; rfl
  refine ⟨_, hx, ?_, ?_, fun hnone => ?_, fun h cl hc hf hw => ?_, fun h cl hc hf hst hn hm hnd hbusy => ?_,
    fun h cl before after ho hnd hpass hc hf hn ht hw => ?_⟩
  · simp [hs0]
  · rw [hs0]
    refine State.eq_of_fields ?_ ?_ ?_ ?_ ?_ rfl ?_ rfl rfl ?_ rfl rfl rfl ?_ rfl rfl ?_ <;> simp
  · have e : s0.tried = (s0, []) := foldl_of_passedOver fun j _ c hc => .inl (hnone j c (hclaim ▸ hc))
    rw [State.reEvaluate_eq, e, ← hs0]
    rfl
  · have hp : s0.PassedOver h := fun c hc' => by
      rw [hclaim, hc] at hc'
      exact .inl (Option.some.inj hc' ▸ hf)
    rw [reEvaluate_unflagged hp (hman ▸ hw), hclaim, hc]
  · rw [← hclaim] at hc
    rw [← hnow, ← hmin]
    rcases reEvaluate_starved hc hf hst hn (horder ▸ hm) (horder ▸ hnd) (hman ▸ hbusy) with
      hcl | ⟨c, hcl, hne, hstate, hready, hflag, hsum, hlen, hwait⟩
    · exact ⟨cl, hcl, fun _ => rfl, fun hne => absurd hn hne⟩
    · exact ⟨c, hcl, fun he => absurd he hne, fun _ => ⟨hstate, hready, hflag, hsum, hlen, hwait⟩⟩
  · have hpass0 : ∀ j ∈ before, s0.PassedOver j := fun j hj c hc => hpass j hj c (hclaim ▸ hc)
    rw [← hclaim] at hc
    rw [← hunit, ← hnow, ← hman, ← hmis, ← pool.servable]
    rw [← horder] at ho hnd
    rw [← hman] at hw
    refine ⟨fun hv => reEvaluate_first_unserved ho hnd hpass0 hc hf hn hv hw, fun hv hst => ?_, fun hv hst hstop => ?_,
      fun hv hst hi hlist hm hothers => ?_⟩
    · obtain ⟨c, hcl, served, rest⟩ := reEvaluate_first_timed ho hnd hpass0 hc hf hst hv hw
      exact ⟨c, hcl, served.of_left pool (hport h), rest⟩
    · obtain ⟨c, hcl, served, rest⟩ := reEvaluate_first_waits ho hnd hpass0 hc hf hst hv hstop
      exact ⟨c, hcl, served.of_left pool (hport h), rest⟩
    · obtain ⟨c, served, hready, g⟩ := reEvaluate_first_granted ho hnd hpass0 hc hf hst hv hi hlist hm
        fun j c hj hcj => hothers j c hj (hclaim ▸ hcj)
      exact ⟨c, served.of_left pool (hport h), hready, g.of_left (by rw [hman]) hnow (by rw [hs0]) (by rw [hs0])
        (by rw [hs0]) fun j _ => ⟨congrFun hclaim j, congrFun hunit j⟩⟩

end Sys2Proof.Machine
end

