-- ==== Sys2Proof/Proofs/Pool.lean ====
section
/-! PROOFS. The order of taking holds exactly the pool, and a pool that holds the requirement meets it (R74 to R79). -/

namespace Sys2Proof.Machine

/-! ### The order of taking is the pool, reordered (R75, R76) -/

/-- The rotation over lists of at most 16 reaches every entry (R76). -/
theorem mem_rotation_of {ls : List (List Entry)} {l : List Entry} {e : Entry} (hl : l ∈ ls) (he : e ∈ l) (hn : l.length ≤ 16) :
    e ∈ rotation ls := by
  obtain ⟨j, hj, hje⟩ := List.mem_iff_getElem.1 he
  refine List.mem_flatMap.2 ⟨j, List.mem_range.2 (hj.trans_le hn), List.mem_filterMap.2 ⟨l, hl, ?_⟩⟩
  rw [List.getElem?_eq_getElem hj, hje]

theorem State.length_rackCandidates_le (s : State) (cond : Condition) (r : Rack) : (s.rackCandidates cond r).length ≤ 16 := by
  refine (List.length_filterMap_le ..).trans ?_
  simp [rackCylinders]

theorem mem_rackCylinders (k : CylIdx) : k ∈ rackCylinders (rackOf k) := by
  refine List.mem_map.2 ⟨⟨k.val % 16, by omega⟩, List.mem_finRange _, Fin.ext ?_⟩
  simp only [rackOf]
  omega

/-- The candidates of a class are all the eligible cylinders of its condition in racks of its role (R74). -/
theorem State.mem_classOrder_iff {s : State} {role : RackRole} {cond : Condition} {e : Entry} :
    e ∈ s.classOrder role cond ↔ s.candidate cond e.cyl = some e ∧ s.rackRole e.cyl = role := by
  refine ⟨State.mem_classOrder, fun ⟨hc, hr⟩ => ?_⟩
  have hrack : rackOf e.cyl ∈ allRacks.filter fun r => s.image.racks[r] = role := by
    refine List.mem_filter.2 ⟨?_, decide_eq_true hr⟩
    generalize rackOf e.cyl = r
    revert r
    decide
  have hmem : e ∈ s.rackCandidates cond (rackOf e.cyl) := List.mem_filterMap.2 ⟨e.cyl, mem_rackCylinders e.cyl, hc⟩
  refine mem_rotation_of ((orderByTotal_perm _).mem_iff.2 (List.mem_filter.2 ⟨List.mem_map_of_mem hrack, ?_⟩)) hmem
    (s.length_rackCandidates_le cond _)
  simpa using List.ne_nil_of_mem hmem

theorem State.mem_poolOf_iff {s : State} {role : RackRole} {cond : Condition} {e : Entry} :
    e ∈ s.poolOf role cond ↔ s.candidate cond e.cyl = some e ∧ s.rackRole e.cyl = role := by
  constructor
  · intro he
    obtain ⟨k, hk, hc⟩ := List.mem_filterMap.1 he
    obtain rfl := (s.candidate_spec cond k e hc).1
    exact ⟨hc, of_decide_eq_true (List.mem_filter.1 hk).2⟩
  · rintro ⟨hc, hr⟩
    exact List.mem_filterMap.2 ⟨e.cyl, List.mem_filter.2 ⟨List.mem_finRange _, decide_eq_true hr⟩, hc⟩

theorem State.nodup_poolOf (s : State) (role : RackRole) (cond : Condition) : (s.poolOf role cond).Nodup := by
  refine List.pairwise_filterMap.2 (((List.nodup_finRange 64).filter _).imp fun {a b} hab x hx y hy e => ?_)
  subst e
  exact hab ((s.candidate_spec cond a x hx).1.symm.trans (s.candidate_spec cond b x hy).1)

/-- The order in which a class is taken is its pool, reordered. -/
theorem State.classOrder_perm (s : State) (role : RackRole) (cond : Condition) :
    (s.classOrder role cond).Perm (s.poolOf role cond) :=
  (List.perm_ext_iff_of_nodup (s.nodup_classOrder role cond) (s.nodup_poolOf role cond)).2 fun _ =>
    State.mem_classOrder_iff.trans State.mem_poolOf_iff.symm

/-- The pool of classes 1 to 4 (R74). -/
def State.creditedPool (s : State) (reserve : Bool) : List Entry :=
  s.poolOf .main .full ++ s.poolOf .main .low ++
    if reserve then s.poolOf .reserve .full ++ s.poolOf .reserve .low else []

theorem State.creditedOrder_perm (s : State) (reserve : Bool) : (s.creditedOrder reserve).Perm (s.creditedPool reserve) := by
  refine ((s.classOrder_perm .main .full).append (s.classOrder_perm .main .low)).append ?_
  cases reserve with
  | false => exact .refl _
  | true => exact (s.classOrder_perm .reserve .full).append (s.classOrder_perm .reserve .low)

theorem sumE_perm {es fs : List Entry} (h : es.Perm fs) : sumE es = sumE fs := (h.map _).sum_eq

/-! ### A pool that holds the requirement (R39, R76, R77) -/

/-- The run of a claim that holds nothing, over at most 32 candidates that reach the requirement, reaches it with classes 1 to 4:
the limit of 32 cannot stop it before (R77). -/
theorem State.req_le_takeCredited {s : State} {c : Claim} (hn : c.allocation = []) (hf : c.fired = [])
    (hsum : c.allocatedSum = 0) (hlen : (s.creditedPool c.reservePermitted).length ≤ 32)
    (hreq : c.figures.req ≤ sumE (s.creditedPool c.reservePermitted)) :
    c.figures.req ≤ sumE (s.takeCredited .firstAllocation c).1 := by
  have hp := s.creditedOrder_perm c.reservePermitted
  obtain ⟨n, hnle, htaken, -, hstop, hend⟩ := takeInOrder_spec (targetMet .firstAllocation c) (runBlocked .firstAllocation c)
    (s.creditedOrder c.reservePermitted) []
  change (s.takeCredited .firstAllocation c).1 = _ at htaken
  change (s.takeCredited .firstAllocation c).2 = true → _ at hstop
  change (s.takeCredited .firstAllocation c).2 = false → _ at hend
  rw [List.nil_append] at htaken
  have hmet : targetMet .firstAllocation c (s.takeCredited .firstAllocation c).1 = true →
      c.figures.req ≤ sumE (s.takeCredited .firstAllocation c).1 := fun h => by
    simpa [targetMet, hsum] using h
  cases h2 : (s.takeCredited .firstAllocation c).2 with
  | true =>
    obtain ⟨-, e, he, hb⟩ := hstop h2
    have hlt : n < (s.creditedOrder c.reservePermitted).length := (List.getElem?_eq_some_iff.1 he).1
    have hblock : Config.claimLimit ≤ (s.takeCredited .firstAllocation c).1.length := by
      have hb' : runBlocked .firstAllocation c (s.takeCredited .firstAllocation c).1 e = true := hb
      simpa [runBlocked, hn, hf] using hb'
    have hlimit : Config.claimLimit = 32 := rfl
    have hcount : (s.takeCredited .firstAllocation c).1.length = n := by
      rw [htaken, List.length_take, Nat.min_eq_left hnle]
    have hl := hp.length_eq
    omega
  | false =>
    rcases hend h2 with rfl | h
    · rw [htaken, List.take_length, sumE_perm hp]
      exact hreq
    · exact hmet h

/-- A minimum fraction of at most 100 per cent asks for no more than the requirement (R39). -/
theorem minimumAcceptable_le (req : Nat) {n : Nat} (hn : n ≤ 100) : minimumAcceptable req n ≤ req := by
  have hb := ceilDiv_bounds (req * n) (b := 100) (by omega)
  have hm : req * n ≤ req * 100 := Nat.mul_le_mul_left req hn
  unfold minimumAcceptable
  omega

/-- A pool of at most 32 cylinders that holds the requirement serves the claim (R77, R79). -/
theorem State.servable_of_pool {s : State} {h : Hall} {c : Claim} (hreq : 0 < c.figures.req)
    (hfrac : (s.hallRec h).minFraction ≤ 100)
    (hmet : c.figures.req ≤ sumE (s.takeCredited .firstAllocation c).1) : s.servable h c = true := by
  refine State.servable_iff.2 ⟨(minimumAcceptable_le _ hfrac).trans hmet, fun e => ?_⟩
  have hle := s.sumE_takeCredited_le .firstAllocation c
  rw [e] at hle
  simp only [sumE, List.map_nil, List.sum_nil] at hle hmet
  omega

end Sys2Proof.Machine
end

