-- ==== Sys2Proof/Proofs/Admission.lean ====
section
/-! PROOFS. A RELEASE admitted as a new claim: its record, its place, and its first allocation (R38, R50, R51, R54, R72). -/

namespace Sys2Proof.Machine

/-! ### A new claim and its first allocation (R50, R54) -/

/-- Between `s` and `t` hall `h` has been given the claim `cl`: the new claim `c` with what the first allocation that `s` has for
it leaves of it, given or not (R50, R54, R79, R80). -/
structure Admitted (s t : State) (h : Hall) (c cl : Claim) : Prop where
  claim : t.claim h = some cl
  record : cl = { c with
    allocation := cl.allocation, allocatedSum := sumE cl.allocation, shortage := c.figures.req - sumE cl.allocation
    flags := cl.flags }
  allocation : cl.allocation = if s.servable h c then s.takenList .firstAllocation c else []
  flags : cl.flags = { (s.committed c cl.allocation).flags with starved := decide (cl.allocation = []) }
  latches : ∀ l, (t.port h).latches.get l =
    if s.commitAsks c cl.allocation l then ((s.port h).latches.get l).raise else (s.port h).latches.get l
  assigned : ∀ e ∈ cl.allocation, t.assignedTo h e.cyl = true
  cyls : ∀ k, (∀ e ∈ cl.allocation, e.cyl ≠ k) → t.cyl k = s.cyl k

/-- What a first allocation leaves of a claim that has none: the new claim, as R50 makes it. -/
theorem admitted_firstAllocation {s : State} {h : Hall} {c : Claim} (hc : s.claim h = some c) (hs : c.state = .countdown)
    (hn : c.allocation = []) (hsum : c.allocatedSum = 0) (hshort : c.shortage = c.figures.req) :
    ∃ cl, Admitted s (s.firstAllocation h) h c cl := by
  cases hv : s.servable h c with
  | false =>
    have e := State.firstAllocation_of_unservable hc hv
    refine ⟨{ c with flags := { c.flags with starved := true } }, ?_, ?_, ?_, ?_, fun l => ?_, fun x hx => ?_, fun k _ => ?_⟩
    · rw [e]
      exact State.claim_updClaim_of hc _
    · simp [hn, hsum, hshort, sumE]
    · rw [hv]
      exact hn
    · simp [hn, State.committed]
    · rw [e]
      simp only [hn, State.commitAsks, List.isEmpty_nil, Bool.not_true, Bool.false_and, Bool.false_eq_true, if_false]
      rfl
    · simp [hn] at hx
    · rw [e]
      rfl
  | true =>
    have hshortOf : c.state.shortOfFiring = true := by rw [hs]; rfl
    have hne := (State.servable_iff.1 hv).2
    have ha : (s.servedClaim c).allocation = s.takenList .firstAllocation c := by
      rw [s.servedClaim_allocation, hn, List.nil_append]
    have served := served_firstAllocation hc hv hshortOf
    refine ⟨s.servedClaim c, State.claim_firstAllocation hc hv (ClaimState.terminal_of_shortOfFiring hshortOf), ?_, ?_, ?_,
      fun l => ?_, fun x hx => ?_, fun k hk => ?_⟩
    · rw [State.servedClaim, State.committed, if_neg hne]
      rfl
    · rw [hv, if_pos rfl, ha]
    · rw [ha, decide_eq_false hne]
      rfl
    · rw [ha]
      exact served.latches l
    · exact served.assigned x (ha ▸ hx)
    · exact State.cyl_firstAllocation_of_not_taken hc (ha ▸ hk)

/-- An admission seen from a state of the same pool, to one that has the claim, the cylinders and the latches. -/
theorem Admitted.congr {s s' t t' : State} {h : Hall} {c cl : Claim} (x : Admitted s' t h c cl) (p : SamePool s s')
    (hcyl : s'.cyls = s.cyls) (hlatch : (s'.port h).latches = (s.port h).latches) (hclaim : t'.claim h = t.claim h)
    (hcyl' : t'.cyls = t.cyls) (hlatch' : (t'.port h).latches = (t.port h).latches) : Admitted s t' h c cl := by
  have hk : ∀ k, s'.cyl k = s.cyl k := fun k => by rw [State.cyl, hcyl, State.cyl]
  have hk' : ∀ k, t'.cyl k = t.cyl k := fun k => by rw [State.cyl, hcyl', State.cyl]
  have ha : cl.allocation = if s.servable h c then s.takenList .firstAllocation c else [] := by
    rw [x.allocation, p.servable, p.takenList]
  have hcand : ∀ e ∈ cl.allocation, ∃ cond, s.candidate cond e.cyl = some e := fun e he => by
    rw [ha] at he
    split at he
    · exact State.candidate_of_mem_takenList he
    · cases he
  refine ⟨hclaim.trans x.claim, x.record, ha, ?_, fun l => ?_, fun e he => ?_, fun k hn => ?_⟩
  · rw [← p.committed c hcand]
    exact x.flags
  · rw [hlatch', ← hlatch, ← p.commitAsks c hcand]
    exact x.latches l
  · rw [State.assignedTo_congr (hk' e.cyl)]
    exact x.assigned e he
  · rw [hk', ← hk]
    exact x.cyls k hn

/-! ### What an admitted claim holds (R39, R41, R77 to R79) -/

section
variable {s t : State} {h : Hall} {c cl : Claim} (x : Admitted s t h c cl)
include x

theorem Admitted.starved_iff : cl.flags.starved = true ↔ cl.allocation = [] := by
  rw [x.flags]
  exact decide_eq_true_iff

/-- What is taken is taken by the run, of a claim that is served. -/
theorem Admitted.taken (hne : cl.allocation ≠ []) : s.servable h c = true ∧ cl.allocation = s.takenList .firstAllocation c := by
  have ha := x.allocation
  cases hv : s.servable h c with
  | false => exact absurd (by rw [ha, hv]; rfl) hne
  | true => exact ⟨rfl, by rw [ha, hv, if_pos rfl]⟩

theorem Admitted.length_le : cl.allocation.length ≤ 32 := by
  by_cases hne : cl.allocation = []
  · simp [hne]
  · rw [(x.taken hne).2]
    exact s.length_takenList_le_limit _ _

theorem Admitted.minAcceptable_le (hne : cl.allocation ≠ []) : s.minAcceptable h c.figures.req ≤ sumE cl.allocation := by
  obtain ⟨hv, ha⟩ := x.taken hne
  rw [ha]
  exact (State.servable_iff.1 hv).1.trans (s.sumE_takeCredited_le _ _)

theorem Admitted.entries {e : Entry} (he : e ∈ cl.allocation) :
    s.eligible e.cyl = true ∧ (s.rackRole e.cyl = .reserve → c.reservePermitted = true) := by
  rw [(x.taken (List.ne_nil_of_mem he)).2] at he
  obtain ⟨hel, -, hres⟩ := State.mem_takenList he
  exact ⟨hel, hres⟩

/-- A pool of at most 32 cylinders that holds the requirement meets it (R76, R77). -/
theorem Admitted.meets (hn : c.allocation = []) (hf : c.fired = []) (hsum : c.allocatedSum = 0)
    (hlen : (s.creditedPool c.reservePermitted).length ≤ 32) (hreq : c.figures.req ≤ sumE (s.creditedPool c.reservePermitted))
    (hpos : 0 < c.figures.req) (hfrac : (s.hallRec h).minFraction ≤ 100) : c.figures.req ≤ sumE cl.allocation := by
  have hmet := State.req_le_takeCredited hn hf hsum hlen hreq
  rw [x.allocation, State.servable_of_pool hpos hfrac hmet, if_pos rfl]
  exact hmet.trans (s.sumE_takeCredited_le _ _)

end

/-! ### The admission of a RELEASE (R50, R51, R72) -/

/-- The delay that a RELEASE of a basis counts down (R51). -/
def State.delayOf (s : State) (h : Hall) : Basis → Nat
  | .auto => (s.hallRec h).autoDelay
  | .manual => (s.hallRec h).manualDelay

/-- The state in which an admitted claim `c` has its first allocation: on record, with no deadline, and in its place in the
admission order (R50, R72). -/
def State.admitting (s : State) (h : Hall) (c : Claim) : State :=
  ((s.setClaim h (some c)).removeUnit h).setOrder (joinTail (fun j => s.admittedAt j s.now && h < j) h s.order)

theorem State.firstAllocation_now (s : State) (h : Hall) : (s.firstAllocation h).now = s.now := by simp

theorem State.openClaim_eq (s : State) (h : Hall) (basis : Basis) (asked : Bool) : s.openClaim h basis asked =
    ((s.admitting h (newClaim basis (reservePermitted (s.hallRec h).reservePolicy asked) s.now (s.figures h))).firstAllocation
      h).loadUnit h (s.now + ms (s.delayOf h basis)) .countdown := by
  have e : ∃ u, u = (s.admitting h (newClaim basis (reservePermitted (s.hallRec h).reservePolicy asked) s.now
      (s.figures h))).firstAllocation h ∧
      s.openClaim h basis asked = u.loadUnit h (u.now + ms (s.delayOf h basis)) .countdown := by
    cases basis <;> exact ⟨_, rfl, rfl⟩
  obtain ⟨u, hu, e⟩ := e
  have hnow : u.now = s.now := by
    rw [hu, State.firstAllocation_now]
    rfl
  rw [e, hnow, hu]

/-- What an admission leaves (R50, R51, R54, R72). -/
theorem openClaim_rule (s : State) (h : Hall) (basis : Basis) (asked : Bool) : ∃ cl,
    Admitted s (s.openClaim h basis asked) h
      (newClaim basis (reservePermitted (s.hallRec h).reservePolicy asked) s.now (s.figures h)) cl ∧
    (s.openClaim h basis asked).unit h = .load s.now (s.now + ms (s.delayOf h basis)) .countdown ∧
    (s.openClaim h basis asked).order = joinTail (fun j => s.admittedAt j s.now && h < j) h s.order := by
  rw [s.openClaim_eq]
  generalize hc : newClaim basis (reservePermitted (s.hallRec h).reservePolicy asked) s.now (s.figures h) = c
  have hclaim : (s.admitting h c).claim h = some c := State.claim_setClaim_self s h (some c)
  have hnow : ((s.admitting h c).firstAllocation h).now = s.now := by simp [State.admitting]
  have horder : ((s.admitting h c).firstAllocation h).order = joinTail (fun j => s.admittedAt j s.now && h < j) h s.order := by
    simp [State.admitting]
  obtain ⟨cl, x⟩ := admitted_firstAllocation hclaim (by rw [← hc]; rfl) (by rw [← hc]; rfl) (by rw [← hc]; rfl)
    (by rw [← hc]; rfl)
  refine ⟨cl, x.congr (.of_eq rfl rfl) rfl rfl rfl rfl rfl, ?_, horder⟩
  rw [State.unit_loadUnit_self, hnow]

theorem releaseFields_valid {basis reserve : Byte} (hb : basis.toNat ≤ 1) (hr : reserve.toNat ≤ 1) :
    releaseFields [basis, reserve] = some (if basis = 1 then .manual else .auto, decide (reserve = 1)) := by
  simp only [releaseFields, (yesNo_of_le hb).2, (yesNo_of_le hr).2, decide_eq_true_eq]

/-- A RELEASE that passes the checks of R49, with no claim on record or one that has ended, is admitted (R49, R50). -/
theorem State.release_admitted {s : State} {h : Hall} {basis : Basis} {asked : Bool} (hm : s.mode = .normal)
    (hcom : (s.hallRec h).commissioned = true) (hsel : s.selectorFaulted h = false)
    (hold : ∀ old, s.claim h = some old → old.state.terminal = true) :
    s.release h (some (basis, asked)) = (s.openClaim h basis asked, .accepted) := by
  unfold State.release
  rw [hm]
  dsimp only
  rw [hcom, hsel, if_neg (by decide), if_neg (by decide)]
  cases hc : s.claim h with
  | none => rfl
  | some c => exact if_pos (hold c hc)

theorem State.openClaim_only (s : State) (h : Hall) (basis : Basis) (asked : Bool) :
    s.openClaim h basis asked = { s with
      claims := (s.openClaim h basis asked).claims, units := (s.openClaim h basis asked).units
      order := (s.openClaim h basis asked).order, cyls := (s.openClaim h basis asked).cyls
      ports := (s.openClaim h basis asked).ports } := by
  refine State.eq_of_fields ?_ ?_ ?_ ?_ ?_ rfl ?_ rfl rfl rfl ?_ ?_ ?_ ?_ ?_ rfl ?_ <;> simp

theorem State.admittedAt_iff {s : State} {j : Hall} {t : Time} :
    s.admittedAt j t = true ↔ ∃ c, s.claim j = some c ∧ c.admittedAt = t := by
  unfold State.admittedAt
  cases s.claim j <;> simp

/-- The basis that a RELEASE carries (section 12.1). -/
def basisOf (basis : Byte) : Basis := if basis = 1 then .manual else .auto

/-- The claim that a RELEASE opens, before its first allocation (R38, R50). -/
def State.released (s : State) (h : Hall) (basis reserve : Byte) : Claim :=
  newClaim (basisOf basis) (reservePermitted (s.hallRec h).reservePolicy (decide (reserve = 1))) s.now (s.figures h)

theorem delaySource_released (s : State) (h : Hall) (basis reserve : Byte) :
    (s.released h basis reserve).delaySource = if basis = 1 then .manualDelay else .autoDelay := by
  by_cases h1 : basis = 1
  · rw [State.released, basisOf, if_pos h1, if_pos h1]
    rfl
  · rw [State.released, basisOf, if_neg h1, if_neg h1]
    rfl

theorem State.delayOf_basisOf (s : State) (h : Hall) (basis : Byte) :
    s.delayOf h (basisOf basis) = if basis = 1 then (s.hallRec h).manualDelay else (s.hallRec h).autoDelay := by
  unfold basisOf
  split <;> rfl

/-- A RELEASE that is admitted: its answer is formed on what the admission leaves, which reads nothing that the request has
changed (R49 to R51, R72, R166). -/
theorem release_rule {s : State} {h : Hall} {basis reserve : Byte} (hs : s.takesRequest h) (hm : s.mode = .normal)
    (hcom : (s.hallRec h).commissioned = true) (hsel : s.selectorFaulted h = false) (hb : basis.toNat ≤ 1)
    (hr : reserve.toNat ≤ 1) (hold : ∀ old, s.claim h = some old → old.state.terminal = true) :
    ∃ v cl, exec (.release h [basis, reserve]) s = .next (v.answerHall h 2 .accepted none) ∧
      Admitted s v h (s.released h basis reserve) cl ∧
      v.unit h = .load s.now (s.now + ms (s.delayOf h (basisOf basis))) .countdown ∧
      v.order = joinTail (fun j => s.admittedAt j s.now && h < j) h s.order ∧
      (∀ j, j ≠ h → v.claim j = s.claim j ∧ v.unit j = s.unit j ∧ v.port j = s.port j) ∧
      v = { s with claims := v.claims, units := v.units, order := v.order, cyls := v.cyls, ports := v.ports } := by
  obtain ⟨u, hu⟩ : ∃ u, u = s.hallRequested h { kind := 2, payload := [basis, reserve] } := ⟨_, rfl⟩
  obtain ⟨ps, hrest⟩ : ∃ ps, u = { s with ports := ps } := ⟨u.ports, by rw [hu]; rfl⟩
  have hown : releaseOwner h [basis, reserve] u =
      { state := u.openClaim h (basisOf basis) (decide (reserve = 1)), result := .accepted, live := none } := by
    rw [releaseOwner, releaseFields_valid hb hr, State.release_admitted (by rw [hrest]; exact hm) (by rw [hrest]; exact hcom)
      (by rw [hrest]; exact hsel) (by rw [hrest]; exact hold)]
    rfl
  have ht := State.hallArrival_taken hs (f := { kind := 2, payload := [basis, reserve] }) (.inr rfl)
    (releaseOwner h [basis, reserve])
  rw [← hu, hown] at ht
  have hfig : u.figures h = s.figures h := by rw [hu, State.figures_hallRequested]
  have hhall : u.hallRec h = s.hallRec h := by rw [hrest]; rfl
  have hdelay : u.delayOf h (basisOf basis) = s.delayOf h (basisOf basis) := by rw [hrest]; rfl
  have hnow : u.now = s.now := by rw [hrest]
  have hadm : ∀ j t, u.admittedAt j t = s.admittedAt j t := fun j t => by rw [hrest]; rfl
  have hlatch : (u.port h).latches = (s.port h).latches := by rw [hu, State.port_hallRequested]
  have hport : ∀ j, j ≠ h → u.port j = s.port j := fun j hj => by rw [hu, State.port_hallRequested_other s hj]
  have honly := u.openClaim_only h (basisOf basis) (decide (reserve = 1))
  have hothers := fun j (hj : j ≠ h) => u.openClaim_other hj (basisOf basis) (decide (reserve = 1))
  obtain ⟨cl, x, hunit, horder⟩ := openClaim_rule u h (basisOf basis) (decide (reserve = 1))
  rw [hfig, hhall, hnow] at x
  rw [hnow, hdelay] at hunit
  simp only [hnow, hadm] at horder
  generalize u.openClaim h (basisOf basis) (decide (reserve = 1)) = v at *
  clear hown hu
  subst hrest
  exact ⟨v, cl, congrArg Host.Outcome.next ht, x.congr (.of_eq rfl rfl) rfl hlatch rfl rfl rfl, hunit, horder,
    fun j hj => ⟨(hothers j hj).1, (hothers j hj).2.1, (hothers j hj).2.2.trans (hport j hj)⟩, honly⟩

/-- Settles O44: what the claim holds follows from the admission of its record, and the reply carries the latches as the first
allocation leaves them. -/
theorem releaseAdmitted : Obligations.ReleaseAdmitted := by
  unfold Obligations.ReleaseAdmitted
  intro s h basis reserve hs hm hcom hsel hb hr hold
  obtain ⟨v, cl, hx, y, hunit, horder, hothers, honly⟩ := release_rule hs hm hcom hsel hb hr hold
  generalize hc : s.released h basis reserve = c at y
  have hrec := y.record
  have hbasis : cl.basis = basisOf basis := by rw [hrec, ← hc]; rfl
  have hres : cl.reservePermitted = reservePermitted (s.hallRec h).reservePolicy (decide (reserve = 1)) := by
    rw [hrec, ← hc]
    rfl
  have hfigs : cl.figures = s.figures h := by rw [hrec, ← hc]; rfl
  have hresc : cl.reservePermitted = c.reservePermitted := by rw [hrec]
  have hfigc : cl.figures = c.figures := by rw [hrec]
  have hsum : cl.allocatedSum = sumE cl.allocation := by rw [hrec]
  have hfresh : newClaim cl.basis cl.reservePermitted s.now (s.figures h) = c := by
    rw [hbasis, hres, ← hc]
    rfl
  have hport := v.port_answerHall h 2 .accepted none
  refine ⟨v.answerHall h 2 .accepted none, cl, hx, y.claim, ?_, hbasis, ?_, ?_, ?_, hfigs, ?_, ?_, ?_, ?_, hsum, ?_,
    y.starved_iff, y.length_le, fun hne => ?_, fun e he => ?_, fun k hk => y.cyls k hk, ?_, ?_, ?_, ?_,
    fun j hj => ⟨?_, ?_, ?_⟩, ?_⟩
  · rw [hrec, ← hc]; rfl
  · rw [hrec, ← hc]; rfl
  · rw [hrec, ← hc]
    exact delaySource_released s h basis reserve
  · rw [hres]
    cases (s.hallRec h).reservePolicy <;> rfl
  · rw [hrec, ← hc]; rfl
  · rw [hrec, ← hc]; rfl
  · rw [hrec, ← hc]; rfl
  · rw [hrec, ← hc]; rfl
  · rw [hfigc, hsum]
    exact congrArg Claim.shortage hrec
  · rw [hfigc, hsum]
    exact y.minAcceptable_le hne
  · obtain ⟨hel, hrk⟩ := y.entries he
    exact ⟨hel, y.assigned e he, hresc ▸ hrk⟩
  · refine hunit.trans ?_
    rw [State.delayOf_basisOf]
  · intro fresh
    have hfc : fresh = c := hfresh
    rw [hfc]
    refine ⟨y.allocation, y.flags, v.hallReply h 2 .accepted none, by rw [hport]; rfl, fun l => ⟨y.latches l, ?_⟩⟩
    rw [hport]
    exact Latches.get_map ..
  · intro pool hlen hreq hpos hfrac
    rw [hfigc] at hreq hpos ⊢
    rw [hsum]
    have hpool : pool = s.creditedPool c.reservePermitted := by rw [← hresc]; rfl
    rw [hpool] at hlen hreq
    exact y.meets (by rw [← hc]; rfl) (by rw [← hc]; rfl) (by rw [← hc]; rfl) hlen hreq hpos hfrac
  · obtain ⟨before, after, h1, h2, h3, h4⟩ := joinTail_place (fun j => s.admittedAt j s.now && h < j) h s.order
    rw [h2] at horder
    refine ⟨before, after, h1, horder, fun j hj => ?_, fun j hj e => ?_⟩
    · have hj' := h3 j hj
      simp only [Bool.and_eq_true, decide_eq_true_eq] at hj'
      exact ⟨hj'.2, State.admittedAt_iff.1 hj'.1⟩
    · have hj' := h4 j hj
      simp [State.admittedAt_iff.2 e.2, e.1] at hj'
  · exact (hothers j hj).1
  · exact (hothers j hj).2.1
  · exact (State.port_answerHall_other _ hj ..).trans (hothers j hj).2.2
  · obtain ⟨cs, us, os, ys, ps, hv⟩ : ∃ cs us os ys ps,
        v = { s with claims := cs, units := us, order := os, cyls := ys, ports := ps } := ⟨_, _, _, _, _, honly⟩
    rw [hv]
    rfl

end Sys2Proof.Machine
end

