-- ==== Sys2Proof/Proofs/PortLines.lean ====
section
/-! PROOFS. The lines of the hall ports: what the law of the ports reads of them. The operations on claims, cylinders, the
manifold and the circuits set latches, hold levels and re-arm flags, and change no line. -/

namespace Sys2Proof.Machine

/-! ### Lines: the ports without their latches and hold state -/

/-- A port with its latches, its hold level and its re-arm flag left out of account. -/
def HallPort.line (p : HallPort) : HallPort := { p with holdLevel := false, reArm := false, latches := clearLatches }

/-- The ports with their latches, hold levels and re-arm flags left out of account. -/
def lines (ports : Vector HallPort 8) : Vector HallPort 8 := ports.map HallPort.line

/-- The line of one port. -/
theorem getElem_lines (s : State) (h : Hall) : (lines s.ports)[h] = (s.port h).line := by
  simp [lines, State.port]

/-- The ports have the same lines when every port does. -/
theorem lines_eq_iff (s t : State) : lines t.ports = lines s.ports ↔ ∀ h, (t.port h).line = (s.port h).line := by
  constructor
  · intro e h
    rw [← getElem_lines, ← getElem_lines, e]
  · intro e
    ext i hi : 1
    have := e ⟨i, hi⟩
    rw [← getElem_lines, ← getElem_lines] at this
    exact this

/-- An update of one port that leaves its line. -/
theorem lines_updPort (s : State) (h : Hall) {f : HallPort → HallPort} (hf : ∀ p, (f p).line = p.line) :
    lines (s.updPort h f).ports = lines s.ports := by
  refine (lines_eq_iff _ _).2 fun j => ?_
  rw [State.port_updPort]
  split
  · rename_i e
    rw [hf, e]
  · rfl

@[simp] theorem lines_setLatch (s : State) (h : Hall) (l : Latch) : lines (s.setLatch h l).ports = lines s.ports :=
  lines_updPort s h fun _ => rfl

@[simp] theorem lines_updPort_reArm (s : State) (h : Hall) (b : Bool) :
    lines (s.updPort h fun p => { p with reArm := b }).ports = lines s.ports := lines_updPort s h fun _ => rfl

@[simp] theorem lines_updPort_holdLevel (s : State) (h : Hall) (b : Bool) :
    lines (s.updPort h fun p => { p with holdLevel := b }).ports = lines s.ports := lines_updPort s h fun _ => rfl

@[simp] theorem lines_updPort_hold (s : State) (h : Hall) (b c : Bool) :
    lines (s.updPort h fun p => { p with reArm := b, holdLevel := c }).ports = lines s.ports :=
  lines_updPort s h fun _ => rfl

/-! ### The operations, in the order of the model -/

@[simp] theorem lines_reallocate (s : State) (h : Hall) (commit : Bool) (alloc : List Entry) :
    lines (s.reallocate h commit alloc).ports = lines s.ports := by
  unfold State.reallocate
  dsimp only
  (repeat' split) <;> simp

@[simp] theorem lines_commit (s : State) (h : Hall) (taken : List Entry) :
    lines (s.commit h taken).ports = lines s.ports := by
  unfold State.commit
  dsimp only
  (repeat' split) <;> simp

@[simp] theorem lines_firstAllocation (s : State) (h : Hall) : lines (s.firstAllocation h).ports = lines s.ports := by
  unfold State.firstAllocation
  dsimp only
  (repeat' split) <;> simp

@[simp] theorem lines_topUp (s : State) (h : Hall) : lines (s.topUp h).ports = lines s.ports := by
  unfold State.topUp
  split <;> simp

@[simp] theorem lines_replace (s : State) (h : Hall) (debt : Nat) :
    lines (s.replace h debt).ports = lines s.ports := by
  unfold State.replace
  split <;> simp

@[simp] theorem lines_releaseAllocation (s : State) (h : Hall) :
    lines (s.releaseAllocation h).ports = lines s.ports := by
  unfold State.releaseAllocation
  split <;> simp

@[simp] theorem lines_setMismatch (s : State) (h : Hall) : lines (s.setMismatch h).ports = lines s.ports := by
  unfold State.setMismatch
  split <;> simp

@[simp] theorem lines_testMismatch (s : State) (h : Hall) : lines (s.testMismatch h).ports = lines s.ports := by
  unfold State.testMismatch
  split <;> simp

@[simp] theorem lines_leaveClosing (s : State) : lines s.leaveClosing.ports = lines s.ports := by
  unfold State.leaveClosing
  split <;> simp

@[simp] theorem lines_arbiterEdge (s : State) (h : Hall) (v : Valve) :
    lines (s.arbiterEdge h v).ports = lines s.ports := by
  unfold State.arbiterEdge
  (repeat' split) <;> simp

@[simp] theorem lines_endClaim (s : State) (h : Hall) (state : ClaimState) (reason : EndReason) :
    lines (s.endClaim h state reason).ports = lines s.ports := by
  unfold State.endClaim
  (repeat' split) <;> simp

@[simp] theorem lines_answerLoss (s : State) (h : Hall) (before : List Entry) :
    lines (s.answerLoss h before).ports = lines s.ports := by
  unfold State.answerLoss
  dsimp only
  (repeat' split) <;> simp

@[simp] theorem lines_dropEntry (s : State) (h : Hall) (k : CylIdx) :
    lines (s.dropEntry h k).ports = lines s.ports := by
  unfold State.dropEntry
  split <;> simp

@[simp] theorem lines_removal (s : State) (h : Hall) (k : CylIdx) : lines (s.removal h k).ports = lines s.ports := by
  unfold State.removal
  split <;> simp

@[simp] theorem lines_handE (s : State) (h : Hall) (k : CylIdx) (old new : Nat) :
    lines (s.handE h k old new).ports = lines s.ports := by
  unfold State.handE
  (repeat' split) <;> simp

@[simp] theorem lines_openClaim (s : State) (h : Hall) (basis : Basis) (asked : Bool) :
    lines (s.openClaim h basis asked).ports = lines s.ports := by simp [State.openClaim]

@[simp] theorem lines_upgrade (s : State) (h : Hall) (c : Claim) : lines (s.upgrade h c).ports = lines s.ports := by
  unfold State.upgrade
  dsimp only
  split <;> simp

@[simp] theorem lines_observeHold (s : State) (h : Hall) (level : Bool) :
    lines (s.observeHold h level).ports = lines s.ports := by
  unfold State.observeHold
  dsimp only
  (repeat' split) <;> simp

@[simp] theorem lines_countdownOver (s : State) (h : Hall) : lines (s.countdownOver h).ports = lines s.ports := by
  unfold State.countdownOver
  dsimp only
  (repeat' split) <;> simp

theorem lines_tryStarved (acc : State × List Hall) (h : Hall) :
    lines (State.tryStarved acc h).1.ports = lines acc.1.ports := by
  unfold State.tryStarved
  dsimp only
  (repeat' split) <;> simp

@[simp] theorem lines_reEvaluate (s : State) : lines s.reEvaluate.ports = lines s.ports := by
  have keep : lines s.tried.1.ports = lines s.ports :=
    foldl_keeps State.tryStarved (fun a => lines a.1.ports) lines_tryStarved s.order (s, [])
  rw [State.reEvaluate_eq]
  split <;> simpa using keep

@[simp] theorem lines_lockHall (s : State) (h : Hall) : lines (s.lockHall h).ports = lines s.ports := by
  unfold State.lockHall
  (repeat' split) <;> simp

@[simp] theorem lines_lockout (s : State) : lines s.lockout.ports = lines s.ports := by
  have keep : lines (allHalls.foldl State.lockHall s).ports = lines s.ports :=
    foldl_keeps State.lockHall (fun s => lines s.ports) lines_lockHall allHalls s
  rw [State.lockout_eq]
  dsimp only
  exact keep

@[simp] theorem lines_discharge (s : State) (h : Hall) (reason : EndReason) :
    lines (s.discharge h reason).ports = lines s.ports := by
  unfold State.discharge
  split <;> simp

@[simp] theorem lines_enterConfirming (s : State) (h : Hall) : lines (s.enterConfirming h).ports = lines s.ports := by
  unfold State.enterConfirming
  (repeat' split) <;> simp

@[simp] theorem lines_lineCompletion (s : State) (h : Hall) : lines (s.lineCompletion h).ports = lines s.ports := by
  unfold State.lineCompletion
  (repeat' split) <;> simp

@[simp] theorem lines_fireLine (s : State) (h : Hall) : lines (s.fireLine h).ports = lines s.ports := by
  unfold State.fireLine
  dsimp only
  (repeat' split) <;> simp

@[simp] theorem lines_beginDischarge (s : State) (h : Hall) (t : Time) :
    lines (s.beginDischarge h t).ports = lines s.ports := by simp [State.beginDischarge]

@[simp] theorem lines_lineTime (s : State) (h : Hall) : lines (s.lineTime h).ports = lines s.ports := by
  unfold State.lineTime
  split <;> simp

@[simp] theorem lines_abandon (s : State) (h : Hall) : lines (s.abandon h).ports = lines s.ports := by
  simp [State.abandon]

@[simp] theorem lines_sequencerEdge (s : State) (h : Hall) (v : Valve) :
    lines (s.sequencerEdge h v).ports = lines s.ports := by
  unfold State.sequencerEdge
  split <;> simp

@[simp] theorem lines_finishPulse (s : State) (h : Hall) : lines (s.finishPulse h).ports = lines s.ports := by
  unfold State.finishPulse
  dsimp only
  (repeat' split) <;> simp

@[simp] theorem lines_pulseNormal (s : State) (h : Hall) (k : CylIdx) :
    lines (s.pulseNormal h k).ports = lines s.ports := by simp [State.pulseNormal]

@[simp] theorem lines_pulseFailed (s : State) (h : Hall) (k : CylIdx) :
    lines (s.pulseFailed h k).ports = lines s.ports := by simp [State.pulseFailed]

@[simp] theorem lines_lostToFault (s : State) (h : Hall) (k : CylIdx) :
    lines (s.lostToFault h k).ports = lines s.ports := by
  unfold State.lostToFault
  (repeat' split) <;> simp

@[simp] theorem lines_dischargeSeen (s : State) (h : Hall) (t : Time) :
    lines (s.dischargeSeen h t).ports = lines s.ports := by
  unfold State.dischargeSeen
  split <;> simp

@[simp] theorem lines_handOver (s : State) (k : CylIdx) (valid : Bool) (old new : Cylinder) :
    lines (s.handOver k valid old new).ports = lines s.ports := by
  unfold State.handOver
  (repeat' split) <;> simp

@[simp] theorem lines_takeSample (s : State) (k : CylIdx) (p : Option Nat) :
    lines (s.takeSample k p).ports = lines s.ports := by
  unfold State.takeSample
  split <;> simp

@[simp] theorem lines_actuatorFaulted (s : State) (k : CylIdx) :
    lines (s.actuatorFaulted k).ports = lines s.ports := by
  unfold State.actuatorFaulted
  (repeat' split) <;> simp

@[simp] theorem lines_markFaulted (s : State) (h : Hall) : lines (s.markFaulted h).ports = lines s.ports := by
  unfold State.markFaulted
  dsimp only
  (repeat' split) <;> simp

@[simp] theorem lines_handCheck (s : State) (role : Role) (r : LineState) (third : Bool) :
    lines (s.handCheck role r third).ports = lines s.ports := by
  unfold State.handCheck
  (repeat' split) <;> simp

@[simp] theorem lines_superviseChannel (s : State) (c : ChanIdx) (m : LineMeasurement) :
    lines (s.superviseChannel c m).ports = lines s.ports := by
  unfold State.superviseChannel
  dsimp only
  split <;> simp

@[simp] theorem lines_handPulse (s : State) (k : CylIdx) (r : LineState) :
    lines (s.handPulse k r).ports = lines s.ports := by
  unfold State.handPulse
  (repeat' split) <;> simp

@[simp] theorem lines_completePulse (s : State) (c : ChanIdx) (msr : List PulseMeasurement) :
    lines (s.completePulse c msr).ports = lines s.ports := by
  unfold State.completePulse
  (repeat' split) <;> simp

@[simp] theorem lines_keyTurnedOn (s : State) : lines s.keyTurnedOn.ports = lines s.ports := by
  unfold State.keyTurnedOn
  split <;> simp

@[simp] theorem lines_handSelector (s : State) (h : Hall) (v : Valve) (t : Time) :
    lines (s.handSelector h v t).ports = lines s.ports := by
  unfold State.handSelector
  split <;> simp

@[simp] theorem lines_selectorEdge (s : State) (h : Hall) : lines (s.selectorEdge h).ports = lines s.ports := by
  unfold State.selectorEdge
  dsimp only
  (repeat' split) <;> simp

@[simp] theorem lines_testMismatches (s : State) (hs : List Hall) :
    lines (hs.foldl State.testMismatch s).ports = lines s.ports :=
  foldl_keeps State.testMismatch (fun s => lines s.ports) lines_testMismatch hs s

@[simp] theorem lines_establish (s : State) : lines s.establish.ports = lines s.ports := by simp [State.establish]

@[simp] theorem lines_openLevelWritten (s : State) (h : Hall) (before : Option Valve) :
    lines (s.openLevelWritten h before).ports = lines s.ports := by
  unfold State.openLevelWritten
  (repeat' split) <;> simp

@[simp] theorem lines_commissionedWritten (s : State) (h : Hall) (before : Bool) :
    lines (s.commissionedWritten h before).ports = lines s.ports := by
  unfold State.commissionedWritten
  (repeat' split) <;> simp

@[simp] theorem lines_applyWrite (s : State) (w : RecordWrite) : lines (s.applyWrite w).ports = lines s.ports := by
  unfold State.applyWrite
  split <;> simp

@[simp] theorem lines_takeSelectorCapture (s : State) (h : Hall) :
    lines (s.takeSelectorCapture h).ports = lines s.ports := by
  unfold State.takeSelectorCapture
  (repeat' split) <;> simp

@[simp] theorem lines_takeSwitchCapture (s : State) : lines s.takeSwitchCapture.ports = lines s.ports := by
  unfold State.takeSwitchCapture
  (repeat' split) <;> simp

@[simp] theorem lines_holdLimitOver (s : State) (h : Hall) : lines (s.holdLimitOver h).ports = lines s.ports := by
  simp [State.holdLimitOver]

@[simp] theorem lines_closeTimeout (s : State) : lines s.closeTimeout.ports = lines s.ports := by
  unfold State.closeTimeout
  split <;> simp

@[simp] theorem lines_answerPoolGain (s : State) : lines s.answerPoolGain.ports = lines s.ports := by
  unfold State.answerPoolGain
  split <;> simp

end Sys2Proof.Machine
end

