-- ==== Sys2Proof/Proofs/PortsLaw.lean ====
section
/-! PROOFS. The law of the ports and their receivers is kept by every step (R30, R164, R165, R169, R177). -/

namespace Sys2Proof.Machine

/-! ### Receivers (R164, R165) -/

theorem ReceiverLaw.of_hunting {r : Receiver} {busy : Bool} (hs : r.state ≠ .assembling) (hl : r.lastByte = none)
    (hb : r.buffer = []) : ReceiverLaw r busy :=
  ⟨by simp [hs, hl], fun _ => hb, fun _ => hs⟩

/-- A receiver whose port does not transmit is held by nothing. -/
theorem ReceiverLaw.idle {r : Receiver} {busy : Bool} (l : ReceiverLaw r busy) : ReceiverLaw r false :=
  ⟨l.gap, l.empty, nofun⟩

theorem ReceiverLaw.abandon {r : Receiver} {busy : Bool} (l : ReceiverLaw r busy) (busy' : Bool) :
    ReceiverLaw r.abandon busy' := by
  refine ⟨?_, ?_, fun _ => r.abandon_state_ne⟩
  · rw [Receiver.abandon_eq]
    split
    · simp
    · exact l.gap
  · rw [Receiver.abandon_eq]
    split
    · exact fun _ => rfl
    · exact l.empty

theorem ReceiverLaw.release {r : Receiver} {busy : Bool} (l : ReceiverLaw r busy) (f : Frame) :
    ReceiverLaw (r.release f) busy := by
  unfold Receiver.release
  split
  · exact ⟨l.gap, l.empty, l.held⟩
  · exact l

theorem ReceiverLaw.hold {r : Receiver} {busy : Bool} (l : ReceiverLaw r busy) (busy' : Bool) :
    ReceiverLaw (r.held busy') busy' := by
  cases busy' with
  | false => exact l.idle
  | true => exact l.abandon true

theorem receiverLaw_begin (r : Receiver) (busy : Bool) : ReceiverLaw r.begin busy :=
  .of_hunting RxState.noConfusion rfl rfl

theorem receiverLaw_finish (r : Receiver) (bs : List Byte) : ReceiverLaw (r.finish bs) false := by
  unfold Receiver.finish
  dsimp only
  (repeat' split) <;> exact .of_hunting RxState.noConfusion rfl rfl

/-- A byte that fills a frame leaves the frame complete, discarded, or timed from that byte (R164). -/
theorem receiverLaw_fill {r : Receiver} (hr : r.state = .assembling) (now : Time) (bs : List Byte) :
    ReceiverLaw (r.fill now bs) false := by
  have filled : ReceiverLaw { r with buffer := bs, lastByte := some now } false :=
    ⟨by simp [hr], fun hn => absurd hr hn, nofun⟩
  unfold Receiver.fill
  (repeat' split)
  · exact .of_hunting RxState.noConfusion rfl rfl
  · exact receiverLaw_finish r _
  · exact filled
  · exact filled

theorem ReceiverLaw.take {r : Receiver} (l : ReceiverLaw r false) (now : Time) (b : Byte) :
    ReceiverLaw (r.take now b) false := by
  unfold Receiver.take
  split
  · exact l
  · split
    · exact ⟨by simp, fun hn => absurd rfl hn, nofun⟩
    · exact l
  · rename_i hs
    exact receiverLaw_fill hs now _

theorem ReceiverLaw.hear {r : Receiver} {busy : Bool} (l : ReceiverLaw r busy) (now : Time) (b : Byte) :
    ReceiverLaw (r.hear busy now b) busy := by
  cases busy with
  | true => exact l.abandon true
  | false =>
    have e : r.hear false now b = r.byte now b := rfl
    rw [e, Receiver.byte]
    split
    · exact (l.abandon false).take now b
    · exact l.take now b

/-! ### Transmissions (R165) -/

/-- A transmission that is to begin 1 to 5 ms from now has not begun. -/
theorem transmitting_delayed (owed : Bool) (now : Time) (n : Nat) :
    transmitting owed (some (now + Config.replyDelay n)) now = false := by
  have hd : (Config.replyDelay n).toNat = 1 + Config.replyTiming n % 5 := by
    rw [Config.replyDelay, BitVec.toNat_ofNat]
    omega
  have hr : reached (now + Config.replyDelay n) now = false := by
    rw [reached, decide_eq_false_iff_not, BitVec.toNat_sub, BitVec.toNat_add, hd]
    have := now.isLt
    omega
  simp [transmitting, hr]

/-! ### The law of one port -/

/-- What the law asks of one hall port, at `now`. -/
structure HallPort.Lawful (p : HallPort) (now : Time) : Prop where
  port : PortLaw p
  receiver : ReceiverLaw p.rx (transmitting p.owed p.replyBegins now)

/-- What the law asks of the site port, at `now`. -/
structure SitePort.Lawful (p : SitePort) (now : Time) : Prop where
  owed : p.reply.isSome = true → p.owed = true
  begins : p.replyBegins.isSome = p.reply.isSome
  receiver : ReceiverLaw p.rx (transmitting p.owed p.replyBegins now)

/-- What the law asks of the hall ports. -/
def HallsLaw (s : State) : Prop := ∀ h, (s.port h).Lawful s.now

/-- The law of the ports is one of the hall ports and one of the site port. -/
theorem portsLaw_iff (s : State) : PortsLaw s ↔ HallsLaw s ∧ s.site.Lawful s.now :=
  ⟨fun l => ⟨fun h => ⟨l.halls h, l.receivers h⟩, l.siteOwed, l.siteBegins, l.siteReceiver⟩,
    fun ⟨h, l⟩ => ⟨fun j => (h j).port, l.owed, l.begins, fun j => (h j).receiver, l.receiver⟩⟩

theorem HallPort.Lawful.of_line {p q : HallPort} {now : Time} (l : p.Lawful now) (e : q.line = p.line) : q.Lawful now := by
  have keep {β : Type} (g : HallPort → β) (hg : ∀ p, g p.line = g p) : g q = g p := by rw [← hg q, e, hg p]
  have howed := keep (·.owed) fun _ => rfl
  have hreply := keep (·.reply) fun _ => rfl
  have hbegins := keep (·.replyBegins) fun _ => rfl
  have hrx := keep (·.rx) fun _ => rfl
  refine ⟨⟨?_, ?_, ?_, ?_⟩, ?_⟩
  · rw [howed, hreply]
    exact l.port.owed
  · rw [hbegins, hreply]
    exact l.port.begins
  · rw [keep (·.supervision) fun _ => rfl, keep (·.link) fun _ => rfl]
    exact l.port.supervision
  · rw [keep (·.temp) fun _ => rfl, keep (·.freshness) fun _ => rfl]
    exact l.port.temperature
  · rw [hrx, howed, hbegins]
    exact l.receiver

theorem HallsLaw.of_lines {s t : State} (l : HallsLaw s) (hp : lines t.ports = lines s.ports) (hn : t.now = s.now) :
    HallsLaw t := fun h => hn ▸ (l h).of_line ((lines_eq_iff s t).1 hp h)

/-- An update of one hall port that leaves it lawful. -/
theorem HallsLaw.updPort {s : State} (l : HallsLaw s) (h : Hall) {f : HallPort → HallPort}
    (hf : (s.port h).Lawful s.now → (f (s.port h)).Lawful s.now) : HallsLaw (s.updPort h f) := by
  intro j
  rw [State.port_updPort]
  split
  · exact hf (l h)
  · exact l j

/-! ### What happens to a port (R30, R164, R165, R170) -/

theorem HallPort.Lawful.withRx {p : HallPort} {now : Time} (l : p.Lawful now) {r : Receiver}
    (hr : ReceiverLaw r (transmitting p.owed p.replyBegins now)) : HallPort.Lawful { p with rx := r } now :=
  ⟨⟨l.port.owed, l.port.begins, l.port.supervision, l.port.temperature⟩, hr⟩

theorem SitePort.Lawful.withRx {p : SitePort} {now : Time} (l : p.Lawful now) {r : Receiver}
    (hr : ReceiverLaw r (transmitting p.owed p.replyBegins now)) : SitePort.Lawful { p with rx := r } now :=
  ⟨l.owed, l.begins, hr⟩

theorem HallPort.Lawful.transmitted {p : HallPort} {now : Time} (l : p.Lawful now) : (p.transmitted now).Lawful now := by
  unfold HallPort.transmitted
  (repeat' split)
  · exact ⟨⟨rfl, rfl, l.port.supervision, l.port.temperature⟩, l.receiver.abandon _⟩
  · exact l
  · exact l

theorem SitePort.Lawful.transmitted {p : SitePort} {now : Time} (l : p.Lawful now) : (p.transmitted now).Lawful now := by
  unfold SitePort.transmitted
  (repeat' split)
  · exact ⟨nofun, rfl, l.receiver.abandon _⟩
  · exact l
  · exact l

theorem CompareUnit.isSome_deadline_settle (u : CompareUnit) (now : Time) :
    (u.settle now).deadline?.isSome = u.deadline?.isSome := by
  cases u with
  | inhibited => rfl
  | watching d k =>
    unfold CompareUnit.settle
    dsimp only
    split <;> rfl
  | expired d k => rfl

theorem CompareUnit.isSome_deadline_load (now d : Time) (k : DeadlineKind) :
    (CompareUnit.load now d k).deadline?.isSome = true := CompareUnit.isSome_deadline_settle _ _

/-- A port at the next millisecond: its units settle, and its receiver is held once the transmission begins (R138, R165). -/
theorem HallPort.Lawful.settle {p : HallPort} {now : Time} (l : p.Lawful now) (now' : Time) :
    (p.settle now').Lawful now' := by
  refine ⟨⟨l.port.owed, l.port.begins, ?_, ?_⟩, l.receiver.hold _⟩
  · refine Iff.trans ?_ l.port.supervision
    exact iff_of_eq (congrArg (· = true) (CompareUnit.isSome_deadline_settle p.supervision now'))
  · exact l.port.temperature.trans (CompareUnit.isSome_deadline_settle p.freshness now').symm

theorem SitePort.Lawful.settle {p : SitePort} {now : Time} (l : p.Lawful now) (now' : Time) :
    (p.settle now').Lawful now' := ⟨l.owed, l.begins, l.receiver.hold _⟩

/-- A port whose link is lost (R170). -/
theorem HallPort.Lawful.unsupervised {p : HallPort} {now : Time} (l : p.Lawful now) {link : LinkState}
    (hl : link ≠ .active) : HallPort.Lawful { p with supervision := .inhibited, link := link } now :=
  ⟨⟨l.port.owed, l.port.begins, by simp [CompareUnit.deadline?, hl], l.port.temperature⟩, l.receiver⟩

/-- A port whose reported temperature is withdrawn (R30). -/
theorem HallPort.Lawful.untemperatured {p : HallPort} {now : Time} (l : p.Lawful now) :
    HallPort.Lawful { p with temp := none, freshness := .inhibited } now :=
  ⟨⟨l.port.owed, l.port.begins, l.port.supervision, rfl⟩, l.receiver⟩

/-! ### What leaves every port as it was -/

/-- Between `s` and `t` no line of a hall port has changed, the site port stands, and no time has passed. -/
structure KeepsPorts (s t : State) : Prop where
  lines : lines t.ports = lines s.ports
  site : t.site = s.site
  now : t.now = s.now

theorem KeepsPorts.refl (s : State) : KeepsPorts s s := ⟨rfl, rfl, rfl⟩

theorem KeepsPorts.trans {s t u : State} (x : KeepsPorts s t) (y : KeepsPorts t u) : KeepsPorts s u :=
  ⟨y.lines.trans x.lines, y.site.trans x.site, y.now.trans x.now⟩

theorem PortsLaw.of_keeps {s t : State} (l : PortsLaw s) (k : KeepsPorts s t) : PortsLaw t := by
  rw [portsLaw_iff] at *
  refine ⟨l.1.of_lines k.lines k.now, ?_⟩
  rw [k.site, k.now]
  exact l.2

/-- An update of one hall port that leaves it lawful. -/
theorem PortsLaw.updPort {s : State} (l : PortsLaw s) (h : Hall) {f : HallPort → HallPort}
    (hf : (s.port h).Lawful s.now → (f (s.port h)).Lawful s.now) : PortsLaw (s.updPort h f) := by
  rw [portsLaw_iff] at *
  exact ⟨l.1.updPort h hf, l.2⟩

/-- A site port in place of the one that was. -/
theorem PortsLaw.setSite {s : State} (l : PortsLaw s) {p : SitePort} (hp : s.site.Lawful s.now → p.Lawful s.now) :
    PortsLaw (s.setSite p) := by
  rw [portsLaw_iff] at *
  exact ⟨l.1, hp l.2⟩

theorem keepsPorts_takeClaimExpiry (s : State) (h : Hall) (k : DeadlineKind) (st : ClaimState) {owner : State → State}
    (ho : ∀ u, KeepsPorts u (owner u)) : KeepsPorts s (s.takeClaimExpiry h k st owner) := by
  rcases s.takeClaimExpiry_cases h k st owner with e | e | ⟨-, -, e⟩ <;> rw [e]
  · exact .refl s
  · exact ⟨rfl, rfl, rfl⟩
  · exact KeepsPorts.trans (t := s.removeUnit h) ⟨rfl, rfl, rfl⟩ (ho _)

theorem keepsPorts_takeManifoldExpiry (s : State) (k : DeadlineKind) (st : ManifoldState) {owner : State → State}
    (ho : ∀ u, KeepsPorts u (owner u)) : KeepsPorts s (s.takeManifoldExpiry k st owner) := by
  rcases s.takeManifoldExpiry_cases k st owner with e | e | ⟨-, -, e⟩ <;> rw [e]
  · exact .refl s
  · exact ⟨rfl, rfl, rfl⟩
  · exact KeepsPorts.trans (t := s.setManifold { s.manifold with unit := .inhibited }) ⟨rfl, rfl, rfl⟩ (ho _)

/-! ### Resets, start-up and the expiries of a port (R30, R170, R179, R191) -/

theorem portsLaw_afterReset (s : State) : PortsLaw s.afterReset := by
  have hp : ∀ h, s.afterReset.port h = resetPort := fun h => by simp [State.port, State.afterReset, State.reset]
  have hs : s.afterReset.site = resetSite := rfl
  have hr : ∀ busy, ReceiverLaw resetReceiver busy := fun _ => .of_hunting RxState.noConfusion rfl rfl
  rw [portsLaw_iff, hs]
  refine ⟨fun h => ?_, nofun, rfl, hr _⟩
  rw [hp]
  exact ⟨⟨rfl, rfl, by simp [resetPort, CompareUnit.deadline?], rfl⟩, hr _⟩

/-- The ports begin to receive, in HUNTING, with what they held (R179, R180). -/
theorem portsLaw_completeStartup {s : State} (l : PortsLaw s) : PortsLaw s.completeStartup := by
  rw [portsLaw_iff] at *
  obtain ⟨lh, ls⟩ := l
  have hp : ∀ h, s.completeStartup.port h = { s.port h with rx := (s.port h).rx.begin } := fun h => by
    simp [State.port, State.completeStartup, State.setSite, State.setMode, State.setCtl]
  refine ⟨fun h => ?_, ls.withRx (receiverLaw_begin _ _)⟩
  rw [hp]
  exact (lh h).withRx (receiverLaw_begin _ _)

theorem portsLaw_firstSample {s : State} (l : PortsLaw s) (src : SampleSource) : PortsLaw (s.firstSample src) := by
  unfold State.firstSample
  dsimp only
  split
  · have l1 : PortsLaw (s.setCtl { s.ctl with outstanding := s.ctl.outstanding.filter fun x => x ≠ src }) :=
      l.of_keeps ⟨rfl, rfl, rfl⟩
    split
    · exact portsLaw_completeStartup l1
    · exact l1
  · exact l

theorem portsLaw_takeStartupExpiry {s : State} (l : PortsLaw s) : PortsLaw s.takeStartupExpiry := by
  unfold State.takeStartupExpiry
  dsimp only
  split
  · have l1 : PortsLaw (s.setCtl { s.ctl with startupUnit := .inhibited }) := l.of_keeps ⟨rfl, rfl, rfl⟩
    split
    · exact portsLaw_completeStartup l1
    · exact l1
  · exact l

theorem portsLaw_takeSupervisionExpiry {s : State} (l : PortsLaw s) (h : Hall) : PortsLaw (s.takeSupervisionExpiry h) := by
  unfold State.takeSupervisionExpiry
  dsimp only
  split
  · split
    · have l1 : PortsLaw (s.updPort h fun p => { p with supervision := .inhibited, link := .lost }) :=
        l.updPort h fun hl => hl.unsupervised LinkState.noConfusion
      refine l1.of_keeps ⟨?_, rfl, rfl⟩
      rw [State.linkLost, lines_setLatch, lines_eq_iff]
      intro j
      simp only [State.port_updPort]
      split <;> rfl
    · rename_i hlink
      exact l.updPort h fun hl => hl.unsupervised hlink
  · exact l

theorem portsLaw_takeFreshnessExpiry {s : State} (l : PortsLaw s) (h : Hall) : PortsLaw (s.takeFreshnessExpiry h) := by
  unfold State.takeFreshnessExpiry
  split
  · exact l.updPort h HallPort.Lawful.untemperatured
  · exact l

/-! ### Requests of the hall ports (R165, R166) -/

/-- A hall port whose request is with its owner: a reply is owed, and what is not of the reply is as the law has it. -/
structure HallPort.Asked (p : HallPort) : Prop where
  owed : p.owed = true
  supervision : p.supervision.deadline?.isSome = true ↔ p.link = .active
  temperature : p.temp.isSome = p.freshness.deadline?.isSome
  receiver : ReceiverLaw p.rx false

theorem HallPort.Asked.of_line {p q : HallPort} (a : p.Asked) (e : q.line = p.line) : q.Asked := by
  have keep {β : Type} (g : HallPort → β) (hg : ∀ p, g p.line = g p) : g q = g p := by rw [← hg q, e, hg p]
  refine ⟨?_, ?_, ?_, ?_⟩
  · rw [keep (·.owed) fun _ => rfl]
    exact a.owed
  · rw [keep (·.supervision) fun _ => rfl, keep (·.link) fun _ => rfl]
    exact a.supervision
  · rw [keep (·.temp) fun _ => rfl, keep (·.freshness) fun _ => rfl]
    exact a.temperature
  · rw [keep (·.rx) fun _ => rfl]
    exact a.receiver

/-- The reply formed makes the port lawful: its transmission has not begun (R165). -/
theorem HallPort.Asked.answering {p : HallPort} (a : p.Asked) (reply : HallReply) (now : Time) (n : Nat) :
    (p.answering reply (now + Config.replyDelay n)).Lawful now := by
  refine ⟨⟨a.owed, rfl, a.supervision, a.temperature⟩, ?_⟩
  have e := transmitting_delayed p.owed now n
  exact e ▸ a.receiver

theorem asked_hallRequested {s : State} {h : Hall} (l : (s.port h).Lawful s.now) (f : Frame) :
    ((s.hallRequested h f).port h).Asked := by
  rw [State.port_hallRequested]
  exact ⟨rfl, by simp [CompareUnit.isSome_deadline_load], l.port.temperature, l.receiver.idle.release f⟩

/-- From `u` to `v` the owner of a request of hall `h` has acted: no line of another port has changed, nor what the law asks of
the port while its request is with its owner. -/
structure Owned (h : Hall) (u v : State) : Prop where
  others : ∀ j, j ≠ h → (v.port j).line = (u.port j).line
  asked : (u.port h).Asked → (v.port h).Asked
  site : v.site = u.site
  now : v.now = u.now

theorem Owned.of_keeps {h : Hall} {u v : State} (k : KeepsPorts u v) : Owned h u v :=
  ⟨fun j _ => (lines_eq_iff u v).1 k.lines j, fun a => a.of_line ((lines_eq_iff u v).1 k.lines h), k.site, k.now⟩

theorem Owned.trans {h : Hall} {u v w : State} (x : Owned h u v) (y : Owned h v w) : Owned h u w :=
  ⟨fun j hj => (y.others j hj).trans (x.others j hj), fun a => y.asked (x.asked a), y.site.trans x.site, y.now.trans x.now⟩

theorem owned_reportTemperature (s : State) (h : Hall) (t : Int) : Owned h s (s.reportTemperature h t) := by
  refine ⟨fun j hj => ?_, fun a => ?_, rfl, rfl⟩
  · rw [State.reportTemperature, State.port_updPort, if_neg hj]
  · rw [State.port_reportTemperature]
    exact ⟨a.owed, a.supervision, (CompareUnit.isSome_deadline_load ..).symm, a.receiver⟩

/-- The reply that ends a request of hall `h`, in the state `u` that its owner has left (R165, R166). -/
theorem portsLaw_answerHall {s u : State} {h : Hall} {f : Frame} (l : PortsLaw s) (o : Owned h (s.hallRequested h f) u)
    (kind : Byte) (result : Result) (live : Option LiveFigures) : PortsLaw (u.answerHall h kind result live) := by
  rw [portsLaw_iff] at *
  obtain ⟨lh, ls⟩ := l
  have hnow : u.now = s.now := o.now
  have hnow' : (u.answerHall h kind result live).now = s.now := hnow
  have hsite : (u.answerHall h kind result live).site = s.site := o.site
  refine ⟨fun j => ?_, ?_⟩
  · rw [hnow']
    by_cases hj : j = h
    · subst hj
      rw [State.port_answerHall, hnow]
      exact (o.asked (asked_hallRequested (lh j) f)).answering _ _ _
    · rw [State.port_answerHall_other _ hj]
      exact (lh j).of_line ((o.others j hj).trans (congrArg HallPort.line (State.port_hallRequested_other s hj f)))
  · rw [hsite, hnow']
    exact ls

/-- An ARRIVAL on a hall port: its frame is released, and its request answered unless a reply is owed (R165, R166). -/
theorem portsLaw_hallArrival {s : State} (l : PortsLaw s) (h : Hall) (f : Frame) (length : Option Nat)
    {owner : State → Answer} (ho : ∀ u, Owned h u (owner u).state) : PortsLaw (s.hallArrival h f length owner) := by
  unfold State.hallArrival
  split
  · exact l
  · dsimp only
    split
    · exact l.updPort h fun hl => hl.withRx (hl.receiver.release f)
    · split
      · exact portsLaw_answerHall (u := s.hallRequested h f) (f := f) l (.of_keeps (.refl _)) ..
      · exact portsLaw_answerHall (f := f) l (ho (s.hallRequested h f)) ..

theorem owned_pollOwner (h : Hall) (p : Payload) (u : State) : Owned h u (pollOwner h p u).state := by
  have observed : ∀ (v : State) (b : Bool), Owned h v (v.observeHold h b) := fun v b =>
    .of_keeps ⟨by simp, by simp, by simp⟩
  unfold pollOwner
  (repeat' split)
  · exact (owned_reportTemperature u h _).trans (observed _ _)
  · exact observed u _
  · exact .of_keeps (.refl u)
  · exact .of_keeps (.refl u)

theorem keepsPorts_release (s : State) (h : Hall) (fields : Option (Basis × Bool)) :
    KeepsPorts s (s.release h fields).1 := by
  unfold State.release
  (repeat' split) <;> exact ⟨by simp, by simp, by simp⟩

theorem keepsPorts_abort (s : State) (h : Hall) : KeepsPorts s (s.abort h).1 := by
  unfold State.abort
  (repeat' split) <;> exact ⟨by simp, by simp, by simp⟩

theorem keepsPorts_latchClear (s : State) (h : Hall) : KeepsPorts s (latchClearOwner h s).state :=
  ⟨lines_updPort s h fun _ => rfl, rfl, rfl⟩

/-! ### Requests of the site port, and the writes (R165, R177, R184, R186) -/

/-- The site reply formed, of a port that owes one (R165, R177). -/
theorem portsLaw_answerSite {s : State} (l : PortsLaw s) (howed : s.site.owed = true) (kind : Byte) (result : Result)
    (content : List Byte) : PortsLaw (s.answerSite kind result content) := by
  rw [portsLaw_iff] at *
  obtain ⟨lh, ls⟩ := l
  refine ⟨lh, fun _ => howed, rfl, ?_⟩
  have e := transmitting_delayed s.site.owed s.now s.choices
  exact e ▸ ls.receiver.idle

/-- A site port that becomes to owe a reply: none was formed, for none was owed (R177). -/
theorem SitePort.Lawful.asked {p : SitePort} {now : Time} (l : p.Lawful now) (ho : p.owed = false) :
    SitePort.Lawful { p with owed := true } now := by
  have hr : p.reply = none := by
    rw [← Option.not_isSome_iff_eq_none]
    intro h
    rw [l.owed h] at ho
    cases ho
  have hb : p.replyBegins = none := by
    have e := l.begins
    rw [hr] at e
    exact Option.isNone_iff_eq_none.1 (by simpa using e)
  refine ⟨fun _ => rfl, l.begins, ?_⟩
  rw [hb]
  exact l.receiver.idle

/-- An ARRIVAL on the site port: answered, or a write begun whose reply is owed (R177, R184, R186). -/
theorem portsLaw_siteArrival {s : State} (l : PortsLaw s) (f : Frame) (owner : State → SiteOutcome) :
    PortsLaw (s.siteArrival f owner) := by
  have l1 : PortsLaw (s.setSite { s.site with rx := s.site.rx.release f }) :=
    l.setSite fun ls => ls.withRx (ls.receiver.release f)
  unfold State.siteArrival
  split
  · exact l
  · dsimp only
    split
    · exact l1
    · rename_i hne
      have l2 := l1.setSite (p := { s.site with rx := s.site.rx.release f, owed := true }) fun ls =>
        ls.asked (Bool.not_eq_true _ ▸ hne)
      split
      · exact portsLaw_answerSite l2 rfl ..
      · exact portsLaw_answerSite l2 rfl ..
      · exact l2.of_keeps ⟨rfl, rfl, rfl⟩

/-- A command that answers a write in progress answers a reply that is owed (R177, R184, R186). -/
theorem ProgrammingLaw.owed {s : State} (p : ProgrammingLaw s) {w : WriteInProgress} (hw : s.store.write = some w) :
    s.site.owed = true := by
  obtain ⟨-, howed, -⟩ := p.write (by rw [hw]; rfl)
  exact howed

theorem portsLaw_completeWrite {s : State} (l : PortsLaw s) (ho : s.site.owed = true) (w : RecordWrite) :
    PortsLaw (s.completeWrite w) := by
  have k : KeepsPorts s (s.writeEnded.applyWrite w).exitIfPending := ⟨by simp, by simp, by simp⟩
  exact portsLaw_answerSite (l.of_keeps k) (by rw [k.site]; exact ho) ..

theorem portsLaw_completeIsolate {s : State} (l : PortsLaw s) (ho : s.site.owed = true) (c : CylIdx) :
    PortsLaw (s.completeIsolate c) := by
  have k : KeepsPorts s (State.exitIfPending
      (State.setDisposition (s.writeEnded.setImage (s.writeEnded.image.setInService c false)) c .isolated)) :=
    ⟨by simp, by simp, by simp⟩
  exact portsLaw_answerSite (l.of_keeps k) (by rw [k.site]; exact ho) ..

theorem portsLaw_completeRestore {s : State} (l : PortsLaw s) (ho : s.site.owed = true) (c : CylIdx) :
    PortsLaw (s.completeRestore c) := by
  have k : KeepsPorts s (State.exitIfPending
      (((s.writeEnded.setImage (s.writeEnded.image.setInService c true)).clearFailedPulse c).restore c)) :=
    ⟨by simp, by simp, by simp⟩
  exact portsLaw_answerSite (l.of_keeps k) (by rw [k.site]; exact ho) ..

/-! ### Every step -/

theorem portsLaw_exec {s t : State} (l : PortsLaw s) (p : ProgrammingLaw s) (i : Instr) (ht : exec i s = .next t) :
    PortsLaw t := by
  have keeps : ∀ {u : State}, lines u.ports = lines s.ports → u.site = s.site → u.now = s.now → PortsLaw u :=
    fun h1 h2 h3 => l.of_keeps ⟨h1, h2, h3⟩
  cases i <;> cases ht
  case deviceReset => exact portsLaw_afterReset s
  case inputEstablishment =>
    split
    · exact keeps (by simp) (by simp) (by simp)
    · exact l
  case pressureSample => exact portsLaw_firstSample (keeps (by simp) (by simp) (by simp)) _
  case rackTemperatureSample => exact portsLaw_firstSample (keeps (by simp) (by simp) (by simp)) _
  case manifoldPressureSample => exact keeps (by simp) (by simp) (by simp)
  case supervisionCheck => exact keeps (by simp) (by simp) (by simp)
  case pulseCompletion => exact keeps (by simp) (by simp) (by simp)
  case selectorEdge => exact keeps (by simp) (by simp) (by simp)
  case manifoldSwitchEdge => exact keeps (by simp) (by simp) (by simp)
  case keyOn =>
    split
    · exact keeps (by simp) (by simp) (by simp)
    · exact l
  case keyOff =>
    split
    · exact keeps (by simp) (by simp) (by simp)
    · exact l
  case selectorCapture => exact keeps (by simp) (by simp) (by simp)
  case manifoldSwitchCapture => exact keeps (by simp) (by simp) (by simp)
  case countdownExpiry h =>
    exact l.of_keeps (keepsPorts_takeClaimExpiry s h _ _ fun u => ⟨by simp, by simp, by simp⟩)
  case holdLimitExpiry h =>
    exact l.of_keeps (keepsPorts_takeClaimExpiry s h _ _ fun u => ⟨by simp, by simp, by simp⟩)
  case selectorOpenTimeout h =>
    exact l.of_keeps (keepsPorts_takeClaimExpiry s h _ _ fun u => ⟨by simp, by simp, by simp⟩)
  case nextLineExpiry h =>
    split
    · exact l
    · exact l.of_keeps (keepsPorts_takeClaimExpiry s h _ _ fun u => ⟨by simp, by simp, by simp⟩)
  case deferralExpiry h =>
    exact l.of_keeps (keepsPorts_takeClaimExpiry s h _ _ fun u => ⟨by simp, by simp, by simp⟩)
  case confirmTimeout h =>
    exact l.of_keeps (keepsPorts_takeClaimExpiry s h _ _ fun u => ⟨by simp, by simp, by simp⟩)
  case closeTimeout => exact l.of_keeps (keepsPorts_takeManifoldExpiry s _ _ fun u => ⟨by simp, by simp, by simp⟩)
  case ventTimeout => exact l.of_keeps (keepsPorts_takeManifoldExpiry s _ _ fun u => ⟨by simp, by simp, by simp⟩)
  case supervisionExpiry h => exact portsLaw_takeSupervisionExpiry l h
  case temperatureExpiry h => exact portsLaw_takeFreshnessExpiry l h
  case startupExpiry => exact portsLaw_takeStartupExpiry l
  case poll h p => exact portsLaw_hallArrival l h _ _ fun u => owned_pollOwner h p u
  case release h p => exact portsLaw_hallArrival l h _ _ fun u => .of_keeps (keepsPorts_release u h _)
  case abort h p => exact portsLaw_hallArrival l h _ _ fun u => .of_keeps (keepsPorts_abort u h)
  case latchClear h p => exact portsLaw_hallArrival l h _ _ fun u => .of_keeps (keepsPorts_latchClear u h)
  case query h p => exact portsLaw_hallArrival l h _ _ fun u => (queryOwner_state h u).symm ▸ .of_keeps (.refl u)
  case hallUnknownKind h k p => exact portsLaw_hallArrival l h _ _ fun u => .of_keeps (.refl u)
  case frameAbandoned port _ =>
    cases port with
    | hall h => exact l.updPort h (f := fun p => { p with rx := p.rx.abandon }) fun hl => hl.withRx (hl.receiver.abandon _)
    | site => exact l.setSite fun ls => ls.withRx (ls.receiver.abandon _)
  case replyTransmitted port =>
    cases port with
    | hall h => exact l.updPort h HallPort.Lawful.transmitted
    | site => exact l.setSite SitePort.Lawful.transmitted
  case byteReceived port b =>
    cases port with
    | hall h =>
      exact l.updPort h (f := fun p => { p with rx := p.rx.hear (transmitting p.owed p.replyBegins s.now) s.now b })
        fun hl => hl.withRx (hl.receiver.hear s.now b)
    | site => exact l.setSite fun ls => ls.withRx (ls.receiver.hear s.now b)
  case sitePoll => exact portsLaw_siteArrival l _ _
  case cylinderQuery => exact portsLaw_siteArrival l _ _
  case claimQuery => exact portsLaw_siteArrival l _ _
  case commissionRead => exact portsLaw_siteArrival l _ _
  case commissionWrite => exact portsLaw_siteArrival l _ _
  case maintIsolate => exact portsLaw_siteArrival l _ _
  case maintRestore => exact portsLaw_siteArrival l _ _
  case siteUnknownKind => exact portsLaw_siteArrival l _ _
  case commissionWriteCompletion =>
    split
    · rename_i w hw
      exact portsLaw_completeWrite l (p.owed hw) w
    · exact l
  case maintIsolateCompletion =>
    split
    · rename_i c hw
      exact portsLaw_completeIsolate l (p.owed hw) c
    · exact l
  case maintRestoreCompletion =>
    split
    · rename_i c hw
      exact portsLaw_completeRestore l (p.owed hw) c
    · exact l
  case crcStoreCompletion => exact keeps (by simp) (by simp) (by simp)
  case starvedReEvaluation => exact keeps (by simp) (by simp) (by simp)
  case rawLevelChange => exact keeps (by simp) (by simp) (by simp)
  case loopStateChange => exact keeps (by simp) (by simp) (by simp)

/-- A millisecond that passes: the ports settle (R138, R165). -/
theorem portsLaw_tick {s : State} (l : PortsLaw s) : PortsLaw s.tick := by
  rw [portsLaw_iff] at *
  obtain ⟨lh, ls⟩ := l
  have hp : ∀ h, s.tick.port h = (s.port h).settle (s.now + 1) := fun h => by simp [State.tick, State.port]
  refine ⟨fun h => ?_, ls.settle _⟩
  rw [hp]
  exact (lh h).settle _

/-- Settles O10: a command leaves the ports' lines, or does to one port what keeps its law; a write is answered where, by the
programming law, a reply is owed. -/
theorem portsLawKept : Obligations.PortsLawKept := by
  unfold Obligations.PortsLawKept
  intro s t p l ht
  rcases step_cases ht with ⟨i, rest, -, he⟩ | rfl | rfl
  · have hl : PortsLaw { s with pending := rest } := l.of_keeps ⟨rfl, rfl, rfl⟩
    have hp : ProgrammingLaw { s with pending := rest } := ⟨p.write, p.pending, p.reply⟩
    exact portsLaw_exec hl hp i he
  · exact portsLaw_tick l
  · exact l.of_keeps ⟨rfl, rfl, rfl⟩

end Sys2Proof.Machine
end

