-- ==== Sys2Proof/Proofs/GrantView.lean ====
section
/-! PROOFS. What the grant law speaks of, as one small view of the state: the phases of the manifold, and the
moves of the view that keep the law (R58, R65, R96 to R106, R115, R124). -/

namespace Sys2Proof.Machine

/-! ### The view (R96, R150) -/

/-- What the grant law reads of the manifold: its state, its holder, the kind of its deadline and the valves' commands. -/
@[ext] structure ArbiterView where
  state : ManifoldState
  holder : Option Hall
  deadline : Option DeadlineKind
  selectors : Hall → Valve
  vent : Valve

/-- What the grant law reads of a state. -/
structure GrantView where
  claims : Hall → Option ClaimState
  waiters : List Hall
  arbiter : ArbiterView

/-- The arbiter's part of the view of `s`. -/
def State.arbiterView (s : State) : ArbiterView :=
  { state := s.manifold.state, holder := s.manifold.holder, deadline := s.manifold.unit.kind?
    selectors := s.selectorCmd, vent := s.circuits.ventCmd }

/-- The view of `s`. -/
def State.grantView (s : State) : GrantView :=
  { claims := s.claimState, waiters := s.manifold.waitList.map (·.hall), arbiter := s.arbiterView }

/-! ### The phases of the manifold -/

/-- The manifold's states, each with the hall that holds it. -/
inductive Phase
  | idle
  | opening (h : Hall)
  | discharging (h : Hall)
  | closing
  | venting

/-- The manifold's state in a phase. -/
def Phase.state : Phase → ManifoldState
  | .idle => .idle
  | .opening _ => .opening
  | .discharging _ => .discharging
  | .closing => .closing
  | .venting => .venting

/-- The holder in a phase. -/
def Phase.holder : Phase → Option Hall
  | .opening h | .discharging h => some h
  | .idle | .closing | .venting => none

/-- What the arbiter shows in a phase: everything follows from it. -/
def Phase.shown (p : Phase) : ArbiterView :=
  { state := p.state, holder := p.holder, deadline := p.state.deadlineKind
    selectors := fun h => if p.holder = some h then .opened else .closed
    vent := if p.state = .venting then .opened else .closed }

/-- The view `v` is that of phase `p`: the arbiter shows it, and the claims and the wait list follow it. -/
structure GrantView.Agrees (v : GrantView) (p : Phase) : Prop where
  shown : v.arbiter = p.shown
  selecting : ∀ h, v.claims h = some .selecting ↔ p = .opening h
  firing : ∀ h, (v.claims h = some .firing ∨ v.claims h = some .confirming) ↔ p = .discharging h
  distinct : v.waiters.Nodup
  waiting : ∀ h, h ∈ v.waiters ↔ v.claims h = some .waiting

theorem valve_eq_iff (x : Valve) (b : Prop) [Decidable b] :
    (x = if b then .opened else .closed) ↔ (x = .opened ↔ b) := by
  cases x <;> by_cases hb : b <;> simp [hb]

theorem State.granted_iff (s : State) (h : Hall) :
    s.granted h = true ↔
      s.claimState h = some .selecting ∨ s.claimState h = some .firing ∨ s.claimState h = some .confirming := by
  cases hc : s.claim h with
  | none => simp [State.granted, State.claimState, hc]
  | some c => cases hs : c.state <;> simp [State.granted, State.claimState, hc, hs, ClaimState.granted]

/-- The phase of a state that keeps the grant law. -/
theorem GrantLaw.phase {s : State} (g : GrantLaw s) :
    ∃ p : Phase, s.manifold.state = p.state ∧ s.manifold.holder = p.holder := by
  have busy := g.busy
  cases hs : s.manifold.state <;> cases hh : s.manifold.holder <;> simp [hs, hh] at busy
  · exact ⟨.idle, rfl, rfl⟩
  · next h => exact ⟨.opening h, rfl, rfl⟩
  · next h => exact ⟨.discharging h, rfl, rfl⟩
  · exact ⟨.closing, rfl, rfl⟩
  · exact ⟨.venting, rfl, rfl⟩

theorem GrantLaw.agrees {s : State} (g : GrantLaw s) {p : Phase} (hs : s.manifold.state = p.state)
    (hh : s.manifold.holder = p.holder) : s.grantView.Agrees p where
  shown := by
    have hsel : s.selectorCmd = p.shown.selectors := funext fun h => by
      rw [Phase.shown, valve_eq_iff, g.selectors, hh]
    have hvent : s.circuits.ventCmd = p.shown.vent := by rw [Phase.shown, valve_eq_iff, g.vent, hs]
    have hdl : s.manifold.unit.kind? = p.shown.deadline := by rw [g.deadline, hs]; rfl
    change State.arbiterView s = _
    rw [State.arbiterView, hs, hh, hsel, hvent, hdl]
    rfl
  selecting h := by
    rw [show s.grantView.claims h = s.claimState h from rfl, g.selecting, hs, hh]
    cases p <;> simp [Phase.state, Phase.holder]
  firing h := by
    have hg := (s.granted_iff h).symm.trans (g.holder h)
    have hsel := g.selecting h
    rw [hh] at hg hsel
    rw [hs] at hsel
    change s.claimState h = _ ∨ s.claimState h = _ ↔ _
    cases p <;> simp only [Phase.state, Phase.holder, Option.some.injEq, reduceCtorEq, and_true, and_false, iff_false,
      Phase.discharging.injEq, not_or] at hg hsel ⊢
    case opening j =>
      rw [hsel] at hg
      exact ⟨fun e => by simp [hsel.2 (hg.1 (.inr (.inl e)))] at e, fun e => by simp [hsel.2 (hg.1 (.inr (.inr e)))] at e⟩
    case discharging j => simpa [hsel] using hg
    all_goals exact hg.2
  distinct := g.distinct
  waiting h := by simpa [State.grantView] using g.waiting h

theorem GrantView.Agrees.grantLaw {s : State} {p : Phase} (a : s.grantView.Agrees p) : GrantLaw s := by
  have hs : s.manifold.state = p.state := congrArg ArbiterView.state a.shown
  have hh : s.manifold.holder = p.holder := congrArg ArbiterView.holder a.shown
  have hdl : s.manifold.unit.kind? = p.state.deadlineKind := congrArg ArbiterView.deadline a.shown
  have hcmd (h : Hall) : s.selectorCmd h = if p.holder = some h then .opened else .closed :=
    congrFun (congrArg ArbiterView.selectors a.shown) h
  have hvent : s.circuits.ventCmd = if p.state = .venting then .opened else .closed := congrArg ArbiterView.vent a.shown
  have hsel (h : Hall) : s.claimState h = some .selecting ↔ p = .opening h := a.selecting h
  have hfire (h : Hall) : (s.claimState h = some .firing ∨ s.claimState h = some .confirming) ↔ p = .discharging h :=
    a.firing h
  refine ⟨fun h => ?_, ?_, fun h => ?_, fun h => ?_, ?_, a.distinct, fun h => ?_, ?_⟩
  · rw [s.granted_iff, hsel, hfire, hh]
    cases p <;> simp [Phase.holder]
  · rw [hs, hh]
    cases p <;> simp [Phase.state, Phase.holder]
  · rw [hsel, hs, hh]
    cases p <;> simp [Phase.state, Phase.holder]
  · rw [hh]
    exact (valve_eq_iff _ _).1 (hcmd h)
  · rw [hs]
    exact (valve_eq_iff _ _).1 hvent
  · simpa [State.grantView] using a.waiting h
  · rw [hdl, hs]

/-- The grant law is the agreement of the view with some phase. -/
theorem grantLaw_iff (s : State) : GrantLaw s ↔ ∃ p, s.grantView.Agrees p :=
  ⟨fun g => let ⟨p, hs, hh⟩ := g.phase; ⟨p, g.agrees hs hh⟩, fun ⟨_, a⟩ => a.grantLaw⟩

/-! ### Moves of the view that keep the law -/

/-- A claim in this state neither waits for the manifold nor holds it. -/
def ClaimState.apart : ClaimState → Bool
  | .waiting | .selecting | .firing | .confirming => false
  | _ => true

/-- A claim in `a` may become `b`: no claim that has ended stands again, and none returns short of FIRING. -/
def ClaimState.mayBecome (a b : ClaimState) : Bool := b.terminal || (!a.terminal && (!b.shortOfFiring || a.shortOfFiring))

/-- No claim of `w` is newer than `v`, unless admission is open (`admits`). -/
def GrantView.Calm (admits : Prop) (v w : GrantView) : Prop :=
  ∀ h b, w.claims h = some b → b.terminal = false → admits ∨ ∃ a, v.claims h = some a ∧ a.mayBecome b = true

/-- `v` leads to `w`: where `v` agrees with a phase, `w` does too, and without admission no claim is newer. -/
def GrantView.Leads (admits : Prop) (v w : GrantView) : Prop :=
  ∀ p, v.Agrees p → (∃ q, w.Agrees q) ∧ v.Calm admits w

theorem ClaimState.ne_of_apart {b : ClaimState} (hb : b.apart = true) : b ≠ .waiting ∧ b ≠ .selecting ∧ b ≠ .firing ∧ b ≠ .confirming := by
  cases b <;> simp_all [ClaimState.apart]

theorem ClaimState.mayBecome_self (a : ClaimState) : a.mayBecome a = true := by cases a <;> rfl

theorem ClaimState.mayBecome_trans {a b c : ClaimState} (h : a.mayBecome b = true) (h' : b.mayBecome c = true)
    (hc : c.terminal = false) : a.mayBecome c = true ∧ b.terminal = false := by
  cases a <;> cases b <;> cases c <;> simp_all [ClaimState.mayBecome, ClaimState.terminal, ClaimState.shortOfFiring]

namespace GrantView

variable {admits : Prop} {v w u : GrantView} {h : Hall} {a b : ClaimState}

theorem Calm.refl (v : GrantView) : v.Calm admits v := fun _ b hb _ => .inr ⟨b, hb, b.mayBecome_self⟩

theorem Calm.trans (x : v.Calm admits w) (y : w.Calm admits u) : v.Calm admits u := fun h c hc ht => by
  obtain hp | ⟨b, hb, hbc⟩ := y h c hc ht
  · exact .inl hp
  · have hbt : b.terminal = false := by
      cases b <;> simp_all [ClaimState.mayBecome, ClaimState.terminal]
    obtain hp | ⟨a, ha, hab⟩ := x h b hb hbt
    · exact .inl hp
    · exact .inr ⟨a, ha, (ClaimState.mayBecome_trans hab hbc ht).1⟩

theorem Leads.refl (v : GrantView) : v.Leads admits v := fun p x => ⟨⟨p, x⟩, Calm.refl v⟩

theorem Leads.trans (x : v.Leads admits w) (y : w.Leads admits u) : v.Leads admits u := fun p k => by
  obtain ⟨⟨q, kq⟩, c⟩ := x p k
  exact ⟨(y q kq).1, c.trans (y q kq).2⟩

/-- The view with the claim of hall `h` in state `b`, the wait list `ws` and the arbiter showing `x`. -/
def put (v : GrantView) (h : Hall) (b : ClaimState) (ws : List Hall) (x : ArbiterView) : GrantView :=
  { claims := Function.update v.claims h (some b), waiters := ws, arbiter := x }

theorem Calm.put {ws : List Hall} {x : ArbiterView} (hb : b.terminal = false → admits ∨ ∃ a, v.claims h = some a ∧
    a.mayBecome b = true) : v.Calm admits (v.put h b ws x) := fun j c hc ht => by
  by_cases e : j = h
  · subst e
    have hbc : b = c := by simpa [GrantView.put] using hc
    exact hbc ▸ hb (hbc ▸ ht)
  · exact .inr ⟨c, by simpa [GrantView.put, e] using hc, c.mayBecome_self⟩

/-- What is to be checked of a move of one claim: the arbiter shows the new phase, which changes for that hall alone and as
its claim does, and the wait list holds the others and the hall if it waits. -/
theorem Agrees.put {p q : Phase} {ws : List Hall} {x : ArbiterView} (k : v.Agrees p) (hx : x = q.shown)
    (ho : ∀ j, j ≠ h → (p = .opening j ↔ q = .opening j) ∧ (p = .discharging j ↔ q = .discharging j))
    (hsel : b = .selecting ↔ q = .opening h) (hfire : b = .firing ∨ b = .confirming ↔ q = .discharging h)
    (hd : ws.Nodup) (hw : ∀ j, j ∈ ws ↔ j ≠ h ∧ j ∈ v.waiters ∨ j = h ∧ b = .waiting) : (v.put h b ws x).Agrees q where
  shown := hx
  selecting j := by
    by_cases e : j = h
    · subst e
      simpa [GrantView.put] using hsel
    · simpa [GrantView.put, e] using (k.selecting j).trans (ho j e).1
  firing j := by
    by_cases e : j = h
    · subst e
      simpa [GrantView.put] using hfire
    · simpa [GrantView.put, e] using (k.firing j).trans (ho j e).2
  distinct := hd
  waiting j := by
    by_cases e : j = h
    · subst e
      simpa [GrantView.put] using hw j
    · simpa [GrantView.put, e, hw] using k.waiting j

/-- A claim apart from the manifold is in no phase and on no list. -/
theorem Agrees.of_apart {p : Phase} (k : v.Agrees p) (ha : ∀ a, v.claims h = some a → a.apart = true) :
    p ≠ .opening h ∧ p ≠ .discharging h ∧ h ∉ v.waiters := by
  refine ⟨fun e => ?_, fun e => ?_, fun e => ?_⟩
  · exact absurd (ha _ ((k.selecting h).2 e)) (by decide)
  · obtain e | e := (k.firing h).2 e <;> exact absurd (ha _ e) (by decide)
  · exact absurd (ha _ ((k.waiting h).1 e)) (by decide)

/-- A claim apart from the manifold takes another such state, or a hall's claim is admitted. -/
theorem leads_restate (ha : ∀ a, v.claims h = some a → a.apart = true) (hb : b.apart = true)
    (hc : b.terminal = false → admits ∨ ∃ a, v.claims h = some a ∧ a.mayBecome b = true) :
    v.Leads admits (v.put h b v.waiters v.arbiter) := fun p k => by
  obtain ⟨ho, hd, hw⟩ := k.of_apart ha
  obtain ⟨bw, bs, bf, bc⟩ := ClaimState.ne_of_apart hb
  refine ⟨⟨p, k.put k.shown (fun j _ => ⟨.rfl, .rfl⟩) (by simp [bs, ho]) (by simp [bf, bc, hd]) k.distinct fun j => ?_⟩,
    Calm.put hc⟩
  by_cases e : j = h
  · subst e
    simp [hw, bw]
  · simp [e]

/-- A claim becomes WAITING and joins the wait list (R55, R97). -/
theorem leads_queue {l : List Hall} (ha : v.claims h = some a) (hs : a = .countdown ∨ a = .starved)
    (hl : l.Perm (h :: v.waiters)) : v.Leads admits (v.put h .waiting l v.arbiter) := fun p k => by
  have hap : a.apart = true := by rcases hs with rfl | rfl <;> rfl
  obtain ⟨ho, hd, hw⟩ := k.of_apart (h := h) fun c hc => Option.some.inj (ha.symm.trans hc) ▸ hap
  refine ⟨⟨p, k.put k.shown (fun j _ => ⟨.rfl, .rfl⟩) (by simp [ho]) (by simp [hd])
    (hl.nodup_iff.2 (List.nodup_cons.2 ⟨hw, k.distinct⟩)) fun j => ?_⟩,
    Calm.put fun _ => .inr ⟨a, ha, by rcases hs with rfl | rfl <;> rfl⟩⟩
  rw [hl.mem_iff]
  by_cases e : j = h <;> simp [e]

/-- A WAITING claim leaves the wait list (R54, R61, R65). -/
theorem leads_unlist (ha : v.claims h = some .waiting) (hb : b.apart = true) :
    v.Leads admits (v.put h b (v.waiters.filter (· ≠ h)) v.arbiter) := fun p k => by
  obtain ⟨bw, bs, bf, bc⟩ := ClaimState.ne_of_apart hb
  have ho : p ≠ .opening h := fun e => absurd ((k.selecting h).2 e) (by simp [ha])
  have hd : p ≠ .discharging h := fun e => absurd ((k.firing h).2 e) (by simp [ha])
  refine ⟨⟨p, k.put k.shown (fun j _ => ⟨.rfl, .rfl⟩) (by simp [bs, ho]) (by simp [bf, bc, hd]) (k.distinct.filter _)
    fun j => by simp [bw, and_comm]⟩, Calm.put fun _ => .inr ⟨.waiting, ha, by cases b <;> rfl⟩⟩

end GrantView

/-! ### Moves of the arbiter -/

namespace ArbiterView

/-- The arbiter as the manifold is granted to hall `h` (R99). -/
def grant (x : ArbiterView) (h : Hall) : ArbiterView :=
  { x with state := .opening, holder := some h, selectors := Function.update x.selectors h .opened }

/-- The arbiter in CLOSING after hall `h` held the manifold (R103, R104). -/
def release (x : ArbiterView) (h : Hall) : ArbiterView :=
  { x with state := .closing, holder := none, deadline := some .close, selectors := Function.update x.selectors h .closed }

/-- The arbiter as the manifold is vented (R106). -/
def ventIt (x : ArbiterView) : ArbiterView := { x with state := .venting, deadline := some .vent, vent := .opened }

/-- The arbiter as the venting ends (R106). -/
def rest (x : ArbiterView) : ArbiterView := { x with state := .idle, deadline := none, vent := .closed }

end ArbiterView

theorem Phase.shown_selectors (p : Phase) (j : Hall) :
    p.shown.selectors j = if p.holder = some j then .opened else .closed := rfl

theorem Phase.selectors_of_free {p : Phase} (hp : p.holder = none) (j : Hall) : p.shown.selectors j = .closed := by
  simp [Phase.shown_selectors, hp]

theorem Phase.selectors_of_held {p : Phase} {h : Hall} (hp : p.holder = some h) (j : Hall) :
    p.shown.selectors j = if j = h then .opened else .closed := by
  simp [Phase.shown_selectors, hp, eq_comm]

theorem Phase.shown_grant (h : Hall) : Phase.idle.shown.grant h = (Phase.opening h).shown := by
  have hs : Function.update Phase.idle.shown.selectors h .opened = (Phase.opening h).shown.selectors := funext fun j => by
    rw [Phase.selectors_of_held rfl, Function.update_apply, Phase.selectors_of_free rfl]
  simp only [ArbiterView.grant, hs]
  rfl

theorem Phase.shown_release {p : Phase} {h : Hall} (hp : p.holder = some h) : p.shown.release h = Phase.closing.shown := by
  have hs : Function.update p.shown.selectors h .closed = Phase.closing.shown.selectors := funext fun j => by
    rw [Phase.selectors_of_free rfl, Function.update_apply, Phase.selectors_of_held hp]
    split <;> rfl
  have hv : p.shown.vent = .closed := by cases p <;> first | rfl | cases hp
  simp only [ArbiterView.release, hs, hv]
  rfl

theorem Phase.shown_ventIt {p : Phase} (hp : p.holder = none) : p.shown.ventIt = Phase.venting.shown := by
  have hs : p.shown.selectors = Phase.venting.shown.selectors := funext fun j => by
    rw [Phase.selectors_of_free hp, Phase.selectors_of_free rfl]
  have hh : p.shown.holder = none := hp
  simp only [ArbiterView.ventIt, hs, hh]
  rfl

theorem Phase.shown_rest : Phase.venting.shown.rest = Phase.idle.shown := rfl

namespace GrantView

variable {admits : Prop} {v : GrantView} {h : Hall} {a b : ClaimState}

/-- The phase is the one the arbiter's state names. -/
theorem Agrees.phase_state {p : Phase} (k : v.Agrees p) : v.arbiter.state = p.state := congrArg ArbiterView.state k.shown

/-- The IDLE manifold is granted to a hall on the wait list (R98, R99). -/
theorem leads_grant (hs : v.arbiter.state = .idle) (hw : h ∈ v.waiters) :
    v.Leads admits (v.put h .selecting (v.waiters.filter (· ≠ h)) (v.arbiter.grant h)) := fun p k => by
  have hp : p = .idle := by
    have := k.phase_state.symm.trans hs
    cases p <;> first | rfl | cases this
  subst hp
  refine ⟨⟨.opening h, k.put (by rw [k.shown, Phase.shown_grant]) (fun j e => by simp [Ne.symm e]) (by simp) (by simp)
    (k.distinct.filter _) fun j => by simp [and_comm]⟩,
    Calm.put fun _ => .inr ⟨.waiting, (k.waiting h).1 hw, rfl⟩⟩

/-- The grant of hall `h` ends with its claim: the manifold is CLOSING, or goes on to VENTING (R65, R101, R103, R104). -/
theorem leads_release (ha : v.claims h = some a) (hg : a.granted = true) (hb : b.apart = true) (hc : a.mayBecome b = true)
    {x : ArbiterView} (hx : x = v.arbiter.release h ∨ x = (v.arbiter.release h).ventIt) :
    v.Leads admits (v.put h b v.waiters x) := fun p k => by
  obtain ⟨bw, bs, bf, bc⟩ := ClaimState.ne_of_apart hb
  have hp : p = .opening h ∨ p = .discharging h := by
    cases a <;> first | exact absurd hg (by decide) | skip
    case selecting => exact .inl ((k.selecting h).1 ha)
    case firing => exact .inr ((k.firing h).1 (.inl ha))
    case confirming => exact .inr ((k.firing h).1 (.inr ha))
  have hh : p.holder = some h := by rcases hp with rfl | rfl <;> rfl
  have ho (q : Phase) (hq : q.holder = none) (j : Hall) (e : j ≠ h) :
      (p = .opening j ↔ q = .opening j) ∧ (p = .discharging j ↔ q = .discharging j) := by
    rcases hp with rfl | rfl <;> cases q <;> simp_all [Phase.holder, Ne.symm e]
  have hw : h ∉ v.waiters := fun e => by
    have hwait := Option.some.inj (ha.symm.trans ((k.waiting h).1 e))
    exact absurd (hwait ▸ hg) (by decide)
  have hlist (j : Hall) : j ∈ v.waiters ↔ j ≠ h ∧ j ∈ v.waiters ∨ j = h ∧ b = .waiting := by
    by_cases e : j = h
    · subst e
      simp [hw, bw]
    · simp [e]
  have hclose := Phase.shown_release hh
  refine ⟨?_, Calm.put fun _ => .inr ⟨a, ha, hc⟩⟩
  rw [k.shown, hclose] at hx
  obtain hx | hx := hx
  · exact ⟨.closing, k.put hx (ho _ rfl) (by simp [bs]) (by simp [bf, bc]) k.distinct hlist⟩
  · exact ⟨.venting, k.put (hx.trans (Phase.shown_ventIt rfl)) (ho _ rfl) (by simp [bs]) (by simp [bf, bc]) k.distinct hlist⟩

/-- The holder's claim becomes FIRING (R100, R115). -/
theorem leads_fire (ha : v.claims h = some .selecting) :
    v.Leads admits (v.put h .firing v.waiters { v.arbiter with state := .discharging }) := fun p k => by
  obtain rfl := (k.selecting h).1 ha
  have hw : h ∉ v.waiters := fun e => absurd ((k.waiting h).1 e) (by simp [ha])
  refine ⟨⟨.discharging h, k.put (by rw [k.shown]; rfl) (fun j e => by simp [Ne.symm e]) (by simp) (by simp) k.distinct
    fun j => ?_⟩, Calm.put fun _ => .inr ⟨.selecting, ha, rfl⟩⟩
  by_cases e : j = h
  · subst e
    simp [hw]
  · simp [e]

/-- The holder's claim becomes CONFIRMING (R124). -/
theorem leads_confirm (ha : v.claims h = some .firing) :
    v.Leads admits (v.put h .confirming v.waiters v.arbiter) := fun p k => by
  obtain rfl := (k.firing h).1 (.inl ha)
  have hw : h ∉ v.waiters := fun e => absurd ((k.waiting h).1 e) (by simp [ha])
  refine ⟨⟨.discharging h, k.put k.shown (fun j _ => ⟨.rfl, .rfl⟩) (by simp) (by simp) k.distinct fun j => ?_⟩,
    Calm.put fun _ => .inr ⟨.firing, ha, rfl⟩⟩
  by_cases e : j = h
  · subst e
    simp [hw]
  · simp [e]

/-- The arbiter alone moves, from a phase without a holder to another. -/
theorem leads_arbiter {x : ArbiterView} (hx : ∀ p, v.Agrees p → p.holder = none ∧ ∃ q : Phase, q.holder = none ∧ x = q.shown) :
    v.Leads admits { v with arbiter := x } := fun p k => by
  obtain ⟨hp, q, hq, hxq⟩ := hx p k
  have hsel (j : Hall) : p = .opening j ↔ q = .opening j := by
    cases p <;> cases q <;> simp_all [Phase.holder]
  have hfire (j : Hall) : p = .discharging j ↔ q = .discharging j := by
    cases p <;> cases q <;> simp_all [Phase.holder]
  exact ⟨⟨q, hxq, fun j => (k.selecting j).trans (hsel j), fun j => (k.firing j).trans (hfire j), k.distinct, k.waiting⟩,
    Calm.refl v⟩

/-- The manifold is vented from IDLE or CLOSING (R105, R112). -/
theorem leads_vent (hs : v.arbiter.state = .idle ∨ v.arbiter.state = .closing) :
    v.Leads admits { v with arbiter := v.arbiter.ventIt } := leads_arbiter fun p k => by
  have hp : p.holder = none := by
    rw [k.phase_state] at hs
    cases p <;> simp_all [Phase.state, Phase.holder]
  exact ⟨hp, .venting, rfl, by rw [k.shown, Phase.shown_ventIt hp]⟩

/-- A venting ends (R106). -/
theorem leads_rest (hs : v.arbiter.state = .venting) : v.Leads admits { v with arbiter := v.arbiter.rest } :=
  leads_arbiter fun p k => by
    have hp : p = .venting := by
      rw [k.phase_state] at hs
      cases p <;> first | rfl | cases hs
    subst hp
    exact ⟨rfl, .idle, rfl, by rw [k.shown, Phase.shown_rest]⟩

end GrantView

end Sys2Proof.Machine
end

