-- ==== Sys2Proof/Proofs/GrantViewKept.lean ====
section
/-! PROOFS. The operations that leave the view of the grant law as it is. -/

namespace Sys2Proof.Machine

/-! ### Operations that leave the view -/

theorem view_of_eq {s t : State} (hc : t.claims = s.claims) (hm : t.manifold = s.manifold) (hx : t.circuits = s.circuits) :
    t.grantView = s.grantView := by
  have hcl : t.claimState = s.claimState := funext fun h => by simp only [State.claimState, State.claim, hc]
  have hsel : t.selectorCmd = s.selectorCmd := funext fun h => by simp only [State.selectorCmd, hx]
  simp only [State.grantView, State.arbiterView, hcl, hsel, hm, hx]

theorem view_of_claims {s t : State} (hc : t.claims = s.claims) (hw : t.manifold.waitList = s.manifold.waitList) :
    t.grantView = { s.grantView with arbiter := t.arbiterView } := by
  have hcl : t.claimState = s.claimState := funext fun h => by simp only [State.claimState, State.claim, hc]
  simp only [State.grantView, hcl, hw]

theorem arbiterView_of_eq {s t : State} (hm : t.manifold = s.manifold) (hx : t.circuits = s.circuits) :
    t.arbiterView = s.arbiterView := by
  have hsel : t.selectorCmd = s.selectorCmd := funext fun h => by simp only [State.selectorCmd, hx]
  simp only [State.arbiterView, hsel, hm, hx]

/-- Another record of one hall's claim in the same state leaves the view. -/
theorem view_of_hall {s t : State} {h : Hall} (hj : ∀ j, j ≠ h → t.claim j = s.claim j)
    (hh : t.claimState h = s.claimState h) (hm : t.manifold = s.manifold) (hx : t.arbiterView = s.arbiterView) :
    t.grantView = s.grantView := by
  have hcl : t.claimState = s.claimState := funext fun j => by
    by_cases e : j = h
    · exact e ▸ hh
    · simp only [State.claimState, hj j e]
  simp only [State.grantView, hcl, hm, hx]

/-- The view after a change of one hall's claim, with what else has changed. -/
theorem view_put {s t : State} {h : Hall} {b : ClaimState} (hj : ∀ j, j ≠ h → t.claim j = s.claim j)
    (hh : t.claimState h = some b) :
    t.grantView = s.grantView.put h b (t.manifold.waitList.map (·.hall)) t.arbiterView := by
  have hcl : t.claimState = Function.update s.claimState h (some b) := funext fun j => by
    by_cases e : j = h
    · subst e
      simpa using hh
    · simp only [State.claimState, hj j e, Function.update_of_ne e]
  simp only [State.grantView, hcl, GrantView.put]

theorem State.claimState_updClaim (s : State) (h : Hall) (f : Claim → Claim) :
    (s.updClaim h f).claimState h = (s.claim h).map fun c => (f c).state := by
  simp [State.claimState, Function.comp_def]

@[simp] theorem view_setCyl (s : State) (k : CylIdx) (c : Option Cylinder) : (s.setCyl k c).grantView = s.grantView := rfl
@[simp] theorem view_setDisposition (s : State) (k : CylIdx) (d : Disposition) :
    (s.setDisposition k d).grantView = s.grantView := rfl
@[simp] theorem view_setUnit (s : State) (h : Hall) (u : CompareUnit) : (s.setUnit h u).grantView = s.grantView := rfl
@[simp] theorem view_loadUnit (s : State) (h : Hall) (d : Time) (k : DeadlineKind) :
    (s.loadUnit h d k).grantView = s.grantView := rfl
@[simp] theorem view_removeUnit (s : State) (h : Hall) : (s.removeUnit h).grantView = s.grantView := rfl
@[simp] theorem view_updPort (s : State) (h : Hall) (f : HallPort → HallPort) : (s.updPort h f).grantView = s.grantView := rfl
@[simp] theorem view_setLatch (s : State) (h : Hall) (l : Latch) : (s.setLatch h l).grantView = s.grantView := rfl
@[simp] theorem view_setSelectorCapture (s : State) (h : Hall) (u : CaptureUnit) :
    (s.setSelectorCapture h u).grantView = s.grantView := rfl
@[simp] theorem view_setSwitchCapture (s : State) (u : CaptureUnit) : (s.setSwitchCapture u).grantView = s.grantView := rfl
@[simp] theorem view_setOrder (s : State) (o : List Hall) : (s.setOrder o).grantView = s.grantView := rfl
@[simp] theorem view_setCtl (s : State) (c : ModeControl) : (s.setCtl c).grantView = s.grantView := rfl
@[simp] theorem view_setStore (s : State) (st : Store) : (s.setStore st).grantView = s.grantView := rfl
@[simp] theorem view_setImage (s : State) (i : Image) : (s.setImage i).grantView = s.grantView := rfl
@[simp] theorem view_setInputs (s : State) (i : Inputs) : (s.setInputs i).grantView = s.grantView := rfl
@[simp] theorem view_setSite (s : State) (p : SitePort) : (s.setSite p).grantView = s.grantView := rfl
@[simp] theorem view_redrive (s : State) : s.redrive.grantView = s.grantView := rfl
@[simp] theorem view_setMode (s : State) (m : Mode) : (s.setMode m).grantView = s.grantView := rfl
@[simp] theorem view_setChannel (s : State) (c : ChanIdx) (ch : Channel) : (s.setChannel c ch).grantView = s.grantView := rfl
@[simp] theorem view_setFaulted (s : State) (h : Hall) (b : Bool) : (s.setFaulted h b).grantView = s.grantView := rfl
@[simp] theorem view_firePulse (s : State) (k : CylIdx) : (s.firePulse k).grantView = s.grantView := rfl
@[simp] theorem view_putMismatch (s : State) (h : Hall) (b : Bool) : (s.putMismatch h b).grantView = s.grantView := rfl

@[simp] theorem view_firePulses (s : State) (ks : List CylIdx) : (ks.foldl State.firePulse s).grantView = s.grantView :=
  foldl_keeps _ State.grantView view_firePulse ks s

@[simp] theorem view_poolGainIf (s : State) (b : Bool) : (s.poolGainIf b).grantView = s.grantView := by cases b <;> rfl

@[simp] theorem view_maintPendingEnd (s : State) : s.maintPendingEnd.grantView = s.grantView := by
  obtain e | ⟨-, -, -, e⟩ := s.maintPendingEnd_cases <;> rw [e]
  rfl

@[simp] theorem view_setMismatch (s : State) (h : Hall) : (s.setMismatch h).grantView = s.grantView := by
  unfold State.setMismatch
  split <;> simp

@[simp] theorem view_testMismatch (s : State) (h : Hall) : (s.testMismatch h).grantView = s.grantView := by
  unfold State.testMismatch
  split <;> simp

/-- A claim record rewritten in its state leaves the view. -/
theorem view_updClaim {s : State} {h : Hall} {f : Claim → Claim} (hf : ∀ c, s.claim h = some c → (f c).state = c.state) :
    (s.updClaim h f).grantView = s.grantView := by
  refine view_of_hall (h := h) (fun j e => ?_) ?_ (by simp) (arbiterView_of_eq (by simp) (by simp))
  · simp [State.claim_updClaim, e]
  · rw [State.claimState_updClaim, State.claimState]
    cases hc : s.claim h with
    | none => rfl
    | some c => simp [hf c hc]

@[simp] theorem view_reallocate (s : State) (h : Hall) (commit : Bool) (alloc : List Entry) :
    (s.reallocate h commit alloc).grantView = s.grantView := by
  refine view_of_hall (h := h) (fun j e => (s.reallocate_other e commit alloc).1) ?_ (by simp)
    (arbiterView_of_eq (by simp) (by simp))
  cases hc : s.claim h with
  | none => rw [State.reallocate, hc]
  | some c => simp [State.claimState, State.claim_reallocate s h commit alloc c hc, hc, (Claim.reflag_resum commit c alloc).2.2.2.1]

@[simp] theorem view_assign (s : State) (h : Hall) (taken : List Entry) : (s.assign h taken).grantView = s.grantView :=
  view_of_eq (by simp) (by simp) (by simp)

@[simp] theorem view_commit (s : State) (h : Hall) (taken : List Entry) : (s.commit h taken).grantView = s.grantView := by
  unfold State.commit
  split
  · rfl
  · dsimp only
    split
    · rfl
    · split <;> simp [view_updClaim]

@[simp] theorem view_firstAllocation (s : State) (h : Hall) : (s.firstAllocation h).grantView = s.grantView := by
  cases hc : s.claim h with
  | none => rw [State.firstAllocation, hc]
  | some c =>
    rw [State.firstAllocation_eq s h c hc]
    split <;> simp [view_updClaim]

@[simp] theorem view_topUp (s : State) (h : Hall) : (s.topUp h).grantView = s.grantView := by
  unfold State.topUp
  split <;> simp

@[simp] theorem view_replace (s : State) (h : Hall) (debt : Nat) : (s.replace h debt).grantView = s.grantView := by
  unfold State.replace
  split
  · rfl
  · simp [view_updClaim]

@[simp] theorem view_releaseAllocation (s : State) (h : Hall) : (s.releaseAllocation h).grantView = s.grantView := by
  unfold State.releaseAllocation
  split
  · rfl
  · rw [view_poolGainIf, view_reallocate]
    exact view_of_eq (by simp) (by simp) (by simp)

@[simp] theorem view_rebuild (s : State) (h : Hall) (before : List Entry) : (s.rebuild h before).grantView = s.grantView :=
  view_updClaim fun c _ => by split <;> rfl

@[simp] theorem view_dropEntry (s : State) (h : Hall) (k : CylIdx) : (s.dropEntry h k).grantView = s.grantView := by
  unfold State.dropEntry
  split <;> simp

@[simp] theorem view_updSchedule (s : State) (h : Hall) (f : Schedule → Schedule) :
    (s.updSchedule h f).grantView = s.grantView := view_updClaim fun _ _ => rfl

@[simp] theorem view_deferLine (s : State) (h : Hall) : (s.deferLine h).grantView = s.grantView := by
  simp [State.deferLine]

@[simp] theorem view_creditFired (s : State) (h : Hall) (k : CylIdx) : (s.creditFired h k).grantView = s.grantView :=
  view_updClaim fun _ _ => rfl

@[simp] theorem view_lineFired (s : State) (h : Hall) (pulsed : List CylIdx) :
    (s.lineFired h pulsed).grantView = s.grantView := by
  simp [State.lineFired]

@[simp] theorem view_abandonedClaim (s : State) (h : Hall) : (s.abandonedClaim h).grantView = s.grantView := by
  simp [State.abandonedClaim, view_updClaim]

end Sys2Proof.Machine
end

