-- ==== Sys2Proof/Proofs/GrantMoves.lean ====
section
/-! PROOFS. The operations of the Manifold Arbiter and the Claim Table as moves of the view: the end of a
grant, the grant, joins, the end of a claim, starvation, admission and holds (R49 to R68, R97 to R106). -/

namespace Sys2Proof.Machine

/-! ### Operations that lead one state to another -/

/-- `s` leads to `t`: their views do. -/
def State.Leads (admits : Prop) (s t : State) : Prop := s.grantView.Leads admits t.grantView

theorem State.Leads.trans {admits : Prop} {s t u : State} (x : s.Leads admits t) (y : t.Leads admits u) : s.Leads admits u :=
  GrantView.Leads.trans x y

theorem State.Leads.of_view {admits : Prop} {s t : State} (h : t.grantView = s.grantView) : s.Leads admits t := by
  rw [State.Leads, h]
  exact GrantView.Leads.refl _

theorem State.Leads.refl {admits : Prop} (s : State) : s.Leads admits s := .of_view rfl

/-- Only states that keep the law are to be led on. -/
theorem State.Leads.of_law {admits : Prop} {s t : State} (h : GrantLaw s → s.Leads admits t) : s.Leads admits t :=
  fun p k => h k.grantLaw p k

theorem State.Leads.law {admits : Prop} {s t : State} (x : s.Leads admits t) (g : GrantLaw s) : GrantLaw t := by
  obtain ⟨p, k⟩ := (grantLaw_iff s).1 g
  exact (grantLaw_iff t).2 (x p k).1

section
variable {admits : Prop} {s u : State} {h : Hall} {a b : ClaimState}

/-! ### One claim moves, and the arbiter with it -/

theorem leads_claim (ha : ∀ a, s.claimState h = some a → a.apart = true) (hb : b.apart = true)
    (hc : b.terminal = false → admits ∨ ∃ a, s.claimState h = some a ∧ a.mayBecome b = true)
    (hj : ∀ j, j ≠ h → u.claim j = s.claim j) (hu : u.claimState h = some b) (hm : u.manifold = s.manifold)
    (hx : u.circuits = s.circuits) : s.Leads admits u := by
  rw [State.Leads, view_put hj hu, hm, arbiterView_of_eq hm hx]
  exact GrantView.leads_restate ha hb hc

/-- A claim apart from the manifold is restated. -/
theorem leads_restated (ha : s.claimState h = some a) (hap : a.apart = true) (hb : b.apart = true) (hab : a.mayBecome b = true)
    (hj : ∀ j, j ≠ h → u.claim j = s.claim j) (hu : u.claimState h = some b) (hm : u.manifold = s.manifold)
    (hx : u.circuits = s.circuits) : s.Leads admits u :=
  leads_claim (fun _ hc => Option.some.inj (ha.symm.trans hc) ▸ hap) hb (fun _ => .inr ⟨a, ha, hab⟩) hj hu hm hx

/-- A WAITING claim that is restated leaves the wait list. -/
theorem leads_unlisted (ha : s.claimState h = some .waiting) (hb : b.apart = true) (hj : ∀ j, j ≠ h → u.claim j = s.claim j)
    (hu : u.claimState h = some b)
    (hm : u.manifold = { s.manifold with waitList := s.manifold.waitList.filter fun w => w.hall ≠ h })
    (hx : u.circuits = s.circuits) : s.Leads admits u := by
  have hw : u.manifold.waitList.map (·.hall) = s.grantView.waiters.filter (· ≠ h) := by
    rw [hm, State.grantView, List.filter_map]
    rfl
  have hsel : u.selectorCmd = s.selectorCmd := funext fun j => by simp only [State.selectorCmd, hx]
  have hv : u.arbiterView = s.arbiterView := by simp only [State.arbiterView, hm, hsel, hx]
  rw [State.Leads, view_put hj hu, hw, hv]
  exact GrantView.leads_unlist ha hb

/-! ### Venting, closing and the end of a grant (R103 to R106) -/

theorem CompareUnit.kind_load (now d : Time) (k : DeadlineKind) : (CompareUnit.load now d k).kind? = some k :=
  CompareUnit.kind_settle _ _

theorem arbiterView_enterVenting (s : State) : s.enterVenting.arbiterView = s.arbiterView.ventIt := by
  have hk : s.enterVenting.manifold.unit.kind? = some .vent := CompareUnit.kind_load _ _ _
  rw [State.arbiterView, hk]
  rfl

theorem view_enterVenting (s : State) :
    s.enterVenting.grantView = { s.grantView with arbiter := s.arbiterView.ventIt } := by
  rw [← arbiterView_enterVenting]
  exact view_of_claims (by simp) rfl

theorem view_leaveClosing (s : State) : s.leaveClosing.grantView = s.enterVenting.grantView := by
  unfold State.leaveClosing
  split <;> simp

theorem leads_enterVenting (hs : s.manifold.state = .idle ∨ s.manifold.state = .closing) : s.Leads admits s.enterVenting := by
  rw [State.Leads, view_enterVenting]
  exact GrantView.leads_vent hs

theorem leads_leaveClosing (hs : s.manifold.state = .closing) : s.Leads admits s.leaveClosing := by
  rw [State.Leads, view_leaveClosing]
  exact leads_enterVenting (.inr hs)

/-- The arbiter as the grant of hall `h` ends: CLOSING, or through it VENTING (R103, R104). -/
theorem arbiterView_endGrant (s : State) (h : Hall) :
    (s.endGrant h).arbiterView = s.arbiterView.release h ∨ (s.endGrant h).arbiterView = (s.arbiterView.release h).ventIt := by
  have hsel : (s.endGrant h).selectorCmd = Function.update s.selectorCmd h .closed :=
    funext fun j => by rw [State.endGrant_selectorCmd, Function.update_apply]
  obtain ⟨hholder, hstate, -⟩ := s.endGrant_manifold h
  obtain ⟨t, e, hlast, hvent⟩ : ∃ t : State, s.endGrant h = t.enterClosing ∧
      t.manifold.lastHall.bind t.selectorReading = s.manifold.lastHall.bind s.selectorReading ∧
      t.circuits.ventCmd = s.circuits.ventCmd := ⟨_, rfl, rfl, rfl⟩
  rw [State.enterClosing_eq, hlast] at e
  by_cases hr : s.manifold.lastHall.bind s.selectorReading = some .opened
  · rw [if_pos hr] at e hstate
    exact .inl (ArbiterView.ext hstate hholder (by rw [e]; exact CompareUnit.kind_load _ _ _) hsel (by rw [e]; exact hvent))
  · rw [if_neg hr] at e hstate
    refine .inr (ArbiterView.ext hstate hholder ?_ hsel (by rw [e]; rfl))
    rw [e, arbiterView_enterVenting]
    rfl

theorem leads_endGrant_after (ha : s.claimState h = some a) (hg : a.granted = true) (hb : b.apart = true)
    (hab : a.mayBecome b = true) (hj : ∀ j, j ≠ h → u.claim j = s.claim j) (hu : u.claimState h = some b)
    (hm : u.manifold = s.manifold) (hx : u.circuits = s.circuits) : s.Leads admits (u.endGrant h) := by
  have hcl (j : Hall) : (u.endGrant h).claim j = u.claim j := by simp [State.claim]
  have hw : (u.endGrant h).manifold.waitList = s.manifold.waitList := by rw [(u.endGrant_manifold h).2.2.1, hm]
  rw [State.Leads, view_put (fun j e => (hcl j).trans (hj j e)) (by rw [State.claimState, hcl]; exact hu), hw]
  refine GrantView.leads_release ha hg hb hab ?_
  rw [← show u.arbiterView = s.grantView.arbiter from arbiterView_of_eq hm hx]
  exact arbiterView_endGrant u h

/-! ### The wait list and the grant (R97 to R99) -/

theorem view_leaveWaitList (s : State) (h : Hall) :
    (s.leaveWaitList h).grantView = { s.grantView with waiters := s.grantView.waiters.filter (· ≠ h) } := by
  simp only [State.grantView, List.filter_map]
  rfl

/-- The manifold is granted to a hall whose claim waits (R99). -/
theorem leads_grant (hs : s.manifold.state = .idle) (hw : h ∈ s.manifold.waitList.map (·.hall)) :
    s.Leads admits (s.grant h) := fun p k => by
  have hwait : s.claimState h = some .waiting := (k.waiting h).1 hw
  have hother (j : Hall) (e : j ≠ h) : (s.grant h).claim j = s.claim j := State.updClaim_other (s.leaveWaitList h) e _
  have hself : (s.grant h).claimState h = some .selecting := by
    cases hc : s.claim h with
    | none => simp [State.claimState, hc] at hwait
    | some c => exact State.claimState_of_claim (State.claim_updClaim_of (s := s.leaveWaitList h) hc _)
  have hlist : (s.grant h).manifold.waitList.map (·.hall) = s.grantView.waiters.filter (· ≠ h) :=
    congrArg GrantView.waiters (view_leaveWaitList s h)
  have hsel : (s.grant h).selectorCmd = Function.update s.selectorCmd h .opened := funext fun j => by
    rw [Function.update_apply]
    exact State.selectorCmd_commandSelector _ h j .opened
  have harb : (s.grant h).arbiterView = s.arbiterView.grant h := ArbiterView.ext rfl rfl rfl hsel rfl
  have hv : (s.grant h).grantView = s.grantView.put h .selecting (s.grantView.waiters.filter (· ≠ h)) (s.arbiterView.grant h) := by
    rw [view_put hother hself, hlist, harb]
  rw [hv]
  exact GrantView.leads_grant hs hw p k

theorem leads_tryGrant : s.Leads admits s.tryGrant := by
  obtain ⟨-, e⟩ | ⟨w, rest, hm, hw, e⟩ := s.tryGrant_cases
  · exact .of_view (by rw [e])
  · rw [e]
    refine leads_grant ?_ (by simp [hw])
    simp only [State.mayGrant, Bool.and_eq_true, decide_eq_true_eq] at hm
    exact hm.1.1

theorem leads_clearMismatch : s.Leads admits (s.clearMismatch h) := by
  unfold State.clearMismatch
  split
  · exact .trans (.of_view (view_putMismatch s h false)) leads_tryGrant
  · exact .refl s

/-- Venting ends from VENTING, whatever its unit has become (R106). -/
theorem leads_endVenting (hs : s.manifold.state = .venting) (result : VentResult) : s.Leads admits (s.endVenting result) := by
  obtain ⟨u, hu⟩ : ∃ u, u = State.commandVent
    (s.setManifold { s.manifold with state := .idle, unit := .inhibited, lastVent := result }) .closed := ⟨_, rfl⟩
  have harb : u.arbiterView = s.arbiterView.rest := by rw [hu]; rfl
  have hv : u.grantView = { s.grantView with arbiter := s.arbiterView.rest } := by
    rw [← harb]
    exact view_of_claims (by rw [hu]; rfl) (by rw [hu]; rfl)
  have e : s.endVenting result = u.tryGrant.maintPendingEnd := by rw [hu]; rfl
  have h1 : s.Leads admits u := by
    rw [State.Leads, hv]
    exact GrantView.leads_rest hs
  rw [e]
  exact (h1.trans leads_tryGrant).trans (.of_view (view_maintPendingEnd _))

theorem leads_arbiterEdge (v : Valve) : s.Leads admits (s.arbiterEdge h v) := by
  unfold State.arbiterEdge
  cases v with
  | opened => exact .of_view (view_testMismatch s h)
  | closed =>
    dsimp only
    split
    · next hc => exact (leads_leaveClosing hc.1).trans leads_clearMismatch
    · exact leads_clearMismatch

/-! ### Joins (R97) -/

theorem waiters_place (s : State) (h : Hall) :
    ((s.place h s.now).manifold.waitList.map (·.hall)).Perm (h :: s.manifold.waitList.map (·.hall)) := by
  obtain ⟨before, after, h1, h2, -⟩ := s.waitList_place h
  rw [h1, h2]
  simp

/-- A claim whose countdown is over, or that is given cylinders in STARVED, waits and is placed (R55, R86). -/
theorem leads_place (ha : s.claimState h = some a) (hs : a = .countdown ∨ a = .starved)
    (hj : ∀ j, j ≠ h → u.claim j = s.claim j) (hu : u.claimState h = some .waiting) (hm : u.manifold = s.manifold)
    (hx : u.circuits = s.circuits) : s.Leads admits (u.place h u.now) := by
  have hv := view_put (s := s) (t := u.place h u.now) hj hu
  have harb : (u.place h u.now).arbiterView = s.arbiterView := by
    rw [← arbiterView_of_eq hm hx]
    rfl
  rw [State.Leads, hv, harb]
  refine GrantView.leads_queue ha hs ?_
  have hp := waiters_place u h
  rw [hm] at hp
  exact hp

end

section
variable {admits : Prop} {s u : State} {h : Hall} {a b : ClaimState} {c : Claim}

/-! ### The end of a claim (R65, R68) -/

theorem ClaimState.mayBecome_of_terminal (hb : b.terminal = true) : a.mayBecome b = true := by
  simp [ClaimState.mayBecome, hb]

theorem ClaimState.apart_of_terminal (hb : b.terminal = true) : b.apart = true := by
  cases b <;> first | rfl | cases hb

/-- A claim short of FIRING that ends leaves the wait list from WAITING and the grant from SELECTING (R65). -/
theorem leads_endClaim (hc : s.claim h = some c) (hs : c.state.shortOfFiring = true) (hb : b.terminal = true)
    (reason : EndReason) : s.Leads admits (s.endClaim h b reason) := by
  obtain ⟨o, e⟩ := State.endClaim_eq hc b reason
  have hv : (s.endClaim h b reason).grantView = (s.endingClaim h c b reason).grantView := by rw [e]; simp
  refine State.Leads.trans ?_ (.of_view hv)
  obtain ⟨hx, hcl⟩ := endingClaim_rule hc b reason
  have ha := State.claimState_of_claim hc
  have hap := ClaimState.apart_of_terminal hb
  have hab : c.state.mayBecome b = true := ClaimState.mayBecome_of_terminal hb
  have hu : (s.endingClaim h c b reason).claimState h = some b := State.claimState_of_claim hcl
  cases hst : c.state <;> rw [hst] at hs ha hab <;> cases hs
  case waiting =>
    refine leads_unlisted ha hap hx.claims hu ?_ ?_ <;> simp [State.endingClaim, hst, State.leaveWaitList]
  case selecting =>
    have hw : s.endingClaim h c b reason =
        (((s.updClaim h fun c => c.ended s.now b reason).removeUnit h).setSelectorCapture h .disarmed).endGrant h := by
      simp [State.endingClaim, hst, State.withdrawGrant]
    rw [hw]
    refine leads_endGrant_after ha rfl hap hab (fun j e => State.updClaim_other s e _) ?_ rfl rfl
    exact State.claimState_of_claim (State.claim_updClaim_of hc _)
  all_goals refine leads_restated ha rfl hap hab hx.claims hu ?_ ?_ <;> simp [State.endingClaim, hst]

theorem leads_lockHall : s.Leads admits (s.lockHall h) := by
  unfold State.lockHall
  split
  · next c hc =>
    split
    · next hs => exact leads_endClaim hc hs rfl _
    · exact .refl s
  · exact .refl s

/-- What each step of a fold leads to, the fold does. -/
theorem leads_foldl {f : State → Hall → State} (hf : ∀ (s : State) h, s.Leads admits (f s h)) (hs : List Hall) (s : State) :
    s.Leads admits (hs.foldl f s) := by
  induction hs generalizing s with
  | nil => exact .refl s
  | cons h hs ih => exact (hf s h).trans (ih _)

theorem view_setPoolGains (s : State) (n : Nat) : ({ s with poolGains := n } : State).grantView = s.grantView := rfl

theorem leads_lockout : s.Leads admits s.lockout := by
  rw [State.lockout_eq]
  exact (leads_foldl (fun _ _ => leads_lockHall) allHalls s).trans (.of_view (view_setPoolGains _ _))

theorem leads_abort : s.Leads admits (s.abort h).1 := by
  unfold State.abort
  split
  · exact .refl s
  · next c hc =>
    split
    · next hs => exact leads_endClaim hc hs rfl _
    · exact .refl s

/-- A claim marked for its selector fails where it waits for the manifold or its countdown (R155). -/
theorem leads_markFaulted : s.Leads admits (s.markFaulted h) := by
  unfold State.markFaulted
  split
  · exact .refl s
  · have hf : s.Leads admits (s.setFaulted h true) := .of_view (view_setFaulted s h true)
    dsimp only
    split
    all_goals first
      | exact hf
      | next hst =>
        refine hf.trans ?_
        obtain ⟨c, hc, hcs⟩ := Option.map_eq_some_iff.1 hst
        exact leads_endClaim hc (by rw [hcs]; rfl) rfl _

/-! ### Starvation and losses (R54, R57, R82, R83, R89) -/

theorem leads_starve (hc : s.claim h = some c) (hs : c.state.toppedUp = true) : s.Leads admits (s.starve h) := by
  have ha := State.claimState_of_claim hc
  have hother (j : Hall) (e : j ≠ h) : (s.starve h).claim j = s.claim j := (s.starve_other e).1
  cases hst : c.state <;> rw [hst] at hs ha <;> cases hs
  case waiting =>
    obtain ⟨hcl, -, hm, hx, -⟩ := State.starve_of_waiting hc hst
    exact leads_unlisted ha (b := .starved) rfl hother (State.claimState_of_claim hcl) hm hx
  case selecting =>
    simp only [State.starve, hc, hst]
    refine leads_endGrant_after ha (b := .starved) rfl rfl rfl (fun j e => ?_) ?_ rfl rfl
    · exact (State.updClaim_other _ e _).trans (State.updClaim_other s e _)
    · exact State.claimState_of_claim (State.claim_updClaim_of (State.claim_updClaim_of hc _) _)
  all_goals
    rw [State.starve_of_waitless hc (by simp [hst]) (by simp [hst])]
    exact .of_view (view_updClaim fun _ _ => rfl)

theorem leads_answerLoss (before : List Entry) : s.Leads admits (s.answerLoss h before) := by
  cases hc : s.claim h with
  | none => exact .of_view (by rw [State.answerLoss, hc])
  | some c =>
    cases hs : c.state.toppedUp with
    | false => exact .of_view (by rw [State.answerLoss_of_not_toppedUp hc hs])
    | true =>
      by_cases he : c.allocation ++ s.toppedUpWith c = []
      · rw [State.answerLoss_empty hc hs before he]
        exact leads_starve hc hs
      · rw [State.answerLoss_supplied hc hs before he]
        exact .of_view (by simp)

theorem leads_removal (k : CylIdx) : s.Leads admits (s.removal h k) := by
  unfold State.removal
  split
  · exact .refl s
  · exact .trans (.of_view (view_dropEntry s h k)) (leads_answerLoss _)

theorem leads_handE (k : CylIdx) (old new : Nat) : s.Leads admits (s.handE h k old new) := by
  cases hc : s.claim h with
  | none => exact .of_view (by rw [State.handE, hc])
  | some c =>
    rw [State.handE_eq hc]
    split
    · exact .trans (.of_view (view_reallocate s h false _)) (leads_answerLoss _)
    · exact .of_view (view_reallocate s h false _)

/-! ### Admission, upgrade and holds (R49 to R64) -/

theorem leads_openClaim (hp : admits) (hc : ∀ c, s.claim h = some c → c.state.terminal = true) (basis : Basis) (asked : Bool) :
    s.Leads admits (s.openClaim h basis asked) := by
  obtain ⟨u, hu⟩ : ∃ u, u = s.setClaim h (some (newClaim basis (reservePermitted (s.hallRec h).reservePolicy asked) s.now
    (s.figures h))) := ⟨_, rfl⟩
  have hv : (s.openClaim h basis asked).grantView = u.grantView := by simp [State.openClaim, hu]
  refine State.Leads.trans ?_ (.of_view hv)
  refine leads_claim (h := h) (b := .countdown) (fun a ha => ?_) rfl (fun _ => .inl hp) (fun j e => ?_) ?_ (by rw [hu]; rfl)
    (by rw [hu]; rfl)
  · obtain ⟨c, hcl, rfl⟩ := Option.map_eq_some_iff.1 ha
    exact ClaimState.apart_of_terminal (hc c hcl)
  · rw [hu, State.claim_setClaim, if_neg e]
  · rw [hu, State.claimState, State.claim_setClaim_self]
    rfl

theorem leads_resume (hc : s.claim h = some c) (hs : c.state = .countdown ∨ c.state = .hold) (left : Nat) (source : DelaySource) :
    s.Leads admits (s.resume h left source) := by
  refine leads_restated (b := .countdown) (State.claimState_of_claim hc) ?_ rfl ?_ (fun j e => (s.resume_other e left source).1)
    (State.claimState_of_claim (State.claim_updClaim_of hc _)) (by simp) (by simp)
  all_goals obtain e | e := hs <;> rw [e] <;> rfl

theorem leads_upgrade (hc : s.claim h = some c) (hs : c.state = .countdown ∨ c.state = .hold) :
    s.Leads admits (s.upgrade h c) := by
  unfold State.upgrade
  have h1 : s.Leads admits (s.updClaim h fun c => { c with basis := .manual }) := .of_view (view_updClaim fun _ _ => rfl)
  have hc1 := State.claim_updClaim_of hc fun c => { c with basis := Basis.manual }
  dsimp only
  split
  · exact (h1.trans (leads_resume hc1 hs _ _)).trans (.of_view (view_updPort _ _ _))
  · exact (h1.trans (leads_resume hc1 hs _ _)).trans (.of_view (view_updPort _ _ _))

end

section
variable {admits : Prop} {s u : State} {h : Hall} {a b : ClaimState} {c : Claim}

/-! ### Holds (R59 to R64) -/

theorem claimState_of_view (hv : u.grantView = s.grantView) (h : Hall) : u.claimState h = s.claimState h :=
  congrFun (congrArg GrantView.claims hv) h

/-- The claim of hall `h` as it enters HOLD with `left` ms remaining, before its deadline is set (R60). -/
def State.held (s : State) (h : Hall) (left : Nat) : State :=
  s.updClaim h fun c => { c with state := .hold, remaining := some left, holdStartedAt := some s.now, readyAt := none }

theorem view_enterHold (s : State) (h : Hall) (left : Nat) : (s.enterHold h left).grantView = (s.held h left).grantView := by
  unfold State.enterHold
  dsimp only
  split <;> rfl

theorem State.claimState_held (hc : s.claim h = some c) (left : Nat) : (s.held h left).claimState h = some .hold :=
  State.claimState_of_claim (State.claim_updClaim_of hc _)

theorem leads_holdEdge : s.Leads admits (s.holdEdge h) := by
  unfold State.holdEdge
  split
  · exact .refl s
  · next c hc =>
    have ha := State.claimState_of_claim hc
    split
    · next hs =>
      rw [hs] at ha
      exact State.Leads.trans (leads_restated ha rfl rfl rfl (fun j e => State.updClaim_other s e _)
        (State.claimState_held hc _) rfl rfl) (.of_view (view_enterHold s h _))
    · next hs =>
      rw [hs] at ha
      have h1 : s.Leads admits ((s.leaveWaitList h).held h 0) :=
        leads_unlisted ha rfl (fun j e => State.updClaim_other (s.leaveWaitList h) e _)
          (State.claimState_held (s := s.leaveWaitList h) hc 0) rfl rfl
      exact h1.trans (.of_view (view_enterHold _ h 0))
    · next hs =>
      rw [hs] at ha
      obtain ⟨v, hv⟩ : ∃ v, v = s.updClaim h fun c => { c with schedule := none } := ⟨_, rfl⟩
      have hcv : v.claim h = some { c with schedule := none } := hv ▸ State.claim_updClaim_of hc _
      have hstate : (v.enterHold h 0).claimState h = some .hold :=
        (claimState_of_view (view_enterHold v h 0) h).trans (State.claimState_held hcv 0)
      rw [← hv]
      refine leads_endGrant_after ha (u := (v.enterHold h 0).setSelectorCapture h .disarmed) rfl rfl rfl (fun j e => ?_) hstate
        (by simp [hv]) (by simp [hv])
      exact (v.enterHold_other e 0).1.trans (hv ▸ State.updClaim_other s e _)
    · exact .refl s

theorem leads_endHold (hc : s.claim h = some c) (hs : c.state = .hold) : s.Leads admits (s.endHold h c) := by
  unfold State.endHold
  dsimp only
  split <;> exact leads_resume hc (.inr hs) _ _

theorem leads_holdFall : s.Leads admits (s.holdFall h) := by
  unfold State.holdFall
  split
  · next c hc =>
    split
    · next hs => exact leads_endHold hc hs
    · exact .refl s
  · exact .refl s

theorem leads_observeHold (level : Bool) : s.Leads admits (s.observeHold h level) := by
  unfold State.observeHold
  dsimp only
  split
  · split
    · exact leads_holdEdge.trans (.of_view (view_updPort _ _ _))
    · exact .of_view (view_updPort _ _ _)
  · exact .trans (.of_view (view_updPort _ _ _)) leads_holdFall

theorem leads_release (fields : Option (Basis × Bool)) (hp : s.mode = .normal → admits) : s.Leads admits (s.release h fields).1 := by
  unfold State.release
  split
  · exact .refl s
  · exact .refl s
  · exact .refl s
  · exact .refl s
  next hm =>
  split
  · exact .refl s
  split
  · exact .refl s
  split
  · exact .refl s
  next basis asked =>
  split
  · next hc => exact leads_openClaim (hp hm) (fun c hc' => by simp [hc] at hc') basis asked
  next c hc =>
  split
  · next ht => exact leads_openClaim (hp hm) (fun c' hc' => Option.some.inj (hc.symm.trans hc') ▸ ht) basis asked
  split
  · next hu =>
    refine leads_upgrade hc ?_
    simp only [isUpgrade, Bool.and_eq_true, Bool.or_eq_true, decide_eq_true_eq] at hu
    exact hu.2
  · exact .refl s

/-! ### The countdown that is over, and the starved re-evaluation (R55, R56, R86) -/

theorem State.claimState_makeWaiting (hc : s.claim h = some c) : (s.makeWaiting h).claimState h = some .waiting :=
  State.claimState_of_claim (State.claim_updClaim_of hc _)

theorem State.claim_of_claimState (ha : s.claimState h = some a) : ∃ c, s.claim h = some c ∧ c.state = a :=
  Option.map_eq_some_iff.1 ha

theorem leads_countdownOver (ha : s.claimState h = some .countdown) : s.Leads admits (s.countdownOver h) := by
  obtain ⟨u, hu⟩ : ∃ u, u = if s.holdsCylinders h then s else s.firstAllocation h := ⟨_, rfl⟩
  have hv : u.grantView = s.grantView := by
    rw [hu]
    split <;> simp
  have hau : u.claimState h = some .countdown := (claimState_of_view hv h).trans ha
  obtain ⟨c, hc, hs⟩ := State.claim_of_claimState hau
  have h1 : s.Leads admits u := .of_view hv
  rw [State.countdownOver, ← hu]
  split
  · rw [State.join_eq]
    refine (h1.trans (leads_place hau (.inl rfl) (fun j e => u.makeWaiting_other e) (State.claimState_makeWaiting hc) (by simp)
      (by simp))).trans leads_tryGrant
  · exact h1.trans (leads_restated hau rfl (b := .starved) rfl rfl (fun j e => u.updClaim_other e _)
      (State.claimState_of_claim (State.claim_updClaim_of hc _)) (by simp) (by simp))

end

end Sys2Proof.Machine
end

