-- ==== Sys2Proof/Proofs/GrantEvents.lean ====
section
/-! PROOFS. The starved re-evaluation, the Discharge Sequencer, the tables, the inputs, the expiries and the requests as moves of
the view (R86, R100 to R127, R144 to R147, R165, R185). -/

namespace Sys2Proof.Machine

section
variable {admits : Prop} {s u : State} {h : Hall} {a b : ClaimState} {c : Claim}

/-! ### The starved re-evaluation (R86) -/

/-- Where joins put their entries follows from the time and the manifold alone. -/
theorem placeAll_manifold_congr {s t : State} (hn : t.now = s.now) (hm : t.manifold = s.manifold) (hs : List Hall) :
    (t.placeAll hs).manifold = (s.placeAll hs).manifold := by
  induction hs generalizing s t with
  | nil => exact hm
  | cons j hs ih => exact ih (by simp [hn]) (by simp [State.place, hm, hn])

theorem State.placeAll_append (s : State) (hs : List Hall) (h : Hall) :
    s.placeAll (hs ++ [h]) = (s.placeAll hs).place h (s.placeAll hs).now := by
  simp [State.placeAll, List.foldl_append]

theorem placeAll_keeps (s : State) (hs : List Hall) :
    (s.placeAll hs).claims = s.claims ∧ (s.placeAll hs).circuits = s.circuits ∧ (s.placeAll hs).now = s.now := by
  rw [(s.placeAll_rule hs).1]
  exact ⟨rfl, rfl, rfl⟩

theorem view_placeAll_congr {s t : State} (hc : t.claimState = s.claimState) (hn : t.now = s.now)
    (hm : t.manifold = s.manifold) (hx : t.circuits = s.circuits) (hs : List Hall) :
    (t.placeAll hs).grantView = (s.placeAll hs).grantView := by
  obtain ⟨hct, hxt, -⟩ := placeAll_keeps t hs
  obtain ⟨hcs, hxs, -⟩ := placeAll_keeps s hs
  have hmm := placeAll_manifold_congr hn hm hs
  have harb := arbiterView_of_eq hmm (hxt.trans (hx.trans hxs.symm))
  have hcl (v : State) (w : State) (e : v.claims = w.claims) : v.claimState = w.claimState :=
    funext fun h => by simp only [State.claimState, State.claim, e]
  simp only [State.grantView, hmm, harb, hcl _ _ hct, hcl _ _ hcs, hc]

/-- One try of a re-evaluation, its joins made, leads on from the tries before it with theirs (R86). -/
theorem leads_tryStarved (acc : State × List Hall) (h : Hall) :
    (acc.1.placeAll acc.2).Leads admits ((State.tryStarved acc h).1.placeAll (State.tryStarved acc h).2) := by
  obtain ⟨s, hs⟩ := acc
  cases hc : s.claim h with
  | none => exact .of_view (by simp only [State.tryStarved, hc])
  | some c =>
    obtain ⟨u, hu⟩ : ∃ u, u = s.firstAllocation h := ⟨_, rfl⟩
    have hstates : u.claimState = s.claimState := by rw [hu]; exact congrArg GrantView.claims (view_firstAllocation s h)
    have hplaced : (u.placeAll hs).grantView = (s.placeAll hs).grantView :=
      view_placeAll_congr hstates (by simp [hu]) (by simp [hu]) (by simp [hu]) hs
    simp only [State.tryStarved, hc, ← hu]
    split
    · split
      · next hgiven =>
        simp only [Bool.and_eq_true, decide_eq_true_eq] at hgiven
        have hau : u.claimState h = some .starved := by
          rw [hstates, State.claimState_of_claim hc, hgiven.2]
        obtain ⟨cu, hcu, -⟩ := State.claim_of_claimState hau
        refine State.Leads.trans (.of_view hplaced) ?_
        rw [State.placeAll_append]
        obtain ⟨hcl, hxl, hnl⟩ := placeAll_keeps (u.makeWaiting h) hs
        obtain ⟨hcu1, hxu, -⟩ := placeAll_keeps u hs
        refine leads_place (a := .starved) ?_ (.inr rfl) (fun j e => ?_) ?_
          (placeAll_manifold_congr (by simp) (by simp) hs) (by rw [hxl, hxu]; simp)
        · rw [← hau, State.claimState, State.claim, hcu1]
          rfl
        · rw [State.claim, hcl, State.claim, hcu1]
          exact u.makeWaiting_other e
        · rw [State.claimState, State.claim, hcl]
          exact State.claimState_makeWaiting hcu
      · exact .of_view hplaced
    · exact .refl _

theorem leads_reEvaluate : s.Leads admits s.reEvaluate := by
  have keep (l : List Hall) (acc : State × List Hall) :
      (acc.1.placeAll acc.2).Leads admits ((l.foldl State.tryStarved acc).1.placeAll (l.foldl State.tryStarved acc).2) := by
    induction l generalizing acc with
    | nil => exact .refl _
    | cons h l ih => exact (leads_tryStarved acc h).trans (ih _)
  have htried : s.Leads admits (s.tried.1.placeAll s.tried.2) := keep s.order (s, [])
  rw [State.reEvaluate_eq]
  split
  · next he => rwa [List.isEmpty_iff.1 he] at htried
  · exact htried.trans leads_tryGrant

theorem leads_answerPoolGain : s.Leads admits s.answerPoolGain := by
  unfold State.answerPoolGain
  split
  · exact .refl s
  · exact .trans (.of_view (view_setPoolGains s _)) leads_reEvaluate

/-! ### The Discharge Sequencer (R100, R115 to R127) -/

theorem dischargedClaim_keeps (s : State) (h : Hall) (reason : EndReason) :
    (s.dischargedClaim h reason).manifold = s.manifold ∧ (s.dischargedClaim h reason).circuits = s.circuits ∧
      (s.dischargedClaim h reason).claims =
        (s.updClaim h fun c => { c with state := .discharged, endReason := some reason, endedAt := some s.now }).claims := by
  unfold State.dischargedClaim
  dsimp only
  split <;> simp

/-- A discharge ends with its grant (R127). -/
theorem leads_discharge_after (ha : s.claimState h = some a) (hg : a.granted = true) (hj : ∀ j, j ≠ h → u.claim j = s.claim j)
    (hc : ∃ c, u.claim h = some c) (hm : u.manifold = s.manifold) (hx : u.circuits = s.circuits) (reason : EndReason) :
    s.Leads admits (u.discharge h reason) := by
  obtain ⟨c, hc⟩ := hc
  rw [State.discharge_eq]
  obtain ⟨hdm, hdx, hdc⟩ := dischargedClaim_keeps u h reason
  refine leads_endGrant_after ha hg (b := .discharged) rfl (ClaimState.mayBecome_of_terminal rfl) (fun j e => ?_) ?_
    (hdm.trans hm) (hdx.trans hx)
  · rw [State.claim, hdc]
    exact (State.updClaim_other u e _).trans (hj j e)
  · rw [State.claimState, State.claim, hdc]
    exact State.claimState_of_claim (State.claim_updClaim_of hc _)

theorem leads_enterConfirming (ha : s.claimState h = some .firing) : s.Leads admits (s.enterConfirming h) := by
  obtain ⟨c, hc, hs⟩ := State.claim_of_claimState ha
  obtain ⟨u, hu⟩ : ∃ u, u = s.updClaim h fun c => { c with state := .confirming } := ⟨_, rfl⟩
  have hcu : u.claim h = some { c with state := .confirming } := hu ▸ State.claim_updClaim_of hc _
  simp only [State.enterConfirming, hc, ← hu]
  split
  · exact leads_discharge_after ha rfl (fun j e => hu ▸ State.updClaim_other s e _) ⟨_, hcu⟩ (by simp [hu]) (by simp [hu]) _
  · have hv : u.grantView = s.grantView.put h .confirming s.grantView.waiters s.grantView.arbiter := by
      rw [view_put (h := h) (fun j e => hu ▸ State.updClaim_other s e _) (State.claimState_of_claim hcu)]
      have hm : u.manifold = s.manifold := by simp [hu]
      rw [hm, arbiterView_of_eq hm (by simp [hu])]
      rfl
    rw [State.Leads, view_loadUnit, hv]
    exact GrantView.leads_confirm ha

theorem leads_lineCompletion (ha : s.claimState h = some .firing) : s.Leads admits (s.lineCompletion h) := by
  unfold State.lineCompletion
  split
  · exact .refl s
  · split
    · exact .refl s
    · exact leads_enterConfirming ha

theorem leads_fireLine (ha : s.claimState h = some .firing) : s.Leads admits (s.fireLine h) := by
  obtain ⟨c, hc, -⟩ := State.claim_of_claimState ha
  cases hsc : c.schedule with
  | none => exact .of_view (by simp [State.fireLine, hc, hsc])
  | some sc =>
    cases hl : sc.lines[sc.cursor]? with
    | none => exact .of_view (by simp [State.fireLine, hc, hsc, hl])
    | some line =>
      have hv := view_lineFired s h (s.pulsedOf h line)
      rw [State.fireLine_eq hc hsc hl]
      split
      · exact .trans (.of_view hv) (leads_lineCompletion ((claimState_of_view hv h).trans ha))
      · exact .of_view hv

theorem leads_beginDischarge (ha : s.claimState h = some .selecting) (t : Time) : s.Leads admits (s.beginDischarge h t) := by
  obtain ⟨c, hc, -⟩ := State.claim_of_claimState ha
  obtain ⟨u, hu⟩ : ∃ u, u = s.updClaim h fun c => { c with selectorOpenAt := some t, state := .firing, dischargeSeenAt := none } :=
    ⟨_, rfl⟩
  obtain ⟨v, hv⟩ : ∃ v, v = ((u.removeUnit h).setManifold { u.manifold with state := .discharging }).setSwitchCapture .armed :=
    ⟨_, rfl⟩
  have hcv : v.claimState h = some .firing := by
    rw [hv, hu]
    exact State.claimState_of_claim (State.claim_updClaim_of hc _)
  have hview : v.grantView = s.grantView.put h .firing s.grantView.waiters { s.arbiterView with state := .discharging } := by
    rw [view_put (s := s) (h := h) (fun j e => by rw [hv, hu]; exact State.updClaim_other s e _) hcv, hv, hu]
    rfl
  have h1 : s.Leads admits v := by
    rw [State.Leads, hview]
    exact GrantView.leads_fire ha
  rw [State.beginDischarge, ← hu]
  simpa only [hv] using h1.trans (leads_fireLine hcv)

theorem leads_lineTime (ha : s.claimState h = some .firing) : s.Leads admits (s.lineTime h) := by
  unfold State.lineTime
  split
  · exact leads_fireLine ha
  · exact .of_view (view_deferLine s h)

theorem leads_abandon (ha : s.claimState h = some .firing) : s.Leads admits (s.abandon h) := by
  rw [State.abandon_eq]
  have hv := view_abandonedClaim s h
  exact .trans (.of_view hv) (leads_enterConfirming ((claimState_of_view hv h).trans ha))

theorem leads_sequencerEdge (v : Valve) : s.Leads admits (s.sequencerEdge h v) := by
  unfold State.sequencerEdge
  split
  · next hc => exact leads_fireLine hc.2.2.1
  · exact .refl s

theorem leads_finishPulse (ha : s.claimState h = some .firing) : s.Leads admits (s.finishPulse h) := by
  unfold State.finishPulse
  dsimp only
  split
  · exact .of_view (view_updSchedule s h _)
  · split
    · refine .trans (.of_view (view_updSchedule s h _)) (.trans (.of_view (view_updSchedule _ h _)) (leads_lineCompletion ?_))
      rw [claimState_of_view (view_updSchedule _ h _), claimState_of_view (view_updSchedule _ h _), ha]
    · exact .of_view (view_updSchedule s h _)

theorem leads_pulseNormal (ha : s.claimState h = some .firing) (k : CylIdx) : s.Leads admits (s.pulseNormal h k) := by
  have hv : ((s.setDisposition k .fired).creditFired h k).grantView = s.grantView := by simp
  exact .trans (.of_view hv) (leads_finishPulse ((claimState_of_view hv h).trans ha))

theorem leads_pulseFailed (ha : s.claimState h = some .firing) (k : CylIdx) : s.Leads admits (s.pulseFailed h k) := by
  have hv : (((s.setDisposition k (.actuatorFault .pulse)).dropEntry h k).replace h (s.entryE h k)).grantView = s.grantView := by
    simp
  exact .trans (.of_view hv) (leads_finishPulse ((claimState_of_view hv h).trans ha))

theorem leads_lostToFault (k : CylIdx) : s.Leads admits (s.lostToFault h k) := by
  unfold State.lostToFault
  split
  · exact .refl s
  · split
    · exact .of_view (by simp)
    · exact leads_removal k

theorem leads_dischargeSeen (t : Time) : s.Leads admits (s.dischargeSeen h t) := by
  unfold State.dischargeSeen
  dsimp only
  split
  · exact .of_view (view_updClaim fun _ _ => rfl)
  · next hs =>
    obtain ⟨c, hc, -⟩ := State.claim_of_claimState hs
    exact leads_discharge_after hs rfl (fun j e => State.updClaim_other s e _) ⟨_, State.claim_updClaim_of hc _⟩ rfl rfl _
  · exact .refl s

end

section
variable {admits : Prop} {s u t : State} {h : Hall} {a b : ClaimState} {c : Claim}

/-! ### The Cylinder Table and the Release Circuit Bank (R14, R18, R20, R22, R151 to R155) -/

theorem leads_handOver (k : CylIdx) (valid : Bool) (old new : Cylinder) : s.Leads admits (s.handOver k valid old new) := by
  unfold State.handOver
  split
  · split
    · exact .refl s
    · split
      · exact .trans (.of_view (view_setDisposition s k _)) (leads_removal k)
      · split
        · exact leads_handE k _ _
        · exact .refl s
  · exact .of_view (view_poolGainIf s _)

theorem leads_takeSample (k : CylIdx) (p : Option Nat) : s.Leads admits (s.takeSample k p) := by
  unfold State.takeSample
  split
  · exact .refl s
  · exact .trans (.of_view (view_setCyl s k _)) (leads_handOver k _ _ _)

theorem leads_actuatorFaulted (k : CylIdx) : s.Leads admits (s.actuatorFaulted k) := by
  unfold State.actuatorFaulted
  split
  · exact .refl s
  · split
    · exact .of_view (view_setDisposition s k _)
    · exact .trans (.of_view (view_setDisposition s k _)) (leads_lostToFault k)
    · exact .refl s

theorem view_actuatorGood (s : State) (k : CylIdx) : (s.actuatorGood k).grantView = s.grantView :=
  view_of_eq (by simp) (by simp) (by simp)

theorem leads_handCheck (role : Role) (r : LineState) (third : Bool) : s.Leads admits (s.handCheck role r third) := by
  unfold State.handCheck
  split
  · split
    · exact leads_actuatorFaulted _
    · split
      · exact .of_view (view_actuatorGood s _)
      · exact .refl s
  · split
    · exact leads_markFaulted
    · split
      · exact .of_view (view_setFaulted s _ _)
      · exact .refl s
  · exact .refl s
  · exact .refl s

theorem leads_superviseChannel (c : ChanIdx) (m : LineMeasurement) : s.Leads admits (s.superviseChannel c m) := by
  unfold State.superviseChannel
  dsimp only
  split
  · exact .refl s
  · exact .trans (.of_view (view_setChannel s c _)) (leads_handCheck _ _ _)

theorem leads_handPulse (k : CylIdx) (r : LineState) : s.Leads admits (s.handPulse k r) := by
  unfold State.handPulse
  split
  · exact .refl s
  · split
    · split
      · exact .refl s
      · next hf =>
        have ha := not_not.1 hf
        split
        · exact leads_pulseNormal ha k
        · exact leads_pulseFailed ha k
    · exact .refl s

theorem leads_completePulse (c : ChanIdx) (msr : List PulseMeasurement) : s.Leads admits (s.completePulse c msr) := by
  unfold State.completePulse
  split
  · have hv (ch : Channel) : s.Leads admits (s.setChannel c ch).redrive := .of_view (by simp)
    dsimp only
    split
    · exact (hv _).trans (leads_handPulse _ _)
    · exact hv _
  · exact .refl s

/-! ### Contact inputs, captures and the manifold's samples (R100, R105 to R112, R119, R125, R144 to R147) -/

theorem leads_handSelector (v : Valve) (t : Time) : s.Leads admits (s.handSelector h v t) := by
  unfold State.handSelector
  dsimp only
  split
  · exact .trans (.of_view (view_setSelectorCapture s h _)) ((leads_arbiterEdge v).trans (leads_sequencerEdge v))
  · exact (leads_arbiterEdge v).trans (leads_sequencerEdge v)

theorem leads_selectorEdge : s.Leads admits (s.selectorEdge h) := by
  unfold State.selectorEdge
  dsimp only
  split
  · exact .refl s
  · have hv (x : Contact) : s.Leads admits (s.setSelectorContact h x) := .of_view (view_setInputs s _)
    split
    · exact (hv _).trans (leads_handSelector _ _)
    · exact hv _

@[simp] theorem view_testMismatches (s : State) (hs : List Hall) : (hs.foldl State.testMismatch s).grantView = s.grantView :=
  foldl_keeps _ State.grantView view_testMismatch hs s

theorem view_establish (s : State) : s.establish.grantView = s.grantView := by
  unfold State.establish
  simp only [view_setCtl, view_testMismatches, view_setInputs]

theorem leads_takeSelectorCapture : s.Leads admits (s.takeSelectorCapture h) := by
  unfold State.takeSelectorCapture
  split
  · exact .refl s
  · have hv : s.Leads admits (s.setSelectorCapture h .disarmed) := .of_view (view_setSelectorCapture s h _)
    dsimp only
    split
    · next hc => exact hv.trans (leads_beginDischarge (s := s.setSelectorCapture h .disarmed) hc.2.2 _)
    · exact hv

theorem leads_takeSwitchCapture : s.Leads admits s.takeSwitchCapture := by
  unfold State.takeSwitchCapture
  split
  · exact .refl s
  · have hv : s.Leads admits (s.setSwitchCapture .disarmed) := .of_view (view_setSwitchCapture s _)
    dsimp only
    split
    · exact hv.trans (leads_dischargeSeen _)
    · exact hv

theorem view_recordPressure (s : State) (p : Option Nat) : (s.recordPressure p).grantView = s.grantView := rfl

theorem leads_takeManifoldSample (p : Option Nat) : s.Leads admits (s.takeManifoldSample p) := by
  have hv : s.Leads admits (s.recordPressure p) := .of_view (view_recordPressure s p)
  unfold State.takeManifoldSample
  dsimp only
  split
  · next hs =>
    split
    · exact hv.trans (leads_endVenting (s := s.recordPressure p) hs _)
    · exact hv
  · next hs =>
    split
    · exact hv.trans (leads_enterVenting (s := s.recordPressure p) (.inl hs))
    · exact hv
  all_goals exact hv

/-! ### Expiries (R64, R102, R105, R106, R117 to R126) -/

theorem leads_takeClaimExpiry (k : DeadlineKind) (st : ClaimState) {owner : State → State}
    (ho : ∀ u : State, u.claimState h = some st → u.Leads admits (owner u)) : s.Leads admits (s.takeClaimExpiry h k st owner) := by
  obtain e | e | ⟨-, hst, e⟩ := s.takeClaimExpiry_cases h k st owner <;> rw [e]
  · exact .refl s
  · exact .of_view (view_removeUnit s h)
  · exact .trans (.of_view (view_removeUnit s h)) (ho _ hst)

/-- An expiry of the manifold unit finds the manifold in the state of its kind, and inhibits the unit (R96, R141). -/
theorem leads_takeManifoldExpiry {k : DeadlineKind} {st : ManifoldState} {owner : State → State}
    (hk : ∀ x : ManifoldState, x.deadlineKind = some k → x = st)
    (ho : s.manifold.state = st → s.Leads admits (owner (s.setManifold { s.manifold with unit := .inhibited }))) :
    s.Leads admits (s.takeManifoldExpiry k st owner) := .of_law fun g => by
  unfold State.takeManifoldExpiry
  split
  · next hr =>
    have hst : s.manifold.state = st := hk _ (g.deadline.symm.trans (CompareUnit.kind_of_raised hr))
    rw [if_pos hst]
    exact ho hst
  · exact .refl s

theorem leads_holdLimitOver : s.Leads admits (s.holdLimitOver h) := leads_holdFall.trans (.of_view (view_updPort _ _ _))

/-- A close deadline that has passed: the manifold is vented, whatever its unit has become (R105). -/
theorem leads_closeTimeout (hs : s.manifold.state = .closing) (hu : u = s.setManifold { s.manifold with unit := .inhibited }) :
    s.Leads admits u.closeTimeout := by
  have hv : u.closeTimeout.grantView = { s.grantView with arbiter := s.arbiterView.ventIt } := by
    have hvent (v : State) (hv : v.grantView = u.grantView) :
        v.leaveClosing.grantView = { s.grantView with arbiter := s.arbiterView.ventIt } := by
      rw [view_leaveClosing, view_enterVenting, show v.arbiterView = u.arbiterView from congrArg GrantView.arbiter hv, hv, hu]
      rfl
    unfold State.closeTimeout
    split
    · exact hvent _ (view_setMismatch u _)
    · exact hvent _ rfl
  rw [State.Leads, hv]
  exact GrantView.leads_vent (.inr hs)

theorem leads_ventTimeout (hs : s.manifold.state = .venting) :
    s.Leads admits ((s.setManifold { s.manifold with unit := .inhibited }).endVenting .timeout) :=
  (leads_endVenting hs .timeout).trans (.of_view rfl)

/-! ### Requests (R165, R166) -/

theorem leads_hallArrival (f : Frame) (length : Option Nat) {owner : State → Answer}
    (ho : ∀ u : State, u.mode = s.mode → u.Leads admits (owner u).state) : s.Leads admits (s.hallArrival h f length owner) := by
  unfold State.hallArrival
  split
  · exact .refl s
  dsimp only
  split
  · exact .of_view (view_updPort s h _)
  obtain ⟨u, hu⟩ : ∃ u, u = ((s.releaseFrame h f).updPort h fun p => { p with owed := true }).superviseLink h := ⟨_, rfl⟩
  have hv : u.grantView = s.grantView := by rw [hu]; rfl
  have hm : u.mode = s.mode := by rw [hu]; rfl
  rw [← hu]
  split
  · exact .trans (.of_view hv) (.of_view (view_of_eq (by simp) (by simp) (by simp)))
  · exact .trans (.of_view hv) ((ho u hm).trans (.of_view (view_of_eq (by simp) (by simp) (by simp))))

theorem leads_pollOwner (payload : Payload) : s.Leads admits (pollOwner h payload s).state := by
  unfold pollOwner
  split
  · split
    · dsimp only
      split
      · exact .trans (.of_view (view_updPort s h _)) (leads_observeHold _)
      · exact leads_observeHold _
    · exact .refl s
  · exact .refl s

theorem leads_siteArrival (f : Frame) (owner : State → SiteOutcome) : s.Leads admits (s.siteArrival f owner) :=
  .of_view (view_of_eq (by simp) (by simp) (by simp))

/-! ### Writes and modes (R181 to R186) -/

theorem leads_applyWrite (w : RecordWrite) : s.Leads admits (s.applyWrite w) := by
  obtain ⟨v, hv⟩ : ∃ v, v = (s.setImage (s.image.write w)).represent := ⟨_, rfl⟩
  have h1 : s.Leads admits v := .of_view (by rw [hv]; rfl)
  have hhand (j : Hall) (x : Option Valve) : v.Leads admits (v.openLevelWritten j x) := by
    unfold State.openLevelWritten
    split
    · split
      · exact .refl v
      · exact leads_handSelector _ _
    · exact .refl v
  have hcomm (v : State) (j : Hall) (x : Bool) : v.Leads admits (v.commissionedWritten j x) := by
    unfold State.commissionedWritten
    split
    · exact leads_clearMismatch
    · split
      · exact .of_view (view_testMismatch v j)
      · exact .refl v
  unfold State.applyWrite
  rw [← hv]
  cases w with
  | hall j r => exact (h1.trans (hhand _ _)).trans (hcomm _ _ _)
  | cylinder k _ _ _ => exact h1.trans (.of_view (view_of_eq (by simp) (by simp) (by simp)))
  | thresholds _ => exact h1.trans (.of_view (view_of_eq (by simp) (by simp) (by simp)))
  | channel c _ =>
    refine h1.trans ?_
    unfold State.roleWritten
    dsimp only
    split
    · exact .refl v
    · exact .of_view (by simp)
  | rack _ _ | designPoint _ _ | ceilingPoint _ _ | timing _ => exact h1

end

end Sys2Proof.Machine
end

