-- ==== Sys2Proof/Proofs/GrantLaw.lean ====
section
/-! PROOFS. Every command as moves of the view, and with that the grant law (R58, R96, R97, R99, R141, R150). -/

namespace Sys2Proof.Machine

theorem leads_of_eq {admits : Prop} {s t : State} (hc : t.claims = s.claims) (hm : t.manifold = s.manifold)
    (hx : t.circuits = s.circuits) : s.Leads admits t := .of_view (view_of_eq hc hm hx)

section
variable {admits : Prop} {s t : State} {h : Hall}

/-! ### Modes, samples and writes (R179 to R186) -/

theorem view_firstSample (s : State) (src : SampleSource) : (s.firstSample src).grantView = s.grantView := by
  unfold State.firstSample
  dsimp only
  split
  · split <;> rfl
  · rfl

theorem view_takeStartupExpiry (s : State) : s.takeStartupExpiry.grantView = s.grantView := by
  unfold State.takeStartupExpiry
  dsimp only
  split
  · split <;> rfl
  · rfl

theorem view_maintenanceExit (s : State) : s.maintenanceExit.grantView = s.grantView := by
  unfold State.maintenanceExit
  dsimp only
  split <;> rfl

theorem view_exitIfPending (s : State) : s.exitIfPending.grantView = s.grantView := by
  unfold State.exitIfPending
  split
  · exact view_maintenanceExit s
  · rfl

theorem leads_keyTurnedOn : s.Leads admits s.keyTurnedOn := by
  unfold State.keyTurnedOn
  dsimp only
  have hkey : s.Leads admits (s.setCtl { s.ctl with key := .on }) := .of_view (view_setCtl s _)
  split
  · exact (hkey.trans leads_lockout).trans (.of_view (view_setMode _ _))
  · exact .of_view (by simp)
  · exact .of_view (by simp)
  all_goals exact hkey

theorem leads_keyTurnedOff : s.Leads admits s.keyTurnedOff := by
  unfold State.keyTurnedOff
  dsimp only
  split
  · exact .of_view (by simp)
  · split
    · exact .of_view (by simp)
    · exact .of_view (by simp [view_maintenanceExit])
  all_goals exact .of_view (by simp)

theorem leads_completeWrite (w : RecordWrite) : s.Leads admits (s.completeWrite w) := by
  obtain ⟨u, hu⟩ : ∃ u, u = s.writeEnded.applyWrite w := ⟨_, rfl⟩
  have h1 : s.Leads admits u := by
    rw [hu]
    exact .trans (leads_of_eq (by simp) (by simp) (by simp)) (leads_applyWrite w)
  rw [State.completeWrite, ← hu]
  exact (h1.trans (.of_view (view_exitIfPending u))).trans (leads_of_eq (by simp) (by simp) (by simp))

theorem leads_completeIsolate (k : CylIdx) : s.Leads admits (s.completeIsolate k) := by
  obtain ⟨u, hu⟩ : ∃ u, u = (s.writeEnded.setImage (s.writeEnded.image.setInService k false)).isolate k := ⟨_, rfl⟩
  have h1 : s.Leads admits u := by rw [hu]; exact leads_of_eq (by simp) (by simp) (by simp)
  rw [State.completeIsolate, ← hu]
  exact (h1.trans (.of_view (view_exitIfPending u))).trans (leads_of_eq (by simp) (by simp) (by simp))

theorem view_clearFailedPulse (s : State) (k : CylIdx) : (s.clearFailedPulse k).grantView = s.grantView := rfl

theorem leads_completeRestore (k : CylIdx) : s.Leads admits (s.completeRestore k) := by
  obtain ⟨u, hu⟩ : ∃ u, u = (s.writeEnded.setImage (s.writeEnded.image.setInService k true)).clearFailedPulse k := ⟨_, rfl⟩
  have h1 : s.Leads admits u := by
    rw [hu]
    exact .trans (leads_of_eq (by simp) (by simp) (by simp)) (.of_view (view_clearFailedPulse _ k))
  have h2 : u.Leads admits (u.restore k) := leads_of_eq (by simp) (by simp) (by simp)
  rw [State.completeRestore, ← hu]
  exact ((h1.trans h2).trans (.of_view (view_exitIfPending _))).trans (leads_of_eq (by simp) (by simp) (by simp))

/-! ### Every command -/

/-- Every command but the device reset leads on, and admits claims in NORMAL alone (R49). -/
theorem leads_exec {i : Instr} (hi : i ≠ .deviceReset) (ht : exec i s = .next t) : s.Leads (s.mode = .normal) t := by
  cases i <;> cases ht
  case deviceReset => exact absurd rfl hi
  case inputEstablishment =>
    split
    · exact .of_view (view_establish s)
    · exact .refl s
  case pressureSample k _ => exact (leads_takeSample k _).trans (.of_view (view_firstSample _ _))
  case rackTemperatureSample => exact .trans (leads_of_eq (by simp) (by simp) (by simp)) (.of_view (view_firstSample _ _))
  case manifoldPressureSample => exact leads_takeManifoldSample _
  case supervisionCheck => exact leads_superviseChannel _ _
  case pulseCompletion => exact leads_completePulse _ _
  case selectorEdge => exact leads_selectorEdge
  case manifoldSwitchEdge => exact leads_of_eq (by simp) (by simp) (by simp)
  case keyOn =>
    split
    · exact .trans (leads_of_eq (by simp) (by simp) (by simp)) leads_keyTurnedOn
    · exact .refl s
  case keyOff =>
    split
    · exact .trans (leads_of_eq (by simp) (by simp) (by simp)) leads_keyTurnedOff
    · exact .refl s
  case selectorCapture => exact leads_takeSelectorCapture
  case manifoldSwitchCapture => exact leads_takeSwitchCapture
  case countdownExpiry => exact leads_takeClaimExpiry _ _ fun _ ha => leads_countdownOver ha
  case holdLimitExpiry => exact leads_takeClaimExpiry _ _ fun _ _ => leads_holdLimitOver
  case selectorOpenTimeout =>
    refine leads_takeClaimExpiry _ _ fun u ha => ?_
    obtain ⟨c, hc, hs⟩ := State.claim_of_claimState ha
    exact leads_endClaim hc (by rw [hs]; rfl) rfl _
  case nextLineExpiry =>
    split
    · exact .refl s
    · exact leads_takeClaimExpiry _ _ fun _ ha => leads_lineTime ha
  case deferralExpiry => exact leads_takeClaimExpiry _ _ fun _ ha => leads_abandon ha
  case confirmTimeout =>
    refine leads_takeClaimExpiry _ _ fun u ha => ?_
    obtain ⟨c, hc, -⟩ := State.claim_of_claimState ha
    exact leads_discharge_after ha rfl (fun _ _ => rfl) ⟨c, hc⟩ rfl rfl _
  case closeTimeout =>
    exact leads_takeManifoldExpiry (fun x hx => by cases x <;> first | rfl | cases hx) fun hs => leads_closeTimeout hs rfl
  case ventTimeout =>
    exact leads_takeManifoldExpiry (fun x hx => by cases x <;> first | rfl | cases hx) fun hs => leads_ventTimeout hs
  case startupExpiry => exact .of_view (view_takeStartupExpiry s)
  case poll => exact leads_hallArrival _ _ fun _ _ => leads_pollOwner _
  case release => exact leads_hallArrival _ _ fun u hm => leads_release _ fun hn => hm.symm.trans hn
  case abort => exact leads_hallArrival _ _ fun _ _ => leads_abort
  case latchClear => exact leads_hallArrival _ _ fun _ _ => .of_view (view_updPort _ _ _)
  case query => exact leads_hallArrival _ _ fun u _ => by rw [queryOwner_state]; exact .refl u
  case hallUnknownKind => exact leads_hallArrival _ _ fun u _ => .refl u
  case frameAbandoned p _ => cases p <;> exact .of_view rfl
  case replyTransmitted p => cases p <;> exact .of_view rfl
  case byteReceived p _ => cases p <;> exact .of_view rfl
  case sitePoll => exact leads_siteArrival _ _
  case cylinderQuery => exact leads_siteArrival _ _
  case claimQuery => exact leads_siteArrival _ _
  case commissionRead => exact leads_siteArrival _ _
  case commissionWrite => exact leads_siteArrival _ _
  case maintIsolate => exact leads_siteArrival _ _
  case maintRestore => exact leads_siteArrival _ _
  case siteUnknownKind => exact leads_siteArrival _ _
  case commissionWriteCompletion =>
    split
    · exact leads_completeWrite _
    · exact .refl s
  case maintIsolateCompletion =>
    split
    · exact leads_completeIsolate _
    · exact .refl s
  case maintRestoreCompletion =>
    split
    · exact leads_completeRestore _
    · exact .refl s
  case starvedReEvaluation => exact leads_answerPoolGain
  all_goals exact leads_of_eq (by simp) (by simp) (by simp)

/-- After a device reset no claim stands, and the manifold is at rest (R71, R95, R148). -/
theorem agrees_afterReset (s : State) : s.afterReset.grantView.Agrees .idle := by
  have hc (h : Hall) : s.afterReset.grantView.claims h = none := by
    simp [State.grantView, State.claimState, State.claim, State.afterReset, State.reset]
  have hsel : s.afterReset.selectorCmd = Phase.idle.shown.selectors := funext fun h => by
    rw [Phase.selectors_of_free rfl]
    simp [State.selectorCmd, State.afterReset, State.reset, resetCircuits]
  refine ⟨ArbiterView.ext rfl rfl rfl hsel rfl, fun h => by simp [hc], fun h => by simp [hc], List.nodup_nil, fun h => ?_⟩
  rw [hc]
  exact ⟨nofun, nofun⟩

theorem view_tick (s : State) : s.tick.grantView = s.grantView := by
  have hk : s.tick.manifold.unit.kind? = s.manifold.unit.kind? := CompareUnit.kind_settle _ _
  have hv : s.tick.arbiterView = s.arbiterView := by
    rw [State.arbiterView, hk]
    rfl
  rw [view_of_claims (s := s) (t := s.tick) rfl rfl, hv]
  rfl

end

theorem GrantLaw.of_view {s t : State} (g : GrantLaw s) (hv : t.grantView = s.grantView) : GrantLaw t := by
  rw [grantLaw_iff, hv]
  exact (grantLaw_iff s).1 g

/-- Settles O5: the grant law is agreement of the view with a phase of the manifold, and every command leads from one such
view to another. -/
theorem grantLawKept : Obligations.GrantLawKept := by
  unfold Obligations.GrantLawKept
  intro s t g ht
  rcases step_cases ht with ⟨i, rest, -, he⟩ | rfl | rfl
  · have hg : GrantLaw { s with pending := rest } := g.of_view rfl
    by_cases hi : i = .deviceReset
    · subst hi
      cases he
      exact (agrees_afterReset _).grantLaw
    · exact (leads_exec hi he).law hg
  · exact g.of_view (view_tick s)
  · exact g.of_view rfl

end Sys2Proof.Machine
end

