-- ==== Sys2Proof/Proofs/ModeLaw.lean ====
section
/-! PROOFS. The claims that a mode admits, the commands' changes of mode, and the mode law (R68, R181, R182). -/

namespace Sys2Proof.Machine

/-! ### The claims that a mode admits (R68, R182) -/

/-- The claims of the view may stand in mode `m`. -/
def GrantView.Admissible (v : GrantView) (m : Mode) : Prop :=
  ∀ h b, v.claims h = some b →
    (b.terminal = false → m = .normal ∨ m = .maintPending) ∧ (b.shortOfFiring = true → m = .normal)

theorem State.nonTerminal_iff (s : State) (h : Hall) :
    s.nonTerminal h = true ↔ ∃ b, s.claimState h = some b ∧ b.terminal = false := by
  cases hc : s.claim h <;> simp [State.nonTerminal, State.claimState, hc]

theorem modeLaw_iff (s : State) : ModeLaw s ↔ s.grantView.Admissible s.mode := by
  refine ⟨fun l h b hb => ⟨fun ht => l.quiet h ((s.nonTerminal_iff h).2 ⟨b, hb, ht⟩), l.locked h b hb⟩, fun a => ⟨?_, ?_⟩⟩
  · intro h hn
    obtain ⟨b, hb, ht⟩ := (s.nonTerminal_iff h).1 hn
    exact (a h b hb).1 ht
  · exact fun h b hb => (a h b hb).2

theorem ClaimState.terminal_of_short {b : ClaimState} (hb : b.shortOfFiring = true) : b.terminal = false := by
  cases b <;> first | rfl | cases hb

namespace GrantView

variable {v w : GrantView} {m : Mode}

/-- With no claim standing every mode will do. -/
theorem admissible_of_quiet (hq : ∀ h b, v.claims h = some b → b.terminal = true) (m : Mode) : v.Admissible m := fun h b hb => by
  have ht := hq h b hb
  refine ⟨fun hf => ?_, fun hs => ?_⟩
  · rw [ht] at hf
    cases hf
  · rw [ClaimState.terminal_of_short hs] at ht
    cases ht

/-- In the modes closed to claims none stands. -/
theorem Admissible.quiet (k : v.Admissible m) (hm : m ≠ .normal ∧ m ≠ .maintPending) (h : Hall) (b : ClaimState)
    (hb : v.claims h = some b) : b.terminal = true := by
  by_contra ht
  obtain e | e := (k h b hb).1 (by simpa using ht)
  · exact hm.1 e
  · exact hm.2 e

/-- Claims that are no newer may stand where those before them might. -/
theorem Admissible.calm (k : v.Admissible m) (c : v.Calm (m = .normal) w) : w.Admissible m := fun h b hb => by
  refine ⟨fun ht => ?_, fun hs => ?_⟩
  · obtain e | ⟨a, ha, hab⟩ := c h b hb ht
    · exact .inl e
    · refine (k h a ha).1 ?_
      cases a <;> cases b <;> simp_all [ClaimState.mayBecome, ClaimState.terminal]
  · obtain e | ⟨a, ha, hab⟩ := c h b hb (ClaimState.terminal_of_short hs)
    · exact e
    · refine (k h a ha).2 ?_
      cases a <;> cases b <;> simp_all [ClaimState.mayBecome, ClaimState.terminal, ClaimState.shortOfFiring]

end GrantView

/-- What a command may do to the mode: leave it, leave no claim, or change one in which none stands. -/
def ModeChange (s t : State) : Prop :=
  t.mode = s.mode ∨ t.noClaimLeft = true ∨ (s.mode ≠ .normal ∧ s.mode ≠ .maintPending)

theorem quiet_of_noClaimLeft {s : State} (h : s.noClaimLeft = true) (j : Hall) (b : ClaimState) (hb : s.claimState j = some b) :
    b.terminal = true := by
  have hj : (!s.nonTerminal j) = true := List.all_eq_true.1 h j (mem_allHalls j)
  by_contra ht
  rw [(s.nonTerminal_iff j).2 ⟨b, hb, by simpa using ht⟩] at hj
  cases hj

theorem modeLaw_of_leads {s t : State} (g : GrantLaw s) (l : ModeLaw s) (x : s.Leads (s.mode = .normal) t)
    (hm : ModeChange s t) : ModeLaw t := by
  obtain ⟨p, k⟩ := (grantLaw_iff s).1 g
  have a : t.grantView.Admissible s.mode := ((modeLaw_iff s).1 l).calm (x p k).2
  rw [modeLaw_iff]
  obtain e | hn | hq := hm
  · rwa [e]
  · exact GrantView.admissible_of_quiet (quiet_of_noClaimLeft hn) _
  · exact GrantView.admissible_of_quiet (a.quiet hq) _

/-! ### The commands' changes of mode -/

section
variable {s t : State}

theorem ModeChange.of_ctl (h : t.ctl = s.ctl) : ModeChange s t := .inl (mode_of_ctl h)

theorem State.noClaimLeft_congr (h : t.claims = s.claims) : t.noClaimLeft = s.noClaimLeft := by
  simp only [State.noClaimLeft, State.nonTerminal, State.claim, h]

theorem modeChange_maintPendingEnd (h : t.ctl = s.ctl) : ModeChange s t.maintPendingEnd := by
  obtain e | ⟨-, -, hn, -⟩ := t.maintPendingEnd_cases
  · rw [e]
    exact .of_ctl h
  · exact .inr (.inl ((State.noClaimLeft_congr (by simp)).trans hn))

theorem modeChange_endVenting (h : t.ctl = s.ctl) (result : VentResult) : ModeChange s (t.endVenting result) :=
  modeChange_maintPendingEnd (by simp [h])

theorem modeChange_takeManifoldSample (s : State) (p : Option Nat) : ModeChange s (s.takeManifoldSample p) := by
  unfold State.takeManifoldSample
  dsimp only
  split
  · split
    · exact modeChange_endVenting (by simp) _
    · exact .of_ctl (by simp)
  · split
    · exact .of_ctl (by simp)
    · exact .of_ctl (by simp)
  all_goals exact .of_ctl (by simp)

theorem modeChange_firstSample (h : t.ctl = s.ctl) (src : SampleSource) : ModeChange s (t.firstSample src) := by
  unfold State.firstSample
  split
  · next hs => exact .inr (.inr (by rw [← mode_of_ctl h, hs.1]; exact ⟨nofun, nofun⟩))
  · exact .of_ctl h

theorem modeChange_takeStartupExpiry (s : State) : ModeChange s s.takeStartupExpiry := by
  unfold State.takeStartupExpiry
  dsimp only
  split
  · split
    · next hs => exact .inr (.inr (by rw [hs]; exact ⟨nofun, nofun⟩))
    · exact .inl rfl
  · exact .inl rfl

/-- A completion of a write comes in MAINTENANCE (R184, R186). -/
theorem ProgrammingLaw.modeChange (p : ProgrammingLaw s) {w : WriteInProgress} (hw : s.store.write = some w) (t : State) :
    ModeChange s t := .inr (.inr (by rw [p.maintenance hw]; exact ⟨nofun, nofun⟩))

/-- Every command but the key's edges and the device reset changes the mode in one of these ways. -/
theorem exec_modeChange {i : Instr} (p : ProgrammingLaw s) (hi : i ≠ .deviceReset) (hon : i ≠ .keyOn) (hoff : i ≠ .keyOff)
    (ht : exec i s = .next t) : ModeChange s t := by
  cases i <;> cases ht
  case deviceReset => exact absurd rfl hi
  case keyOn => exact absurd rfl hon
  case keyOff => exact absurd rfl hoff
  case inputEstablishment =>
    split
    · exact .inl (by simp [State.establish, State.mode])
    · exact .inl rfl
  case pressureSample => exact modeChange_firstSample (by simp) _
  case rackTemperatureSample => exact modeChange_firstSample (by simp) _
  case manifoldPressureSample => exact modeChange_takeManifoldSample s _
  case pulseCompletion => exact .of_ctl (by simp [State.completePulse_ctl])
  case selectorEdge => exact .of_ctl (by simp [State.selectorEdge_ctl])
  case selectorCapture => exact .of_ctl (by simp [State.takeSelectorCapture_ctl])
  case manifoldSwitchCapture => exact .of_ctl (by simp [State.takeSwitchCapture_ctl])
  case countdownExpiry => exact .of_ctl (takeClaimExpiry_ctl _ _ _ _ fun s => by simp)
  case holdLimitExpiry => exact .of_ctl (takeClaimExpiry_ctl _ _ _ _ fun s => by simp)
  case selectorOpenTimeout => exact .of_ctl (takeClaimExpiry_ctl _ _ _ _ fun s => by simp)
  case nextLineExpiry =>
    split
    · exact .inl rfl
    · exact .of_ctl (takeClaimExpiry_ctl _ _ _ _ fun s => s.lineTime_ctl _)
  case deferralExpiry => exact .of_ctl (takeClaimExpiry_ctl _ _ _ _ fun s => s.abandon_ctl _)
  case confirmTimeout => exact .of_ctl (takeClaimExpiry_ctl _ _ _ _ fun s => s.discharge_ctl _ _)
  case closeTimeout =>
    obtain e | e | ⟨-, -, e⟩ := s.takeManifoldExpiry_cases .close .closing State.closeTimeout <;> rw [e]
    · exact .inl rfl
    · exact .inl rfl
    · exact .of_ctl (by simp)
  case ventTimeout =>
    obtain e | e | ⟨-, -, e⟩ := s.takeManifoldExpiry_cases .vent .venting fun s => s.endVenting .timeout <;> rw [e]
    · exact .inl rfl
    · exact .inl rfl
    · exact modeChange_endVenting rfl _
  case startupExpiry => exact modeChange_takeStartupExpiry s
  case poll => exact .of_ctl (hallArrival_ctl _ _ _ _ (pollOwner_ctl _ _))
  case release => exact .of_ctl (hallArrival_ctl _ _ _ _ (releaseOwner_ctl _ _))
  case abort => exact .of_ctl (hallArrival_ctl _ _ _ _ (abortOwner_ctl _))
  case latchClear => exact .of_ctl (hallArrival_ctl _ _ _ _ fun s => rfl)
  case query => exact .of_ctl (hallArrival_ctl _ _ _ _ fun s => by rw [queryOwner_state])
  case hallUnknownKind => exact .of_ctl (hallArrival_ctl _ _ _ _ fun s => rfl)
  case frameAbandoned p _ => cases p <;> exact .inl rfl
  case replyTransmitted p => cases p <;> exact .inl rfl
  case byteReceived p _ => cases p <;> exact .inl rfl
  case commissionWriteCompletion =>
    split
    · next hw => exact p.modeChange hw _
    · exact .inl rfl
  case maintIsolateCompletion =>
    split
    · next hw => exact p.modeChange hw _
    · exact .inl rfl
  case maintRestoreCompletion =>
    split
    · next hw => exact p.modeChange hw _
    · exact .inl rfl
  all_goals exact .of_ctl (by simp)

end

section
variable {s t : State}

/-! ### The key's edges (R68, R181, R183) -/

/-- Hall `h`'s claim is short of FIRING. -/
def State.shortAt (s : State) (h : Hall) : Prop := ∃ b, s.claimState h = some b ∧ b.shortOfFiring = true

/-- The LOCKOUT ends a claim short of FIRING at its hall, and makes none (R68). -/
theorem shortAt_lockHall {h j : Hall} (hs : (s.lockHall h).shortAt j) : s.shortAt j ∧ j ≠ h := by
  have hother (e : j ≠ h) : (s.lockHall h).claim j = s.claim j := by
    unfold State.lockHall
    split
    · split
      · exact (s.endClaim_other e _ _).1
      · rfl
    · rfl
  by_cases e : j = h
  · subst e
    obtain ⟨b, hb, hsb⟩ := hs
    unfold State.lockHall at hb
    split at hb
    · next c hc =>
      split at hb
      · obtain ⟨o, ho⟩ := State.endClaim_eq hc .aborted .abortedLockout
        have hv : (s.endClaim j .aborted .abortedLockout).grantView = (s.endingClaim j c .aborted .abortedLockout).grantView := by
          rw [ho]; simp
        rw [claimState_of_view hv, State.claimState_of_claim (endingClaim_rule hc _ _).2] at hb
        cases hb
        cases hsb
      · next hn =>
        rw [State.claimState_of_claim hc] at hb
        cases hb
        exact absurd hsb hn
    · next hc => simp [State.claimState, hc] at hb
  · refine ⟨?_, e⟩
    obtain ⟨b, hb, hsb⟩ := hs
    exact ⟨b, by rwa [State.claimState, hother e] at hb, hsb⟩

theorem shortAt_foldl_lockHall {hs : List Hall} {j : Hall} (h : (hs.foldl State.lockHall s).shortAt j) : s.shortAt j ∧ j ∉ hs := by
  induction hs generalizing s with
  | nil => exact ⟨h, nofun⟩
  | cons k ks ih =>
    obtain ⟨h1, h2⟩ := ih h
    obtain ⟨h3, h4⟩ := shortAt_lockHall h1
    exact ⟨h3, by simp [h2, h4]⟩

/-- After the LOCKOUT no claim is short of FIRING (R68). -/
theorem not_shortAt_lockout (s : State) (j : Hall) : ¬ s.lockout.shortAt j := by
  rintro ⟨b, hb, hs⟩
  rw [State.lockout_eq, claimState_of_view (view_setPoolGains _ _)] at hb
  exact (shortAt_foldl_lockHall ⟨b, hb, hs⟩).2 (mem_allHalls j)

/-- Claims firing or confirming may stand in MAINT_PENDING, and with none of them every mode will do. -/
theorem GrantView.admissible_of_not_short {v : GrantView} {m : Mode} (hs : ∀ h b, v.claims h = some b → b.shortOfFiring = false)
    (hf : (∀ h, v.claims h ≠ some .firing ∧ v.claims h ≠ some .confirming) ∨ m = .maintPending) : v.Admissible m := by
  refine fun h b hb => ⟨fun ht => ?_, fun hsb => ?_⟩
  · obtain hf | e := hf
    · have hn := hs h b hb
      obtain ⟨h1, h2⟩ := hf h
      rw [hb] at h1 h2
      cases b <;> simp_all [ClaimState.terminal, ClaimState.shortOfFiring]
    · exact .inr e
  · rw [hs h b hb] at hsb
    cases hsb

/-- In NORMAL the key turned ON locks out, then waits in MAINT_PENDING unless no claim fires or is confirmed (R68, R181). -/
theorem State.keyTurnedOn_normal (hn : s.mode = .normal) :
    ∃ u m, u = (s.setCtl { s.ctl with key := .on }).lockout ∧ s.keyTurnedOn = u.setMode m ∧
      ((∀ h, u.claimState h ≠ some .firing ∧ u.claimState h ≠ some .confirming) ∨ m = .maintPending) := by
  unfold State.keyTurnedOn
  rw [hn]
  refine ⟨_, _, rfl, rfl, ?_⟩
  split
  · exact .inr rfl
  · next hb =>
    refine .inl fun h => ⟨fun hc => hb (.inr ?_), fun hc => hb (.inr ?_)⟩
    all_goals exact List.any_eq_true.2 ⟨h, mem_allHalls h, by simp [hc]⟩

theorem modeLaw_keyTurnedOn (g : GrantLaw s) (l : ModeLaw s) : ModeLaw s.keyTurnedOn := by
  by_cases hn : s.mode = .normal
  · obtain ⟨u, m, hu, e, hm⟩ := State.keyTurnedOn_normal hn
    rw [e, modeLaw_iff, view_setMode, State.setMode_mode]
    refine GrantView.admissible_of_not_short (fun h b hc => ?_) hm
    by_contra hs
    have hsh : u.shortAt h := ⟨b, hc, by simpa using hs⟩
    rw [hu] at hsh
    exact not_shortAt_lockout _ h hsh
  · refine modeLaw_of_leads g l leads_keyTurnedOn ?_
    by_cases hp : s.mode = .maintPending
    · left
      unfold State.keyTurnedOn
      rw [hp]
      exact hp
    · exact .inr (.inr ⟨hn, hp⟩)

theorem modeLaw_keyTurnedOff (g : GrantLaw s) (l : ModeLaw s) : ModeLaw s.keyTurnedOff := by
  by_cases hp : s.mode = .maintPending
  · have e : s.keyTurnedOff = (s.setCtl { s.ctl with key := .off }).setMode .normal := by
      unfold State.keyTurnedOff
      rw [hp]
    rw [e, modeLaw_iff, view_setMode, view_setCtl, State.setMode_mode]
    exact fun h b hb => ⟨fun _ => .inl rfl, fun _ => rfl⟩
  · refine modeLaw_of_leads g l leads_keyTurnedOff ?_
    by_cases hn : s.mode = .normal
    · left
      unfold State.keyTurnedOff
      rw [hn]
      exact hn
    · exact .inr (.inr ⟨hn, hp⟩)

end

/-- Settles O11: no command but a release in NORMAL makes a claim newer, and no command changes to a mode closed to
the claims it leaves. -/
theorem modeLawKept : Obligations.ModeLawKept := by
  unfold Obligations.ModeLawKept
  intro s t g p l ht
  have same {s t : State} (l : ModeLaw s) (hv : t.grantView = s.grantView) (hm : t.mode = s.mode) : ModeLaw t := by
    rw [modeLaw_iff, hv, hm]
    exact (modeLaw_iff s).1 l
  rcases step_cases ht with ⟨i, rest, -, he⟩ | rfl | rfl
  · have hl : ModeLaw { s with pending := rest } := same l rfl rfl
    have hg : GrantLaw { s with pending := rest } := g.of_view rfl
    have hp : ProgrammingLaw { s with pending := rest } := ⟨p.write, p.pending, p.reply⟩
    by_cases hi : i = .deviceReset
    · subst hi
      cases he
      rw [modeLaw_iff]
      refine GrantView.admissible_of_quiet (fun h b hb => ?_) _
      simp [State.grantView, State.claimState, State.claim, State.afterReset, State.reset] at hb
    by_cases hon : i = .keyOn
    · subst hon
      cases he
      split
      · exact modeLaw_keyTurnedOn (hg.of_view (view_of_eq (by simp) (by simp) (by simp))) (same hl
          (view_of_eq (by simp) (by simp) (by simp)) (mode_of_ctl (by simp)))
      · exact hl
    by_cases hoff : i = .keyOff
    · subst hoff
      cases he
      split
      · exact modeLaw_keyTurnedOff (hg.of_view (view_of_eq (by simp) (by simp) (by simp))) (same hl
          (view_of_eq (by simp) (by simp) (by simp)) (mode_of_ctl (by simp)))
      · exact hl
    exact modeLaw_of_leads hg hl (leads_exec hi he) (exec_modeChange hp hi hon hoff he)
  · exact same l (view_tick s) rfl
  · exact same l rfl rfl

end Sys2Proof.Machine
end

