-- ==== Sys2Proof/Proofs/EndOfClaim.lean ====
section
/-! PROOFS. The end of a claim short of FIRING, whole: its record, the cylinders it gives up, and what every owner leaves
(R17, R24, R65). -/

namespace Sys2Proof.Machine

section
variable {s t : State} {h : Hall} {c : Claim} {state : ClaimState} {reason : EndReason}

/-! ### The allocation that a claim gives up as it ends (R17, R65) -/

/-- The claim `c` with nothing allocated, its flags as they were. -/
def Claim.emptied (c : Claim) : Claim := { c with allocation := [], allocatedSum := 0, shortage := c.figures.req }

/-- No flag of a claim that has ended is evaluated, and no latch asked for (R42, R81). -/
theorem State.reallocate_of_terminal (hc : s.claim h = some c) (ht : c.state.terminal = true) :
    s.reallocate h false [] = s.setClaim h (some c.emptied) := by
  have hshort : c.state.shortOfFiring = false := by
    cases hst : c.state <;> rw [hst] at ht <;> first | rfl | cases ht
  have hover : overCeilingFound c (Claim.resum { c with allocation := [] }) = false := by
    simp [overCeilingFound, Claim.resum, ht]
  have heval : shortEvaluated false c (Claim.resum { c with allocation := [] }) = false := by
    simp [shortEvaluated, Claim.resum, hshort]
  have hflag : Claim.reflag false c (Claim.resum { c with allocation := [] }) = c.emptied := by
    simp only [Claim.reflag, hover, heval]
    simp [Claim.resum, Claim.emptied, sumE]
  simp only [State.reallocate, hc, hflag, hover]
  simp [Claim.emptied]

/-- The cylinders that hall `h`'s claim `c` gives up are FREE. -/
def State.freed (s : State) (h : Hall) (c : Claim) : State :=
  (s.heldEntries h c).foldl (fun s e => s.setDisposition e.cyl .free) s

theorem State.releaseAllocation_of_terminal (hc : s.claim h = some c) (ht : c.state.terminal = true) :
    s.releaseAllocation h = ((s.freed h c).setClaim h (some c.emptied)).poolGainIf
      ((s.heldEntries h c).any fun e => (s.freed h c).eligible e.cyl) := by
  have hc1 : (s.freed h c).claim h = some c := by simpa [State.claim, State.freed] using hc
  rw [← State.reallocate_of_terminal hc1 ht, State.releaseAllocation, hc]
  rfl

theorem State.assignedTo_iff {k : CylIdx} : s.assignedTo h k = true ↔ ∃ y, s.cyl k = some y ∧ y.disposition = .assigned h := by
  cases hy : s.cyl k <;> simp [State.assignedTo, hy]

/-- A POOL GAIN follows when a cylinder given up is not EMPTY (R24). -/
theorem State.gain_iff : ((s.heldEntries h c).any fun e => (s.freed h c).eligible e.cyl) = true ↔
    ∃ e ∈ c.allocation, ∃ y, s.cyl e.cyl = some y ∧ y.disposition = .assigned h ∧ y.condition ≠ .empty := by
  have hcyl (e : Entry) (he : e ∈ s.heldEntries h c) :
      (s.freed h c).cyl e.cyl = (s.cyl e.cyl).map fun y => { y with disposition := .free } := by
    rw [State.freed, State.cyl_foldl_setDisposition, if_pos (List.mem_map_of_mem he)]
  rw [List.any_eq_true]
  constructor
  · rintro ⟨e, he, hel⟩
    obtain ⟨hm, ha⟩ := List.mem_filter.1 he
    obtain ⟨y, hy, hd⟩ := State.assignedTo_iff.1 ha
    rw [State.eligible, hcyl e he, hy] at hel
    exact ⟨e, hm, y, hy, hd, by simpa [eligibleRecord] using hel⟩
  · rintro ⟨e, hm, y, hy, hd, hne⟩
    have he : e ∈ s.heldEntries h c := List.mem_filter.2 ⟨hm, State.assignedTo_iff.2 ⟨y, hy, hd⟩⟩
    refine ⟨e, he, ?_⟩
    rw [State.eligible, hcyl e he, hy]
    simpa [eligibleRecord] using hne

/-! ### The end of a claim, whole (R65) -/

/-- Between `s` and `t` hall `h`'s claim `c`, short of FIRING, has ended, in the steps of R65. -/
structure Ended (s t : State) (h : Hall) (c : Claim) (state : ClaimState) (reason : EndReason) : Prop where
  claim : t.claim h = some (c.ended s.now state reason).emptied
  deadline : t.unit h = .inhibited
  order : t.order = s.order.filter fun j => j ≠ h
  cyls : ∀ k, t.cyl k = if (∃ e ∈ c.allocation, e.cyl = k) ∧ s.assignedTo h k = true then
    (s.cyl k).map fun y => { y with disposition := .free } else s.cyl k
  gain : t.poolGains = s.poolGains + if ∃ e ∈ c.allocation, ∃ y, s.cyl e.cyl = some y ∧
    y.disposition = .assigned h ∧ y.condition ≠ .empty then 1 else 0
  port : t.port h = (s.setLatch h (endLatch reason)).port h
  stands : c.state ≠ .waiting → c.state ≠ .selecting →
    t.manifold = s.manifold ∧ t.circuits = s.circuits ∧ t.captures = s.captures
  unlisted : c.state = .waiting →
    t.manifold = { s.manifold with waitList := s.manifold.waitList.filter fun w => w.hall ≠ h } ∧
      t.circuits = s.circuits ∧ t.captures = s.captures
  withdrawn : c.state = .selecting → s.manifold.lastHall = some h →
    GrantWithdrawn s t h ∧ t.manifold.waitList = s.manifold.waitList ∧ ∀ j, j ≠ h → t.selectorCmd j = s.selectorCmd j
  others : ∀ j, j ≠ h → t.claim j = s.claim j ∧ t.unit j = s.unit j ∧ t.port j = s.port j
  only : t = { s with claims := t.claims, units := t.units, order := t.order, cyls := t.cyls, poolGains := t.poolGains
                      manifold := t.manifold, circuits := t.circuits, captures := t.captures, ports := t.ports }

theorem endingClaim_manifold (s : State) (h : Hall) (c : Claim) (state : ClaimState) (reason : EndReason) :
    let u := s.endingClaim h c state reason
    (c.state ≠ .waiting → c.state ≠ .selecting →
      u.manifold = s.manifold ∧ u.circuits = s.circuits ∧ u.captures = s.captures) ∧
    (c.state = .waiting →
      u.manifold = { s.manifold with waitList := s.manifold.waitList.filter fun w => w.hall ≠ h } ∧
        u.circuits = s.circuits ∧ u.captures = s.captures) ∧
    (c.state = .selecting → s.manifold.lastHall = some h →
      GrantWithdrawn s u h ∧ u.manifold.waitList = s.manifold.waitList ∧ ∀ j, j ≠ h → u.selectorCmd j = s.selectorCmd j) := by
  refine ⟨fun hw hs => ?_, fun hw => ?_, fun hs hl => ?_⟩
  · simp [State.endingClaim, hw, hs]
  · simp [State.endingClaim, hw, State.leaveWaitList]
  · obtain ⟨v, hv⟩ : ∃ v, v = (s.updClaim h fun c => c.ended s.now state reason).removeUnit h := ⟨_, rfl⟩
    have e : s.endingClaim h c state reason = v.withdrawGrant h := by simp [State.endingClaim, hs, hv]
    have hm : v.manifold = s.manifold := by simp [hv]
    rw [e]
    refine ⟨(grantWithdrawn_withdrawGrant (hm ▸ hl)).congr (by rw [hv]; rfl), ?_, fun j hj => ?_⟩
    · rw [State.withdrawGrant, (State.endGrant_manifold _ h).2.2.1]
      exact congrArg Manifold.waitList hm
    · rw [State.withdrawGrant, State.endGrant_selectorCmd, if_neg hj, hv]
      rfl

theorem endingClaim_records (s : State) (h : Hall) (c : Claim) (state : ClaimState) (reason : EndReason) :
    let u := s.endingClaim h c state reason
    u.unit h = .inhibited ∧ u.order = s.order ∧ u.poolGains = s.poolGains ∧ u.ports = s.ports ∧ u.pending = s.pending ∧
      u.now = s.now ∧ u.choices = s.choices ∧ u.ctl = s.ctl ∧ u.rackTemps = s.rackTemps ∧ u.inputs = s.inputs ∧
      u.site = s.site := by
  unfold State.endingClaim
  dsimp only
  split <;> split <;> simp [State.unit] <;> exact State.unit_removeUnit_self (s.updClaim h _) h

theorem State.endClaim_whole (hc : s.claim h = some c) (state : ClaimState) (reason : EndReason) :
    s.endClaim h state reason =
      (((s.endingClaim h c state reason).releaseAllocation h).setLatch h (endLatch reason)).setOrder
        ((((s.endingClaim h c state reason).releaseAllocation h).setLatch h (endLatch reason)).order.filter fun j => j ≠ h) := by
  simp only [State.endClaim, hc]
  rfl

theorem ended_endClaim (hc : s.claim h = some c) (ht : state.terminal = true) (reason : EndReason) :
    Ended s (s.endClaim h state reason) h c state reason := by
  have hothers (j : Hall) (hj : j ≠ h) := s.endClaim_other hj state reason
  have hend := State.endClaim_whole hc state reason
  obtain ⟨hx, hcu⟩ := endingClaim_rule hc state reason
  obtain ⟨hstands, hunlisted, hwithdrawn⟩ := endingClaim_manifold s h c state reason
  obtain ⟨hunit, horder, hgains, hports, -⟩ := endingClaim_records s h c state reason
  generalize s.endingClaim h c state reason = u at *
  have hcyl (k : CylIdx) : u.cyl k = s.cyl k := by rw [State.cyl, hx.cyls, State.cyl]
  have hassigned (k : CylIdx) : u.assignedTo h k = s.assignedTo h k := State.assignedTo_congr (hcyl k) h
  have hrel := State.releaseAllocation_of_terminal hcu ht
  have hcyls := State.cyl_releaseAllocation hcu
  have hgain := State.gain_iff (s := u) (h := h) (c := c.ended s.now state reason)
  simp only [hcyl, hassigned] at hcyls hgain
  have hclaim : (u.releaseAllocation h).claim h = some (c.ended s.now state reason).emptied := by
    rw [hrel]
    simpa [State.claim] using State.claim_setClaim_self (u.freed h (c.ended s.now state reason)) h _
  have hgains' : (u.releaseAllocation h).poolGains = u.poolGains +
      if ((u.heldEntries h (c.ended s.now state reason)).any fun e =>
        (u.freed h (c.ended s.now state reason)).eligible e.cyl) = true then 1 else 0 := by
    rw [hrel]
    simp [State.freed]
  have hport' : (u.releaseAllocation h).port h = s.port h := by
    rw [hrel]
    simp [State.port, State.freed, hports]
  obtain ⟨v, hv⟩ : ∃ v, v = u.releaseAllocation h := ⟨_, rfl⟩
  have hvm : v.manifold = u.manifold ∧ v.circuits = u.circuits ∧ v.captures = u.captures := by simp [hv]
  have hvu : v.unit h = .inhibited := by rw [← hunit, hv]; simp [State.unit]
  have hvo : v.order = s.order := by rw [← horder, hv]; simp
  rw [← hv] at hend hcyls hclaim hgains' hport'
  obtain ⟨hm, hx', hcap⟩ := hvm
  have hm' : (s.endClaim h state reason).manifold = u.manifold := by rw [hend]; exact hm
  have hx'' : (s.endClaim h state reason).circuits = u.circuits := by rw [hend]; exact hx'
  have hcap' : (s.endClaim h state reason).captures = u.captures := by rw [hend]; exact hcap
  refine ⟨by rw [hend]; exact hclaim, by rw [hend]; exact hvu, by rw [hend, ← hvo]; rfl, fun k => by rw [hend]; exact hcyls k,
    ?_, ?_, fun hw hs => ?_, fun hw => ?_, fun hs hl => ?_, hothers, ?_⟩
  · rw [hend, ← hgains]
    exact hgains'.trans (congrArg _ (if_congr hgain rfl rfl))
  · rw [hend, State.port_setLatch, if_pos rfl, ← hport']
    exact (State.port_setLatch v h h _).trans (if_pos rfl)
  · rw [hm', hx'', hcap']
    exact hstands hw hs
  · rw [hm', hx'', hcap']
    exact hunlisted hw
  · obtain ⟨⟨g1, g2, g3⟩, hwl, hsel⟩ := hwithdrawn hs hl
    have hcmd : (s.endClaim h state reason).selectorCmd = u.selectorCmd := funext fun j => by
      simp only [State.selectorCmd, hx'']
    rw [hm', hcmd]
    exact ⟨⟨hm' ▸ g1, hcmd ▸ g2, hcap' ▸ g3⟩, hwl, hsel⟩
  · refine State.eq_of_fields ?_ ?_ ?_ ?_ ?_ ?_ ?_ ?_ ?_ ?_ ?_ ?_ ?_ ?_ ?_ ?_ ?_ <;> simp

end

end Sys2Proof.Machine
end

