-- ==== Sys2Proof/Proofs/ReleaseClaims.lean ====
section
/-! PROOFS. Claims that end or resume: the hold limit, the selector that does not open, and ABORT
(R63 to R66, R101 to R104). -/

namespace Sys2Proof.Machine

/-! ### The hold limit that expires (R63, R64) -/

/-- An expiry that is raised in its state is given to its owner (R138). -/
theorem State.takeClaimExpiry_raised {s : State} {h : Hall} {k : DeadlineKind} {st : ClaimState} (owner : State → State)
    (hr : (s.unit h).raised s.now k = true) (hs : s.claimState h = some st) :
    s.takeClaimExpiry h k st owner = owner (s.removeUnit h) := by
  rw [State.takeClaimExpiry, if_pos hr, if_pos hs]

/-- Settles O34: with its unit removed the claim falls out of HOLD as from a poll, and the port is re-armed. -/
theorem holdLimitExpires : Obligations.HoldLimitExpires := by
  unfold Obligations.HoldLimitExpires
  intro s h cl r hc hs hr hraised
  have hst : s.claimState h = some .hold := hs ▸ State.claimState_of_claim hc
  obtain ⟨hcl, hun⟩ := State.holdFall_of_hold (s := s.removeUnit h) hc hs hr
  have hother (j : Hall) (hj : j ≠ h) := (s.removeUnit h).holdFall_other hj
  refine ⟨(s.removeUnit h).holdLimitOver h,
    congrArg _ (State.takeClaimExpiry_raised (fun s => s.holdLimitOver h) hraised hst), hcl, hun, ?_,
    fun j hj => ⟨?_, ?_, ?_⟩, ?_⟩
  · rw [State.holdLimitOver, State.port_updPort_self]
    simp [State.port]
  · exact (hother j hj).1
  · exact (hother j hj).2.trans (State.removeUnit_other s hj)
  · rw [State.holdLimitOver, State.port_updPort, if_neg hj]
    simp [State.port]
  · refine State.eq_of_fields ?_ ?_ ?_ ?_ ?_ ?_ ?_ ?_ ?_ ?_ ?_ ?_ ?_ ?_ ?_ ?_ ?_ <;> simp

/-! ### A selector that does not open (R65, R101, R102, R104) -/

section
variable {s t : State} {h : Hall} {c : Claim} {state : ClaimState} {reason : EndReason}

theorem Ended.free (x : Ended s t h c state reason) {e : Entry} (he : e ∈ c.allocation) (ha : s.assignedTo h e.cyl = true) :
    ∃ y, t.cyl e.cyl = some y ∧ y.disposition = .free := by
  obtain ⟨y, hy, -⟩ := State.assignedTo_iff.1 ha
  exact ⟨{ y with disposition := .free }, by rw [x.cyls, if_pos ⟨⟨e, he, rfl⟩, ha⟩, hy]; rfl, rfl⟩

theorem Ended.cyl (x : Ended s t h c state reason) {k : CylIdx} {y : Cylinder} (hy : s.cyl k = some y) :
    t.cyl k = some (if (∃ e ∈ c.allocation, e.cyl = k) ∧ y.disposition = .assigned h
      then { y with disposition := .free } else y) := by
  have ha : s.assignedTo h k = true ↔ y.disposition = .assigned h := by rw [State.assignedTo_of_cyl hy, decide_eq_true_eq]
  rw [x.cyls, hy]
  simp only [ha]
  split <;> rfl

theorem Ended.latch (x : Ended s t h c state reason) : (t.port h).latches.get (endLatch reason) ≠ .clear := by
  rw [x.port]
  exact s.setLatch_set h _

theorem Ended.not_mem_order (x : Ended s t h c state reason) : h ∉ t.order := by
  rw [x.order]
  simp

end

/-- Settles O35: with its unit removed the claim ends from SELECTING. -/
theorem selectorOpenTimesOut : Obligations.SelectorOpenTimesOut := by
  unfold Obligations.SelectorOpenTimesOut
  intro s h cl hc hs hlast hraised
  have hst : s.claimState h = some .selecting := hs ▸ State.claimState_of_claim hc
  obtain ⟨u, hu⟩ : ∃ u, u = (s.removeUnit h).endClaim h .failed .failedSelectorOpen := ⟨_, rfl⟩
  have hexec : exec (.selectorOpenTimeout h) s = .next u := by
    rw [hu]
    exact congrArg Host.Outcome.next
      (State.takeClaimExpiry_raised (fun s => s.endClaim h .failed .failedSelectorOpen) hraised hst)
  have x : Ended (s.removeUnit h) u h cl .failed .failedSelectorOpen := by
    rw [hu]
    exact ended_endClaim (s := s.removeUnit h) hc rfl _
  obtain ⟨⟨⟨hholder, hstate⟩, hsel, hcap⟩, -, -⟩ := x.withdrawn hs hlast
  refine ⟨u, _, hexec, x.claim, rfl, rfl, rfl, rfl, by simp [Claim.emptied, Claim.ended, hs], rfl, rfl,
    fun e he ha => x.free he ha, x.deadline, x.latch, x.not_mem_order, hholder, hsel, hcap, hstate, fun j hj => ?_⟩
  obtain ⟨hclaim, hunit, -⟩ := x.others j hj
  exact ⟨hclaim, hunit.trans (State.removeUnit_other s hj)⟩

/-! ### ABORT (R66) -/

theorem State.abort_of_none {s : State} {h : Hall} (hc : s.claim h = none) : s.abort h = (s, .noClaim) := by
  simp only [State.abort, hc]

theorem State.abort_of_short {s : State} {h : Hall} {c : Claim} (hc : s.claim h = some c) (hs : c.state.shortOfFiring = true) :
    s.abort h = (s.endClaim h .aborted .abortedByPanel, .accepted) := by
  simp only [State.abort, hc, hs, if_true]

theorem State.abort_of_late {s : State} {h : Hall} {c : Claim} (hc : s.claim h = some c) (hs : c.state.shortOfFiring = false) :
    s.abort h = (s, .tooLate) := by
  simp [State.abort, hc, hs]

/-- Between `s` and `u` nothing has changed but hall `h`'s port, of which the hold level, the re-arm flag and the latches
stand. -/
structure PortOnly (s u : State) (h : Hall) : Prop where
  rest : u = { s with ports := u.ports }
  latches : (u.port h).latches = (s.port h).latches
  hold : (u.port h).holdLevel = (s.port h).holdLevel
  reArm : (u.port h).reArm = (s.port h).reArm
  temp : (u.port h).temp = (s.port h).temp
  others : ∀ j, j ≠ h → u.port j = s.port j

theorem portOnly_hallRequested (s : State) (h : Hall) (f : Frame) : PortOnly s (s.hallRequested h f) h := by
  have e := s.port_hallRequested h f
  exact ⟨s.hallRequested_eq h f, by rw [e], by rw [e], by rw [e], by rw [e], fun j hj => s.port_hallRequested_other hj f⟩

/-- A request whose owner leaves everything is answered, and that is all (R166). -/
theorem PortOnly.answered {s u : State} {h : Hall} (p : PortOnly s u h) (kind : Byte) (result : Result) :
    ∀ t, t = u.answerHall h kind result none →
      t = { s with ports := t.ports, choices := t.choices } ∧ (∀ j, j ≠ h → t.port j = s.port j) ∧
        (t.port h).holdLevel = (s.port h).holdLevel ∧ (t.port h).reArm = (s.port h).reArm ∧
        (t.port h).temp = (s.port h).temp := by
  rintro t rfl
  have e := u.port_answerHall h kind result none
  refine ⟨?_, fun j hj => (State.port_answerHall_other u hj ..).trans (p.others j hj), ?_, ?_, ?_⟩
  · obtain ⟨ps, hps⟩ : ∃ ps, u = { s with ports := ps } := ⟨_, p.rest⟩
    rw [hps]
    rfl
  · rw [e]
    exact p.hold
  · rw [e]
    exact p.reArm
  · rw [e]
    exact p.temp

theorem ClaimState.short_iff {st : ClaimState} : st.shortOfFiring = true ↔
    st = .countdown ∨ st = .hold ∨ st = .starved ∨ st = .waiting ∨ st = .selecting := by
  cases st <;> simp [ClaimState.shortOfFiring]

theorem ClaimState.late_iff {st : ClaimState} : st.shortOfFiring = false ↔
    st = .firing ∨ st = .confirming ∨ st = .discharged ∨ st = .aborted ∨ st = .failed := by
  cases st <;> simp [ClaimState.shortOfFiring]

/-- The claim that has ended in the state of its panel's request, and the answer to it (R65, R66). -/
theorem Ended.abortedByPanel {s v t : State} {h : Hall} {c : Claim} {ps : Vector HallPort 8}
    (x : Ended { s with ports := ps } v h c .aborted .abortedByPanel)
    (ht : t = { v with ports := t.ports, choices := t.choices }) : AbortedByPanel s t h c := by
  obtain ⟨qs, n, rfl⟩ : ∃ qs n, t = { v with ports := qs, choices := n } := ⟨_, _, ht⟩
  refine ⟨x.claim, ⟨x.deadline, x.order⟩, fun k y hy => x.cyl hy, x.gain, fun hs => x.stands ?_ ?_, x.unlisted,
    fun hs hl => ?_⟩
  · rcases hs with e | e | e <;> rw [e] <;> nofun
  · rcases hs with e | e | e <;> rw [e] <;> nofun
  · obtain ⟨⟨hm, hsel, hcap⟩, hw, hothers⟩ := x.withdrawn hs hl
    exact ⟨⟨hm, hsel, hcap⟩, hw, hothers⟩

/-- The port of a claim that its panel has ended, before the reply: one latch is asked for, and no more. -/
theorem Ended.port_of_panel {s v : State} {h : Hall} {c : Claim} {ps : Vector HallPort 8}
    (x : Ended { s with ports := ps } v h c .aborted .abortedByPanel) (p : PortOnly s { s with ports := ps } h) :
    (v.port h).holdLevel = (s.port h).holdLevel ∧ (v.port h).reArm = (s.port h).reArm ∧
      ∀ l, (v.port h).latches.get l =
        if l = .aborted then ((s.port h).latches.get l).raise else (s.port h).latches.get l := by
  rw [x.port]
  refine ⟨?_, ?_, fun l => ?_⟩
  · rw [State.port_setLatch, if_pos rfl]
    exact p.hold
  · rw [State.port_setLatch, if_pos rfl]
    exact p.reArm
  · rw [State.get_setLatch, p.latches]
    rfl

/-- What an accepted ABORT leaves: the claim ended, and its reply, which carries the latches (R66). -/
theorem exec_abort_short {s : State} {h : Hall} {c : Claim} (hs : s.takesRequest h) (hc : s.claim h = some c)
    (hshort : c.state.shortOfFiring = true) :
    ∃ t, exec (.abort h []) s = .next t ∧ HallAnswered s t h 3 .accepted ∧ AbortedByPanel s t h c ∧
      (t.port h).holdLevel = (s.port h).holdLevel ∧ (t.port h).reArm = (s.port h).reArm ∧
      (∃ r, (t.port h).reply = some r ∧ ∀ l, r.latches.get l =
        if l = .aborted then ((s.port h).latches.get l).raise else (s.port h).latches.get l) ∧
      (∀ j, j ≠ h → t.claim j = s.claim j ∧ t.unit j = s.unit j ∧ t.port j = s.port j) ∧
      t = { s with claims := t.claims, units := t.units, order := t.order, cyls := t.cyls
                   poolGains := t.poolGains, manifold := t.manifold, circuits := t.circuits
                   captures := t.captures, ports := t.ports, choices := t.choices } := by
  obtain ⟨u, hu⟩ : ∃ u, u = s.hallRequested h { kind := 3, payload := [] } := ⟨_, rfl⟩
  have p : PortOnly s u h := hu ▸ portOnly_hallRequested s h _
  have req : Requested s u h := hu ▸ requested_hallRequested s h _
  have hcu : u.claim h = some c := by rw [hu]; exact hc
  have ht := State.hallArrival_taken hs (f := { kind := 3, payload := [] }) (length := some 0) (.inr rfl) (abortOwner h)
  have hown : abortOwner h u = { state := u.endClaim h .aborted .abortedByPanel, result := .accepted, live := none } := by
    rw [abortOwner, State.abort_of_short hcu hshort]
  rw [← hu, hown] at ht
  have x := ended_endClaim hcu (state := .aborted) rfl .abortedByPanel
  generalize u.endClaim h .aborted .abortedByPanel = v at ht x
  obtain ⟨ps, rfl⟩ : ∃ ps, u = { s with ports := ps } := ⟨_, p.rest⟩
  obtain ⟨hhold, hre, hlat⟩ := x.port_of_panel p
  have e := v.port_answerHall h 3 .accepted none
  refine ⟨_, congrArg Host.Outcome.next ht, Requested.answered (req.of_port ?_ ?_ ?_ ?_) 3 .accepted none,
    x.abortedByPanel rfl, by rw [e]; exact hhold, by rw [e]; exact hre, ⟨_, by rw [e]; rfl, hlat⟩, fun j hj => ?_, ?_⟩
  · rw [x.only]
  · rw [x.port, State.port_setLatch, if_pos rfl]
  · rw [x.port, State.port_setLatch, if_pos rfl]
  · rw [x.port, State.port_setLatch, if_pos rfl]
  · obtain ⟨hclaim, hunit, hport⟩ := x.others j hj
    exact ⟨hclaim, hunit, (State.port_answerHall_other v hj ..).trans (hport.trans (p.others j hj))⟩
  · have hv := x.only
    generalize v.claims = a1, v.units = a2, v.order = a3, v.cyls = a4, v.poolGains = a5, v.manifold = a6,
      v.circuits = a7, v.captures = a8, v.ports = a9 at hv
    subst hv
    rfl

theorem exec_abort_refused {s : State} {h : Hall} {r : Result} (hs : s.takesRequest h)
    (hr : ∀ u : State, u.claim h = s.claim h → u.abort h = (u, r)) :
    ∃ t, exec (.abort h []) s = .next t ∧ HallAnswered s t h 3 r ∧ t = { s with ports := t.ports, choices := t.choices } ∧
      (∀ j, j ≠ h → t.port j = s.port j) ∧ (t.port h).holdLevel = (s.port h).holdLevel ∧
      (t.port h).reArm = (s.port h).reArm := by
  obtain ⟨u, hu⟩ : ∃ u, u = s.hallRequested h { kind := 3, payload := [] } := ⟨_, rfl⟩
  have p : PortOnly s u h := hu ▸ portOnly_hallRequested s h _
  have req : Requested s u h := hu ▸ requested_hallRequested s h _
  have ht := State.hallArrival_taken hs (f := { kind := 3, payload := [] }) (length := some 0) (.inr rfl) (abortOwner h)
  have hown : abortOwner h u = { state := u, result := r, live := none } := by
    rw [abortOwner, hr u (by rw [hu]; rfl)]
  rw [← hu, hown] at ht
  obtain ⟨h1, h2, h3, h4, -⟩ := p.answered 3 r _ rfl
  exact ⟨_, congrArg Host.Outcome.next ht, req.answered 3 r none, h1, h2, h3, h4⟩

/-- Settles O45: the claim's state decides between the two refusals and the end of the claim. -/
theorem abortOutcome : Obligations.AbortOutcome := by
  unfold Obligations.AbortOutcome
  intro s h hs
  cases hc : s.claim h with
  | none =>
    obtain ⟨t, he, ha, ht, hj, hh, hr⟩ := exec_abort_refused (r := .noClaim) hs fun u hu => State.abort_of_none (hu.trans hc)
    refine ⟨t, he, hh, hr, fun _ => ⟨ha, ht⟩, fun cl hcl => (by cases hcl), fun j hne => ⟨?_, ?_, hj j hne⟩,
      fun _ _ => .inl ha⟩ <;> rw [ht] <;> rfl
  | some c =>
    cases hshort : c.state.shortOfFiring with
    | false =>
      obtain ⟨t, he, ha, ht, hj, hh, hr⟩ := exec_abort_refused (r := .tooLate) hs fun u hu =>
        State.abort_of_late (hu.trans hc) hshort
      refine ⟨t, he, hh, hr, fun hn => (by cases hn), fun cl hcl => ?_, fun j hne => ⟨?_, ?_, hj j hne⟩,
        fun _ _ => .inr ha⟩
      · obtain rfl := Option.some.inj hcl
        refine ⟨fun hst => ?_, fun _ => ⟨ha, ht⟩⟩
        rw [ClaimState.short_iff.2 hst] at hshort
        cases hshort
      · rw [ht]
        rfl
      · rw [ht]
        rfl
    | true =>
      obtain ⟨t, he, ha, hp, hh, hr, hreply, hj, ht⟩ := exec_abort_short hs hc hshort
      refine ⟨t, he, hh, hr, fun hn => (by cases hn), fun cl hcl => ?_, hj, fun l hm => ?_⟩
      · obtain rfl := Option.some.inj hcl
        obtain ⟨hunit, horder⟩ := hp.deadline
        refine ⟨fun _ => ⟨ha, _, hp.claim, rfl, rfl, rfl, rfl, rfl, rfl, hunit, by simp [horder], fun w hw hst => ?_, hp,
          hreply, ht⟩, fun hst => ?_⟩
        · rw [(hp.unlisted hst).1] at hw
          simpa using (List.mem_filter.1 hw).2
        · rw [ClaimState.late_iff.2 hst] at hshort
          cases hshort
      · rw [l.locked h c.state (State.claimState_of_claim hc) hshort] at hm
        rcases hm with hm | hm <;> cases hm

end Sys2Proof.Machine
end

