-- ==== Sys2Proof/Proofs/SelectorFaults.lean ====
section
/-! PROOFS. The selector-faulted mark: set by a check that reads OPEN or SHORT, cleared by a third good one (R65, R69, R153, R155). -/

namespace Sys2Proof.Machine

/-! ### Checks of SELECTOR channels (R65, R69, R153, R155) -/

section
variable {s : State} {h : Hall} {c : ChanIdx}

theorem State.selectorFaulted_setFaulted (s : State) (h j : Hall) (b : Bool) :
    (s.setFaulted h b).selectorFaulted j = if j = h then b else s.selectorFaulted j := by
  simp only [State.selectorFaulted, State.setFaulted]
  rw [Fin.getElem_fin, Vector.getElem_set]
  simp [Fin.ext_iff, eq_comm]

theorem State.energised_checked (s : State) (c : ChanIdx) (r : LineState) :
    ((s.setChannel c ((s.channel c).checked r)).channel c).energised = (s.channel c).energised := by
  rw [State.channel_setChannel, if_pos rfl]
  rfl

/-- A check of a SELECTOR channel with no pulse in progress: the channel's record, then the hall's mark (R153, R155). -/
theorem State.superviseChannel_selector (hr : s.role c = .selector h) (hp : (s.channel c).pulse = none)
    (m : LineMeasurement) {r : LineState} (hm : checkResult (s.channel c) m = r) :
    s.superviseChannel c m =
      let u := s.setChannel c ((s.channel c).checked r)
      if r = .opened ∨ r = .shorted then u.markFaulted h
      else if r = .normal ∧ (s.channel c).goodChecks = 2 then u.setFaulted h false else u := by
  simp [State.superviseChannel, hr, hp, hm, State.handCheck, thirdGoodCheck]

/-- Only COUNTDOWN, HOLD, STARVED and WAITING wait for the manifold; a claim in another state is left to its sequence
(R69). -/
def ClaimState.waits (st : ClaimState) : Prop := st = .countdown ∨ st = .hold ∨ st = .starved ∨ st = .waiting

theorem State.markFaulted_of_waits {cl : Claim} (hf : s.selectorFaulted h = false) (hc : s.claim h = some cl)
    (hw : cl.state.waits) : s.markFaulted h = (s.setFaulted h true).endClaim h .failed .failedSelectorFault := by
  have hst : (s.setFaulted h true).claimState h = some cl.state := State.claimState_of_claim hc
  rw [State.markFaulted, if_neg (by simp [hf])]
  rcases hw with e | e | e | e <;> rw [e] at hst <;> simp only [hst]

theorem State.markFaulted_of_not_waits (hf : s.selectorFaulted h = false)
    (hw : ∀ cl, s.claim h = some cl → ¬ cl.state.waits) : s.markFaulted h = s.setFaulted h true := by
  rw [State.markFaulted, if_neg (by simp [hf])]
  have hnot (st : ClaimState) (hst : (s.setFaulted h true).claimState h = some st) : ¬ st.waits := by
    obtain ⟨cl, hc, rfl⟩ := State.claim_of_claimState hst
    exact hw cl hc
  dsimp only
  split
  · exact absurd (.inl rfl) (hnot _ ‹_›)
  · exact absurd (.inr (.inl rfl)) (hnot _ ‹_›)
  · exact absurd (.inr (.inr (.inl rfl))) (hnot _ ‹_›)
  · exact absurd (.inr (.inr (.inr rfl))) (hnot _ ‹_›)
  · rfl

/-- The end of a claim that waits for the manifold leaves the release circuits. -/
theorem Ended.circuits {t : State} {cl : Claim} {state : ClaimState} {reason : EndReason} (x : Ended s t h cl state reason)
    (hw : cl.state.waits) : t.circuits = s.circuits := by
  by_cases hwait : cl.state = .waiting
  · exact (x.unlisted hwait).2.1
  · refine (x.stands hwait fun e => ?_).2.1
    rcases hw with e' | e' | e' | e' <;> rw [e] at e' <;> cases e'

/-- The release circuits of the state in which the mark has been set: the mark, and no more (R69, R155). -/
theorem State.markFaulted_circuits (hf : s.selectorFaulted h = false) :
    (s.markFaulted h).circuits = (s.setFaulted h true).circuits := by
  by_cases hw : ∃ cl, s.claim h = some cl ∧ cl.state.waits
  · obtain ⟨cl, hc, hw⟩ := hw
    rw [State.markFaulted_of_waits hf hc hw]
    exact (ended_endClaim (s := s.setFaulted h true) hc rfl _).circuits hw
  · rw [State.markFaulted_of_not_waits hf fun cl hc hcw => hw ⟨cl, hc, hcw⟩]

end

/-- Settles O23: the check's record, then the mark; a claim that waits for the manifold ends, and no other does. -/
theorem selectorFaultMark : Obligations.SelectorFaultMark := by
  unfold Obligations.SelectorFaultMark
  intro c m s h hrole hp r
  have hm : checkResult (s.channel c) m = r := rfl
  clear_value r
  have hsup := State.superviseChannel_selector hrole hp m hm
  obtain ⟨u, hu⟩ : ∃ u, u = s.setChannel c ((s.channel c).checked r) := ⟨_, rfl⟩
  have hfaulted (j : Hall) : u.selectorFaulted j = s.selectorFaulted j := by rw [hu]; rfl
  have hcircuits : u = { s with circuits := u.circuits } := by rw [hu]; rfl
  have hexec : exec (.supervisionCheck c m) s = .next (s.superviseChannel c m) := rfl
  rw [hexec, hsup, ← hu]
  refine ⟨fun hbad hf => ?_, fun hbad hf => ?_, fun hgood hcount => ?_, fun hgood hcount => ?_⟩
  · have hfu := (hfaulted h).trans hf
    have hmark (j : Hall) : (u.markFaulted h).selectorFaulted j = if j = h then true else s.selectorFaulted j := by
      rw [State.selectorFaulted, State.markFaulted_circuits hfu, ← State.selectorFaulted,
        State.selectorFaulted_setFaulted, hfaulted]
    refine ⟨_, rfl, ?_⟩
    rw [if_pos hbad]
    refine ⟨(hmark h).trans (if_pos rfl), ?_, ?_, fun cl hc => ⟨fun hw => ?_, fun hw => ?_⟩, fun j hj => ⟨?_, ?_⟩⟩
    · rw [State.markFaulted_circuits hfu, hu]
      rfl
    · rw [State.channel, State.markFaulted_circuits hfu, ← s.energised_checked c r, hu]
      rfl
    · have hcu : (u.setFaulted h true).claim h = some cl := by rw [hu]; exact hc
      have x := ended_endClaim hcu (state := .failed) rfl .failedSelectorFault
      rw [State.markFaulted_of_waits hfu hcu hw]
      refine ⟨_, x.claim, rfl, rfl, ?_, rfl, rfl, x.deadline, x.not_mem_order, x.latch⟩
      rw [hu]
      rfl
    · rw [State.markFaulted_of_not_waits hfu fun cl' hc' => ?_, hu]
      · rfl
      · obtain rfl : cl' = cl := by rw [hu] at hc'; exact Option.some.inj (hc'.symm.trans hc)
        exact hw
    · exact (u.markFaulted_other hj).1.trans (by rw [hu]; rfl)
    · exact (hmark j).trans (if_neg hj)
  · refine ⟨u, ?_, hfaulted, ?_, hcircuits⟩
    · rw [if_pos hbad, State.markFaulted, if_pos ((hfaulted h).trans hf)]
    · rw [hu, State.channel_setChannel, if_pos rfl]
      rcases hbad with e | e <;> simp [Channel.checked, e]
  · refine ⟨u.setFaulted h false, ?_, ?_, fun j hj => ?_, ?_⟩
    · simp [hgood, hcount]
    · rw [State.selectorFaulted_setFaulted, if_pos rfl]
    · rw [State.selectorFaulted_setFaulted, if_neg hj, hfaulted]
    · rw [hu]
      rfl
  · refine ⟨u, ?_, hfaulted, hcircuits⟩
    simp [hgood, hcount]

end Sys2Proof.Machine
end

