-- ==== Sys2Proof/Proofs/ReleaseChecks.lean ====
section
/-! PROOFS. RELEASE: the checks of R49, the upgrade of R53, and what is answered. -/

namespace Sys2Proof.Machine

section
variable {s u v : State} {h : Hall} {basis reserve : Byte}

/-! ### The checks of R49 -/

/-- The checks of R49 all pass: the hall may be released, and a claim it has that has not ended may be upgraded. -/
structure Releasable (s : State) (h : Hall) (basis reserve : Byte) : Prop where
  normal : s.mode = .normal
  commissioned : (s.hallRec h).commissioned = true
  sound : s.selectorFaulted h = false
  basisCode : basis.toNat ≤ 1
  reserveCode : reserve.toNat ≤ 1
  upgrades : ∀ c, s.claim h = some c → c.state.terminal = false →
    basis = 1 ∧ c.basis = .auto ∧ (c.state = .countdown ∨ c.state = .hold)

theorem releasable_of_no_refusal (hr : s.releaseRefusal h basis reserve = none) : Releasable s h basis reserve := by
  unfold State.releaseRefusal at hr
  split at hr
  · cases hr
  split at hr
  · cases hr
  split at hr
  · cases hr
  split at hr
  · cases hr
  split at hr
  · cases hr
  rename_i _ hm hcom hsel hcodes
  refine ⟨not_not.1 hm, by simpa using hcom, by simpa using hsel, by omega, by omega, fun c hc ht => ?_⟩
  simp only [hc, ht, Bool.false_eq_true, if_false] at hr
  split at hr
  · assumption
  · cases hr

theorem releaseFields_invalid (h : 1 < basis.toNat ∨ 1 < reserve.toNat) : releaseFields [basis, reserve] = none := by
  rcases h with hb | hr
  · simp only [releaseFields, yesNo_of_lt hb]
  · simp only [releaseFields, yesNo_of_lt hr]
    split <;> trivial

theorem isUpgrade_iff {c : Claim} : isUpgrade (basisOf basis) c = true ↔
    basis = 1 ∧ c.basis = .auto ∧ (c.state = .countdown ∨ c.state = .hold) := by
  by_cases h1 : basis = 1 <;> simp [isUpgrade, basisOf, h1, and_assoc]

/-- The outcome of a RELEASE whose fields are within their codes, in NORMAL, for a commissioned hall with a sound selector
(R49 check 5, R50, R52). -/
theorem State.release_of_normal (hm : s.mode = .normal) (hcom : (s.hallRec h).commissioned = true)
    (hsel : s.selectorFaulted h = false) (hb : basis.toNat ≤ 1) (hr : reserve.toNat ≤ 1) :
    s.release h (releaseFields [basis, reserve]) =
      match s.claim h with
      | none => (s.openClaim h (basisOf basis) (decide (reserve = 1)), .accepted)
      | some c =>
        if c.state.terminal then (s.openClaim h (basisOf basis) (decide (reserve = 1)), .accepted)
        else if isUpgrade (basisOf basis) c then (s.upgrade h c, .accepted)
        else (s, .duplicate) := by
  rw [releaseFields_valid hb hr, State.release, hm]
  simp only [hcom, hsel, basisOf]
  rfl

/-- A RELEASE that fails a check of R49 is refused by the first that it fails, and leaves everything. -/
theorem State.release_refused {r : Result} (hr : s.releaseRefusal h basis reserve = some r) :
    s.release h (releaseFields [basis, reserve]) = (s, r) := by
  by_cases hm : s.mode = .normal
  · cases hcom : (s.hallRec h).commissioned with
    | false => simpa [State.releaseRefusal, State.release, hm, hcom] using hr
    | true =>
      cases hsel : s.selectorFaulted h with
      | true => simpa [State.releaseRefusal, State.release, hm, hcom, hsel] using hr
      | false =>
        by_cases hcodes : 1 < basis.toNat ∨ 1 < reserve.toNat
        · rw [releaseFields_invalid hcodes]
          simpa [State.releaseRefusal, State.release, hm, hcom, hsel, hcodes] using hr
        · rw [State.release_of_normal hm hcom hsel (by omega) (by omega)]
          simp only [State.releaseRefusal, hm, hcom, hsel, if_neg hcodes] at hr
          cases hc : s.claim h with
          | none => simp [hc] at hr
          | some c =>
            simp only [hc, isUpgrade_iff] at hr ⊢
            by_cases ht : c.state.terminal = true
            · simp [ht] at hr
            · by_cases hup : basis = 1 ∧ c.basis = .auto ∧ (c.state = .countdown ∨ c.state = .hold)
              · simp [ht, hup] at hr
              · simp only [if_neg ht, if_neg hup] at hr ⊢
                rw [Option.some.inj hr]
  · cases hmode : s.mode with
    | normal => exact absurd hmode hm
    | _ => simpa [State.releaseRefusal, State.release, hmode] using hr

/-! ### The answer of a RELEASE -/

/-- An owner that leaves the lines of the ports answers the same request. -/
theorem Requested.of_lines (r : Requested s u h) (hn : v.now = u.now) (hl : lines v.ports = lines u.ports) :
    Requested s v h := by
  have e := (lines_eq_iff u v).1 hl h
  exact r.of_port hn (congrArg HallPort.owed e :) (congrArg HallPort.link e :) (congrArg HallPort.supervision e :)

/-- A RELEASE is answered with what its owner makes of it in the state that took it (R166). -/
theorem exec_release {w : State} {result : Result} (hs : s.takesRequest h)
    (hw : (s.hallRequested h { kind := 2, payload := [basis, reserve] }).release h (releaseFields [basis, reserve]) =
      (w, result)) :
    exec (.release h [basis, reserve]) s = .next (w.answerHall h 2 result none) := by
  have ht := State.hallArrival_taken hs (f := { kind := 2, payload := [basis, reserve] }) (length := some 2) (.inr rfl)
    (releaseOwner h [basis, reserve])
  rw [releaseOwner, hw] at ht
  exact congrArg Host.Outcome.next ht

/-! ### The upgrade of R53 -/

/-- What an upgrade leaves: the claim counts down the smaller of its remaining time and the manual delay, re-armed. -/
theorem State.upgrade_rule {c : Claim} (hc : s.claim h = some c) (hst : c.state = .countdown ∨ c.state = .hold) :
    let left := if c.state = .hold then c.remaining.getD 0 else (s.unit h).remaining s.now
    (s.upgrade h c).claim h = some { c with
      basis := .manual, state := .countdown, remaining := none, holdStartedAt := none
      delaySource := if left ≤ (s.hallRec h).manualDelay then .remaining else .manualDelay } ∧
    (s.upgrade h c).unit h = .load s.now (s.now + ms (min left (s.hallRec h).manualDelay)) .countdown ∧
    ((s.upgrade h c).port h).reArm = true := by
  intro left
  have hleft : (s.remainingOf h c).getD 0 = left := by
    rcases hst with e | e <;> simp [State.remainingOf, left, e]
  have resumed (n : Nat) (source : DelaySource) :
      let t := ((s.updClaim h fun c => { c with basis := .manual }).resume h n source).updPort h fun p =>
        { p with reArm := true }
      t.claim h = some { c with
        basis := .manual, state := .countdown, remaining := none, holdStartedAt := none, delaySource := source } ∧
      t.unit h = .load s.now (s.now + ms n) .countdown ∧ (t.port h).reArm = true :=
    ⟨State.claim_updClaim_of (State.claim_updClaim_of hc _) _, State.unit_loadUnit_self .., by
      rw [State.port_updPort_self]⟩
  simp only [State.upgrade, hleft]
  split
  · rename_i hle
    rw [Nat.min_eq_left hle]
    exact resumed _ _
  · rename_i hle
    rw [Nat.min_eq_right (Nat.le_of_not_le hle)]
    exact resumed _ _

/-- What an admission leaves of its claim (R50). -/
theorem openClaim_admits (s : State) (h : Hall) (basis : Basis) (asked : Bool) :
    ∃ cl, (s.openClaim h basis asked).claim h = some cl ∧ cl.state = .countdown ∧ cl.admittedAt = s.now := by
  obtain ⟨cl, x, -, -⟩ := openClaim_rule s h basis asked
  exact ⟨cl, x.claim, by rw [x.record]; rfl, by rw [x.record]; rfl⟩

end

/-- Settles O43: the request as taken leaves what the checks of R49 read, and their outcome decides what its owner does. -/
theorem releaseChecks : Obligations.ReleaseChecks := by
  unfold Obligations.ReleaseChecks
  intro s h basis reserve hs
  obtain ⟨u, hu⟩ : ∃ u, u = s.hallRequested h { kind := 2, payload := [basis, reserve] } := ⟨_, rfl⟩
  have p : PortOnly s u h := hu ▸ portOnly_hallRequested s h _
  have req : Requested s u h := hu ▸ requested_hallRequested s h _
  have hexec {w : State} {result : Result} (hw : u.release h (releaseFields [basis, reserve]) = (w, result)) :
      exec (.release h [basis, reserve]) s = .next (w.answerHall h 2 result none) := exec_release hs (hu ▸ hw)
  have hsame : u.releaseRefusal h basis reserve = s.releaseRefusal h basis reserve := by rw [hu]; rfl
  have hclaim : u.claim h = s.claim h := by rw [hu]; rfl
  have answered {w : State} (hn : w.now = u.now) (hl : lines w.ports = lines u.ports) :
      HallAnswered s (w.answerHall h 2 .accepted none) h 2 .accepted :=
    (req.of_lines hn hl).answered 2 .accepted none
  refine ⟨fun r hr => ?_, fun hr => ?_⟩
  · obtain ⟨honly, hothers, hhold, hre, htemp⟩ := p.answered 2 r _ rfl
    exact ⟨_, hexec (State.release_refused (hsame.trans hr)), req.answered 2 r none, hothers, hhold, hre, htemp, honly⟩
  · have ok := releasable_of_no_refusal (hsame.trans hr)
    have hrel := State.release_of_normal ok.normal ok.commissioned ok.sound ok.basisCode ok.reserveCode
    by_cases hlive : ∃ old, s.claim h = some old ∧ old.state.terminal = false
    · obtain ⟨old, hold, hterm⟩ := hlive
      have hup := ok.upgrades old (hclaim.trans hold) hterm
      obtain ⟨hcl, hunit, hreArm⟩ := State.upgrade_rule (hclaim.trans hold) hup.2.2
      rw [hclaim.trans hold] at hrel
      simp only [hterm, isUpgrade_iff.2 hup, Bool.false_eq_true, if_false, if_true] at hrel
      refine ⟨_, _, hexec hrel, answered (by simp) (by simp), hcl, rfl, fun old' hold' _ => ?_, fun hall => ?_⟩
      · obtain rfl := Option.some.inj (hold.symm.trans hold')
        subst hu
        exact ⟨(congrArg HallPort.reArm (State.port_answerHall _ h 2 .accepted none)).trans hreArm, hunit, rfl⟩
      · rw [hall old hold] at hterm
        cases hterm
    · have hended (old : Claim) (hold : u.claim h = some old) : old.state.terminal = true :=
        Bool.eq_true_of_not_eq_false fun ht => hlive ⟨old, hclaim.symm.trans hold, ht⟩
      obtain ⟨cl, hcl, hst, hat⟩ := openClaim_admits u h (basisOf basis) (decide (reserve = 1))
      have hopen : u.release h (releaseFields [basis, reserve]) =
          (u.openClaim h (basisOf basis) (decide (reserve = 1)), .accepted) := by
        rw [releaseFields_valid ok.basisCode ok.reserveCode, State.release_admitted ok.normal ok.commissioned ok.sound hended]
        rfl
      refine ⟨_, cl, hexec hopen, answered (by simp) (by simp), hcl, hst, fun old hold ht => ?_, fun _ => ?_⟩
      · exact absurd ⟨old, hold, ht⟩ hlive
      · rw [hat, hu]
        rfl

end Sys2Proof.Machine
end
